-- ==== Sys2Proof/Word.lean ====
section
/-! DEFINITION. The widths of the Moira CORE's data (spec/00_scope.md R6, R7; spec/10_state.md R20): a byte is 8 bits,
a word 16, a long 32. Everything the spec treats as bits is one of these three. -/

namespace Sys2Proof

/-- A byte, 8 bits (R6). -/
abbrev Byte := BitVec 8

/-- A word, 16 bits (R6): an opcode word, an extension word, a prefetch stage (`OPW`, R5). -/
abbrev Word := BitVec 16

/-- A long, 32 bits (R6): a data or address register, the pc, an unmasked address (`XLEN`, R5). -/
abbrev Long := BitVec 32

end Sys2Proof
end

