-- ==== Sys2Proof/Syntax.lean ====
section
/-! DEFINITION. The abstract syntax of the baseline ROM image: operand sizes, the twelve addressing modes, the sixteen
conditions, the index extension word, and `Instr`, one constructor per row of spec/opcode_table.json
(spec/30_encoding.md R91 to R97).

An instruction holds what its OPCODE WORD holds: the operation, the size, the addressing modes, register numbers, quick
data, condition, vector and byte displacement. Extension words (immediates, displacements, absolute addresses, index words)
are not part of it: the spec's operations take them from the prefetch pipeline while they run (R95, R127), and the pipeline may
hold a word that memory no longer holds (R361). Log entry 1. -/

namespace Sys2Proof

/-- Operand size (R7, R98). -/
inductive Size where
  | b | w | l
  deriving DecidableEq, Repr

/-- `bytes(size)` (R7). -/
def Size.bytes : Size → Nat
  | .b => 1
  | .w => 2
  | .l => 4

/-- `bits(size) = 8 * bytes(size)` (R7). -/
def Size.bits : Size → Nat
  | .b => 8
  | .w => 16
  | .l => 32

/-- A register number 0..7 of either file (R20, R21, R22); address register 7 is the active stack pointer slot. -/
abbrev RegNum := Fin 8

/-- The twelve addressing modes `M0` to `M11` by name (R93). -/
inductive Mode where
  | dn       -- M0  Dn
  | an       -- M1  An
  | ind      -- M2  (An)
  | postInc  -- M3  (An)+
  | preDec   -- M4  -(An)
  | disp     -- M5  d16(An)
  | index    -- M6  d8(An,Xn)
  | absW     -- M7  xxx.W
  | absL     -- M8  xxx.L
  | pcDisp   -- M9  d16(PC)
  | pcIndex  -- M10 d8(PC,Xn)
  | imm      -- M11 #imm
  deriving DecidableEq, Repr

/-- An effective-address field after decoding: a mode with its register number where the mode has one (R93). -/
inductive Ea where
  | dn (r : RegNum)
  | an (r : RegNum)
  | ind (r : RegNum)
  | postInc (r : RegNum)
  | preDec (r : RegNum)
  | disp (r : RegNum)
  | index (r : RegNum)
  | absW
  | absL
  | pcDisp
  | pcIndex
  | imm
  deriving DecidableEq, Repr

/-- The mode `M0`..`M11` the descriptor holds for the field (R91, R93). -/
def Ea.mode : Ea → Mode
  | .dn _ => .dn
  | .an _ => .an
  | .ind _ => .ind
  | .postInc _ => .postInc
  | .preDec _ => .preDec
  | .disp _ => .disp
  | .index _ => .index
  | .absW => .absW
  | .absL => .absL
  | .pcDisp => .pcDisp
  | .pcIndex => .pcIndex
  | .imm => .imm

/-- The condition field of `Bcc` and `DBcc`, in the order of its values 0000 to 1111 (R99, R200). -/
inductive Cond where
  | t | f | hi | ls | cc | cs | ne | eq | vc | vs | pl | mi | ge | lt | gt | le
  deriving DecidableEq, Repr

/-- Bits 15:9 of an index extension word: the index register, how much of it is used, the scale (R152). -/
structure IndexReg where
  /-- bit 15: 1 = an address register, 0 = a data register -/
  isAddr : Bool
  /-- bits 14:12 -/
  reg : RegNum
  /-- bit 11: 1 = all 32 bits, 0 = bits 15:0 sign-extended -/
  long : Bool
  /-- bits 10:9: the index is shifted left by this, so it is scaled by 1, 2, 4 or 8 -/
  scale : BitVec 2
  deriving DecidableEq, Repr

/-- How many words a base or outer displacement takes: none, one sign-extended word, or two (R153). -/
inductive DispSize where
  | none | word | long
  deriving DecidableEq, Repr

/-- The memory indirection of a full-form index word, with the size of its outer displacement (R153). -/
inductive Indirection where
  | none
  | preIndexed (od : DispSize)
  | postIndexed (od : DispSize)
  | noIndex (od : DispSize)
  deriving DecidableEq, Repr

/-- An index extension word that has a meaning: brief form (R152) or full form (R153). The reserved words of R154 are not
terms of this type. -/
inductive IndexWord where
  | brief (idx : IndexReg) (d8 : BitVec 8)
  | full (idx : IndexReg) (baseSuppressed indexSuppressed : Bool) (bd : DispSize) (ind : Indirection)
  deriving DecidableEq, Repr

/-- The instructions of the baseline image (R97), one constructor per row of spec/opcode_table.json, in the table's order.
`illegal` also stands for every opcode value that no row takes (R96, R104). -/
inductive Instr where
  | oriEa (size : Size) (ea : Ea)
  | andiEa (size : Size) (ea : Ea)
  | subi (size : Size) (ea : Ea)
  | addi (size : Size) (ea : Ea)
  | eoriEa (size : Size) (ea : Ea)
  | cmpi (size : Size) (ea : Ea)
  | oriCcr
  | oriSr
  | andiCcr
  | andiSr
  | eoriCcr
  | eoriSr
  | move (size : Size) (src dst : Ea)
  | movea (size : Size) (src : Ea) (dst : RegNum)
  | moveFromSr (ea : Ea)
  | clr (size : Size) (ea : Ea)
  | neg (size : Size) (ea : Ea)
  | moveToCcr (ea : Ea)
  | notEa (size : Size) (ea : Ea)
  | moveToSr (ea : Ea)
  | swap (dn : RegNum)
  | pea (ea : Ea)
  | extW (dn : RegNum)
  | extL (dn : RegNum)
  | tst (size : Size) (ea : Ea)
  | tas (ea : Ea)
  | illegal
  | trap (v : BitVec 4)
  | moveToUsp (an : RegNum)
  | moveFromUsp (an : RegNum)
  | reset
  | nop
  | stop
  | rte
  | rts
  | jsr (ea : Ea)
  | jmp (ea : Ea)
  | lea (ea : Ea) (an : RegNum)
  | addq (q : BitVec 3) (size : Size) (ea : Ea)
  | subq (q : BitVec 3) (size : Size) (ea : Ea)
  | dbcc (cond : Cond) (dn : RegNum)
  | bra (d8 : BitVec 8)
  | bsr (d8 : BitVec 8)
  | bcc (cond : Cond) (d8 : BitVec 8)
  | moveq (d8 : BitVec 8) (dn : RegNum)
  | orToReg (size : Size) (ea : Ea) (dn : RegNum)
  | orToMem (size : Size) (dn : RegNum) (ea : Ea)
  | subToReg (size : Size) (ea : Ea) (dn : RegNum)
  | subToMem (size : Size) (dn : RegNum) (ea : Ea)
  | suba (size : Size) (ea : Ea) (an : RegNum)
  | lineA (low : BitVec 12)
  | cmp (size : Size) (ea : Ea) (dn : RegNum)
  | cmpa (size : Size) (ea : Ea) (an : RegNum)
  | eor (size : Size) (dn : RegNum) (ea : Ea)
  | cmpm (size : Size) (ay ax : RegNum)
  | andToReg (size : Size) (ea : Ea) (dn : RegNum)
  | andToMem (size : Size) (dn : RegNum) (ea : Ea)
  | mulu (ea : Ea) (dn : RegNum)
  | muls (ea : Ea) (dn : RegNum)
  | addToReg (size : Size) (ea : Ea) (dn : RegNum)
  | addToMem (size : Size) (dn : RegNum) (ea : Ea)
  | adda (size : Size) (ea : Ea) (an : RegNum)
  | lineF (low : BitVec 12)
  deriving DecidableEq, Repr

end Sys2Proof
end

