-- ==== Sys2Proof/Config.lean ====
section
/-! DEFINITION. The implementation parameters of spec/00_scope.md R5. A parameter that the spec leaves OPEN is a field of
`Config`, which `State` carries unchanged, so that a statement about every state holds for every value of the parameter;
`Config.reference` gives each its default and the reference timing `TIMING_REF`. What the document fixes is a constant. -/

namespace Sys2Proof

/-- The eight kinds of the exception taxonomy (R300). -/
inductive ExcKind where
  | addressError | illegalOpcode | reservedOpcodeGroup | privilegeViolation
  | traceException | softwareTrap | interrupt | doubleFault
  deriving DecidableEq, Repr

/-- The operations of R256's patterns that charge `C_OP[kind, size, ea_mode]`. -/
inductive AluKind where
  | add | adda | addi | addq | sub | suba | subi | subq | neg | cmp | cmpa | cmpi
  | and | andi | or | ori | eor | eori
  deriving DecidableEq, Repr

/-- The index of one `C_OP` entry: exactly the indexes the instruction rules charge (spec/42_system.md to 45_alu.md). -/
inductive CostKey where
  | stop
  | reset
  | moveToSr
  | moveFromSr
  | moveToCcr
  | bra
  | bccTaken
  | bccNotTaken
  | bsr
  | dbccTrue
  | dbccBranch
  | dbccExpired
  | rts
  | jmp (m : Mode)
  | jsr (m : Mode)
  | lea (m : Mode)
  | pea (m : Mode)
  | tas (m : Mode)
  | move (size : Size) (src dst : Mode)
  | movea (size : Size) (src : Mode)
  | clr (size : Size) (m : Mode)
  | tst (size : Size) (m : Mode)
  | alu (kind : AluKind) (size : Size) (m : Mode)
  | cmpm (size : Size)
  | mulu (s : Word)
  | muls (s : Word)
  deriving DecidableEq, Repr

/-- One descriptor that `ROM_EXT` adds to the ROM: the opcode value it is assigned to, and the five fields of R91. Its kind is none
of the baseline's, so it is a number and nothing more: the spec gives it no semantics (R96, log entry 2). -/
structure RomExtension where
  opcode : Word
  kind : Nat
  size : Option Size
  src : Option Mode
  dst : Option Mode
  priv : Bool
  deriving DecidableEq, Repr

/-- The open parameters of R5. -/
structure Config where
  /-- `ADDR_BITS - 1`, so that every value is a legal width 1..32 (R5, D3, U21) -/
  addrBitsPred : Fin 32
  /-- `ROM_EXT`, the descriptors added to the baseline ROM image (R5, R96, D5); `romExtLegal` is the condition on it -/
  romExt : List RomExtension
  /-- `CLOCK_BIAS`, the cycle counter at power-on (R5, D4) -/
  clockBias : Int
  /-- `RESET_GPR`, what reset writes to D0..D7, A0..A6 and the user stack pointer (R5, D10) -/
  resetGpr : Long
  /-- `C_OP`, 0 where no entry is listed (R5, D18) -/
  cOp : List (CostKey × Nat)
  /-- `C_VEC`, 0 where no entry is listed (R5, D18) -/
  cVec : List (ExcKind × Nat)
  /-- `C_IDX` (R5, D18) -/
  cIdx : Nat
  /-- `C_RESET` (R5, D18) -/
  cReset : Nat
  /-- `C_IDLE` (R5, D28) -/
  cIdle : Nat
  /-- `STOP_TRACE_HOLD` (R5, D14) -/
  stopTraceHold : Bool
  deriving DecidableEq, Repr

/-- `ADDR_BITS`, 1..32 (R5). -/
def Config.addrBits (c : Config) : Nat := c.addrBitsPred.val + 1

/-- `C_OP[key]` (R5). -/
def Config.opCost (c : Config) (key : CostKey) : Nat := (c.cOp.lookup key).getD 0

/-- `C_VEC[kind]` (R5). -/
def Config.vecCost (c : Config) (kind : ExcKind) : Nat := (c.cVec.lookup kind).getD 0

/-- The defaults of R5 with the reference timing `TIMING_REF`. -/
def Config.reference : Config where
  addrBitsPred := 23
  romExt := []
  clockBias := 0
  resetGpr := 0
  cOp := []
  cVec := []
  cIdx := 0
  cReset := 0
  cIdle := 2
  stopTraceHold := true

/-- `C_BUS_SETUP`: fixed by the document (R5, R64). -/
def cBusSetup : Nat := 2

/-- `C_BUS_DONE`: fixed by the document (R5, R64). -/
def cBusDone : Nat := 2

/-- `C_ADJ`: fixed by the document (R5, R145). -/
def cAdj : Nat := 2

end Sys2Proof
end

