-- ==== Sys2Proof/WellFormed.lean ====
section
/-! DEFINITION. Which terms of `Instr` and `IndexWord` stand for an encoding: the classes of addressing modes (R94) and the
operand restrictions of the opcode map (R97, R98, R153). -/

namespace Sys2Proof

/-- Class data: all but M1 (R94). -/
def Ea.isData : Ea → Bool
  | .an _ => false
  | _ => true

/-- Class alterable: M0 to M8 (R94). -/
def Ea.isAlterable : Ea → Bool
  | .pcDisp | .pcIndex | .imm => false
  | _ => true

/-- Class data alterable: M0, M2 to M8 (R94). -/
def Ea.isDataAlterable : Ea → Bool
  | .an _ | .pcDisp | .pcIndex | .imm => false
  | _ => true

/-- Class memory alterable: M2 to M8 (R94). -/
def Ea.isMemoryAlterable : Ea → Bool
  | .dn _ | .an _ | .pcDisp | .pcIndex | .imm => false
  | _ => true

/-- Class control: M2, M5 to M10 (R94). -/
def Ea.isControl : Ea → Bool
  | .ind _ | .disp _ | .index _ | .absW | .absL | .pcDisp | .pcIndex => true
  | _ => false

/-- "no An when B": mode M1 is not valid when the size is B (R94). -/
def Ea.sizeOk : Size → Ea → Bool
  | .b, .an _ => false
  | _, _ => true

/-- The sizes of `MOVEA`, `ADDA`, `SUBA`, `CMPA`: W and L (R97, R98). -/
def Size.isWordOrLong : Size → Bool
  | .b => false
  | _ => true

/-- The conditions of `Bcc`: 0000 and 0001 are `BRA` and `BSR` (R97, R99). -/
def Cond.isBcc : Cond → Bool
  | .t | .f => false
  | _ => true

/-- The operand restrictions of the opcode map (R97). -/
def Instr.wellFormed : Instr → Bool
  | .oriEa _ ea => ea.isDataAlterable
  | .andiEa _ ea => ea.isDataAlterable
  | .subi _ ea => ea.isDataAlterable
  | .addi _ ea => ea.isDataAlterable
  | .eoriEa _ ea => ea.isDataAlterable
  | .cmpi _ ea => ea.isDataAlterable
  | .oriCcr => true
  | .oriSr => true
  | .andiCcr => true
  | .andiSr => true
  | .eoriCcr => true
  | .eoriSr => true
  | .move size src dst => src.sizeOk size && dst.isDataAlterable
  | .movea size _ _ => size.isWordOrLong
  | .moveFromSr ea => ea.isDataAlterable
  | .clr _ ea => ea.isDataAlterable
  | .neg _ ea => ea.isDataAlterable
  | .moveToCcr ea => ea.isData
  | .notEa _ ea => ea.isDataAlterable
  | .moveToSr ea => ea.isData
  | .swap _ => true
  | .pea ea => ea.isControl
  | .extW _ => true
  | .extL _ => true
  | .tst _ ea => ea.isDataAlterable
  | .tas ea => ea.isDataAlterable
  | .illegal => true
  | .trap _ => true
  | .moveToUsp _ => true
  | .moveFromUsp _ => true
  | .reset => true
  | .nop => true
  | .stop => true
  | .rte => true
  | .rts => true
  | .jsr ea => ea.isControl
  | .jmp ea => ea.isControl
  | .lea ea _ => ea.isControl
  | .addq _ size ea => ea.isAlterable && ea.sizeOk size
  | .subq _ size ea => ea.isAlterable && ea.sizeOk size
  | .dbcc _ _ => true
  | .bra _ => true
  | .bsr _ => true
  | .bcc cond _ => cond.isBcc
  | .moveq _ _ => true
  | .orToReg _ ea _ => ea.isData
  | .orToMem _ _ ea => ea.isMemoryAlterable
  | .subToReg size ea _ => ea.sizeOk size
  | .subToMem _ _ ea => ea.isMemoryAlterable
  | .suba size _ _ => size.isWordOrLong
  | .lineA _ => true
  | .cmp size ea _ => ea.sizeOk size
  | .cmpa size _ _ => size.isWordOrLong
  | .eor _ _ ea => ea.isDataAlterable
  | .cmpm _ _ _ => true
  | .andToReg _ ea _ => ea.isData
  | .andToMem _ _ ea => ea.isMemoryAlterable
  | .mulu ea _ => ea.isData
  | .muls ea _ => ea.isData
  | .addToReg size ea _ => ea.sizeOk size
  | .addToMem _ _ ea => ea.isMemoryAlterable
  | .adda size _ _ => size.isWordOrLong
  | .lineF _ => true

/-- The combinations of `IS` and `IIS` that R153 gives a meaning: with the index suppressed the indirection takes no index,
otherwise it is pre- or post-indexed. -/
def IndexWord.wellFormed : IndexWord → Bool
  | .brief _ _ => true
  | .full _ _ true _ (.preIndexed _) => false
  | .full _ _ true _ (.postIndexed _) => false
  | .full _ _ false _ (.noIndex _) => false
  | .full _ _ _ _ _ => true

end Sys2Proof
end

