-- ==== Sys2Proof/Decode.lean ====
section
/-! DEFINITION. The descriptor ROM as a decoder (spec/30_encoding.md R90 to R104, R110): the rows of the opcode map, the
lookup, the descriptor of R91, the decoder of the index extension word (spec/41_effective_address.md R152 to R154), and, after
them, the encoders, written from the same tables.

Decoding is total on the 65536 opcode values (R90): a value no row takes decodes to `illegal` (R96). -/

namespace Sys2Proof

/-! ### Fields of an opcode word -/

/-- The register number in bits `lo+2:lo` (R92). -/
def regField (w : Word) (lo : Nat) : RegNum := (w.extractLsb' lo 3).toFin

/-- The mode and register number of an effective-address field to the addressing mode; none for 111 with register 101, 110 or
111 (R93). -/
def eaOfFields (mode reg : RegNum) : Option Ea :=
  match mode.val with
  | 0 => some (.dn reg)
  | 1 => some (.an reg)
  | 2 => some (.ind reg)
  | 3 => some (.postInc reg)
  | 4 => some (.preDec reg)
  | 5 => some (.disp reg)
  | 6 => some (.index reg)
  | _ =>
    match reg.val with
    | 0 => some .absW
    | 1 => some .absL
    | 2 => some .pcDisp
    | 3 => some .pcIndex
    | 4 => some .imm
    | _ => none

/-- The operand of opcode bits 5:0 (R93). -/
def eaField (w : Word) : Option Ea := eaOfFields (regField w 3) (regField w 0)

/-- The destination operand of the `MOVE` format: mode in bits 8:6, register in bits 11:9 (R93). -/
def dstEaField (w : Word) : Option Ea := eaOfFields (regField w 6) (regField w 9)

/-- The standard size field, bits 7:6 (R98 a). -/
def sizeField (w : Word) : Option Size :=
  match (w.extractLsb' 6 2).toNat with
  | 0 => some .b
  | 1 => some .w
  | 2 => some .l
  | _ => none

/-- The size field of the `MOVE` format, bits 13:12 (R98 b). -/
def moveSizeField (w : Word) : Option Size :=
  match (w.extractLsb' 12 2).toNat with
  | 1 => some .b
  | 3 => some .w
  | 2 => some .l
  | _ => none

/-- The one-bit size field of `ADDA`, `SUBA`, `CMPA`, bit 8 (R98 c). -/
def longField (w : Word) : Size := if w.getLsbD 8 then .l else .w

/-- The condition with a given field value (R99, R200). -/
def condOfNat : Nat → Cond
  | 0 => .t
  | 1 => .f
  | 2 => .hi
  | 3 => .ls
  | 4 => .cc
  | 5 => .cs
  | 6 => .ne
  | 7 => .eq
  | 8 => .vc
  | 9 => .vs
  | 10 => .pl
  | 11 => .mi
  | 12 => .ge
  | 13 => .lt
  | 14 => .gt
  | _ => .le

/-- The condition field, bits 11:8 (R99). -/
def condField (w : Word) : Cond := condOfNat (w.extractLsb' 8 4).toNat

/-- The byte in bits 7:0: quick data of `MOVEQ`, displacement of a branch (R100). -/
def data8Field (w : Word) : BitVec 8 := w.extractLsb' 0 8

/-! ### Rows of the opcode map -/

/-- One row of the opcode map: an opcode value belongs to it when `value AND mask = pattern` and `build` accepts its size and
mode fields (R97, R110). -/
structure OpcodeRow where
  mask : Word
  pattern : Word
  build : Word → Option Instr

/-- The row takes this opcode value, as this instruction. -/
def OpcodeRow.take (r : OpcodeRow) (w : Word) : Option Instr :=
  if w &&& r.mask = r.pattern then r.build w else none

/-- A row with no field that can fail. -/
def plainRow (f : Word → Instr) (w : Word) : Option Instr := some (f w)

/-- A row with an effective address of a class. -/
def eaRow (ok : Ea → Bool) (f : Ea → Instr) (w : Word) : Option Instr :=
  match eaField w with
  | some ea => if ok ea then some (f ea) else none
  | none => none

/-- A row with a standard size field and an effective address of a class. -/
def sizeEaRow (ok : Size → Ea → Bool) (f : Size → Ea → Instr) (w : Word) : Option Instr :=
  match sizeField w, eaField w with
  | some size, some ea => if ok size ea then some (f size ea) else none
  | _, _ => none

/-- The rows of R97 for each line, that is for each value of bits 15:12, in the order of the table. -/
def rowsOfLine : Nat → List OpcodeRow
  | 0 => [
    ⟨0xFF00, 0x0000, sizeEaRow (fun _ ea => ea.isDataAlterable) .oriEa⟩,
    ⟨0xFF00, 0x0200, sizeEaRow (fun _ ea => ea.isDataAlterable) .andiEa⟩,
    ⟨0xFF00, 0x0400, sizeEaRow (fun _ ea => ea.isDataAlterable) .subi⟩,
    ⟨0xFF00, 0x0600, sizeEaRow (fun _ ea => ea.isDataAlterable) .addi⟩,
    ⟨0xFF00, 0x0A00, sizeEaRow (fun _ ea => ea.isDataAlterable) .eoriEa⟩,
    ⟨0xFF00, 0x0C00, sizeEaRow (fun _ ea => ea.isDataAlterable) .cmpi⟩,
    ⟨0xFFFF, 0x003C, plainRow fun _ => .oriCcr⟩,
    ⟨0xFFFF, 0x007C, plainRow fun _ => .oriSr⟩,
    ⟨0xFFFF, 0x023C, plainRow fun _ => .andiCcr⟩,
    ⟨0xFFFF, 0x027C, plainRow fun _ => .andiSr⟩,
    ⟨0xFFFF, 0x0A3C, plainRow fun _ => .eoriCcr⟩,
    ⟨0xFFFF, 0x0A7C, plainRow fun _ => .eoriSr⟩]
  | 1 | 2 | 3 => [
    ⟨0xC000, 0x0000, fun w =>
      match moveSizeField w, eaField w, dstEaField w with
      | some size, some src, some dst =>
        if src.sizeOk size && dst.isDataAlterable then some (.move size src dst) else none
      | _, _, _ => none⟩,
    ⟨0xC1C0, 0x0040, fun w =>
      match moveSizeField w, eaField w with
      | some size, some src => if size.isWordOrLong then some (.movea size src (regField w 9)) else none
      | _, _ => none⟩]
  | 4 => [
    ⟨0xFFC0, 0x40C0, eaRow Ea.isDataAlterable .moveFromSr⟩,
    ⟨0xFF00, 0x4200, sizeEaRow (fun _ ea => ea.isDataAlterable) .clr⟩,
    ⟨0xFF00, 0x4400, sizeEaRow (fun _ ea => ea.isDataAlterable) .neg⟩,
    ⟨0xFFC0, 0x44C0, eaRow Ea.isData .moveToCcr⟩,
    ⟨0xFF00, 0x4600, sizeEaRow (fun _ ea => ea.isDataAlterable) .notEa⟩,
    ⟨0xFFC0, 0x46C0, eaRow Ea.isData .moveToSr⟩,
    ⟨0xFFF8, 0x4840, plainRow fun w => .swap (regField w 0)⟩,
    ⟨0xFFC0, 0x4840, eaRow Ea.isControl .pea⟩,
    ⟨0xFFF8, 0x4880, plainRow fun w => .extW (regField w 0)⟩,
    ⟨0xFFF8, 0x48C0, plainRow fun w => .extL (regField w 0)⟩,
    ⟨0xFF00, 0x4A00, sizeEaRow (fun _ ea => ea.isDataAlterable) .tst⟩,
    ⟨0xFFC0, 0x4AC0, eaRow Ea.isDataAlterable .tas⟩,
    ⟨0xFFFF, 0x4AFC, plainRow fun _ => .illegal⟩,
    ⟨0xFFF0, 0x4E40, plainRow fun w => .trap (w.extractLsb' 0 4)⟩,
    ⟨0xFFF8, 0x4E60, plainRow fun w => .moveToUsp (regField w 0)⟩,
    ⟨0xFFF8, 0x4E68, plainRow fun w => .moveFromUsp (regField w 0)⟩,
    ⟨0xFFFF, 0x4E70, plainRow fun _ => .reset⟩,
    ⟨0xFFFF, 0x4E71, plainRow fun _ => .nop⟩,
    ⟨0xFFFF, 0x4E72, plainRow fun _ => .stop⟩,
    ⟨0xFFFF, 0x4E73, plainRow fun _ => .rte⟩,
    ⟨0xFFFF, 0x4E75, plainRow fun _ => .rts⟩,
    ⟨0xFFC0, 0x4E80, eaRow Ea.isControl .jsr⟩,
    ⟨0xFFC0, 0x4EC0, eaRow Ea.isControl .jmp⟩,
    ⟨0xF1C0, 0x41C0, fun w => eaRow Ea.isControl (fun ea => .lea ea (regField w 9)) w⟩]
  | 5 => [
    ⟨0xF100, 0x5000, fun w =>
      sizeEaRow (fun size ea => ea.isAlterable && ea.sizeOk size) (.addq (w.extractLsb' 9 3)) w⟩,
    ⟨0xF100, 0x5100, fun w =>
      sizeEaRow (fun size ea => ea.isAlterable && ea.sizeOk size) (.subq (w.extractLsb' 9 3)) w⟩,
    ⟨0xF0F8, 0x50C8, plainRow fun w => .dbcc (condField w) (regField w 0)⟩]
  | 6 => [
    ⟨0xFF00, 0x6000, plainRow fun w => .bra (data8Field w)⟩,
    ⟨0xFF00, 0x6100, plainRow fun w => .bsr (data8Field w)⟩,
    ⟨0xF000, 0x6000, fun w =>
      if (condField w).isBcc then some (.bcc (condField w) (data8Field w)) else none⟩]
  | 7 => [
    ⟨0xF100, 0x7000, plainRow fun w => .moveq (data8Field w) (regField w 9)⟩]
  | 8 => [
    ⟨0xF100, 0x8000, fun w => sizeEaRow (fun _ ea => ea.isData) (fun size ea => .orToReg size ea (regField w 9)) w⟩,
    ⟨0xF100, 0x8100, fun w =>
      sizeEaRow (fun _ ea => ea.isMemoryAlterable) (fun size ea => .orToMem size (regField w 9) ea) w⟩]
  | 9 => [
    ⟨0xF100, 0x9000, fun w =>
      sizeEaRow (fun size ea => ea.sizeOk size) (fun size ea => .subToReg size ea (regField w 9)) w⟩,
    ⟨0xF100, 0x9100, fun w =>
      sizeEaRow (fun _ ea => ea.isMemoryAlterable) (fun size ea => .subToMem size (regField w 9) ea) w⟩,
    ⟨0xF0C0, 0x90C0, fun w => eaRow (fun _ => true) (fun ea => .suba (longField w) ea (regField w 9)) w⟩]
  | 10 => [
    ⟨0xF000, 0xA000, plainRow fun w => .lineA (w.extractLsb' 0 12)⟩]
  | 11 => [
    ⟨0xF100, 0xB000, fun w =>
      sizeEaRow (fun size ea => ea.sizeOk size) (fun size ea => .cmp size ea (regField w 9)) w⟩,
    ⟨0xF0C0, 0xB0C0, fun w => eaRow (fun _ => true) (fun ea => .cmpa (longField w) ea (regField w 9)) w⟩,
    ⟨0xF100, 0xB100, fun w =>
      sizeEaRow (fun _ ea => ea.isDataAlterable) (fun size ea => .eor size (regField w 9) ea) w⟩,
    ⟨0xF138, 0xB108, fun w =>
      match sizeField w with
      | some size => some (.cmpm size (regField w 0) (regField w 9))
      | none => none⟩]
  | 12 => [
    ⟨0xF100, 0xC000, fun w => sizeEaRow (fun _ ea => ea.isData) (fun size ea => .andToReg size ea (regField w 9)) w⟩,
    ⟨0xF100, 0xC100, fun w =>
      sizeEaRow (fun _ ea => ea.isMemoryAlterable) (fun size ea => .andToMem size (regField w 9) ea) w⟩,
    ⟨0xF1C0, 0xC0C0, fun w => eaRow Ea.isData (fun ea => .mulu ea (regField w 9)) w⟩,
    ⟨0xF1C0, 0xC1C0, fun w => eaRow Ea.isData (fun ea => .muls ea (regField w 9)) w⟩]
  | 13 => [
    ⟨0xF100, 0xD000, fun w =>
      sizeEaRow (fun size ea => ea.sizeOk size) (fun size ea => .addToReg size ea (regField w 9)) w⟩,
    ⟨0xF100, 0xD100, fun w =>
      sizeEaRow (fun _ ea => ea.isMemoryAlterable) (fun size ea => .addToMem size (regField w 9) ea) w⟩,
    ⟨0xF0C0, 0xD0C0, fun w => eaRow (fun _ => true) (fun ea => .adda (longField w) ea (regField w 9)) w⟩]
  | 15 => [
    ⟨0xF000, 0xF000, plainRow fun w => .lineF (w.extractLsb' 0 12)⟩]
  | _ => []

/-- The rows an opcode value can belong to: those of its line. Every row of R97 fixes bits 15:12 but the two of the `MOVE`
format, which stand under lines 1, 2 and 3 (line 0 has the size code 00, which is not a size there, R98 b). -/
def rowsFor (w : Word) : List OpcodeRow := rowsOfLine (w.extractLsb' 12 4).toNat

/-- The instruction of the row that takes an opcode value, none where no row does (R110). -/
def decodeRow (w : Word) : Option Instr := (rowsFor w).findSome? fun r => r.take w

/-- The ROM lookup: every opcode value to one instruction, `illegal` where no row takes it (R90, R96, R110). -/
def decode (w : Word) : Instr := (decodeRow w).getD .illegal

/-- Why bytes are no instruction. The ROM resolves every opcode value, so only missing bytes are rejected. -/
inductive DecodeError where
  /-- fewer than two bytes: there is no opcode word -/
  | truncated
  deriving DecidableEq, Repr

/-- The word of two bytes as the hardware stores them: the byte at the lower address is bits 15:8 (R65). -/
def wordOfBytes (hi lo : Byte) : Word := hi ++ lo

/-- The instruction at the front of a byte list, with the bytes after its opcode word: those are the extension words, which the
executing rule consumes (R92, R95). -/
def decodeBytes : List Byte → Except DecodeError (Instr × List Byte)
  | hi :: lo :: rest => .ok (decode (wordOfBytes hi lo), rest)
  | _ => .error .truncated

/-! ### The descriptor (R91) -/

/-- The 58 operation kinds (the column `kind` of spec/opcode_table.json), and those that `ROM_EXT` adds (R96). -/
inductive OpKind where
  | ori | andi | subi | addi | eori | cmpi
  | oriCcr | oriSr | andiCcr | andiSr | eoriCcr | eoriSr
  | move | movea | moveFromSr | clr | neg | moveToCcr | notOp | moveToSr
  | swap | pea | ext | tst | tas | illegal | trap | moveToUsp | moveFromUsp
  | reset | nop | stop | rte | rts | jsr | jmp | lea
  | addq | subq | dbcc | bra | bsr | bcc | moveq
  | or | sub | suba | lineA | cmp | cmpa | eor | cmpm | and | mulu | muls | add | adda | lineF
  | extension (kind : Nat)
  deriving DecidableEq, Repr

/-- An OperationDescriptor: kind, operand size, addressing modes and the supervisor-only mark (R91). -/
structure Descriptor where
  kind : OpKind
  size : Option Size := none
  src : Option Mode := none
  dst : Option Mode := none
  priv : Bool := false
  deriving DecidableEq, Repr

/-- The descriptor of an instruction (R91, R97); `priv` as R169 lists it. -/
def Instr.descriptor : Instr → Descriptor
  | .oriEa s ea => { kind := .ori, size := s, src := ea.mode }
  | .andiEa s ea => { kind := .andi, size := s, src := ea.mode }
  | .subi s ea => { kind := .subi, size := s, src := ea.mode }
  | .addi s ea => { kind := .addi, size := s, src := ea.mode }
  | .eoriEa s ea => { kind := .eori, size := s, src := ea.mode }
  | .cmpi s ea => { kind := .cmpi, size := s, src := ea.mode }
  | .oriCcr => { kind := .oriCcr }
  | .oriSr => { kind := .oriSr, priv := true }
  | .andiCcr => { kind := .andiCcr }
  | .andiSr => { kind := .andiSr, priv := true }
  | .eoriCcr => { kind := .eoriCcr }
  | .eoriSr => { kind := .eoriSr, priv := true }
  | .move s src dst => { kind := .move, size := s, src := src.mode, dst := dst.mode }
  | .movea s src _ => { kind := .movea, size := s, src := src.mode }
  | .moveFromSr ea => { kind := .moveFromSr, size := some .w, src := ea.mode }
  | .clr s ea => { kind := .clr, size := s, src := ea.mode }
  | .neg s ea => { kind := .neg, size := s, src := ea.mode }
  | .moveToCcr ea => { kind := .moveToCcr, size := some .w, src := ea.mode }
  | .notEa s ea => { kind := .notOp, size := s, src := ea.mode }
  | .moveToSr ea => { kind := .moveToSr, size := some .w, src := ea.mode, priv := true }
  | .swap _ => { kind := .swap, size := some .l }
  | .pea ea => { kind := .pea, size := some .l, src := ea.mode }
  | .extW _ => { kind := .ext, size := some .w }
  | .extL _ => { kind := .ext, size := some .l }
  | .tst s ea => { kind := .tst, size := s, src := ea.mode }
  | .tas ea => { kind := .tas, size := some .b, src := ea.mode }
  | .illegal => { kind := .illegal }
  | .trap _ => { kind := .trap }
  | .moveToUsp _ => { kind := .moveToUsp, size := some .l, priv := true }
  | .moveFromUsp _ => { kind := .moveFromUsp, size := some .l, priv := true }
  | .reset => { kind := .reset, priv := true }
  | .nop => { kind := .nop }
  | .stop => { kind := .stop, priv := true }
  | .rte => { kind := .rte, priv := true }
  | .rts => { kind := .rts }
  | .jsr ea => { kind := .jsr, src := ea.mode }
  | .jmp ea => { kind := .jmp, src := ea.mode }
  | .lea ea _ => { kind := .lea, size := some .l, src := ea.mode }
  | .addq _ s ea => { kind := .addq, size := s, src := ea.mode }
  | .subq _ s ea => { kind := .subq, size := s, src := ea.mode }
  | .dbcc _ _ => { kind := .dbcc }
  | .bra _ => { kind := .bra }
  | .bsr _ => { kind := .bsr }
  | .bcc _ _ => { kind := .bcc }
  | .moveq _ _ => { kind := .moveq, size := some .l }
  | .orToReg s ea _ => { kind := .or, size := s, src := ea.mode }
  | .orToMem s _ ea => { kind := .or, size := s, src := ea.mode }
  | .subToReg s ea _ => { kind := .sub, size := s, src := ea.mode }
  | .subToMem s _ ea => { kind := .sub, size := s, src := ea.mode }
  | .suba s ea _ => { kind := .suba, size := s, src := ea.mode }
  | .lineA _ => { kind := .lineA }
  | .cmp s ea _ => { kind := .cmp, size := s, src := ea.mode }
  | .cmpa s ea _ => { kind := .cmpa, size := s, src := ea.mode }
  | .eor s _ ea => { kind := .eor, size := s, src := ea.mode }
  | .cmpm s _ _ => { kind := .cmpm, size := s }
  | .andToReg s ea _ => { kind := .and, size := s, src := ea.mode }
  | .andToMem s _ ea => { kind := .and, size := s, src := ea.mode }
  | .mulu ea _ => { kind := .mulu, size := some .w, src := ea.mode }
  | .muls ea _ => { kind := .muls, size := some .w, src := ea.mode }
  | .addToReg s ea _ => { kind := .add, size := s, src := ea.mode }
  | .addToMem s _ ea => { kind := .add, size := s, src := ea.mode }
  | .adda s ea _ => { kind := .adda, size := s, src := ea.mode }
  | .lineF _ => { kind := .lineF }

/-! ### The ROM image (R90, R96) -/

/-- What the ROM holds for one opcode value: an operation of the baseline, or a descriptor that `ROM_EXT` adds. -/
inductive RomEntry where
  | baseline (i : Instr)
  | extension (e : RomExtension)
  deriving DecidableEq, Repr

/-- `ROM[opcode]`: the baseline's row, else the entry `ROM_EXT` has for the value, else the fallback `ILLEGAL` (R90, R96). -/
def romEntry (ext : List RomExtension) (w : Word) : RomEntry :=
  match decodeRow w with
  | some i => .baseline i
  | none =>
    match ext.find? fun e => e.opcode == w with
    | some e => .extension e
    | none => .baseline .illegal

/-- The descriptor of a ROM entry (R91). -/
def RomEntry.descriptor : RomEntry → Descriptor
  | .baseline i => i.descriptor
  | .extension e => { kind := .extension e.kind, size := e.size, src := e.src, dst := e.dst, priv := e.priv }

/-- A legal `ROM_EXT`: it assigns only values the baseline leaves unassigned, each of them once. Anything else is the duplicate or
overlapping classification, an error of the ROM's construction and no state of the machine (R90, R96, U16; log entry 2). -/
def romExtLegal (ext : List RomExtension) : Bool :=
  ext.all (fun e => (decodeRow e.opcode).isNone) && decide ((ext.map RomExtension.opcode).Nodup)

/-! ### The index extension word (R152 to R154) -/

/-- A displacement size code: 01 none, 10 one word, 11 two words; 00 has no meaning here (R153). -/
def dispSizeOfNat : Nat → Option DispSize
  | 1 => some .none
  | 2 => some .word
  | 3 => some .long
  | _ => none

/-- The memory indirection of `IS` and `IIS` (R153); none for the combinations R153 marks `otherwise`. -/
def indirectionOf (indexSuppressed : Bool) (iis : BitVec 3) : Option Indirection :=
  match indexSuppressed, iis.getLsbD 2, dispSizeOfNat (iis.extractLsb' 0 2).toNat with
  | _, false, none => some .none
  | false, false, some od => some (.preIndexed od)
  | false, true, some od => some (.postIndexed od)
  | true, false, some od => some (.noIndex od)
  | _, _, _ => none

/-- Bits 15:9 of an index word (R152). -/
def indexRegField (w : Word) : IndexReg where
  isAddr := w.getLsbD 15
  reg := regField w 12
  long := w.getLsbD 11
  scale := w.extractLsb' 9 2

/-- The meaning of an index extension word; none for a reserved full-form word (R154). -/
def decodeIndexWord (w : Word) : Option IndexWord :=
  if w.getLsbD 8 then
    if w.getLsbD 3 then none
    else
      match dispSizeOfNat (w.extractLsb' 4 2).toNat, indirectionOf (w.getLsbD 6) (w.extractLsb' 0 3) with
      | some bd, some ind => some (.full (indexRegField w) (w.getLsbD 7) (w.getLsbD 6) bd ind)
      | _, _ => none
  else some (.brief (indexRegField w) (data8Field w))

/-! ### Encoders -/

/-- A register number at bits `lo+2:lo`. -/
def regBits (r : RegNum) (lo : Nat) : Word := (BitVec.ofNat 16 r.val) <<< lo

/-- The mode field of an effective address (R93). -/
def Ea.modeField : Ea → RegNum
  | .dn _ => 0
  | .an _ => 1
  | .ind _ => 2
  | .postInc _ => 3
  | .preDec _ => 4
  | .disp _ => 5
  | .index _ => 6
  | .absW | .absL | .pcDisp | .pcIndex | .imm => 7

/-- The register field of an effective address (R93). -/
def Ea.regField : Ea → RegNum
  | .dn r | .an r | .ind r | .postInc r | .preDec r | .disp r | .index r => r
  | .absW => 0
  | .absL => 1
  | .pcDisp => 2
  | .pcIndex => 3
  | .imm => 4

/-- An effective address at bits 5:0 (R93). -/
def eaBits (ea : Ea) : Word := regBits ea.modeField 3 ||| regBits ea.regField 0

/-- A destination of the `MOVE` format at bits 11:6 (R93). -/
def dstEaBits (ea : Ea) : Word := regBits ea.regField 9 ||| regBits ea.modeField 6

/-- The standard size field (R98 a). -/
def sizeBits : Size → Word
  | .b => 0x0000
  | .w => 0x0040
  | .l => 0x0080

/-- The size field of the `MOVE` format (R98 b). -/
def moveSizeBits : Size → Word
  | .b => 0x1000
  | .w => 0x3000
  | .l => 0x2000

/-- The one-bit size field in bit 8 (R98 c); B has no code and is not well formed there. -/
def longBits : Size → Word
  | .l => 0x0100
  | _ => 0x0000

/-- The field value of a condition (R200). -/
def Cond.toNat : Cond → Nat
  | .t => 0
  | .f => 1
  | .hi => 2
  | .ls => 3
  | .cc => 4
  | .cs => 5
  | .ne => 6
  | .eq => 7
  | .vc => 8
  | .vs => 9
  | .pl => 10
  | .mi => 11
  | .ge => 12
  | .lt => 13
  | .gt => 14
  | .le => 15

/-- A condition at bits 11:8 (R99). -/
def condBits (c : Cond) : Word := (BitVec.ofNat 16 c.toNat) <<< 8

/-- The quick field at bits 11:9 (R100). -/
def quickBits (q : BitVec 3) : Word := q.setWidth 16 <<< 9

/-- The opcode word of an instruction (R92, R97). -/
def encode : Instr → Word
  | .oriEa size ea => 0x0000 ||| sizeBits size ||| eaBits ea
  | .andiEa size ea => 0x0200 ||| sizeBits size ||| eaBits ea
  | .subi size ea => 0x0400 ||| sizeBits size ||| eaBits ea
  | .addi size ea => 0x0600 ||| sizeBits size ||| eaBits ea
  | .eoriEa size ea => 0x0A00 ||| sizeBits size ||| eaBits ea
  | .cmpi size ea => 0x0C00 ||| sizeBits size ||| eaBits ea
  | .oriCcr => 0x003C
  | .oriSr => 0x007C
  | .andiCcr => 0x023C
  | .andiSr => 0x027C
  | .eoriCcr => 0x0A3C
  | .eoriSr => 0x0A7C
  | .move size src dst => moveSizeBits size ||| dstEaBits dst ||| eaBits src
  | .movea size src dst => 0x0040 ||| moveSizeBits size ||| regBits dst 9 ||| eaBits src
  | .moveFromSr ea => 0x40C0 ||| eaBits ea
  | .clr size ea => 0x4200 ||| sizeBits size ||| eaBits ea
  | .neg size ea => 0x4400 ||| sizeBits size ||| eaBits ea
  | .moveToCcr ea => 0x44C0 ||| eaBits ea
  | .notEa size ea => 0x4600 ||| sizeBits size ||| eaBits ea
  | .moveToSr ea => 0x46C0 ||| eaBits ea
  | .swap dn => 0x4840 ||| regBits dn 0
  | .pea ea => 0x4840 ||| eaBits ea
  | .extW dn => 0x4880 ||| regBits dn 0
  | .extL dn => 0x48C0 ||| regBits dn 0
  | .tst size ea => 0x4A00 ||| sizeBits size ||| eaBits ea
  | .tas ea => 0x4AC0 ||| eaBits ea
  | .illegal => 0x4AFC
  | .trap v => 0x4E40 ||| v.setWidth 16
  | .moveToUsp an => 0x4E60 ||| regBits an 0
  | .moveFromUsp an => 0x4E68 ||| regBits an 0
  | .reset => 0x4E70
  | .nop => 0x4E71
  | .stop => 0x4E72
  | .rte => 0x4E73
  | .rts => 0x4E75
  | .jsr ea => 0x4E80 ||| eaBits ea
  | .jmp ea => 0x4EC0 ||| eaBits ea
  | .lea ea an => 0x41C0 ||| regBits an 9 ||| eaBits ea
  | .addq q size ea => 0x5000 ||| quickBits q ||| sizeBits size ||| eaBits ea
  | .subq q size ea => 0x5100 ||| quickBits q ||| sizeBits size ||| eaBits ea
  | .dbcc cond dn => 0x50C8 ||| condBits cond ||| regBits dn 0
  | .bra d8 => 0x6000 ||| d8.setWidth 16
  | .bsr d8 => 0x6100 ||| d8.setWidth 16
  | .bcc cond d8 => 0x6000 ||| condBits cond ||| d8.setWidth 16
  | .moveq d8 dn => 0x7000 ||| regBits dn 9 ||| d8.setWidth 16
  | .orToReg size ea dn => 0x8000 ||| regBits dn 9 ||| sizeBits size ||| eaBits ea
  | .orToMem size dn ea => 0x8100 ||| regBits dn 9 ||| sizeBits size ||| eaBits ea
  | .subToReg size ea dn => 0x9000 ||| regBits dn 9 ||| sizeBits size ||| eaBits ea
  | .subToMem size dn ea => 0x9100 ||| regBits dn 9 ||| sizeBits size ||| eaBits ea
  | .suba size ea an => 0x90C0 ||| regBits an 9 ||| longBits size ||| eaBits ea
  | .lineA low => 0xA000 ||| low.setWidth 16
  | .cmp size ea dn => 0xB000 ||| regBits dn 9 ||| sizeBits size ||| eaBits ea
  | .cmpa size ea an => 0xB0C0 ||| regBits an 9 ||| longBits size ||| eaBits ea
  | .eor size dn ea => 0xB100 ||| regBits dn 9 ||| sizeBits size ||| eaBits ea
  | .cmpm size ay ax => 0xB108 ||| regBits ax 9 ||| sizeBits size ||| regBits ay 0
  | .andToReg size ea dn => 0xC000 ||| regBits dn 9 ||| sizeBits size ||| eaBits ea
  | .andToMem size dn ea => 0xC100 ||| regBits dn 9 ||| sizeBits size ||| eaBits ea
  | .mulu ea dn => 0xC0C0 ||| regBits dn 9 ||| eaBits ea
  | .muls ea dn => 0xC1C0 ||| regBits dn 9 ||| eaBits ea
  | .addToReg size ea dn => 0xD000 ||| regBits dn 9 ||| sizeBits size ||| eaBits ea
  | .addToMem size dn ea => 0xD100 ||| regBits dn 9 ||| sizeBits size ||| eaBits ea
  | .adda size ea an => 0xD0C0 ||| regBits an 9 ||| longBits size ||| eaBits ea
  | .lineF low => 0xF000 ||| low.setWidth 16

/-- The two bytes of a word as the hardware stores them (R65). -/
def bytesOfWord (w : Word) : List Byte := [w.extractLsb' 8 8, w.extractLsb' 0 8]

/-- The bytes of an instruction with given extension words (R92). -/
def encodeBytes (i : Instr) (ext : List Word) : List Byte := bytesOfWord (encode i) ++ ext.flatMap bytesOfWord

/-- A displacement size code (R153). -/
def DispSize.toNat : DispSize → Nat
  | .none => 1
  | .word => 2
  | .long => 3

/-- The `IIS` field of an indirection (R153). -/
def Indirection.iis : Indirection → Nat
  | .none => 0
  | .preIndexed od => od.toNat
  | .postIndexed od => 4 + od.toNat
  | .noIndex od => od.toNat

/-- Bits 15:9 of an index word (R152). -/
def IndexReg.bits (x : IndexReg) : Word :=
  (if x.isAddr then 0x8000 else 0) ||| regBits x.reg 12 ||| (if x.long then 0x0800 else 0) ||| (x.scale.setWidth 16 <<< 9)

/-- The index extension word (R152, R153). -/
def encodeIndexWord : IndexWord → Word
  | .brief idx d8 => idx.bits ||| d8.setWidth 16
  | .full idx bs is bd ind =>
    idx.bits ||| 0x0100 ||| (if bs then 0x0080 else 0) ||| (if is then 0x0040 else 0) |||
      (BitVec.ofNat 16 bd.toNat <<< 4) ||| BitVec.ofNat 16 ind.iis

/-! ### The opcode table's numbering -/

/-- The longest instruction, in words: a `MOVE` between two full-form operands, 22 bytes (R95). -/
def maxInstrWords : Nat := 11

/-- The first `n` words of a number whose first word is its low 16 bits (the numbering of spec/opcode_table.json). -/
def tableWords : Nat → Nat → List Word
  | 0, _ => []
  | n + 1, w => BitVec.ofNat 16 w :: tableWords n (w / 65536)

/-- The words of an instruction whose low `nbits` bits are given and whose other bits are 0. -/
def instrWords (nbits w : Nat) : List Word := tableWords maxInstrWords (w % 2 ^ nbits)

/-- The instruction the decoder reads from a table word laid out as the hardware stores it. -/
def decodeTableWord (nbits w : Nat) : Option Instr :=
  match decodeBytes ((instrWords nbits w).flatMap bytesOfWord) with
  | .ok (i, _) => some i
  | .error _ => none

end Sys2Proof
end

