-- ==== Sys2Proof/Machine/Bits.lean ====
section
/-! DEFINITION. Values of an operand size in 32-bit containers (spec/00_scope.md R6, R7). A byte or word value is held
zero-extended; `trunc` takes bits `bits(size)-1:0`, `merge` is the partial register write. -/

namespace Sys2Proof.Machine

/-- The bits a size covers. -/
def sizeMask : Size → Long
  | .b => 0x000000FF
  | .w => 0x0000FFFF
  | .l => 0xFFFFFFFF

/-- `v[bits(size)-1:0]`, zero-extended (R6, R7). -/
def trunc (size : Size) (v : Long) : Long := v &&& sizeMask size

/-- The register value after `reg[bits(size)-1:0] <- v`: the other bits keep their value (R7, R20). -/
def merge (size : Size) (old v : Long) : Long := (old &&& ~~~sizeMask size) ||| (v &&& sizeMask size)

/-- `msb(v, size)` (R7). -/
def msb (size : Size) (v : Long) : Bool := v.getLsbD (size.bits - 1)

/-- `sext_8` (R7). -/
def sext8 (v : Byte) : Long := v.signExtend 32

/-- `sext_16` (R7). -/
def sext16 (v : Word) : Long := v.signExtend 32

/-- Bits 31:16 of a long. -/
def hiWord (v : Long) : Word := v.extractLsb' 16 16

/-- Bits 15:0 of a long. -/
def loWord (v : Long) : Word := v.extractLsb' 0 16

/-- Bits 7:0 of a long. -/
def loByte (v : Long) : Byte := v.extractLsb' 0 8

/-- `hi : lo`, a long of two words (R6). -/
def longOf (hi lo : Word) : Long := hi ++ lo

/-- Bit 0 of an address is 1: a word or long access there is an address error (R66). -/
def isOdd (x : Long) : Bool := x.getLsbD 0

/-- A word source as a 32-bit address-register operand: sign-extended for size W, as it is otherwise (R21, R211, R233). -/
def extendToLong (size : Size) (v : Long) : Long :=
  match size with
  | .w => sext16 (loWord v)
  | _ => v

end Sys2Proof.Machine
end

