-- ==== Sys2Proof/Machine/State.lean ====
section
/-! DEFINITION. The state of the CORE (spec/10_state.md R20 to R38), the host port's side of it (spec/20_memory.md R60), the
reasons a step can stop, and the state after power-on (R45, R350).

INVENTORY.md lists every field with its rule and its reset value. -/

namespace Sys2Proof.Machine

/-- The five condition codes, `sr` bits 4 to 0 (R28). -/
structure Ccr where
  x : Bool
  n : Bool
  z : Bool
  v : Bool
  c : Bool
  deriving DecidableEq, Repr

/-- The implemented fields of the status register (R28). Bits 14, 12, 11 and 7:5 are not implemented, read 0 and ignore
writes, so there is nothing to hold for them (log entry 8). -/
structure Status where
  /-- bit 15, trace -/
  t : Bool
  /-- bit 13, supervisor -/
  s : Bool
  /-- bits 10:8, interrupt mask -/
  i : BitVec 3
  /-- bits 4:0 -/
  ccr : Ccr
  deriving DecidableEq, Repr

/-- The run state (R36). -/
inductive RunState where
  | running | stopped | halted
  deriving DecidableEq, Repr

/-- The space tag of an access (R62). -/
inductive Space where
  | prog | data
  deriving DecidableEq, Repr

/-- The direction of an access, as an address error records it (R312). -/
inductive Dir where
  | read | write
  deriving DecidableEq, Repr

/-- The host's answer to an interrupt acknowledge (R60, R321). -/
inductive IackAnswer where
  | auto
  | vector (v : BitVec 8)
  deriving DecidableEq, Repr

/-- A notification to the host (R338). -/
inductive Event where
  | resetInstr | stopInstr | tasInstr | callInstr | returnInstr | hardReset | haltEntry
  | exception (kind : ExcKind) (vector : Option (BitVec 8))
  deriving DecidableEq, Repr

/-- One transaction at the host port, with its arguments and its answer (R60). Addresses are masked. -/
inductive PortCall where
  | read8 (p : Nat) (v : Byte)
  | read16 (p : Nat) (v : Word)
  | write8 (p : Nat) (v : Byte)
  | write16 (p : Nat) (v : Word)
  | resetRead16 (p : Nat) (v : Word)
  | ipl (level : BitVec 3)
  | iack (level : BitVec 3) (answer : IackAnswer)
  | notify (e : Event)
  deriving DecidableEq, Repr

/-- The bytes behind the host port: address and byte, addresses strictly rising, no entry equal to what an unlisted address
reads as (log entry 4). Machine/Memory.lean has the form as a predicate. -/
abbrev Memory := List Host.Cell

/-- The state of the CORE and of its host port. -/
structure State where
  /-- the implementation parameters (R5, R11); no step changes them (log entry 3) -/
  cfg : Config
  /-- data registers (R20) -/
  d : Vector Long 8
  /-- address registers; entry 7 is the active stack pointer slot (R21, R22) -/
  a : Vector Long 8
  /-- user shadow stack pointer (R22, R23) -/
  usp : Long
  /-- supervisor shadow stack pointer (R22, R23) -/
  ssp : Long
  /-- program counter (R25) -/
  pc : Long
  /-- address of the opcode in execution (R26) -/
  pc0 : Long
  /-- status register (R28) -/
  sr : Status
  /-- instruction register, the first prefetch stage (R32) -/
  ird : Word
  /-- lookahead register, the second prefetch stage (R32) -/
  irc : Word
  /-- cycle counter, a signed integer without bound (R34) -/
  clock : Int
  /-- the level the last sample returned (R35) -/
  iplPolled : BitVec 3
  /-- level 7 may be taken (R35, R318) -/
  nmiArmed : Bool
  /-- run state (R36) -/
  run : RunState
  /-- a trace exception is queued (R37) -/
  tracePending : Bool
  /-- an address error is being serviced (R38) -/
  aeInService : Bool
  /-- an exception or interrupt is being serviced (R38) -/
  excInService : Bool
  /-- the model's own: the host set `pc`, `ird` or `irc` so that the pipeline does not hold the words at `pc` (R33, R47 c; log
  entry 18) -/
  pipelineBroken : Bool
  /-- memory behind the host port (R61, R65; log entry 4) -/
  mem : Memory
  /-- the model's own: what `Host.ipl()` answers next; the last answer stays, none is level 0 (R60, R317; log entry 6) -/
  hostIpl : List (BitVec 3)
  /-- the model's own: what `Host.iack` answers next; the last answer stays, none is `Auto` (R60, R321; log entry 6) -/
  hostIack : List IackAnswer
  /-- the model's own: the host's free answers to the coming reads; `none` and an empty list leave the answer to memory
  (R60; log entry 5) -/
  hostReads : List (Option Word)
  /-- the model's own: the transactions at the host port so far, newest first (R60, R74, R80); nothing reads it (log entry 7) -/
  port : List PortCall
  deriving DecidableEq, Repr

/-- The machine has no fault: every exception of the spec is a next state (R300, R307, R312, R314, R320), and every host
transaction completes (R79). No rule raises one, so the type has no constructor. -/
inductive Fault where
  deriving DecidableEq, Repr

/-- Why a step has no meaning. -/
inductive Refusal where
  /-- the instruction has no meaning yet: raised by the arms of `exec` only; safe -/
  | notModelled (mnemonic : String)
  /-- a reserved full-form index word, which the spec itself refuses (R154, 93 U15): raised by `indexEa`; safe -/
  | reservedIndexWord
  /-- a kind that `ROM_EXT` adds and no rule of the spec describes (R96, 93 U16): raised by `execRomExtension`; safe -/
  | romExtension
  /-- a step with the pipeline invariant broken by the host (R33, R47 c, 93 U12, U17): raised by `step`; safe -/
  | pipelineBroken
  /-- a term of `Instr` that no encoding gives (a write to an immediate, the address of a register): raised by `writeLoc` and
  `controlEa`; the decoder never makes such a term (log entry 17); safe -/
  | illFormedOperand
  deriving DecidableEq, Repr

/-- The outcome of a step. -/
abbrev Outcome := Host.Outcome State Fault Refusal

/-- The state after power-on (R45, R350, R351) with the default parameters, over a memory in which nothing is listed: the
vectors at 0 and 4 read 0, so the stack pointer, the pc and both prefetch stages are 0 (log entry 9). The 24 cycles and the
transactions are those of the reset sequence. -/
def State.reset : State where
  cfg := Config.reference
  d := Vector.replicate 8 0
  a := Vector.replicate 8 0
  usp := 0
  ssp := 0
  pc := 0
  pc0 := 0
  sr := { t := false, s := true, i := 7, ccr := { x := false, n := false, z := false, v := false, c := false } }
  ird := 0
  irc := 0
  clock := 24
  iplPolled := 0
  nmiArmed := true
  run := .running
  tracePending := false
  aeInService := false
  excInService := false
  pipelineBroken := false
  mem := []
  hostIpl := []
  hostIack := []
  hostReads := []
  port := [.notify .hardReset, .read16 2 0, .ipl 0, .read16 0 0,
    .resetRead16 6 0, .resetRead16 4 0, .resetRead16 2 0, .resetRead16 0 0]

end Sys2Proof.Machine
end

