-- ==== Sys2Proof/Machine/Memory.lean ====
section
/-! DEFINITION. Memory as a canonical list of bytes (spec/20_memory.md R61), its byte and word operations in the CORE's byte
order (R65), and its well-formedness. -/

namespace Sys2Proof.Machine

/-- What a byte that nothing has written reads as. DESIGN CHOICE, unsafe: the spec leaves the contents of memory to the host
(R60, R78); log entry 4. -/
def unlistedByte : Byte := 0

/-- The byte at an address. -/
def Memory.readByte : Memory → Nat → Byte
  | [], _ => unlistedByte
  | (k, b) :: rest, p => if k = p then b else Memory.readByte rest p

/-- The memory with one cell put in front, left out where it equals what an unlisted address reads as. -/
def Memory.putCell (p : Nat) (v : Byte) (rest : Memory) : Memory :=
  if v = unlistedByte then rest else (p, v) :: rest

/-- The memory after a byte write; the canonical form is kept. -/
def Memory.writeByte : Memory → Nat → Byte → Memory
  | [], p, v => Memory.putCell p v []
  | (k, b) :: rest, p, v =>
    if p < k then Memory.putCell p v ((k, b) :: rest)
    else if p = k then Memory.putCell p v rest
    else (k, b) :: Memory.writeByte rest p v

/-- The word at an even address: the byte at the lower address is bits 15:8 (R65). -/
def Memory.readWord (m : Memory) (p : Nat) : Word := m.readByte p ++ m.readByte (p + 1)

/-- The memory after a word write, bits 15:8 to the lower address (R65). -/
def Memory.writeWord (m : Memory) (p : Nat) (v : Word) : Memory :=
  (m.writeByte p (v.extractLsb' 8 8)).writeByte (p + 1) (v.extractLsb' 0 8)

/-- Every address of the list lies above a bound, and the addresses strictly rise. -/
def Memory.risesFrom : Nat → Memory → Bool
  | _, [] => true
  | lo, (k, _) :: rest => decide (lo ≤ k) && Memory.risesFrom (k + 1) rest

/-- The canonical form: addresses strictly rising, no entry equal to what an unlisted address reads as. -/
def Memory.wf (m : Memory) : Bool := Memory.risesFrom 0 m && m.all fun c => decide (c.2 ≠ unlistedByte)

/-- Every listed address lies below a bound: `2 ^ ADDR_BITS` for the address space of R61. -/
def Memory.below (m : Memory) (bound : Nat) : Bool := m.all fun c => decide (c.1 < bound)

/-- Words laid out from an address upward, as the hardware stores them (R65, R92); addresses wrap at the bound as the mask of
R63 makes them. -/
def Memory.writeWords (bound : Nat) : Memory → Nat → List Word → Memory
  | m, _, [] => m
  | m, p, w :: ws => Memory.writeWords bound (m.writeWord (p % bound) w) (p + 2) ws

end Sys2Proof.Machine
end

