-- ==== Sys2Proof/Machine/Ops.lean ====
section
/-! DEFINITION. The named operations every rule uses: the status register and the stack pointers (spec/10_state.md), the bus
engine (spec/20_memory.md), the pipeline (spec/40_dispatch_and_step.md), interrupt sampling, the taking of exceptions and
interrupts, the return from one, and the double fault (spec/60_exceptions.md).

A rule's pseudocode is written as a program of `M`: it changes the state as it goes, and a `raise AddressError` or a `refuse`
leaves it with everything done so far in place (R124). `runOp` is the frame around a rule: it continues an abort with the
exception controller, in the same step. -/

namespace Sys2Proof.Machine

/-- What leaves a rule before its end: `raise AddressError(addr, dir, space)` (R7, R312) or `refuse` (R7). The other exceptions
are raised as the only action of their rule and need no abort. -/
inductive Abort where
  | addressError (addr : Long) (dir : Dir) (space : Space)
  | refuse (r : Refusal)
  deriving DecidableEq, Repr

/-- A rule's pseudocode: an abort keeps the state as it stands (R124). -/
abbrev M := EStateM Abort State

/-- An assignment. -/
def assign (f : State → State) : M Unit := fun s => .ok () (f s)

/-- A value read off the state. -/
def look {α : Type} (f : State → α) : M α := fun s => .ok (f s) s

/-- The alignment check: `if x[0] = 1 then raise AddressError(x, dir, space)` (R66, R68). -/
def checkEven (x : Long) (dir : Dir) (space : Space) : M Unit := fun s =>
  if isOdd x then .error (.addressError x dir space) s else .ok () s

/-- `refuse` (R7). -/
def refuseWith {α : Type} (r : Refusal) : M α := fun s => .error (.refuse r) s

/-! ### Registers -/

/-- `d[i]` (R7, R20). -/
def State.readD (s : State) (i : RegNum) : Long := s.d[i.val]

/-- `a[i]`; `a[7]` is the active stack pointer slot (R7, R21, R22). -/
def State.readA (s : State) (i : RegNum) : Long := s.a[i.val]

/-- `d[i] <- v` (R7). -/
def State.writeD (s : State) (i : RegNum) (v : Long) : State := { s with d := s.d.set i.val v }

/-- `a[i] <- v`: always 32 bits (R7, R21). -/
def State.writeA (s : State) (i : RegNum) (v : Long) : State := { s with a := s.a.set i.val v }

/-- `d[i][bits(size)-1:0]`, zero-extended (R20). -/
def State.readDPart (s : State) (i : RegNum) (size : Size) : Long := trunc size (s.readD i)

/-- `d[i][bits(size)-1:0] <- v`: the other bits keep their value (R20). -/
def State.writeDPart (s : State) (i : RegNum) (size : Size) (v : Long) : State :=
  s.writeD i (merge size (s.readD i) v)

/-- The active stack pointer `a[7]` (R22). -/
def State.sp (s : State) : Long := s.readA 7

/-! ### Updates of the other fields -/

/-- `pc <- v`. -/
def State.setPc (s : State) (v : Long) : State := { s with pc := v }

/-- `pc0 <- v`. -/
def State.setPc0 (s : State) (v : Long) : State := { s with pc0 := v }

/-- `ird <- v`. -/
def State.setIrd (s : State) (v : Word) : State := { s with ird := v }

/-- `irc <- v`. -/
def State.setIrc (s : State) (v : Word) : State := { s with irc := v }

/-- `usp <- v`. -/
def State.setUsp (s : State) (v : Long) : State := { s with usp := v }

/-- `ssp <- v`. -/
def State.setSsp (s : State) (v : Long) : State := { s with ssp := v }

/-- `run <- v`. -/
def State.setRun (s : State) (v : RunState) : State := { s with run := v }

/-- `trace_pending <- v`. -/
def State.setTracePending (s : State) (v : Bool) : State := { s with tracePending := v }

/-- `nmi_armed <- v`. -/
def State.setNmiArmed (s : State) (v : Bool) : State := { s with nmiArmed := v }

/-- `ae_in_service <- v`. -/
def State.setAeInService (s : State) (v : Bool) : State := { s with aeInService := v }

/-- `exc_in_service <- v`. -/
def State.setExcInService (s : State) (v : Bool) : State := { s with excInService := v }

/-- The mark that the host broke the pipeline invariant (R33, R47 c). -/
def State.setPipelineBroken (s : State) (v : Bool) : State := { s with pipelineBroken := v }

/-- `clock <- clock + n` (R64). -/
def State.tick (s : State) (n : Nat) : State := { s with clock := s.clock + n }

/-- Memory replaced. -/
def State.setMem (s : State) (m : Memory) : State := { s with mem := m }

/-- A transaction entered in the record of the port. -/
def State.record (s : State) (c : PortCall) : State := { s with port := c :: s.port }

/-- The next answer of a read used up. -/
def State.popRead (s : State) : State := { s with hostReads := s.hostReads.tail }

/-! ### The status register -/

/-- `GetCCR()[4:0]`: X N Z V C (R29). -/
def Ccr.bits (c : Ccr) : BitVec 5 :=
  BitVec.ofBool c.x ++ BitVec.ofBool c.n ++ BitVec.ofBool c.z ++ BitVec.ofBool c.v ++ BitVec.ofBool c.c

/-- `GetSR()` on the implemented fields (R29). -/
def Status.word (r : Status) : Word :=
  BitVec.ofBool r.t ++ 0#1 ++ BitVec.ofBool r.s ++ 0#2 ++ r.i ++ 0#3 ++ r.ccr.bits

/-- `GetSR()` (R29). -/
def State.getSr (s : State) : Word := s.sr.word

/-- `GetCCR()` (R29). -/
def State.getCcr (s : State) : Byte := 0#3 ++ s.sr.ccr.bits

/-- The condition codes of bits 4:0 of a byte (R29). -/
def ccrOfByte (v : Byte) : Ccr where
  x := v.getLsbD 4
  n := v.getLsbD 3
  z := v.getLsbD 2
  v := v.getLsbD 1
  c := v.getLsbD 0

/-- The condition codes written, `T`, `S` and `I` unchanged (R29). -/
def State.withCcr (s : State) (c : Ccr) : State := { s with sr := { s.sr with ccr := c } }

/-- `SetCCR(v)` (R29). -/
def State.setCcr (s : State) (v : Byte) : State := s.withCcr (ccrOfByte v)

/-- The supervisor flag written, without the swap: the last assignment of `SetS` (R23). -/
def State.writeS (s : State) (new : Bool) : State := { s with sr := { s.sr with s := new } }

/-- `SetS(new)`: the only way `S` changes outside reset; a change swaps the stack pointers (R23). -/
def State.setS (s : State) (new : Bool) : State :=
  if new = s.sr.s then s
  else if new then ((s.setUsp s.sp).writeA 7 s.ssp).writeS true
  else ((s.setSsp s.sp).writeA 7 s.usp).writeS false

/-- The trace flag written. -/
def State.setT (s : State) (t : Bool) : State := { s with sr := { s.sr with t := t } }

/-- The interrupt mask written. -/
def State.setMask (s : State) (i : BitVec 3) : State := { s with sr := { s.sr with i := i } }

/-- `SetSR(v)` (R29): bits that `sr` does not implement are ignored (R28). -/
def State.setSr (s : State) (v : Word) : State :=
  (((s.setT (v.getLsbD 15)).setS (v.getLsbD 13)).setMask (v.extractLsb' 8 3)).setCcr (v.extractLsb' 0 8)

/-- `USP()`: the user stack pointer, wherever it is (R24). -/
def State.userSp (s : State) : Long := if s.sr.s then s.usp else s.sp

/-- `SSP()`: the supervisor stack pointer, wherever it is (R24). -/
def State.supervisorSp (s : State) : Long := if s.sr.s then s.sp else s.ssp

/-! ### The host port and the clock -/

/-- `PHYS(x) = x[ADDR_BITS-1:0]` (R63). -/
def State.phys (s : State) (x : Long) : Nat := x.toNat % 2 ^ s.cfg.addrBits

/-- `Charge(n)`, the only writer of `clock` (R64). -/
def charge (n : Nat) : M Unit := assign fun s => s.tick n

/-- `notify(e)`: no core state depends on it (R338). -/
def notify (e : Event) : M Unit := assign fun s => s.record (.notify e)

/-- What the host answers to a byte read: its own answer if one is listed, memory's otherwise (R60; log entry 5). -/
def State.answer8 (s : State) (p : Nat) : Byte :=
  match s.hostReads with
  | some v :: _ => v.extractLsb' 0 8
  | _ => s.mem.readByte p

/-- What the host answers to a word read (R60; log entry 5). -/
def State.answer16 (s : State) (p : Nat) : Word :=
  match s.hostReads with
  | some v :: _ => v
  | _ => s.mem.readWord p

/-- The state after a read was answered: the listed answer is used up and the transaction entered. -/
def State.answered (s : State) (c : PortCall) : State := s.popRead.record c

/-- `Host.read8(p)` (R60). -/
def hostRead8 (p : Nat) : M Byte := fun s => .ok (s.answer8 p) (s.answered (.read8 p (s.answer8 p)))

/-- `Host.read16(p)` (R60). -/
def hostRead16 (p : Nat) : M Word := fun s => .ok (s.answer16 p) (s.answered (.read16 p (s.answer16 p)))

/-- `Host.resetRead16(p)` (R60, R76). -/
def hostResetRead16 (p : Nat) : M Word := fun s => .ok (s.answer16 p) (s.answered (.resetRead16 p (s.answer16 p)))

/-- `Host.write8(p, v)` (R60). -/
def hostWrite8 (p : Nat) (v : Byte) : M Unit :=
  assign fun s => (s.setMem (s.mem.writeByte p v)).record (.write8 p v)

/-- `Host.write16(p, v)` (R60). -/
def hostWrite16 (p : Nat) (v : Word) : M Unit :=
  assign fun s => (s.setMem (s.mem.writeWord p v)).record (.write16 p v)

/-- What is left of a list of answers: the last one stays (log entry 6). -/
def dropAnswer {α : Type} : List α → List α
  | _ :: y :: rest => y :: rest
  | l => l

/-- What `Host.ipl()` answers (R60; log entry 6). -/
def State.iplAnswer (s : State) : BitVec 3 := s.hostIpl.headD 0

/-- What `Host.iack` answers (R60; log entry 6). -/
def State.iackAnswer (s : State) : IackAnswer := s.hostIack.headD .auto

/-- `SampleIPL()`: the only reader of the input; a level below 7 arms level 7 (R317, R318). -/
def State.sampled (s : State) : State :=
  { s with
    iplPolled := s.iplAnswer
    nmiArmed := s.nmiArmed || s.iplAnswer != 7
    hostIpl := dropAnswer s.hostIpl
    port := .ipl s.iplAnswer :: s.port }

/-- `SampleIPL()` as an action. -/
def sampleIpl : M Unit := assign State.sampled

/-- `SampleIPL()` where the access is marked as the last bus cycle (R68, R317). -/
def sampleIf (poll : Bool) : M Unit := assign fun s => if poll then s.sampled else s

/-- The state after `Host.iack(level)` was answered. -/
def State.acknowledged (s : State) (level : BitVec 3) : State :=
  ({ s with hostIack := dropAnswer s.hostIack } : State).record (.iack level s.iackAnswer)

/-- `Host.iack(level)` (R321). -/
def hostIackOf (level : BitVec 3) : M IackAnswer := fun s => .ok s.iackAnswer (s.acknowledged level)

/-! ### The bus engine -/

/-- `BusRead8` (R67). -/
def busRead8 (x : Long) : M Byte := do
  charge cBusSetup
  let v ← hostRead8 (← look fun s => s.phys x)
  charge cBusDone
  return v

/-- `BusRead16`; `poll` marks the last bus cycle (R68). -/
def busRead16 (space : Space) (x : Long) (poll : Bool := false) : M Word := do
  checkEven x .read space
  charge cBusSetup
  sampleIf poll
  let v ← hostRead16 (← look fun s => s.phys x)
  charge cBusDone
  return v

/-- `BusRead32`: checked once, two words, high half first (R69). -/
def busRead32 (space : Space) (x : Long) : M Long := do
  checkEven x .read space
  let hi ← busRead16 space x
  let lo ← busRead16 space (x + 2)
  return longOf hi lo

/-- `BusWrite8` (R70). -/
def busWrite8 (x : Long) (v : Byte) : M Unit := do
  charge cBusSetup
  hostWrite8 (← look fun s => s.phys x) v
  charge cBusDone

/-- `BusWrite16` (R71). -/
def busWrite16 (space : Space) (x : Long) (v : Word) : M Unit := do
  checkEven x .write space
  charge cBusSetup
  hostWrite16 (← look fun s => s.phys x) v
  charge cBusDone

/-- `BusWrite32`: checked once, two words, high half first (R72). -/
def busWrite32 (space : Space) (x : Long) (v : Long) : M Unit := do
  checkEven x .write space
  busWrite16 space x (hiWord v)
  busWrite16 space (x + 2) (loWord v)

/-- `MemRead(x, size)`, and `MemReadP` for the program space (R73). -/
def memRead (space : Space) (x : Long) : Size → M Long
  | .b => do return (← busRead8 x).setWidth 32
  | .w => do return (← busRead16 space x).setWidth 32
  | .l => busRead32 space x

/-- `MemWrite(x, size, v)` (R73). -/
def memWrite (x : Long) (v : Long) : Size → M Unit
  | .b => busWrite8 x (loByte v)
  | .w => busWrite16 .data x (loWord v)
  | .l => busWrite32 .data x v

/-- `Push16(v)`: the register is written before the access is checked (R75). -/
def push16 (v : Word) : M Unit := do
  assign fun s => s.writeA 7 (s.sp - 2)
  busWrite16 .data (← look State.sp) v

/-- `Push32(v)` (R75). -/
def push32 (v : Long) : M Unit := do
  assign fun s => s.writeA 7 (s.sp - 4)
  busWrite32 .data (← look State.sp) v

/-- `Pop16()`: the register is written after the access (R75). -/
def pop16 : M Word := do
  let v ← busRead16 .data (← look State.sp)
  assign fun s => s.writeA 7 (s.sp + 2)
  return v

/-- `Pop32()`: the register is written after the access (R75). -/
def pop32 : M Long := do
  let v ← busRead32 .data (← look State.sp)
  assign fun s => s.writeA 7 (s.sp + 4)
  return v

/-- `ResetRead16` (R76). -/
def resetRead16 (x : Long) : M Word := do
  checkEven x .read .data
  charge cBusSetup
  let v ← hostResetRead16 (← look fun s => s.phys x)
  charge cBusDone
  return v

/-- `ResetRead32(x) = ResetRead16(x) : ResetRead16(x + 2)` (R76). -/
def resetRead32 (x : Long) : M Long := do
  let hi ← resetRead16 x
  let lo ← resetRead16 (x + 2)
  return longOf hi lo

/-! ### The prefetch pipeline -/

/-- `ReadExt()`: consume one extension word; only the lookahead stage changes (R127). -/
def readExt : M Word := do
  let w ← look State.irc
  assign fun s => s.setPc (s.pc + 2)
  let next ← busRead16 .prog (← look State.pc)
  assign fun s => s.setIrc next
  return w

/-- `Prefetch()`: the last bus cycle; samples the interrupt level (R128). -/
def prefetch : M Unit := do
  assign fun s => s.setIrd s.irc
  let next ← busRead16 .prog (← look fun s => s.pc + 2) true
  assign fun s => (s.setIrc next).setPc0 s.pc

/-- `Refill()`: reload both stages from the new `pc` (R129). -/
def refill : M Unit := do
  let w ← busRead16 .prog (← look State.pc)
  assign fun s => s.setIrc w
  prefetch

/-- `pc <- target` (R7). -/
def jumpTo (target : Long) : M Unit := assign fun s => s.setPc target

/-! ### Exceptions -/

/-- `Charge(C_VEC[kind])` (R5, R307). -/
def chargeVec (kind : ExcKind) : M Unit := do charge (← look fun s => s.cfg.vecCost kind)

/-- `Charge(C_OP[key])` (R5). -/
def chargeOp (key : CostKey) : M Unit := do charge (← look fun s => s.cfg.opCost key)

/-- `4 × vector`, the address of a vector's entry (R302, R310). -/
def vectorAddress (vector : BitVec 8) : Long := vector.setWidth 32 <<< 2

/-- The kinds that drop a queued trace, beside AddressError (R307, R308). -/
def dropsTrace : ExcKind → Bool
  | .illegalOpcode | .reservedOpcodeGroup | .privilegeViolation => true
  | _ => false

/-- The queued trace dropped, for the kinds that drop it (R307, R308). -/
def State.dropTrace (s : State) (kind : ExcKind) : State := if dropsTrace kind then s.setTracePending false else s

/-- The end every entry sequence shares: push the return pc and the old status word, fetch the handler's address, refill
(R307, R309, R310, R320). -/
def pushFrameAndVector (retpc : Long) (srOld : Word) (vector : BitVec 8) : M Unit := do
  push32 retpc
  push16 srOld
  jumpTo (← busRead32 .data (vectorAddress vector))
  refill

/-- `ExceptionEntry(kind, vector, retpc)` up to its end or to an address error inside it (R307). -/
def exceptionSequence (kind : ExcKind) (vector : BitVec 8) (retpc : Long) : M Unit := do
  assign fun s => s.setExcInService true
  let srOld ← look State.getSr
  assign fun s => ((s.setS true).setT false).dropTrace kind
  chargeVec kind
  pushFrameAndVector retpc srOld vector
  assign fun s => s.setExcInService false
  notify (.exception kind (some vector))

/-- `FC(space)`: user data 1, user program 2, supervisor data 5, supervisor program 6 (R62). -/
def State.functionCode (s : State) (space : Space) : BitVec 3 :=
  BitVec.ofBool s.sr.s ++ (match space with | .prog => 2#2 | .data => 1#2)

/-- The special status word of the address-error frame: `ird[15:5]`, direction, in-exception, function code (R312, R313). -/
def State.specialStatus (s : State) (dir : Dir) (space : Space) : Word :=
  s.ird.extractLsb' 5 11 ++ BitVec.ofBool (dir == .read) ++ BitVec.ofBool s.excInService ++ s.functionCode space

/-- `AddressErrorEntry` from the point where it is not a double fault, up to its end or to an address error inside it
(R312, R313). The special status word is formed before anything changes. -/
def addressErrorSequence (addr : Long) (dir : Dir) (space : Space) : M Unit := do
  let ssw ← look fun s => s.specialStatus dir space
  assign fun s => (s.setAeInService true).setExcInService true
  let srOld ← look State.getSr
  assign fun s => ((s.setS true).setT false).setTracePending false
  chargeVec .addressError
  push32 (← look State.pc)
  push16 srOld
  push16 (← look State.ird)
  push32 (← look fun s => BitVec.ofNat 32 (s.phys addr))
  push16 ssw
  jumpTo (← busRead32 .data (vectorAddress 3))
  refill
  assign fun s => (s.setAeInService false).setExcInService false
  notify (.exception .addressError (some 3))

/-- `DoubleFault()`: the core halts (R314). -/
def State.doubleFault (s : State) : State :=
  ((((s.setRun .halted).setAeInService false).setExcInService false).record
    (.notify (.exception .doubleFault none))).record (.notify .haltEntry)

/-- `AddressErrorEntry(addr, dir, space)` (R312): an address error in service, or raised while this one is serviced, is the
double fault (R314). -/
def addressErrorEntry (addr : Long) (dir : Dir) (space : Space) (s : State) : Outcome :=
  if s.aeInService then .next s.doubleFault
  else
    match addressErrorSequence addr dir space s with
    | .ok _ t => .next t
    | .error (.addressError _ _ _) t => .next t.doubleFault
    | .error (.refuse r) _ => .refused r

/-- A rule, or the sequence of the controller, run to its end: an address error continues with its entry in the same step
(R124, R125), a refusal stops the model. -/
def runOp (m : M Unit) (s : State) : Outcome :=
  match m s with
  | .ok _ t => .next t
  | .error (.addressError addr dir space) t => addressErrorEntry addr dir space t
  | .error (.refuse r) _ => .refused r

/-- THE TAKING OF AN EXCEPTION other than AddressError and Interrupt: `raise kind(vector, retpc)` (R124, R307). -/
def takeException (kind : ExcKind) (vector : BitVec 8) (retpc : Long) (s : State) : Outcome :=
  runOp (exceptionSequence kind vector retpc) s

/-- The return from an exception, the body of `RTE`: pops the 6-byte frame and restores the whole status register (R176,
R326). -/
def returnFromException : M Unit := do
  let srNew ← busRead16 .data (← look State.sp)
  let pcNew ← busRead32 .data (← look fun s => s.sp + 2)
  assign fun s => s.writeA 7 (s.sp + 6)
  assign fun s => s.setSr srNew
  jumpTo pcNew
  refill

/-- A privileged rule: in user mode PrivilegeViolation is raised instead, with nothing else done (line 8 of R121, R169, R330). -/
def privileged (m : M Unit) (s : State) : Outcome :=
  if s.sr.s then runOp m s else takeException .privilegeViolation 8 s.pc0 s

/-! ### Interrupts -/

/-- `IrqEligible(l)` (R319). -/
def State.irqEligible (s : State) (l : BitVec 3) : Bool :=
  (decide (l < 7) && decide (s.sr.i < l)) || (l == 7 && s.nmiArmed)

/-- The vector of an acknowledged interrupt (R320, R321). -/
def vectorOf (level : BitVec 3) : IackAnswer → BitVec 8
  | .auto => 24 + level.setWidth 8
  | .vector v => v

/-- Level 7 taken: it is not taken again before a lower sample (R318, R320). -/
def State.disarm (s : State) (level : BitVec 3) : State := if level = 7 then s.setNmiArmed false else s

/-- `InterruptEntry(level)` up to its end or to an address error inside it (R320). -/
def interruptSequence (level : BitVec 3) : M Unit := do
  assign fun s => s.setExcInService true
  let srOld ← look State.getSr
  assign fun s => ((((s.setS true).setT false).setMask level).disarm level).setRun .running
  let vector := vectorOf level (← hostIackOf level)
  chargeVec .interrupt
  pushFrameAndVector (← look State.pc) srOld vector
  assign fun s => s.setExcInService false
  notify (.exception .interrupt (some vector))

/-- The taking of an interrupt (R320). -/
def takeInterrupt (level : BitVec 3) (s : State) : Outcome := runOp (interruptSequence level) s

/-! ### The step sequencer's parts -/

/-- What a step does, by the numbered tests of R121. -/
inductive StepEvent where
  | haltedIdle | pipelineBroken | trace | interrupt | stoppedIdle | dispatch
  deriving DecidableEq, Repr

/-- The tests of R121, lines 1 to 4, in their order; the first that applies decides. Outside Halted the pipeline invariant is a
hypothesis of the step (R33, U12, U17). -/
def State.nextEvent (s : State) : StepEvent :=
  if s.run = .halted then .haltedIdle
  else if s.pipelineBroken then .pipelineBroken
  else if s.tracePending && !(s.run == .stopped && s.cfg.stopTraceHold) then .trace
  else if s.irqEligible s.iplPolled then .interrupt
  else if s.run = .stopped then .stoppedIdle
  else .dispatch

/-- Line 1: a step in Halted (R132). -/
def State.idleHalted (s : State) : State := s.tick s.cfg.cIdle

/-- Line 2: the queued trace exception, with the next instruction as its return (R121, R306). -/
def takeTrace (s : State) : Outcome :=
  takeException .traceException 9 s.pc ((s.setTracePending false).setRun .running)

/-- Line 4: a step in Stopped (R131). -/
def State.idleStopped (s : State) : State := s.sampled.tick s.cfg.cIdle

/-- Lines 5 and 7: queue the trace when `T` is set, move past the opcode word (R121, R135). -/
def State.beginInstr (s : State) : State :=
  (s.setTracePending (s.tracePending || s.sr.t)).setPc (s.pc + 2)

/-- A state whose very next step dispatches the instruction of the given words: they stand in memory from `pc`, the first two
in the pipeline as a refill there would have left them (R33), and no trace, interrupt or stop comes before (log entry 10). -/
def State.placeInstr (s : State) (ws : List Word) : State :=
  { s with
    mem := Memory.writeWords (2 ^ s.cfg.addrBits) s.mem (s.phys s.pc) ws
    ird := ws.getD 0 0
    irc := ws.getD 1 0
    run := .running
    tracePending := false
    pipelineBroken := false
    iplPolled := 0
    hostReads := [] }

end Sys2Proof.Machine
end

