-- ==== Sys2Proof/Machine/Flags.lean ====
section
/-! DEFINITION. Every computation of condition codes the spec gives: `AddFlags` (spec/45_alu.md R230), `SubFlags` (R231),
`MoveFlags` and `LogicFlags` (spec/44_move.md R209, R255), the product's flags (R252), and the condition test
(spec/43_control.md R200). Values are zero-extended in 32-bit containers; only the bits of the operand size are looked at. -/

namespace Sys2Proof.Machine

/-- `AddFlags(s, d, r, size)` (R230). -/
def addFlags (s d r : Long) (size : Size) : Ccr where
  n := msb size r
  z := trunc size r == 0
  v := msb size ((s ^^^ r) &&& (d ^^^ r))
  c := msb size ((s &&& d) ||| (~~~r &&& (s ||| d)))
  x := msb size ((s &&& d) ||| (~~~r &&& (s ||| d)))

/-- The borrow of `SubFlags` (R231). -/
def subBorrow (s d r : Long) (size : Size) : Bool :=
  msb size ((s &&& ~~~d) ||| (r &&& ~~~d) ||| (s &&& r))

/-- `SubFlags(s, d, r, size, withX = false)`: the compares leave `X` as it was (R231). -/
def cmpFlags (old : Ccr) (s d r : Long) (size : Size) : Ccr where
  n := msb size r
  z := trunc size r == 0
  v := msb size ((s ^^^ d) &&& (r ^^^ d))
  c := subBorrow s d r size
  x := old.x

/-- `SubFlags(s, d, r, size, withX = true)` (R231). -/
def subFlags (s d r : Long) (size : Size) : Ccr :=
  { cmpFlags { x := false, n := false, z := false, v := false, c := false } s d r size with x := subBorrow s d r size }

/-- `MoveFlags(v, size)`, which is also `LogicFlags` (R209, R255): `X` keeps its value. -/
def moveFlags (old : Ccr) (v : Long) (size : Size) : Ccr where
  n := msb size v
  z := trunc size v == 0
  v := false
  c := false
  x := old.x

/-- The flags of `CLR` (R215). -/
def clrFlags (old : Ccr) : Ccr where
  n := false
  z := true
  v := false
  c := false
  x := old.x

/-- `Cond(cc)` (R200). -/
def condHolds (f : Ccr) : Cond → Bool
  | .t => true
  | .f => false
  | .hi => !f.c && !f.z
  | .ls => f.c || f.z
  | .cc => !f.c
  | .cs => f.c
  | .ne => !f.z
  | .eq => f.z
  | .vc => !f.v
  | .vs => f.v
  | .pl => !f.n
  | .mi => f.n
  | .ge => f.n == f.v
  | .lt => f.n != f.v
  | .gt => !f.z && f.n == f.v
  | .le => f.z || f.n != f.v

end Sys2Proof.Machine
end

