-- ==== Sys2Proof/Machine/Operands.lean ====
section
/-! DEFINITION. The effective-address and operand resolver (spec/41_effective_address.md R140 to R162) and the operand patterns
of the arithmetic and logic rules (spec/45_alu.md R256). -/

namespace Sys2Proof.Machine

/-- `Loc`, what an addressing mode resolves to (R140). -/
inductive Loc where
  | dreg (r : RegNum)
  | areg (r : RegNum)
  | mem (addr : Long) (space : Space)
  | imm (v : Long)
  deriving DecidableEq, Repr

/-- `Inc(reg, size)`: a byte through the stack pointer adjusts by 2 (R144). -/
def inc (reg : RegNum) (size : Size) : Long :=
  if reg = 7 && size == .b then 2 else BitVec.ofNat 32 size.bytes

/-- `ReadImm(size)` (R157, R101). -/
def readImm : Size → M Long
  | .b => do return (← readExt).setWidth 32 &&& 0xFF
  | .w => do return (← readExt).setWidth 32
  | .l => do
    let hi ← readExt
    let lo ← readExt
    return longOf hi lo

/-- A base or outer displacement: none, one word sign-extended, or two words (R153). -/
def readDisp : DispSize → M Long
  | .none => return 0
  | .word => do return sext16 (← readExt)
  | .long => do
    let hi ← readExt
    let lo ← readExt
    return longOf hi lo

/-- The scaled index of bits 15:9 of an index word (R151). -/
def State.scaledIndex (s : State) (x : IndexReg) : Long :=
  let xn := if x.isAddr then s.readA x.reg else s.readD x.reg
  (if x.long then xn else sext16 (loWord xn)) <<< x.scale.toNat

/-- `FullIndexEA` (R153). Both displacements are taken from the stream before the pointer is fetched, as the rule's text and
vector V-E13 have it; its pseudocode writes `OD` after the fetch (log entry 11). -/
def fullIndexEa (base idx : Long) (space : Space) (bs is : Bool) (bd : DispSize) (ind : Indirection) : M Long := do
  let b := if bs then 0 else base
  let x := if is then 0 else idx
  let bdv ← readDisp bd
  match ind with
  | .none => return b + bdv + x
  | .preIndexed od => do
    let odv ← readDisp od
    return (← busRead32 space (b + bdv + x)) + odv
  | .postIndexed od => do
    let odv ← readDisp od
    return (← busRead32 space (b + bdv)) + x + odv
  | .noIndex od => do
    let odv ← readDisp od
    return (← busRead32 space (b + bdv)) + odv

/-- The address an index word forms; a reserved word is refused (R151 to R154). -/
def indexEaOf (word : Option IndexWord) (base : Long) (space : Space) : M Long :=
  match word with
  | none => refuseWith .reservedIndexWord
  | some (.brief x d8) => look fun s => base + s.scaledIndex x + sext8 d8
  | some (.full x bs is bd ind) => do fullIndexEa base (← look fun s => s.scaledIndex x) space bs is bd ind

/-- `IndexEA(base, space)`: reads the index word, forms the address; a reserved word is refused (R151 to R154). -/
def indexEa (base : Long) (space : Space) : M Long := do
  let w ← readExt
  charge (← look fun s => s.cfg.cIdx)
  indexEaOf (decodeIndexWord w) base space

/-- `Resolve(mode, reg, size)` (R141). -/
def resolve (ea : Ea) (size : Size) : M Loc :=
  match ea with
  | .dn r => return .dreg r
  | .an r => return .areg r
  | .ind r => do return .mem (← look fun s => s.readA r) .data
  | .postInc r => do return .mem (← look fun s => s.readA r) .data
  | .preDec r => do
    charge cAdj
    assign fun s => s.writeA r (s.readA r - inc r size)
    return .mem (← look fun s => s.readA r) .data
  | .disp r => do
    let d ← readExt
    return .mem ((← look fun s => s.readA r) + sext16 d) .data
  | .index r => do return .mem (← indexEa (← look fun s => s.readA r) .data) .data
  | .absW => do return .mem (sext16 (← readExt)) .data
  | .absL => do
    let hi ← readExt
    let lo ← readExt
    return .mem (longOf hi lo) .data
  | .pcDisp => do
    let base ← look State.pc
    let d ← readExt
    return .mem (base + sext16 d) .prog
  | .pcIndex => do return .mem (← indexEa (← look State.pc) .prog) .prog
  | .imm => do return .imm (← readImm size)

/-- `ReadLoc(loc, size)` (R142). -/
def readLoc (loc : Loc) (size : Size) : M Long :=
  match loc with
  | .dreg r => look fun s => trunc size (s.readD r)
  | .areg r => look fun s => trunc size (s.readA r)
  | .mem x space => memRead space x size
  | .imm v => return v

/-- `WriteLoc(loc, size, v)` (R142). -/
def writeLoc (loc : Loc) (size : Size) (v : Long) : M Unit :=
  match loc with
  | .dreg r => assign fun s => s.writeDPart r size v
  | .areg r => assign fun s => s.writeA r (extendToLong size v)
  | .mem x _ => memWrite x v size
  | .imm _ => refuseWith .illFormedOperand

/-- `PostAdjust(mode, reg, size)` (R145). -/
def postAdjust (ea : Ea) (size : Size) : M Unit :=
  match ea with
  | .postInc r => do
    assign fun s => s.writeA r (s.readA r + inc r size)
    charge cAdj
  | _ => return ()

/-- `ReadOp(mode, reg, size)` (R140). -/
def readOp (ea : Ea) (size : Size) : M (Long × Loc) := do
  let loc ← resolve ea size
  let v ← readLoc loc size
  postAdjust ea size
  return (v, loc)

/-- `WriteOp(mode, reg, size, v)` (R140). -/
def writeOp (ea : Ea) (size : Size) (v : Long) : M Unit := do
  let loc ← resolve ea size
  writeLoc loc size v
  postAdjust ea size

/-- The address of a memory operand (R140). -/
def addressOf : Loc → M Long
  | .mem x _ => return x
  | _ => refuseWith .illFormedOperand

/-- `ControlEA(mode, reg)`: the address itself, no access, not masked (R140). -/
def controlEa (ea : Ea) : M Long := do
  addressOf (← resolve ea .l)

/-- The destination of `CLR` and of `MOVE SR,<ea>`: a data register is only written; a memory operand is read first, a read the
host sees, and the value dropped (R179, R215). -/
def replaceOperand (ea : Ea) (size : Size) (v : Long) : M Unit :=
  match ea with
  | .dn r => assign fun s => s.writeDPart r size v
  | _ => do
    let (_, loc) ← readOp ea size
    writeLoc loc size v

/-! ### Operand patterns (R256) -/

/-- The flags of an operation: from the old flags, the source, the destination and the result. -/
abbrev FlagRule := Ccr → Long → Long → Long → Size → Ccr

/-- `Flags(s, dd, r, size)` written to the status register. -/
def setFlags (rule : FlagRule) (s dd r : Long) (size : Size) : M Unit :=
  assign fun st => st.withCcr (rule st.sr.ccr s dd r size)

/-- `EaToReg(f, Flags)`: `<ea>,Dn` (R256). -/
def eaToReg (f : Long → Long → Long) (rule : FlagRule) (kind : AluKind) (size : Size) (ea : Ea) (dn : RegNum) : M Unit := do
  let (s, _) ← readOp ea size
  let dd ← look fun st => st.readDPart dn size
  let r := trunc size (f s dd)
  assign fun st => st.writeDPart dn size r
  setFlags rule s dd r size
  chargeOp (.alu kind size ea.mode)
  prefetch

/-- `RegToEa(f, Flags)`: `Dn,<ea>`, read-modify-write (R256). -/
def regToEa (f : Long → Long → Long) (rule : FlagRule) (kind : AluKind) (size : Size) (dn : RegNum) (ea : Ea) : M Unit := do
  let s ← look fun st => st.readDPart dn size
  let (dd, loc) ← readOp ea size
  let r := trunc size (f s dd)
  writeLoc loc size r
  setFlags rule s dd r size
  chargeOp (.alu kind size ea.mode)
  prefetch

/-- `if writes then WriteLoc(loc, size, v)` (R256). -/
def writeLocIf (writes : Bool) (loc : Loc) (size : Size) (v : Long) : M Unit :=
  if writes then writeLoc loc size v else return ()

/-- `ImmToEa(f, Flags, writes)`: `#imm,<ea>`; the immediate words come first in the stream (R256). -/
def immToEa (f : Long → Long → Long) (rule : FlagRule) (writes : Bool) (kind : AluKind) (size : Size) (ea : Ea) : M Unit := do
  let s ← readImm size
  let (dd, loc) ← readOp ea size
  let r := trunc size (f s dd)
  writeLocIf writes loc size r
  setFlags rule s dd r size
  chargeOp (.alu kind size ea.mode)
  prefetch

/-- `f(s, d) = d + s` and its flags (R232). -/
def addFn (s d : Long) : Long := d + s
/-- `f(s, d) = d - s` (R236). -/
def subFn (s d : Long) : Long := d - s
/-- `f(s, d) = d AND s` (R244). -/
def andFn (s d : Long) : Long := d &&& s
/-- `f(s, d) = d OR s` (R246). -/
def orFn (s d : Long) : Long := d ||| s
/-- `f(s, d) = d XOR s` (R248). -/
def eorFn (s d : Long) : Long := d ^^^ s

/-- `AddFlags` as a flag rule (R230). -/
def addRule : FlagRule := fun _ s d r size => addFlags s d r size
/-- `SubX` (R236). -/
def subRule : FlagRule := fun _ s d r size => subFlags s d r size
/-- `CmpF` (R242). -/
def cmpRule : FlagRule := cmpFlags
/-- `LF` (R244). -/
def logicRule : FlagRule := fun old _ _ r size => moveFlags old r size

end Sys2Proof.Machine
end

