-- ==== Sys2Proof/Machine/Arith.lean ====
section
/-! DEFINITION. Addition, subtraction, compare and multiply (spec/45_alu.md R230 to R243, R251 to R254). -/

namespace Sys2Proof.Machine

/-- `ADD.s <ea>,Dn` (R232). -/
def execAddToReg (size : Size) (ea : Ea) (dn : RegNum) (s : State) : Outcome :=
  runOp (eaToReg addFn addRule .add size ea dn) s

/-- `ADD.s Dn,<ea>` (R232). -/
def execAddToMem (size : Size) (dn : RegNum) (ea : Ea) (s : State) : Outcome :=
  runOp (regToEa addFn addRule .add size dn ea) s

/-- `SUB.s <ea>,Dn` (R236). -/
def execSubToReg (size : Size) (ea : Ea) (dn : RegNum) (s : State) : Outcome :=
  runOp (eaToReg subFn subRule .sub size ea dn) s

/-- `SUB.s Dn,<ea>` (R236). -/
def execSubToMem (size : Size) (dn : RegNum) (ea : Ea) (s : State) : Outcome :=
  runOp (regToEa subFn subRule .sub size dn ea) s

/-- An address register combined with a word (sign-extended) or long source, all 32 bits, no flags: the body of `ADDA` and
`SUBA` (R233, R237). The register is read after the source was resolved. -/
def eaToAddr (f : Long → Long → Long) (kind : AluKind) (size : Size) (ea : Ea) (an : RegNum) : M Unit := do
  let (v, _) ← readOp ea size
  assign fun s => s.writeA an (f (extendToLong size v) (s.readA an))
  chargeOp (.alu kind size ea.mode)
  prefetch

/-- `ADDA.s <ea>,An` (R233). -/
def execAdda (size : Size) (ea : Ea) (an : RegNum) (s : State) : Outcome := runOp (eaToAddr addFn .adda size ea an) s

/-- `SUBA.s <ea>,An` (R237). -/
def execSuba (size : Size) (ea : Ea) (an : RegNum) (s : State) : Outcome := runOp (eaToAddr subFn .suba size ea an) s

/-- `ADDI.s #imm,<ea>` (R234). -/
def execAddi (size : Size) (ea : Ea) (s : State) : Outcome := runOp (immToEa addFn addRule true .addi size ea) s

/-- `SUBI.s #imm,<ea>` (R238). -/
def execSubi (size : Size) (ea : Ea) (s : State) : Outcome := runOp (immToEa subFn subRule true .subi size ea) s

/-- The quick value: 1 to 7, and 0 means 8 (R100, R254 f). -/
def quickValue (q : BitVec 3) : Long := if q = 0 then 8 else q.setWidth 32

/-- A quick value combined with an operand and written back: an address register is written whole and no flag changes (R235, R239). -/
def quickOperand (f : Long → Long → Long) (rule : FlagRule) (q : Long) (size : Size) (ea : Ea) : M Unit :=
  match ea with
  | .an r => assign fun s => s.writeA r (f q (s.readA r))
  | _ => do
    let (dd, loc) ← readOp ea size
    let r := trunc size (f q dd)
    writeLoc loc size r
    setFlags rule q dd r size

/-- The body of `ADDQ` and `SUBQ` (R235, R239). -/
def quickToEa (f : Long → Long → Long) (rule : FlagRule) (kind : AluKind) (q : BitVec 3) (size : Size) (ea : Ea) : M Unit := do
  quickOperand f rule (quickValue q) size ea
  chargeOp (.alu kind size ea.mode)
  prefetch

/-- `ADDQ.s #q,<ea>` (R235). -/
def execAddq (q : BitVec 3) (size : Size) (ea : Ea) (s : State) : Outcome :=
  runOp (quickToEa addFn addRule .addq q size ea) s

/-- `SUBQ.s #q,<ea>` (R239). -/
def execSubq (q : BitVec 3) (size : Size) (ea : Ea) (s : State) : Outcome :=
  runOp (quickToEa subFn subRule .subq q size ea) s

/-- The body of `NEG`: the operand is subtracted from 0 (R251). -/
def negBody (size : Size) (ea : Ea) : M Unit := do
  let (dd, loc) ← readOp ea size
  let r := trunc size (0 - dd)
  writeLoc loc size r
  setFlags subRule dd 0 r size
  chargeOp (.alu .neg size ea.mode)
  prefetch

/-- `NEG.s <ea>` (R251). -/
def execNeg (size : Size) (ea : Ea) (s : State) : Outcome := runOp (negBody size ea) s

/-- The body of `CMP`: nothing is written but the flags (R240). -/
def cmpBody (size : Size) (ea : Ea) (dn : RegNum) : M Unit := do
  let (s, _) ← readOp ea size
  let dd ← look fun st => st.readDPart dn size
  setFlags cmpRule s dd (trunc size (dd - s)) size
  chargeOp (.alu .cmp size ea.mode)
  prefetch

/-- `CMP.s <ea>,Dn` (R240). -/
def execCmp (size : Size) (ea : Ea) (dn : RegNum) (s : State) : Outcome := runOp (cmpBody size ea dn) s

/-- The body of `CMPA`: always a 32-bit compare (R241). -/
def cmpaBody (size : Size) (ea : Ea) (an : RegNum) : M Unit := do
  let (v, _) ← readOp ea size
  let s := extendToLong size v
  let dd ← look fun st => st.readA an
  setFlags cmpRule s dd (dd - s) .l
  chargeOp (.alu .cmpa size ea.mode)
  prefetch

/-- `CMPA.s <ea>,An` (R241). -/
def execCmpa (size : Size) (ea : Ea) (an : RegNum) (s : State) : Outcome := runOp (cmpaBody size ea an) s

/-- `CMPI.s #imm,<ea>`: nothing is written but the flags (R242). -/
def execCmpi (size : Size) (ea : Ea) (s : State) : Outcome := runOp (immToEa subFn cmpRule false .cmpi size ea) s

/-- The body of `CMPM`: the source is read and its register incremented first (R243). -/
def cmpmBody (size : Size) (ay ax : RegNum) : M Unit := do
  let (s, _) ← readOp (.postInc ay) size
  let (dd, _) ← readOp (.postInc ax) size
  setFlags cmpRule s dd (trunc size (dd - s)) size
  chargeOp (.cmpm size)
  prefetch

/-- `CMPM.s (Ay)+,(Ax)+` (R243). -/
def execCmpm (size : Size) (ay ax : RegNum) (s : State) : Outcome := runOp (cmpmBody size ay ax) s

/-- The unsigned product of two words (R252). -/
def unsignedProduct (s d : Word) : Long := s.setWidth 32 * d.setWidth 32

/-- The signed product of two words, each read as 16-bit two's complement (R253). -/
def signedProduct (s d : Word) : Long := BitVec.ofInt 32 (s.toInt * d.toInt)

/-- The body of the multiplies: a word source, the low word of the register, a 32-bit product (R252, R253). -/
def multiply (product : Word → Word → Long) (cost : Word → CostKey) (ea : Ea) (dn : RegNum) : M Unit := do
  let (s, _) ← readOp ea .w
  let r ← look fun st => product (loWord s) (loWord (st.readD dn))
  assign fun st => st.writeD dn r
  setFlags logicRule s 0 r .l
  chargeOp (cost (loWord s))
  prefetch

/-- `MULU <ea>,Dn` (R252). -/
def execMulu (ea : Ea) (dn : RegNum) (s : State) : Outcome := runOp (multiply unsignedProduct .mulu ea dn) s

/-- `MULS <ea>,Dn` (R253). -/
def execMuls (ea : Ea) (dn : RegNum) (s : State) : Outcome := runOp (multiply signedProduct .muls ea dn) s

end Sys2Proof.Machine
end

