-- ==== Sys2Proof/Machine/Control.lean ====
section
/-! DEFINITION. Transfers of control (spec/43_control.md R200 to R208). -/

namespace Sys2Proof.Machine

/-- `BranchTarget()`: the target, and the length of the displacement field in the stream (R208). The base is `pc` when the rule
starts; the word form takes its displacement from `irc`. -/
def State.branchTarget (s : State) (d8 : Byte) : Long × Long :=
  if d8 = 0 then (s.pc + sext16 s.irc, 2) else (s.pc + sext8 d8, 0)

/-- The body of `BRA` (R201). -/
def braBody (d8 : Byte) : M Unit := do
  let (t, _) ← look fun s => s.branchTarget d8
  jumpTo t
  chargeOp .bra
  refill

/-- `BRA <label>` (R201). -/
def execBra (d8 : Byte) (s : State) : Outcome := runOp (braBody d8) s

/-- `if skip then ReadExt()`: step over a displacement word whose value is not used (R202). -/
def skipWord (skip : Bool) : M Unit := if skip then do let _ ← readExt else return ()

/-- The body of `Bcc`: a branch not taken steps over its displacement word (R202). -/
def bccBody (cond : Cond) (d8 : Byte) : M Unit := do
  let (t, len) ← look fun s => s.branchTarget d8
  if ← look fun s => condHolds s.sr.ccr cond then
    jumpTo t
    chargeOp .bccTaken
    refill
  else
    skipWord (len == 2)
    chargeOp .bccNotTaken
    prefetch

/-- `Bcc <label>` (R202). -/
def execBcc (cond : Cond) (d8 : Byte) (s : State) : Outcome := runOp (bccBody cond d8) s

/-- The body of `BSR` (R203). -/
def bsrBody (d8 : Byte) : M Unit := do
  let (t, len) ← look fun s => s.branchTarget d8
  push32 (← look fun s => s.pc + len)
  jumpTo t
  chargeOp .bsr
  refill
  notify .callInstr

/-- `BSR <label>` (R203). -/
def execBsr (d8 : Byte) (s : State) : Outcome := runOp (bsrBody d8) s

/-- The body of `DBcc`: the low word of the register counts down to -1 (R204). -/
def dbccBody (cond : Cond) (dn : RegNum) : M Unit := do
  let base ← look State.pc
  if ← look fun s => condHolds s.sr.ccr cond then
    let _ ← readExt
    chargeOp .dbccTrue
    prefetch
  else
    let cnt ← look fun s => trunc .w (s.readDPart dn .w - 1)
    assign fun s => s.writeDPart dn .w cnt
    if cnt ≠ 0xFFFF then
      jumpTo (base + sext16 (← look State.irc))
      chargeOp .dbccBranch
      refill
    else
      let _ ← readExt
      chargeOp .dbccExpired
      prefetch

/-- `DBcc Dn,<label>` (R204). -/
def execDbcc (cond : Cond) (dn : RegNum) (s : State) : Outcome := runOp (dbccBody cond dn) s

/-- The body of `JMP` (R205). -/
def jmpBody (ea : Ea) : M Unit := do
  jumpTo (← controlEa ea)
  chargeOp (.jmp ea.mode)
  refill

/-- `JMP <ea>` (R205). -/
def execJmp (ea : Ea) (s : State) : Outcome := runOp (jmpBody ea) s

/-- The body of `JSR`: the address is resolved before the push (R206). -/
def jsrBody (ea : Ea) : M Unit := do
  let t ← controlEa ea
  push32 (← look State.pc)
  jumpTo t
  chargeOp (.jsr ea.mode)
  refill
  notify .callInstr

/-- `JSR <ea>` (R206). -/
def execJsr (ea : Ea) (s : State) : Outcome := runOp (jsrBody ea) s

/-- The body of `RTS` (R207). -/
def rtsBody : M Unit := do
  jumpTo (← pop32)
  chargeOp .rts
  refill
  notify .returnInstr

/-- `RTS` (R207). -/
def execRts (s : State) : Outcome := runOp rtsBody s

end Sys2Proof.Machine
end

