-- ==== Sys2Proof/Machine/Logic.lean ====
section
/-! DEFINITION. The logic operations (spec/45_alu.md R244 to R250, R255). -/

namespace Sys2Proof.Machine

/-- `AND.s <ea>,Dn` (R244). -/
def execAndToReg (size : Size) (ea : Ea) (dn : RegNum) (s : State) : Outcome :=
  runOp (eaToReg andFn logicRule .and size ea dn) s

/-- `AND.s Dn,<ea>` (R244). -/
def execAndToMem (size : Size) (dn : RegNum) (ea : Ea) (s : State) : Outcome :=
  runOp (regToEa andFn logicRule .and size dn ea) s

/-- `ANDI.s #imm,<ea>` (R245). -/
def execAndiEa (size : Size) (ea : Ea) (s : State) : Outcome := runOp (immToEa andFn logicRule true .andi size ea) s

/-- `OR.s <ea>,Dn` (R246). -/
def execOrToReg (size : Size) (ea : Ea) (dn : RegNum) (s : State) : Outcome :=
  runOp (eaToReg orFn logicRule .or size ea dn) s

/-- `OR.s Dn,<ea>` (R246). -/
def execOrToMem (size : Size) (dn : RegNum) (ea : Ea) (s : State) : Outcome :=
  runOp (regToEa orFn logicRule .or size dn ea) s

/-- `ORI.s #imm,<ea>` (R247). -/
def execOriEa (size : Size) (ea : Ea) (s : State) : Outcome := runOp (immToEa orFn logicRule true .ori size ea) s

/-- `EOR.s Dn,<ea>` (R248). -/
def execEor (size : Size) (dn : RegNum) (ea : Ea) (s : State) : Outcome :=
  runOp (regToEa eorFn logicRule .eor size dn ea) s

/-- `EORI.s #imm,<ea>` (R249). -/
def execEoriEa (size : Size) (ea : Ea) (s : State) : Outcome := runOp (immToEa eorFn logicRule true .eori size ea) s

/-- The body of `NOT`: it charges no `C_OP` (R250; log entry 13). -/
def notBody (size : Size) (ea : Ea) : M Unit := do
  let (dd, loc) ← readOp ea size
  let r := trunc size (~~~dd)
  writeLoc loc size r
  setFlags logicRule 0 dd r size
  prefetch

/-- `NOT.s <ea>` (R250). -/
def execNotEa (size : Size) (ea : Ea) (s : State) : Outcome := runOp (notBody size ea) s

end Sys2Proof.Machine
end

