-- ==== Sys2Proof/Machine/Move.lean ====
section
/-! DEFINITION. Data movement and single-operand data operations (spec/44_move.md R209 to R219). -/

namespace Sys2Proof.Machine

/-- `MoveFlags(v, size)` written to the status register (R209). -/
def setMoveFlags (v : Long) (size : Size) : M Unit := assign fun s => s.withCcr (moveFlags s.sr.ccr v size)

/-- The body of `MOVE` (R210). -/
def moveBody (size : Size) (src dst : Ea) : M Unit := do
  let (v, _) ← readOp src size
  writeOp dst size v
  setMoveFlags v size
  chargeOp (.move size src.mode dst.mode)
  prefetch

/-- `MOVE.s <ea>,<ea>` (R210). -/
def execMove (size : Size) (src dst : Ea) (s : State) : Outcome := runOp (moveBody size src dst) s

/-- The body of `MOVEA` (R211). -/
def moveaBody (size : Size) (src : Ea) (dst : RegNum) : M Unit := do
  let (v, _) ← readOp src size
  assign fun s => s.writeA dst (extendToLong size v)
  chargeOp (.movea size src.mode)
  prefetch

/-- `MOVEA.s <ea>,An` (R211). -/
def execMovea (size : Size) (src : Ea) (dst : RegNum) (s : State) : Outcome := runOp (moveaBody size src dst) s

/-- A data register's new value with its flags, then the prefetch: the shape of `MOVEQ`, `EXT` and `SWAP` (R212, R217, R218). -/
def updateD (f : Long → Long) (size : Size) (dn : RegNum) : M Unit := do
  let r ← look fun s => trunc size (f (s.readD dn))
  assign fun s => s.writeDPart dn size r
  setMoveFlags r size
  prefetch

/-- `MOVEQ #d,Dn` (R212). -/
def execMoveq (d8 : Byte) (dn : RegNum) (s : State) : Outcome := runOp (updateD (fun _ => sext8 d8) .l dn) s

/-- `EXT.W Dn`: bits 31:16 keep their value (R217). -/
def execExtW (dn : RegNum) (s : State) : Outcome := runOp (updateD (fun v => sext8 (loByte v)) .w dn) s

/-- `EXT.L Dn` (R217). -/
def execExtL (dn : RegNum) (s : State) : Outcome := runOp (updateD (fun v => sext16 (loWord v)) .l dn) s

/-- `SWAP Dn` (R218). -/
def execSwap (dn : RegNum) (s : State) : Outcome := runOp (updateD (fun v => longOf (loWord v) (hiWord v)) .l dn) s

/-- The body of `LEA`: no access at the address (R213). -/
def leaBody (ea : Ea) (an : RegNum) : M Unit := do
  let t ← controlEa ea
  assign fun s => s.writeA an t
  chargeOp (.lea ea.mode)
  prefetch

/-- `LEA <ea>,An` (R213). -/
def execLea (ea : Ea) (an : RegNum) (s : State) : Outcome := runOp (leaBody ea an) s

/-- The body of `PEA` (R214). -/
def peaBody (ea : Ea) : M Unit := do
  let t ← controlEa ea
  push32 t
  chargeOp (.pea ea.mode)
  prefetch

/-- `PEA <ea>` (R214). -/
def execPea (ea : Ea) (s : State) : Outcome := runOp (peaBody ea) s

/-- The body of `CLR`: a memory destination is read first (R215). -/
def clrBody (size : Size) (ea : Ea) : M Unit := do
  replaceOperand ea size 0
  assign fun s => s.withCcr (clrFlags s.sr.ccr)
  chargeOp (.clr size ea.mode)
  prefetch

/-- `CLR.s <ea>` (R215). -/
def execClr (size : Size) (ea : Ea) (s : State) : Outcome := runOp (clrBody size ea) s

/-- The body of `TST` (R216). -/
def tstBody (size : Size) (ea : Ea) : M Unit := do
  let (v, _) ← readOp ea size
  setMoveFlags v size
  chargeOp (.tst size ea.mode)
  prefetch

/-- `TST.s <ea>` (R216). -/
def execTst (size : Size) (ea : Ea) (s : State) : Outcome := runOp (tstBody size ea) s

/-- The body of `TAS`: flags from the byte read, before bit 7 was set (R219). -/
def tasBody (ea : Ea) : M Unit := do
  let (v, loc) ← readOp ea .b
  notify .tasInstr
  writeLoc loc .b (v ||| 0x80)
  setMoveFlags v .b
  chargeOp (.tas ea.mode)
  prefetch

/-- `TAS <ea>` (R219). -/
def execTas (ea : Ea) (s : State) : Outcome := runOp (tasBody ea) s

end Sys2Proof.Machine
end

