-- ==== Sys2Proof/Machine/System.lean ====
section
/-! DEFINITION. The system and dispatch-outcome operations (spec/42_system.md R168 to R188). Each meaning starts after line 7 of
R121: `pc` is the address of the word after the opcode (log entry 14). -/

namespace Sys2Proof.Machine

/-- `ILLEGAL`, and every opcode value no row takes (R170). -/
def execIllegal (s : State) : Outcome := takeException .illegalOpcode 4 s.pc0 s

/-- `LINEA`: the low 12 bits are ignored by the core (R172). -/
def execLineA (_low : BitVec 12) (s : State) : Outcome := takeException .reservedOpcodeGroup 10 s.pc0 s

/-- `LINEF` (R174). -/
def execLineF (_low : BitVec 12) (s : State) : Outcome := takeException .reservedOpcodeGroup 11 s.pc0 s

/-- `NOP` (R171). -/
def execNop (s : State) : Outcome := runOp prefetch s

/-- The body of `STOP`: no prefetch, `ird` keeps the opcode (R173). -/
def stopBody : M Unit := do
  let imm ← readExt
  assign fun s => s.setSr imm
  assign fun s => s.setRun .stopped
  sampleIpl
  notify .stopInstr
  chargeOp .stop

/-- `STOP #imm` (R173). -/
def execStop (s : State) : Outcome := privileged stopBody s

/-- The body of `RESET`: the host resets its devices, the core keeps its state (R175, R354). -/
def resetBody : M Unit := do
  notify .resetInstr
  chargeOp .reset
  prefetch

/-- `RESET` (R175). -/
def execReset (s : State) : Outcome := privileged resetBody s

/-- The vector of `TRAP #v`: `32 + v` (R100, R177). -/
def trapVector (v : BitVec 4) : BitVec 8 := 32 + v.setWidth 8

/-- `TRAP #v`: the return pc is that of the next instruction (R177, R306). -/
def execTrap (v : BitVec 4) (s : State) : Outcome := takeException .softwareTrap (trapVector v) s.pc s

/-- `RTE` (R176). -/
def execRte (s : State) : Outcome := privileged returnFromException s

/-- The body of `MOVE <ea>,SR` (R178). -/
def moveToSrBody (ea : Ea) : M Unit := do
  let (v, _) ← readOp ea .w
  assign fun s => s.setSr (loWord v)
  chargeOp .moveToSr
  prefetch

/-- `MOVE <ea>,SR` (R178). -/
def execMoveToSr (ea : Ea) (s : State) : Outcome := privileged (moveToSrBody ea) s

/-- The body of `MOVE SR,<ea>` (R179). Nothing between changes the status register, so it is read first. -/
def moveFromSrBody (ea : Ea) : M Unit := do
  replaceOperand ea .w (← look fun s => s.getSr.setWidth 32)
  chargeOp .moveFromSr
  prefetch

/-- `MOVE SR,<ea>` (R179). -/
def execMoveFromSr (ea : Ea) (s : State) : Outcome := runOp (moveFromSrBody ea) s

/-- The body of `MOVE <ea>,CCR`: a word source, its low byte used (R180). -/
def moveToCcrBody (ea : Ea) : M Unit := do
  let (v, _) ← readOp ea .w
  assign fun s => s.setCcr (loByte v)
  chargeOp .moveToCcr
  prefetch

/-- `MOVE <ea>,CCR` (R180). -/
def execMoveToCcr (ea : Ea) (s : State) : Outcome := runOp (moveToCcrBody ea) s

/-- The body of `MOVE An,USP` (R181). -/
def moveToUspBody (an : RegNum) : M Unit := do
  assign fun s => s.setUsp (s.readA an)
  prefetch

/-- `MOVE An,USP` (R181). -/
def execMoveToUsp (an : RegNum) (s : State) : Outcome := privileged (moveToUspBody an) s

/-- The body of `MOVE USP,An` (R182). -/
def moveFromUspBody (an : RegNum) : M Unit := do
  assign fun s => s.writeA an s.usp
  prefetch

/-- `MOVE USP,An` (R182). -/
def execMoveFromUsp (an : RegNum) (s : State) : Outcome := privileged (moveFromUspBody an) s

/-- An immediate combined with the condition-code byte: the body of the immediate-to-CCR forms (R183, R185, R187). -/
def immToCcr (f : Byte → Byte → Byte) : M Unit := do
  let imm ← readImm .b
  assign fun s => s.setCcr (f s.getCcr (loByte imm))
  prefetch

/-- An immediate combined with the status register: the body of the immediate-to-SR forms (R184, R186, R188). -/
def immToSr (f : Word → Word → Word) : M Unit := do
  let imm ← readImm .w
  assign fun s => s.setSr (f s.getSr (loWord imm))
  prefetch

/-- `ORI #imm,CCR` (R183). -/
def execOriCcr (s : State) : Outcome := runOp (immToCcr (· ||| ·)) s

/-- `ORI #imm,SR` (R184). -/
def execOriSr (s : State) : Outcome := privileged (immToSr (· ||| ·)) s

/-- `ANDI #imm,CCR` (R185). -/
def execAndiCcr (s : State) : Outcome := runOp (immToCcr (· &&& ·)) s

/-- `ANDI #imm,SR` (R186). -/
def execAndiSr (s : State) : Outcome := privileged (immToSr (· &&& ·)) s

/-- `EORI #imm,CCR` (R187). -/
def execEoriCcr (s : State) : Outcome := runOp (immToCcr (· ^^^ ·)) s

/-- `EORI #imm,SR` (R188). -/
def execEoriSr (s : State) : Outcome := privileged (immToSr (· ^^^ ·)) s

/-- The rule of a kind that `ROM_EXT` adds: the spec gives it no semantics (R96, U16). -/
def romExtensionBody : M Unit := refuseWith .romExtension

/-- A descriptor that `ROM_EXT` adds: the privilege test of line 8 of R121 comes before its rule (R91, R96, R122). -/
def execRomExtension (e : RomExtension) (s : State) : Outcome :=
  if e.priv then privileged romExtensionBody s else runOp romExtensionBody s

end Sys2Proof.Machine
end

