-- ==== Sys2Proof/Machine/Dispatch.lean ====
section
/-! DEFINITION. The dispatch of an instruction to its meaning (spec/40_dispatch_and_step.md R121 lines 8 and 9, R122). -/

namespace Sys2Proof.Machine

/-- The meaning of an instruction, in a state in which line 7 of R121 has been done: `pc` is past the opcode word
(log entry 14). -/
def exec (i : Instr) (s : State) : Host.Outcome State Fault Refusal :=
  match i with
  | .oriEa size ea => Sys2Proof.Machine.execOriEa size ea s
  | .andiEa size ea => Sys2Proof.Machine.execAndiEa size ea s
  | .subi size ea => Sys2Proof.Machine.execSubi size ea s
  | .addi size ea => Sys2Proof.Machine.execAddi size ea s
  | .eoriEa size ea => Sys2Proof.Machine.execEoriEa size ea s
  | .cmpi size ea => Sys2Proof.Machine.execCmpi size ea s
  | .oriCcr => Sys2Proof.Machine.execOriCcr s
  | .oriSr => Sys2Proof.Machine.execOriSr s
  | .andiCcr => Sys2Proof.Machine.execAndiCcr s
  | .andiSr => Sys2Proof.Machine.execAndiSr s
  | .eoriCcr => Sys2Proof.Machine.execEoriCcr s
  | .eoriSr => Sys2Proof.Machine.execEoriSr s
  | .move size src dst => Sys2Proof.Machine.execMove size src dst s
  | .movea size src dst => Sys2Proof.Machine.execMovea size src dst s
  | .moveFromSr ea => Sys2Proof.Machine.execMoveFromSr ea s
  | .clr size ea => Sys2Proof.Machine.execClr size ea s
  | .neg size ea => Sys2Proof.Machine.execNeg size ea s
  | .moveToCcr ea => Sys2Proof.Machine.execMoveToCcr ea s
  | .notEa size ea => Sys2Proof.Machine.execNotEa size ea s
  | .moveToSr ea => Sys2Proof.Machine.execMoveToSr ea s
  | .swap dn => Sys2Proof.Machine.execSwap dn s
  | .pea ea => Sys2Proof.Machine.execPea ea s
  | .extW dn => Sys2Proof.Machine.execExtW dn s
  | .extL dn => Sys2Proof.Machine.execExtL dn s
  | .tst size ea => Sys2Proof.Machine.execTst size ea s
  | .tas ea => Sys2Proof.Machine.execTas ea s
  | .illegal => Sys2Proof.Machine.execIllegal s
  | .trap v => Sys2Proof.Machine.execTrap v s
  | .moveToUsp an => Sys2Proof.Machine.execMoveToUsp an s
  | .moveFromUsp an => Sys2Proof.Machine.execMoveFromUsp an s
  | .reset => Sys2Proof.Machine.execReset s
  | .nop => Sys2Proof.Machine.execNop s
  | .stop => Sys2Proof.Machine.execStop s
  | .rte => Sys2Proof.Machine.execRte s
  | .rts => Sys2Proof.Machine.execRts s
  | .jsr ea => Sys2Proof.Machine.execJsr ea s
  | .jmp ea => Sys2Proof.Machine.execJmp ea s
  | .lea ea an => Sys2Proof.Machine.execLea ea an s
  | .addq q size ea => Sys2Proof.Machine.execAddq q size ea s
  | .subq q size ea => Sys2Proof.Machine.execSubq q size ea s
  | .dbcc cond dn => Sys2Proof.Machine.execDbcc cond dn s
  | .bra d8 => Sys2Proof.Machine.execBra d8 s
  | .bsr d8 => Sys2Proof.Machine.execBsr d8 s
  | .bcc cond d8 => Sys2Proof.Machine.execBcc cond d8 s
  | .moveq d8 dn => Sys2Proof.Machine.execMoveq d8 dn s
  | .orToReg size ea dn => Sys2Proof.Machine.execOrToReg size ea dn s
  | .orToMem size dn ea => Sys2Proof.Machine.execOrToMem size dn ea s
  | .subToReg size ea dn => Sys2Proof.Machine.execSubToReg size ea dn s
  | .subToMem size dn ea => Sys2Proof.Machine.execSubToMem size dn ea s
  | .suba size ea an => Sys2Proof.Machine.execSuba size ea an s
  | .lineA low => Sys2Proof.Machine.execLineA low s
  | .cmp size ea dn => Sys2Proof.Machine.execCmp size ea dn s
  | .cmpa size ea an => Sys2Proof.Machine.execCmpa size ea an s
  | .eor size dn ea => Sys2Proof.Machine.execEor size dn ea s
  | .cmpm size ay ax => Sys2Proof.Machine.execCmpm size ay ax s
  | .andToReg size ea dn => Sys2Proof.Machine.execAndToReg size ea dn s
  | .andToMem size dn ea => Sys2Proof.Machine.execAndToMem size dn ea s
  | .mulu ea dn => Sys2Proof.Machine.execMulu ea dn s
  | .muls ea dn => Sys2Proof.Machine.execMuls ea dn s
  | .addToReg size ea dn => Sys2Proof.Machine.execAddToReg size ea dn s
  | .addToMem size dn ea => Sys2Proof.Machine.execAddToMem size dn ea s
  | .adda size ea an => Sys2Proof.Machine.execAdda size ea an s
  | .lineF low => Sys2Proof.Machine.execLineF low s

end Sys2Proof.Machine
end

