-- ==== Sys2Proof/Machine/Sequencer.lean ====
section
/-! DEFINITION. The dispatch of the step sequencer: the ROM's entry for the opcode decides what runs (spec/40_dispatch_and_step.md
R121, R122). -/

namespace Sys2Proof.Machine

/-- Lines 5 to 9 of R121: the ROM's entry for the opcode in `ird` decides what runs (R90, R122). -/
def dispatch (s : State) : Outcome :=
  match romEntry s.cfg.romExt s.ird with
  | .baseline i => exec i s.beginInstr
  | .extension e => execRomExtension e s.beginInstr

end Sys2Proof.Machine
end

