-- ==== Sys2Proof/Machine/Step.lean ====
section
/-! DEFINITION. One step (spec/40_dispatch_and_step.md R121), and the placing of an instruction where the next step runs it. -/

namespace Sys2Proof.Machine

/-- `Step()`: the first test of R121 that applies decides; otherwise the opcode in `ird` is dispatched. -/
def step (s : State) : Host.Outcome State Fault Refusal :=
  match s.nextEvent with
  | .haltedIdle => .next s.idleHalted
  | .pipelineBroken => .refused .pipelineBroken
  | .trace => takeTrace s
  | .interrupt => takeInterrupt s.iplPolled s
  | .stoppedIdle => .next s.idleStopped
  | .dispatch => dispatch s

/-- The state whose next step runs the instruction of a table word: its words, the bits above `nbits` zero, stand at `pc` and in
the pipeline (log entry 10). -/
def State.withFetchWord (s : State) (nbits w : Nat) : State := s.placeInstr (instrWords nbits w)

end Sys2Proof.Machine
end

