-- ==== Sys2Proof/Machine/Accessors.lean ====
section
/-! DEFINITION. What the host may do between steps (spec/10_state.md R47): gets return the state named; sets overwrite it, the
status register and the supervisor flag through `SetSR` and `SetS`, the stack pointers by the slot they name. A plain register
set is `State.writeD`, `State.writeA`; `State.setSr` and `State.setS` are the sets of (a). -/

namespace Sys2Proof.Machine

/-- Set the user stack pointer: the slot `USP()` names (R24, R47 b). -/
def State.hostSetUserSp (s : State) (v : Long) : State :=
  if s.sr.s then s.setUsp v else s.writeA 7 v

/-- Set the supervisor stack pointer: the slot `SSP()` names (R24, R47 b). -/
def State.hostSetSupervisorSp (s : State) (v : Long) : State :=
  if s.sr.s then s.writeA 7 v else s.setSsp v

/-- The pipeline invariant of R33 between steps, as far as the words in memory show it: both stages hold the words at `PHYS(pc)` and
`PHYS(pc + 2)`; while Stopped also the STOP opcode and the word at `PHYS(pc)`. -/
def State.pipelineMatches (s : State) : Bool :=
  (s.ird == s.mem.readWord (s.phys s.pc) && s.irc == s.mem.readWord (s.phys (s.pc + 2))) ||
    (s.run == .stopped && s.ird == 0x4E72 && s.irc == s.mem.readWord (s.phys s.pc))

/-- The state after the host set `pc` or a prefetch stage: the step to come has a meaning when the pipeline holds the words at `pc`,
or when the set changed nothing and it had one before (R47 c; log entry 18). -/
def State.afterPipelineSet (old new : State) : State :=
  new.setPipelineBroken
    (!new.pipelineMatches && (old.pipelineBroken || new.pc != old.pc || new.ird != old.ird || new.irc != old.irc))

/-- Set `pc`: the pipeline is not refilled (R47 c). -/
def State.hostSetPc (s : State) (v : Long) : State := s.afterPipelineSet (s.setPc v)

/-- Set `pc0` (R47). -/
def State.hostSetPc0 (s : State) (v : Long) : State := s.setPc0 v

/-- Set both prefetch stages (R47 c). -/
def State.hostSetPipeline (s : State) (ird irc : Word) : State := s.afterPipelineSet ((s.setIrd ird).setIrc irc)

/-- Set the clock; outside the monotonic promise (R34, R47). -/
def State.hostSetClock (s : State) (v : Int) : State := { s with clock := v }

/-- Set the condition codes, the other fields unchanged (R47). -/
def State.hostSetFlags (s : State) (c : Ccr) : State := s.withCcr c

end Sys2Proof.Machine
end

