-- ==== Sys2Proof/Machine/Reset.lean ====
section
/-! DEFINITION. Power-on and hard reset (spec/70_reset_and_hazards.md R350 to R353). -/

namespace Sys2Proof.Machine

/-- The status register reset leaves: `0x2700` (R351). -/
def resetStatus : Status :=
  { t := false, s := true, i := 7, ccr := { x := false, n := false, z := false, v := false, c := false } }

/-- Every register and control bit at its reset value, before the vectors are read (R351). `S` is written directly. -/
def State.cleared (s : State) : State :=
  { s with
    d := Vector.replicate 8 s.cfg.resetGpr
    a := (Vector.replicate 8 s.cfg.resetGpr).set 7 s.sp
    usp := s.cfg.resetGpr
    sr := resetStatus
    run := .running
    tracePending := false
    nmiArmed := true
    iplPolled := 0
    aeInService := false
    excInService := false
    pipelineBroken := false
    ird := 0
    irc := 0
    pc := 0
    pc0 := 0 }

/-- `HardResetBody()` up to its end or to an address error in the refill (R351, R353). -/
def hardResetSequence : M Unit := do
  assign State.cleared
  charge (← look fun s => s.cfg.cReset)
  let sp ← resetRead32 0
  assign fun s => s.writeA 7 sp
  assign fun s => s.setSsp s.sp
  jumpTo (← resetRead32 4)
  refill
  notify .hardReset

/-- `HardReset()`: the clock keeps running (R351, R352). -/
def hardReset (s : State) : Outcome := runOp hardResetSequence s

/-- A state before power-on, in which only the parameters and the host's side have a meaning (R350). -/
def State.unpowered (cfg : Config) (mem : Memory) : State :=
  { State.reset with cfg := cfg, mem := mem, port := [] }

/-- `PowerOn()`: the clock starts at `CLOCK_BIAS` (R350). -/
def powerOn (s : State) : Outcome := hardReset { s with clock := s.cfg.clockBias }

end Sys2Proof.Machine
end

