-- ==== Sys2Proof/Safety.lean ====
section
/-! DEFINITION. The terms the claims use: when an operand can be accessed, what a rule's effect is apart from the pipeline and the
clock, the frames an entry sequence pushes, and the invariants of a run.

`s` in these definitions is a state in which line 7 of R121 has been done, unless a docstring says otherwise. -/

namespace Sys2Proof.Machine

/-! ### Alignment and operands -/

/-- An even address (R66). -/
def isEven (x : Long) : Bool := !isOdd x

/-- The access of a size at an address is no address error (R66). -/
def alignedFor (size : Size) (x : Long) : Bool := size == .b || isEven x

/-! ### What an aligned access leaves (R67 to R73) -/

/-- The state after a byte read (R67). -/
def State.byteRead (s : State) (x : Long) : State :=
  ((s.tick cBusSetup).answered (.read8 (s.phys x) (s.answer8 (s.phys x)))).tick cBusDone

/-- The state after an aligned word read; `poll` marks the last bus cycle, which samples the interrupt level (R68). -/
def State.wordRead (s : State) (x : Long) (poll : Bool := false) : State :=
  ((if poll then (s.tick cBusSetup).sampled else s.tick cBusSetup).answered
    (.read16 (s.phys x) (s.answer16 (s.phys x)))).tick cBusDone

/-- The state after an aligned long read (R69). -/
def State.longRead (s : State) (x : Long) : State := (s.wordRead x).wordRead (x + 2)

/-- What the host answers to a long read: two words, high half first (R69). -/
def State.answer32 (s : State) (x : Long) : Long :=
  longOf (s.answer16 (s.phys x)) ((s.wordRead x).answer16 (s.phys (x + 2)))

/-- The value of an aligned read of a size, zero-extended (R73). -/
def State.answerSize (s : State) (x : Long) : Size → Long
  | .b => (s.answer8 (s.phys x)).setWidth 32
  | .w => (s.answer16 (s.phys x)).setWidth 32
  | .l => s.answer32 x

/-- The state after an aligned read of a size (R73). -/
def State.sizeRead (s : State) (x : Long) : Size → State
  | .b => s.byteRead x
  | .w => s.wordRead x
  | .l => s.longRead x

/-- The state after a byte write (R70). -/
def State.byteWritten (s : State) (x : Long) (v : Byte) : State :=
  (((s.tick cBusSetup).setMem (s.mem.writeByte (s.phys x) v)).record (.write8 (s.phys x) v)).tick cBusDone

/-- The state after an aligned word write (R71). -/
def State.wordWritten (s : State) (x : Long) (v : Word) : State :=
  (((s.tick cBusSetup).setMem (s.mem.writeWord (s.phys x) v)).record (.write16 (s.phys x) v)).tick cBusDone

/-- The state after an aligned long write, high half first (R72). -/
def State.longWritten (s : State) (x : Long) (v : Long) : State :=
  (s.wordWritten x (hiWord v)).wordWritten (x + 2) (loWord v)

/-- The state after an aligned write of a size (R73). -/
def State.sizeWritten (s : State) (x v : Long) : Size → State
  | .b => s.byteWritten x (loByte v)
  | .w => s.wordWritten x (loWord v)
  | .l => s.longWritten x v

/-! ### What an aligned pipeline advance leaves (R127 to R129) -/

/-- The state after `ReadExt()` when the fetch is aligned (R127). -/
def State.extTaken (s : State) : State :=
  ((s.setPc (s.pc + 2)).wordRead (s.pc + 2)).setIrc (s.answer16 (s.phys (s.pc + 2)))

/-- The state after `Prefetch()` when the fetch is aligned (R128). -/
def State.prefetched (s : State) : State :=
  (((s.setIrd s.irc).wordRead (s.pc + 2) true).setIrc (s.answer16 (s.phys (s.pc + 2)))).setPc0 s.pc

/-- The state after `Refill()` when `pc` is even (R129). -/
def State.refilled (s : State) : State :=
  ((s.wordRead s.pc).setIrc (s.answer16 (s.phys s.pc))).prefetched

/-- The immediate of a size in the extension words that come next (R101, R157). -/
def State.immNext (s : State) : Size → Long
  | .b => s.irc.setWidth 32 &&& 0xFF
  | .w => s.irc.setWidth 32
  | .l => longOf s.irc s.extTaken.irc

/-- The state after those words were consumed (R157). -/
def State.immTaken (s : State) : Size → State
  | .b => s.extTaken
  | .w => s.extTaken
  | .l => s.extTaken.extTaken

/-- An operand of a mode and size can be accessed: the pipeline fetches of its extension words and its own access are aligned,
and its index word, if it has one, has a meaning and an aligned pointer (R141, R154, R158). -/
def OperandReady (ea : Ea) (size : Size) (s : State) : Prop :=
  match ea with
  | .dn _ => True
  | .an _ => True
  | .ind r => alignedFor size (s.readA r) = true
  | .postInc r => alignedFor size (s.readA r) = true
  | .preDec r => alignedFor size (s.readA r - inc r size) = true
  | .disp r => isEven s.pc = true ∧ alignedFor size (s.readA r + sext16 s.irc) = true
  | .index r => ∃ x u, indexEa (s.readA r) .data s = .ok x u ∧ alignedFor size x = true
  | .absW => isEven s.pc = true ∧ alignedFor size (sext16 s.irc) = true
  | .absL => isEven s.pc = true ∧ alignedFor size (longOf s.irc s.extTaken.irc) = true
  | .pcDisp => isEven s.pc = true ∧ alignedFor size (s.pc + sext16 s.irc) = true
  | .pcIndex => ∃ x u, indexEa s.pc .prog s = .ok x u ∧ alignedFor size x = true
  | .imm => isEven s.pc = true

/-- The address of a control-class operand can be formed; nothing is accessed there (R140, R154). -/
def AddressReady (ea : Ea) (s : State) : Prop :=
  match ea with
  | .ind _ => True
  | .disp _ => isEven s.pc = true
  | .index r => ∃ x u, indexEa (s.readA r) .data s = .ok x u
  | .absW => isEven s.pc = true
  | .absL => isEven s.pc = true
  | .pcDisp => isEven s.pc = true
  | .pcIndex => ∃ x u, indexEa s.pc .prog s = .ok x u
  | _ => False

/-- The state with the address register that the mode adjusts after the access or before it (R141, R144, R145). -/
def State.adjusted (s : State) (ea : Ea) (size : Size) : State :=
  match ea with
  | .postInc r => s.writeA r (s.readA r + inc r size)
  | .preDec r => s.writeA r (s.readA r - inc r size)
  | _ => s

/-! ### Stores -/

/-- Memory after the word or words, or the byte, of a store (R70 to R73). -/
def State.storedMem (s : State) (x : Long) (size : Size) (v : Long) : Memory :=
  match size with
  | .b => s.mem.writeByte (s.phys x) (loByte v)
  | .w => s.mem.writeWord (s.phys x) (loWord v)
  | .l => (s.mem.writeWord (s.phys x) (hiWord v)).writeWord (s.phys (x + 2)) (loWord v)

/-- A byte address is one of those a store of a size writes. -/
def storesTo (s : State) (x : Long) (size : Size) (p : Nat) : Prop :=
  ∃ k : Nat, k < size.bytes ∧ p = s.phys (x + BitVec.ofNat 32 k)

/-- The effect of writing a resolved operand, apart from the clock and the port (R142). -/
def State.stored (s : State) (loc : Loc) (size : Size) (v : Long) : State :=
  match loc with
  | .dreg r => s.writeDPart r size v
  | .areg r => s.writeA r (extendToLong size v)
  | .mem x _ => s.setMem (s.storedMem x size v)
  | .imm _ => s

/-- The byte addresses a resolved operand's write touches: none for a register. -/
def Loc.storesTo (s : State) (loc : Loc) (size : Size) (p : Nat) : Prop :=
  match loc with
  | .mem x _ => Machine.storesTo s x size p
  | _ => False

/-- The state after a resolved operand was written, with the clock and the port (R142). -/
def State.locWritten (s : State) (loc : Loc) (size : Size) (v : Long) : State :=
  match loc with
  | .dreg r => s.writeDPart r size v
  | .areg r => s.writeA r (extendToLong size v)
  | .mem x _ => s.sizeWritten x v size
  | .imm _ => s

/-- The state after `PostAdjust`, with its charge (R145). -/
def State.postAdjusted (s : State) (ea : Ea) (size : Size) : State :=
  match ea with
  | .postInc r => (s.writeA r (s.readA r + inc r size)).tick cAdj
  | _ => s

/-- The state after an aligned `Push32` (R75). -/
def State.longPushed (s : State) (v : Long) : State := (s.writeA 7 (s.sp - 4)).longWritten (s.sp - 4) v

/-- The end of a rule: its internal charge, then the prefetch (R123 e). -/
def State.finished (s : State) (cost : Nat) : State := (s.tick cost).prefetched

/-- Every byte of memory reads as before. -/
def SameBytes (s t : State) : Prop := ∀ p : Nat, t.mem.readByte p = s.mem.readByte p

/-- Every byte of memory outside the stored ones reads as before. -/
def SameBytesBut (stores : Nat → Prop) (s t : State) : Prop := ∀ p : Nat, ¬ stores p → t.mem.readByte p = s.mem.readByte p

/-! ### What an effect leaves alone -/

/-- Everything but the program counters, the pipeline, the clock, the interrupt sampling and the host's answers and log is the same. -/
structure SameCore (s t : State) : Prop where
  cfg : t.cfg = s.cfg
  d : t.d = s.d
  a : t.a = s.a
  usp : t.usp = s.usp
  ssp : t.ssp = s.ssp
  sr : t.sr = s.sr
  run : t.run = s.run
  tracePending : t.tracePending = s.tracePending
  aeInService : t.aeInService = s.aeInService
  excInService : t.excInService = s.excInService
  pipelineBroken : t.pipelineBroken = s.pipelineBroken
  mem : t.mem = s.mem

/-- The program counters and the pipeline after `Prefetch()` from a state: the next instruction is the word that was in the
lookahead stage, and the new lookahead word is what the host answers at `pc + 2` (R128). -/
structure Prefetched (s t : State) : Prop where
  pc : t.pc = s.pc
  pc0 : t.pc0 = s.pc
  ird : t.ird = s.irc
  irc : t.irc = s.answer16 (s.phys (s.pc + 2))

/-- The program counters and the pipeline after `Refill()` from a state: both stages hold what the host answers at `pc` and
`pc + 2` (R129). -/
structure Refilled (s t : State) : Prop where
  pc : t.pc = s.pc
  pc0 : t.pc0 = s.pc
  ird : t.ird = s.answer16 (s.phys s.pc)
  irc : t.irc = (s.wordRead s.pc).answer16 (s.phys (s.pc + 2))

/-! ### Entry sequences -/

/-- The effect of a push of a long or a word through `a[7]`, apart from the clock and the port (R75). -/
def State.pushed (s : State) (size : Size) (v : Long) : State :=
  (s.writeA 7 (s.sp - BitVec.ofNat 32 size.bytes)).stored (.mem (s.sp - BitVec.ofNat 32 size.bytes) .data) size v

/-- The state an exception entry leaves before its vector fetch, apart from the clock and the port: supervisor mode, trace flag
cleared, a queued trace dropped for the kinds that drop it, the 6-byte frame pushed (R307 to R309). -/
def State.exceptionFrame (s : State) (kind : ExcKind) (retpc : Long) : State :=
  ((((((s.setS true).setT false).dropTrace kind).setExcInService false).pushed .l retpc).pushed .w
    (s.getSr.setWidth 32))

/-- The state an interrupt entry leaves before its vector fetch, apart from the clock, the acknowledge and the port: supervisor
mode, trace flag cleared, the mask raised, level 7 disarmed, Running, the 6-byte frame pushed (R320). -/
def State.interruptFrame (s : State) (level : BitVec 3) : State :=
  ((((((((s.setS true).setT false).setMask level).disarm level).setRun .running).setExcInService false).pushed .l s.pc).pushed .w
    (s.getSr.setWidth 32))

/-- The state an address-error entry leaves before its vector fetch, apart from the clock and the port: supervisor mode, trace flag
cleared, a queued trace dropped, the 14-byte frame pushed (R312, R313). -/
def State.addressErrorFrame (s : State) (addr : Long) (dir : Dir) (space : Space) : State :=
  ((((((((((s.setS true).setT false).setTracePending false).setAeInService false).setExcInService false).pushed .l
    s.pc).pushed .w (s.getSr.setWidth 32)).pushed .w (s.ird.setWidth 32)).pushed .l
    (BitVec.ofNat 32 (s.phys addr))).pushed .w ((s.specialStatus dir space).setWidth 32))

/-- The handler's address after a frame was pushed: the long the host answers at the vector's entry (R310). -/
def State.handler (frame : State) (vector : BitVec 8) : Long := frame.answer32 (vectorAddress vector)

/-- The state from which the handler's first words are fetched (R307). -/
def State.atHandler (frame : State) (vector : BitVec 8) : State :=
  (frame.longRead (vectorAddress vector)).setPc (frame.handler vector)

/-- What an entry of the normal kind leaves in `t`: the frame and the mode in the core, the handler in the pipeline, the level the
refill sampled, the cost, the notification last, every byte outside the 6-byte frame as before (R307, R309, R310, R317, R338, R341). -/
structure Enters (kind : ExcKind) (vector : BitVec 8) (retpc : Long) (s t : State) : Prop where
  core : SameCore (s.exceptionFrame kind retpc) t
  pipeline : Refilled ((s.exceptionFrame kind retpc).atHandler vector) t
  ipl : t.iplPolled = s.iplAnswer
  nmi : t.nmiArmed = (s.nmiArmed || s.iplAnswer != 7)
  clock : t.clock = s.clock + s.cfg.vecCost kind + 28
  event : t.port.head? = some (.notify (.exception kind (some vector)))
  bytes : SameBytesBut (fun p => storesTo s (s.supervisorSp - 4) .l p ∨ storesTo s (s.supervisorSp - 6) .w p) s t

/-- An entry of the normal kind meets no address error: the supervisor stack and the handler are even (R307). -/
def EntryReady (kind : ExcKind) (vector : BitVec 8) (retpc : Long) (s : State) : Prop :=
  isEven s.supervisorSp = true ∧ isEven ((s.exceptionFrame kind retpc).handler vector) = true

/-! ### The patterns of R256 -/

/-- The operations of the two-operand patterns (R256). -/
inductive AluOp where
  | add | sub | and | or | eor
  deriving DecidableEq, Repr

/-- The result function `f(s, d)` before it is cut to the size (R232, R236, R244, R246, R248). -/
def AluOp.result : AluOp → Long → Long → Long
  | .add, s, d => d + s
  | .sub, s, d => d - s
  | .and, s, d => d &&& s
  | .or, s, d => d ||| s
  | .eor, s, d => d ^^^ s

/-- The flag helper (R232, R236, R244, R246, R248). -/
def AluOp.flags (op : AluOp) (old : Ccr) (s d r : Long) (size : Size) : Ccr :=
  match op with
  | .add => addFlags s d r size
  | .sub => subFlags s d r size
  | .and | .or | .eor => moveFlags old r size

/-- The instruction `<ea>,Dn`; exclusive or has none (R248). -/
def AluOp.toReg (op : AluOp) (size : Size) (ea : Ea) (dn : RegNum) : Option Instr :=
  match op with
  | .add => some (.addToReg size ea dn)
  | .sub => some (.subToReg size ea dn)
  | .and => some (.andToReg size ea dn)
  | .or => some (.orToReg size ea dn)
  | .eor => none

/-- The instruction `Dn,<ea>`. -/
def AluOp.toEa (op : AluOp) (size : Size) (dn : RegNum) (ea : Ea) : Instr :=
  match op with
  | .add => .addToMem size dn ea
  | .sub => .subToMem size dn ea
  | .and => .andToMem size dn ea
  | .or => .orToMem size dn ea
  | .eor => .eor size dn ea

/-- The instruction `#imm,<ea>`. -/
def AluOp.immToEa (op : AluOp) (size : Size) (ea : Ea) : Instr :=
  match op with
  | .add => .addi size ea
  | .sub => .subi size ea
  | .and => .andiEa size ea
  | .or => .oriEa size ea
  | .eor => .eoriEa size ea

/-- The `C_OP` kind of the register forms. -/
def AluOp.kind : AluOp → AluKind
  | .add => .add
  | .sub => .sub
  | .and => .and
  | .or => .or
  | .eor => .eor

/-- The `C_OP` kind of the immediate form. -/
def AluOp.immKind : AluOp → AluKind
  | .add => .addi
  | .sub => .subi
  | .and => .andi
  | .or => .ori
  | .eor => .eori

/-- The value of a size read as two's complement (R254 d). -/
def signed (size : Size) (v : Long) : Int :=
  match size with
  | .b => (loByte v).toInt
  | .w => (loWord v).toInt
  | .l => v.toInt

/-! ### Invariants of a run -/

/-- Memory is in canonical form and inside the address space (R61). -/
def MemInv (s : State) : Prop := s.mem.wf = true ∧ s.mem.below (2 ^ s.cfg.addrBits) = true

/-- The transient bits are clear, as at every step boundary (R38). -/
def QuietInv (s : State) : Prop := s.aeInService = false ∧ s.excInService = false

/-- What the rules promise of the program counters at a step boundary: while Running, `pc` is even and `pc0` is the address of the
instruction about to run; while Stopped, `pc` is even (R25, R26). -/
def PcInv (s : State) : Prop :=
  (s.run = .running → isEven s.pc = true ∧ s.pc0 = s.pc) ∧ (s.run = .stopped → isEven s.pc = true)

/-- The pipeline invariant at a step boundary: while Running, both stages hold words that were read from `pc` and `pc + 2`; while
Stopped, the lookahead stage holds a word that was read from `pc`, and `ird` the STOP opcode (R33). -/
def PipelineInv (s : State) : Prop :=
  (s.run = .running → PortCall.read16 (s.phys s.pc) s.ird ∈ s.port ∧ PortCall.read16 (s.phys (s.pc + 2)) s.irc ∈ s.port) ∧
  (s.run = .stopped → s.ird = 0x4E72 ∧ PortCall.read16 (s.phys s.pc) s.irc ∈ s.port)

end Sys2Proof.Machine

namespace Sys2Proof

/-! ### Instructions by what they may do -/

/-- The instructions that can write `S = 0` (R331). -/
def Instr.canLeaveSupervisor : Instr → Bool
  | .rte | .moveToSr _ | .andiSr | .eoriSr | .stop => true
  | _ => false

/-- The operand an instruction reads first, with its size: those whose rule begins with `ReadOp` of it (R123 b). The privileged
one among them, `MOVE <ea>,SR`, begins so in supervisor mode. -/
def Instr.firstOperand : Instr → Option (Ea × Size)
  | .addToReg size ea _ | .subToReg size ea _ | .andToReg size ea _ | .orToReg size ea _ => some (ea, size)
  | .addToMem size _ ea | .subToMem size _ ea | .andToMem size _ ea | .orToMem size _ ea | .eor size _ ea => some (ea, size)
  | .adda size ea _ | .suba size ea _ | .cmp size ea _ | .cmpa size ea _ => some (ea, size)
  | .move size ea _ | .movea size ea _ | .tst size ea | .neg size ea | .notEa size ea => some (ea, size)
  | .mulu ea _ | .muls ea _ | .moveToCcr ea | .moveToSr ea => some (ea, .w)
  | .tas ea => some (ea, .b)
  | .cmpm size ay _ => some (.postInc ay, size)
  | _ => none

/-- The two modes with an index word (R155, R156). -/
def Ea.isIndexed : Ea → Bool
  | .index _ | .pcIndex => true
  | _ => false

/-- The instructions whose first extension word is the index word of their operand (R95). -/
def Instr.startsWithIndex (i : Instr) : Bool :=
  match i.firstOperand with
  | some (ea, _) => ea.isIndexed
  | none =>
    match i with
    | .pea ea | .jsr ea | .jmp ea | .lea ea _ | .clr _ ea | .moveFromSr ea | .addq _ _ ea | .subq _ _ ea => ea.isIndexed
    | _ => false

end Sys2Proof
end

