-- ==== Sys2Proof/Certificates/Slice0/Obligations.lean ====
section
/-! DEFINITION. The statements. A statement about an instruction gives the state it leaves and, as `SameCore` of an update of the
starting state, its frame: every register, flag, control bit and shadow pointer not named in the update is unchanged. -/

open Sys2Proof Sys2Proof.Machine

/-! ### Encoding -/

/-- R93, R97: opcode words written out from the opcode map decode to the instructions they stand for. -/
def Obligations.SampleOpcodesDecode : Prop :=
  decode 0x0680 = .addi .l (.dn 0) ∧ decode 0x027C = .andiSr ∧ decode 0x2D08 = .move .l (.an 0) (.preDec 6) ∧
  decode 0x307C = .movea .w .imm 0 ∧ decode 0x41FA = .lea .pcDisp 0 ∧ decode 0x4E4F = .trap 15 ∧
  decode 0x514F = .subq 0 .w (.an 7) ∧ decode 0x51C8 = .dbcc .f 0 ∧ decode 0x67FE = .bcc .eq 0xFE ∧
  decode 0x8181 = .illegal ∧ decode 0x9150 = .subToMem .w 0 (.ind 0) ∧ decode 0xA123 = .lineA 0x123 ∧
  decode 0xB308 = .cmpm .b 0 1 ∧ decode 0xC1C1 = .muls (.dn 1) 0 ∧ decode 0xD0F8 = .adda .w .absW 0 ∧ decode 0x4AFC = .illegal

/-- R97, R110: decoding the encoding of a well-formed instruction gives it back, with every operand at every value. -/
def Obligations.DecodeInvertsEncode : Prop := ∀ i : Instr, i.wellFormed = true → decode (encode i) = i

/-- R90, R96, R97: every opcode value decodes to a well-formed instruction, and one that is not `ILLEGAL` is its encoding. The ROM
image is that baseline with the descriptors of `ROM_EXT`, each at its value: a legal `ROM_EXT` moves no value the baseline assigns. -/
def Obligations.EncodeInvertsDecode : Prop :=
  (∀ w : Word, (decode w).wellFormed = true ∧ (decode w ≠ .illegal → encode (decode w) = w)) ∧
  (∀ (ext : List RomExtension) (w : Word), romExtLegal ext = true →
    (∀ e ∈ ext, romEntry ext e.opcode = .extension e) ∧
    ((∀ e ∈ ext, e.opcode ≠ w) → romEntry ext w = .baseline (decode w)) ∧
    (decode w ≠ .illegal → romEntry ext w = .baseline (decode w)))

/-- R152, R153: the index extension word and its fields determine each other. -/
def Obligations.IndexWordsRoundTrip : Prop :=
  (∀ x : IndexWord, x.wellFormed = true → decodeIndexWord (encodeIndexWord x) = some x) ∧
  (∀ (w : Word) (x : IndexWord), decodeIndexWord w = some x → x.wellFormed = true ∧ encodeIndexWord x = w)

/-! ### The step -/

/-- R121: when the bytes at `pc`, already in the pipeline, decode to an instruction, `ROM_EXT` adds no entry for their value, and no
queued trace, interrupt or stop comes before, the step runs that instruction, in a state in which only `pc` has moved past the
opcode and a trace was queued if `T` is set. -/
def Obligations.StepRunsDecodedInstruction : Prop :=
  ∀ (s : State) (i : Instr), s.run = .running → s.pipelineBroken = false → s.tracePending = false →
    s.irqEligible s.iplPolled = false → s.ird = s.mem.readWord (s.phys s.pc) → (∀ e ∈ s.cfg.romExt, e.opcode ≠ s.ird) →
    decodeBytes [s.mem.readByte (s.phys s.pc), s.mem.readByte (s.phys s.pc + 1)] = .ok (i, []) →
    step s = exec i s.beginInstr ∧ s.beginInstr = { s with pc := s.pc + 2, tracePending := s.sr.t }

/-- R121, R131, R132: the order in which a step tests what it does; R121 says of it "The place of each test in this order is this
spec's reading of the document's priority line" (D12). In Halted it charges `C_IDLE` and changes nothing else; outside Halted a
pipeline the host broke has no meaning (U12, U17; log entry 18); a queued trace comes before an eligible interrupt, which comes before the idle
step in Stopped, which samples the level, charges `C_IDLE` and changes nothing else; otherwise the ROM's entry for the opcode in
`ird` is dispatched: an operation runs, a privileged descriptor in user mode raises PrivilegeViolation, and the rule of a descriptor
that `ROM_EXT` adds is refused (R96, U16). -/
def Obligations.StepOrder : Prop :=
  ∀ s : State,
    (s.run = .halted → step s = .next { s with clock := s.clock + s.cfg.cIdle }) ∧
    (s.run ≠ .halted → s.pipelineBroken = true → step s = .refused .pipelineBroken) ∧
    (s.run ≠ .halted → s.pipelineBroken = false → s.tracePending = true → ¬(s.run = .stopped ∧ s.cfg.stopTraceHold = true) →
      step s = takeException .traceException 9 s.pc { s with tracePending := false, run := .running }) ∧
    (s.run ≠ .halted → s.pipelineBroken = false → (s.tracePending = false ∨ (s.run = .stopped ∧ s.cfg.stopTraceHold = true)) →
      s.irqEligible s.iplPolled = true → step s = takeInterrupt s.iplPolled s) ∧
    (s.run = .stopped → s.pipelineBroken = false → (s.tracePending = false ∨ s.cfg.stopTraceHold = true) →
      s.irqEligible s.iplPolled = false →
      ∃ t, step s = .next t ∧ SameCore s t ∧ t.pc = s.pc ∧ t.pc0 = s.pc0 ∧ t.ird = s.ird ∧ t.irc = s.irc ∧
        t.hostReads = s.hostReads ∧ t.hostIack = s.hostIack ∧ t.clock = s.clock + s.cfg.cIdle ∧
        t.iplPolled = s.iplAnswer ∧ t.nmiArmed = (s.nmiArmed || s.iplAnswer != 7) ∧ t.port = .ipl s.iplAnswer :: s.port) ∧
    (s.run = .running → s.pipelineBroken = false → s.tracePending = false → s.irqEligible s.iplPolled = false →
      (∀ i, romEntry s.cfg.romExt s.ird = .baseline i → step s = exec i s.beginInstr) ∧
      (∀ e, romEntry s.cfg.romExt s.ird = .extension e → step s =
        if e.priv = true ∧ s.sr.s = false then takeException .privilegeViolation 8 s.pc0 s.beginInstr
        else .refused .romExtension))

/-- R319: which levels are eligible, and that the test is made in Running and in Stopped alike, never in Halted. -/
def Obligations.InterruptEligibility : Prop :=
  ∀ s : State,
    (∀ l : BitVec 3, s.irqEligible l = true ↔
      (l.toNat < 7 ∧ s.sr.i.toNat < l.toNat) ∨ (l.toNat = 7 ∧ s.nmiArmed = true)) ∧ s.irqEligible 0 = false ∧
    (s.run ≠ .halted → s.pipelineBroken = false → s.tracePending = false → s.irqEligible s.iplPolled = true →
      step s = takeInterrupt s.iplPolled s) ∧
    (s.run = .halted → step s = .next { s with clock := s.clock + s.cfg.cIdle })

/-- R120, R154, R96, R33, R47 c: a step always ends, in a next state or in a refusal, and when it is refused. It is refused for a
broken pipeline exactly when the host left it broken outside Halted, which a set of `pc` does unless `ird` and `irc` hold the words
there, and for a descriptor of `ROM_EXT` exactly when its rule would run; the one other refusal is the reserved index word. The mark
of a broken pipeline is the model's own field (log entry 18). -/
def Obligations.StepIsTotal : Prop :=
  ∀ s : State,
    (QuietInv s → (∃ t, step s = .next t) ∨ step s = .refused .reservedIndexWord ∨
      step s = .refused .romExtension ∨ step s = .refused .pipelineBroken) ∧
    (QuietInv s → (step s = .refused .pipelineBroken ↔ s.run ≠ .halted ∧ s.pipelineBroken = true)) ∧
    (QuietInv s → (step s = .refused .romExtension ↔ s.nextEvent = .dispatch ∧
      ∃ e, romEntry s.cfg.romExt s.ird = .extension e ∧ (e.priv = true → s.sr.s = true))) ∧
    (∀ v, s.run = .running → s.pipelineBroken = false → v ≠ s.pc →
      ((s.hostSetPc v).pipelineBroken = false ↔ s.ird = s.mem.readWord (s.phys v) ∧ s.irc = s.mem.readWord (s.phys (v + 2)))) ∧
    (∀ (v : Long) (w x : Word), w = s.mem.readWord (s.phys v) → x = s.mem.readWord (s.phys (v + 2)) →
      (s.hostSetPc v).hostSetPipeline w x = { s with pc := v, ird := w, irc := x, pipelineBroken := false })

/-! ### Registers -/

/-- R20: a byte or word write to a data register keeps the other bits, and the other registers keep their value. -/
def Obligations.PartialRegisterWrites : Prop :=
  ∀ (s : State) (r : RegNum) (size : Size) (v : Long),
    (∀ k, ((s.writeDPart r size v).readD r).getLsbD k = if k < size.bits then v.getLsbD k else (s.readD r).getLsbD k) ∧
    (∀ q, q ≠ r → (s.writeDPart r size v).readD q = s.readD q) ∧ (∀ q, (s.writeDPart r size v).readA q = s.readA q) ∧
    (s.writeDPart r size v).readDPart r size = trunc size v ∧ (s.writeDPart r size v).sr = s.sr

/-- R29: the status word, read and written: its layout, `SetSR(GetSR())` changes nothing, an unimplemented bit written reads 0, and
the condition-code byte leaves `T`, `S` and `I` alone. `SetSR` writes `S` through the swap of R23. -/
def Obligations.StatusRegisterRoundTrips : Prop :=
  ∀ s : State,
    s.getSr = BitVec.ofBool s.sr.t ++ 0#1 ++ BitVec.ofBool s.sr.s ++ 0#2 ++ s.sr.i ++ 0#3 ++ BitVec.ofBool s.sr.ccr.x ++
      BitVec.ofBool s.sr.ccr.n ++ BitVec.ofBool s.sr.ccr.z ++ BitVec.ofBool s.sr.ccr.v ++ BitVec.ofBool s.sr.ccr.c ∧
    s.getCcr = s.getSr.extractLsb' 0 8 ∧ s.setSr s.getSr = s ∧
    (∀ v : Word, (s.setSr v).getSr = v &&& 0xA71F ∧ ∃ r, s.setSr v = { s.setS (v.getLsbD 13) with sr := r }) ∧
    (∀ v : Byte, (s.setCcr v).getCcr = v &&& 0x1F ∧ (s.setCcr v).getSr &&& 0xFFE0 = s.getSr &&& 0xFFE0 ∧
      ∃ r, s.setCcr v = { s with sr := r })

/-- R23, R24, R47 b: writing the supervisor flag its own value changes nothing; writing the opposite value swaps the active stack
pointer with its shadow, and both levels' stack pointers keep their value. The host's sets of one level's stack pointer change
that one only. -/
def Obligations.SupervisorFlagSwapsStackPointers : Prop :=
  ∀ s : State, s.setS s.sr.s = s ∧
    (s.sr.s = false → s.setS true = { s with a := s.a.set 7 s.ssp, usp := s.sp, sr := { s.sr with s := true } }) ∧
    (s.sr.s = true → s.setS false = { s with a := s.a.set 7 s.usp, ssp := s.sp, sr := { s.sr with s := false } }) ∧
    (∀ b, (s.setS b).userSp = s.userSp ∧ (s.setS b).supervisorSp = s.supervisorSp) ∧
    (∀ v, (s.hostSetUserSp v).userSp = v ∧ (s.hostSetUserSp v).supervisorSp = s.supervisorSp ∧
      (s.hostSetSupervisorSp v).supervisorSp = v ∧ (s.hostSetSupervisorSp v).userSp = s.userSp)

/-- R45, R351, R352: a hard reset, from any state, in any run state, with the host answering from memory and an even initial pc,
leaves the reset values, and the mark of a broken pipeline clear (the model's own field, log entry 18); the clock keeps running. -/
def Obligations.HardResetLeavesResetValues : Prop :=
  ∀ s : State, s.hostReads = [] →
    let word := fun x : Long => s.mem.readWord (s.phys x)
    let pc := longOf (word 4) (word 6)
    let sp := longOf (word 0) (word 2)
    isEven pc = true →
    ∃ t, hardReset s = .next t ∧
      (∀ r, t.readD r = s.cfg.resetGpr) ∧ (∀ r : RegNum, r ≠ 7 → t.readA r = s.cfg.resetGpr) ∧ t.usp = s.cfg.resetGpr ∧
      t.sp = sp ∧ t.ssp = sp ∧ t.pc = pc ∧ t.pc0 = pc ∧ t.ird = word pc ∧ t.irc = word (pc + 2) ∧ t.getSr = 0x2700 ∧
      t.run = .running ∧ t.tracePending = false ∧ t.iplPolled = s.iplAnswer ∧ t.nmiArmed = true ∧
      t.aeInService = false ∧ t.excInService = false ∧ t.pipelineBroken = false ∧ t.cfg = s.cfg ∧ t.mem = s.mem ∧
      t.clock = s.clock + s.cfg.cReset + 24

/-- The state the model starts from is power-on (R350) with the default parameters over a memory in which nothing is listed; that
memory and the default parameters are the model's choice (log entry 9). -/
def Obligations.ResetStateIsPowerOn : Prop :=
  powerOn (State.unpowered Config.reference []) = .next State.reset ∧ State.reset.getSr = 0x2700 ∧ State.reset.run = .running ∧
    State.reset.clock = 24

/-! ### Memory and the bus -/

/-- R63, R65, R69, R72: `PHYS` keeps the low `ADDR_BITS` bits; bytes and words are big-endian, and a write changes its own bytes
only; a long that was written reads back, in a canonical memory of at least 4 bytes whose host answers from it. -/
def Obligations.MemoryIsBigEndian : Prop :=
  (∀ (m : Memory) (p : Nat) (v : Word), m.wf = true →
    (m.writeWord p v).readByte p = v.extractLsb' 8 8 ∧ (m.writeWord p v).readByte (p + 1) = v.extractLsb' 0 8 ∧
    (m.writeWord p v).readWord p = v ∧ ∀ q, q ≠ p → q ≠ p + 1 → (m.writeWord p v).readByte q = m.readByte q) ∧
  (∀ (m : Memory) (p : Nat) (v : Byte), m.wf = true →
    (m.writeByte p v).readByte p = v ∧ ∀ q, q ≠ p → (m.writeByte p v).readByte q = m.readByte q) ∧
  (∀ (s : State) (x : Long), s.phys x = (x.extractLsb' 0 s.cfg.addrBits).toNat ∧ s.phys x < 2 ^ s.cfg.addrBits ∧
    s.phys x % 2 = x.toNat % 2) ∧
  (∀ (x v : Long) (sp sp' : Space) (s : State), MemInv s → 2 ≤ s.cfg.addrBits → s.hostReads = [] → isEven x = true →
    ∃ t u, busWrite32 sp x v s = .ok () t ∧ busRead32 sp' x t = .ok v u)

/-- R66 to R72: an aligned access is one transaction per word, high half first, each charged 4 cycles: the exact state it leaves. A
read changes the clock, the record of the port and the host's answers used up, and samples the level only where it is marked as the
last bus cycle (R68, R317); a write changes memory instead of the answers. -/
def Obligations.AlignedAccesses : Prop :=
  ∀ (sp : Space) (x : Long) (s : State),
    (let v := s.answer8 (s.phys x);
      busRead8 x s = .ok v
        { s with clock := s.clock + 4, hostReads := s.hostReads.tail, port := .read8 (s.phys x) v :: s.port }) ∧
    (∀ v, busWrite8 x v s = .ok ()
      { s with clock := s.clock + 4, mem := s.mem.writeByte (s.phys x) v, port := .write8 (s.phys x) v :: s.port }) ∧
    (isEven x = true →
      let p := s.phys x
      let q := s.phys (x + 2)
      let v := s.answer16 p
      let w := ({ s with hostReads := s.hostReads.tail }).answer16 q
      busRead16 sp x false s = .ok v
        { s with clock := s.clock + 4, hostReads := s.hostReads.tail, port := .read16 p v :: s.port } ∧
      busRead16 sp x true s = .ok v
        { s with clock := s.clock + 4, hostReads := s.hostReads.tail, iplPolled := s.iplAnswer,
                 nmiArmed := (s.nmiArmed || s.iplAnswer != 7), hostIpl := dropAnswer s.hostIpl,
                 port := .read16 p v :: .ipl s.iplAnswer :: s.port } ∧
      busRead32 sp x s = .ok (v ++ w)
        { s with clock := s.clock + 8, hostReads := s.hostReads.tail.tail, port := .read16 q w :: .read16 p v :: s.port } ∧
      (∀ y, busWrite16 sp x y s = .ok ()
        { s with clock := s.clock + 4, mem := s.mem.writeWord p y, port := .write16 p y :: s.port }) ∧
      (∀ y : Long, busWrite32 sp x y s = .ok ()
        { s with clock := s.clock + 8,
                 mem := (s.mem.writeWord p (y.extractLsb' 16 16)).writeWord q (y.extractLsb' 0 16),
                 port := .write16 q (y.extractLsb' 0 16) :: .write16 p (y.extractLsb' 16 16) :: s.port }))

/-- R66: a word or long access at an odd address is an address error: nothing is issued, charged or changed, and a long is checked
once, before its first word; a byte access has no alignment rule. -/
def Obligations.OddAccessesIssueNothing : Prop :=
  ∀ (sp : Space) (x : Long) (s : State), isEven x = false →
    (∀ poll, busRead16 sp x poll s = .error (.addressError x .read sp) s) ∧
    busRead32 sp x s = .error (.addressError x .read sp) s ∧
    (∀ v, busWrite16 sp x v s = .error (.addressError x .write sp) s) ∧
    (∀ v, busWrite32 sp x v s = .error (.addressError x .write sp) s) ∧
    (∃ t, busRead8 x s = .ok (s.answer8 (s.phys x)) t) ∧ (∀ v, ∃ t, busWrite8 x v s = .ok () t)

/-- R75: a push writes the stack pointer first, also when the access then fails; a pop writes it last. -/
def Obligations.StackHelpers : Prop :=
  ∀ s : State,
    (isEven s.sp = true →
      (∀ v, ∃ t, push32 v s = .ok () t ∧ SameCore (s.pushed .l v) t) ∧
      (∀ v : Word, ∃ t, push16 v s = .ok () t ∧ SameCore (s.pushed .w (v.setWidth 32)) t) ∧
      (∃ t, pop32 s = .ok (s.answer32 s.sp) t ∧ SameCore (s.writeA 7 (s.sp + 4)) t) ∧
      (∃ t, pop16 s = .ok (s.answer16 (s.phys s.sp)) t ∧ SameCore (s.writeA 7 (s.sp + 2)) t)) ∧
    (isEven s.sp = false →
      (∀ v, push32 v s = .error (.addressError (s.sp - 4) .write .data) (s.writeA 7 (s.sp - 4))) ∧
      (∀ v, push16 v s = .error (.addressError (s.sp - 2) .write .data) (s.writeA 7 (s.sp - 2))) ∧
      pop32 s = .error (.addressError s.sp .read .data) s ∧ pop16 s = .error (.addressError s.sp .read .data) s)

/-- R127 to R129, R317: the three ways the pipeline advances, and that only the last bus cycle samples the interrupt level. -/
def Obligations.PipelineAdvances : Prop :=
  ∀ s : State,
    (isEven s.pc = true → let t := s.extTaken
      readExt s = .ok s.irc t ∧ SameCore s t ∧ t.pc = s.pc + 2 ∧ t.pc0 = s.pc0 ∧ t.ird = s.ird ∧
      t.irc = s.answer16 (s.phys (s.pc + 2)) ∧ t.clock = s.clock + 4 ∧ t.iplPolled = s.iplPolled ∧ t.nmiArmed = s.nmiArmed) ∧
    (isEven s.pc = false → readExt s = .error (.addressError (s.pc + 2) .read .prog) { s with pc := s.pc + 2 }) ∧
    (isEven s.pc = true → let t := s.prefetched
      prefetch s = .ok () t ∧ SameCore s t ∧ Prefetched s t ∧ t.clock = s.clock + 4 ∧
      t.iplPolled = s.iplAnswer ∧ t.nmiArmed = (s.nmiArmed || s.iplAnswer != 7)) ∧
    (isEven s.pc = false → prefetch s = .error (.addressError (s.pc + 2) .read .prog) { s with ird := s.irc }) ∧
    (isEven s.pc = true → let t := s.refilled
      refill s = .ok () t ∧ SameCore s t ∧ Refilled s t ∧ t.clock = s.clock + 8 ∧
      t.iplPolled = s.iplAnswer ∧ t.nmiArmed = (s.nmiArmed || s.iplAnswer != 7)) ∧
    (isEven s.pc = false → refill s = .error (.addressError s.pc .read .prog) s)

/-! ### Operands -/

/-- R140 to R150, R157: what each addressing mode but the indexed ones resolves to, and the extension words it takes. -/
def Obligations.AddressingModes : Prop :=
  ∀ (s : State) (size : Size) (r : RegNum),
    resolve (.dn r) size s = .ok (.dreg r) s ∧ resolve (.an r) size s = .ok (.areg r) s ∧
    resolve (.ind r) size s = .ok (.mem (s.readA r) .data) s ∧ resolve (.postInc r) size s = .ok (.mem (s.readA r) .data) s ∧
    (∃ t, resolve (.preDec r) size s = .ok (.mem (s.readA r - inc r size) .data) t ∧
      SameCore (s.writeA r (s.readA r - inc r size)) t ∧ t.clock = s.clock + 2 ∧ t.pc = s.pc ∧ t.irc = s.irc) ∧
    (isEven s.pc = true → resolve (.disp r) size s = .ok (.mem (s.readA r + s.irc.signExtend 32) .data) s.extTaken) ∧
    (isEven s.pc = true → resolve .absW size s = .ok (.mem (s.irc.signExtend 32) .data) s.extTaken) ∧
    (isEven s.pc = true → resolve .absL size s = .ok (.mem (s.irc ++ s.extTaken.irc) .data) s.extTaken.extTaken) ∧
    (isEven s.pc = true → resolve .pcDisp size s = .ok (.mem (s.pc + s.irc.signExtend 32) .prog) s.extTaken) ∧
    (isEven s.pc = true → resolve .imm size s = .ok (.imm (s.immNext size)) (s.immTaken size)) ∧
    inc r size = (if r = 7 ∧ size = .b then 2 else BitVec.ofNat 32 size.bytes)

/-- R151 to R153: the address an index word with a meaning forms, and the words it takes: a displacement of no word is 0, of one word
is sign-extended, of two words has its high half first. That the words of an outer displacement are taken before the pointer is
fetched is the model's reading (log entry 11, DEDUCED): R153's text and its vector have it so, its pseudocode does not. -/
def Obligations.IndexedAddresses : Prop :=
  (∀ u : State, readDisp .none u = .ok 0 u ∧
    (isEven u.pc = true → readDisp .word u = .ok (u.irc.signExtend 32) u.extTaken) ∧
    (isEven u.pc = true → readDisp .long u = .ok (u.irc ++ u.extTaken.irc) u.extTaken.extTaken) ∧
    (isEven u.pc = false → ∀ d, d ≠ .none → readDisp d u = .error (.addressError (u.pc + 2) .read .prog) { u with pc := u.pc + 2 })) ∧
  (∀ (s : State) (base : Long) (sp : Space), isEven s.pc = true →
    let start := s.extTaken.tick s.cfg.cIdx
    let idx := fun x : IndexReg =>
      (if x.long then (if x.isAddr then s.readA x.reg else s.readD x.reg)
        else ((if x.isAddr then s.readA x.reg else s.readD x.reg).extractLsb' 0 16).signExtend 32) <<< x.scale.toNat
    (∀ x d8, decodeIndexWord s.irc = some (.brief x d8) →
      indexEa base sp s = .ok (base + idx x + d8.signExtend 32) start) ∧
    (∀ x bs is bd ind bdv u, decodeIndexWord s.irc = some (.full x bs is bd ind) → readDisp bd start = .ok bdv u →
      let b := (if bs then 0 else base) + bdv
      let i := if is then 0 else idx x
      (ind = .none → indexEa base sp s = .ok (b + i) u) ∧
      (∀ od odv w, readDisp od u = .ok odv w →
        (ind = .preIndexed od → isEven (b + i) = true →
          indexEa base sp s = .ok (w.answer32 (b + i) + odv) (w.longRead (b + i))) ∧
        (ind = .postIndexed od → isEven b = true →
          indexEa base sp s = .ok (w.answer32 b + i + odv) (w.longRead b)) ∧
        (ind = .noIndex od → isEven b = true → indexEa base sp s = .ok (w.answer32 b + odv) (w.longRead b)))))

/-- R140, R142, R145: reading a ready operand completes with the register's low bits, the immediate, or what the host answers at
the resolved address; the adjustment of the mode is the only change to the core. -/
def Obligations.ReadyOperandsRead : Prop :=
  ∀ (ea : Ea) (size : Size) (s : State), OperandReady ea size s →
    ∃ loc u, resolve ea size s = .ok loc u ∧
      ∃ v t, readOp ea size s = .ok (v, loc) t ∧ SameCore (s.adjusted ea size) t ∧ t.ird = s.ird ∧ t.pc0 = s.pc0 ∧
        match loc with
        | .dreg r => v = trunc size (s.readD r)
        | .areg r => v = trunc size (s.readA r)
        | .mem x _ => v = u.answerSize x size
        | .imm w => v = w

/-- R154: the reserved index words are the full-form words with bit 3 set, with `BDSZ` 00, or with a combination of `IS` and `IIS`
that has no row. One is refused wherever it stands, and with it the instruction whose operand begins with it, the privileged one in
supervisor mode. -/
def Obligations.ReservedIndexWordsRefused : Prop :=
  (∀ w : Word, decodeIndexWord w = none ↔
    w.getLsbD 8 = true ∧ (w.getLsbD 3 = true ∨ w.extractLsb' 4 2 = 0 ∨ (w.getLsbD 6 = false ∧ w.extractLsb' 0 3 = 4) ∨
      (w.getLsbD 6 = true ∧ 4 ≤ (w.extractLsb' 0 3).toNat))) ∧
  (∀ (base : Long) (sp : Space) (s : State), isEven s.pc = true → decodeIndexWord s.irc = none →
    ∃ t, indexEa base sp s = .error (.refuse .reservedIndexWord) t) ∧
  (∀ (i : Instr) (s : State), i.startsWithIndex = true → isEven s.pc = true → decodeIndexWord s.irc = none →
    (i.descriptor.priv = true → s.sr.s = true) → exec i s = .refused .reservedIndexWord)

/-- R124, R159: an address error in an operand ends the instruction there, and the entry continues from the state as it stands, with
the condition codes not written: in the operand read first; in the operand of `CLR`, `ADDQ`, `SUBQ` and `MOVE SR,<ea>`; in the
immediate of the `#imm` forms, and in their operand after it; in the destination of `MOVE`, resolved or written, and the second
operand of `CMPM`, with everything done for the source; and in the extension words of an address that is only formed. -/
def Obligations.OperandErrorsEndTheRule : Prop :=
  (∀ (i : Instr) (ea : Ea) (size : Size) (s u : State) (x : Long) (d : Dir) (sp : Space),
    i.firstOperand = some (ea, size) → readOp ea size s = .error (.addressError x d sp) u →
    (i.descriptor.priv = true → s.sr.s = true) → exec i s = addressErrorEntry x d sp u ∧ u.sr = s.sr ∧ u.mem = s.mem) ∧
  (∀ (ea : Ea) (size : Size) (q : BitVec 3) (s u : State) (x : Long) (d : Dir) (sp : Space),
    readOp ea size s = .error (.addressError x d sp) u →
    exec (.clr size ea) s = addressErrorEntry x d sp u ∧ exec (.addq q size ea) s = addressErrorEntry x d sp u ∧
    exec (.subq q size ea) s = addressErrorEntry x d sp u ∧
    (size = .w → exec (.moveFromSr ea) s = addressErrorEntry x d sp u) ∧ u.sr = s.sr ∧ u.mem = s.mem) ∧
  (∀ (op : AluOp) (ea : Ea) (size : Size) (s : State),
    (isEven s.pc = false →
      let t := { s with pc := s.pc + 2 }
      exec (op.immToEa size ea) s = addressErrorEntry (s.pc + 2) .read .prog t ∧
      exec (.cmpi size ea) s = addressErrorEntry (s.pc + 2) .read .prog t) ∧
    (∀ (u : State) (x : Long) (d : Dir) (sp : Space), isEven s.pc = true →
      readOp ea size (s.immTaken size) = .error (.addressError x d sp) u →
      exec (op.immToEa size ea) s = addressErrorEntry x d sp u ∧ exec (.cmpi size ea) s = addressErrorEntry x d sp u ∧
      u.sr = s.sr ∧ u.mem = s.mem)) ∧
  (∀ (src dst : Ea) (size : Size) (s u w : State) (v : Long) (l : Loc), readOp src size s = .ok (v, l) u →
    (∀ x d sp, resolve dst size u = .error (.addressError x d sp) w →
      exec (.move size src dst) s = addressErrorEntry x d sp w ∧ w.sr = s.sr ∧ w.mem = s.mem) ∧
    (∀ x sp, resolve dst size u = .ok (.mem x sp) w → alignedFor size x = false →
      exec (.move size src dst) s = addressErrorEntry x .write .data w ∧ w.sr = s.sr ∧ w.mem = s.mem)) ∧
  (∀ (ay ax : RegNum) (size : Size) (s u w : State) (v : Long) (l : Loc) (x : Long) (d : Dir) (sp : Space),
    readOp (.postInc ay) size s = .ok (v, l) u → readOp (.postInc ax) size u = .error (.addressError x d sp) w →
    exec (.cmpm size ay ax) s = addressErrorEntry x d sp w ∧ w.sr = s.sr ∧ w.mem = s.mem) ∧
  (∀ (ea : Ea) (an : RegNum) (s u : State) (x : Long) (d : Dir) (sp : Space), controlEa ea s = .error (.addressError x d sp) u →
    exec (.lea ea an) s = addressErrorEntry x d sp u ∧ exec (.pea ea) s = addressErrorEntry x d sp u ∧
    exec (.jmp ea) s = addressErrorEntry x d sp u ∧ exec (.jsr ea) s = addressErrorEntry x d sp u ∧ u.sr = s.sr ∧ u.mem = s.mem)

/-! ### Arithmetic and logic -/

/-- R230: the flags of an addition, by the rule and in terms of the exact unsigned and signed sums. -/
def Obligations.AddFlagsAreExact : Prop :=
  ∀ (size : Size) (s d : Long), trunc size s = s → trunc size d = d →
    let r := trunc size (d + s)
    let f := addFlags s d r size
    (f.c = true ↔ 2 ^ size.bits ≤ d.toNat + s.toNat) ∧ f.x = f.c ∧ (f.z = true ↔ r = 0) ∧ (f.n = true ↔ signed size r < 0) ∧
    (f.v = true ↔ signed size d + signed size s < -2 ^ (size.bits - 1) ∨ 2 ^ (size.bits - 1) ≤ signed size d + signed size s) ∧
    f.v = msb size ((s ^^^ r) &&& (d ^^^ r)) ∧ f.c = msb size ((s &&& d) ||| (~~~r &&& (s ||| d)))

/-- R231: the flags of a subtraction and of a compare, by the rule and in terms of the exact unsigned and signed differences. -/
def Obligations.SubFlagsAreExact : Prop :=
  ∀ (size : Size) (old : Ccr) (s d : Long), trunc size s = s → trunc size d = d →
    let r := trunc size (d - s)
    let f := subFlags s d r size
    (f.c = true ↔ d.toNat < s.toNat) ∧ f.x = f.c ∧ (f.z = true ↔ r = 0) ∧ (f.n = true ↔ signed size r < 0) ∧
    (f.v = true ↔ signed size d - signed size s < -2 ^ (size.bits - 1) ∨ 2 ^ (size.bits - 1) ≤ signed size d - signed size s) ∧
    f.v = msb size ((s ^^^ d) &&& (r ^^^ d)) ∧ f.c = msb size ((s &&& ~~~d) ||| (r &&& ~~~d) ||| (s &&& r)) ∧
    cmpFlags old s d r size = { f with x := old.x }

/-- R209, R255: the flags of a move and of a logic operation, for every size and value: `N` the top bit of the size, `Z` that the
size's bits are all 0, `V` and `C` cleared, `X` as it was. -/
def Obligations.MoveFlagsAreExact : Prop :=
  ∀ (size : Size) (old : Ccr) (v : Long),
    let f := moveFlags old v size
    f.n = v.getLsbD (size.bits - 1) ∧ (f.z = true ↔ ∀ k, k < size.bits → v.getLsbD k = false) ∧
    f.v = false ∧ f.c = false ∧ f.x = old.x ∧
    (trunc size v = v → (f.n = true ↔ signed size v < 0) ∧ (f.z = true ↔ v = 0))

/-- R200: the condition table, what the tests mean after a compare of `dst` with `src`, and which field values `Bcc` leaves to `BRA`
and `BSR` while `DBcc` takes all sixteen. -/
def Obligations.Conditions : Prop :=
  (∀ f : Ccr,
    condHolds f (condOfNat 0) = true ∧ condHolds f (condOfNat 1) = false ∧
    condHolds f (condOfNat 2) = decide (f.c = false ∧ f.z = false) ∧ condHolds f (condOfNat 3) = decide (f.c = true ∨ f.z = true) ∧
    condHolds f (condOfNat 4) = decide (f.c = false) ∧ condHolds f (condOfNat 5) = decide (f.c = true) ∧
    condHolds f (condOfNat 6) = decide (f.z = false) ∧ condHolds f (condOfNat 7) = decide (f.z = true) ∧
    condHolds f (condOfNat 8) = decide (f.v = false) ∧ condHolds f (condOfNat 9) = decide (f.v = true) ∧
    condHolds f (condOfNat 10) = decide (f.n = false) ∧ condHolds f (condOfNat 11) = decide (f.n = true) ∧
    condHolds f (condOfNat 12) = decide (f.n = f.v) ∧ condHolds f (condOfNat 13) = decide (f.n ≠ f.v) ∧
    condHolds f (condOfNat 14) = decide (f.z = false ∧ f.n = f.v) ∧ condHolds f (condOfNat 15) = decide (f.z = true ∨ f.n ≠ f.v)) ∧
  (∀ (size : Size) (old : Ccr) (s d : Long), trunc size s = s → trunc size d = d →
    let f := cmpFlags old s d (trunc size (d - s)) size
    (condHolds f .gt = true ↔ signed size s < signed size d) ∧ (condHolds f .le = true ↔ signed size d ≤ signed size s) ∧
    (condHolds f .ge = true ↔ signed size s ≤ signed size d) ∧ (condHolds f .lt = true ↔ signed size d < signed size s) ∧
    (condHolds f .hi = true ↔ s.toNat < d.toNat) ∧ (condHolds f .ls = true ↔ d.toNat ≤ s.toNat) ∧
    (condHolds f .cc = true ↔ s.toNat ≤ d.toNat) ∧ (condHolds f .cs = true ↔ d.toNat < s.toNat) ∧
    (condHolds f .eq = true ↔ s = d) ∧ (condHolds f .ne = true ↔ s ≠ d)) ∧
  (∀ d8 : Byte, decode (0x6000 ||| d8.setWidth 16) = .bra d8 ∧ decode (0x6100 ||| d8.setWidth 16) = .bsr d8) ∧
  (∀ (cc : Fin 16) (dn : RegNum),
    decode (0x50C8 ||| BitVec.ofNat 16 cc.val <<< 8 ||| BitVec.ofNat 16 dn.val) = .dbcc (condOfNat cc.val) dn)

/-- R232, R236, R244, R246, R256: `ADD`, `SUB`, `AND`, `OR` of an operand into a data register, with their frame: nothing is
stored. -/
def Obligations.OperandToRegister : Prop :=
  ∀ (op : AluOp) (size : Size) (ea : Ea) (dn : RegNum) (i : Instr) (s : State), op.toReg size ea dn = some i →
    OperandReady ea size s → isEven s.pc = true →
    ∃ v loc u, readOp ea size s = .ok (v, loc) u ∧
      let d := s.readDPart dn size
      let r := trunc size (op.result v d)
      let f := op.flags s.sr.ccr v d r size
      let t := ((u.writeDPart dn size r).withCcr f).finished (s.cfg.opCost (.alu op.kind size ea.mode))
      exec i s = .next t ∧ SameCore (((s.adjusted ea size).writeDPart dn size r).withCcr f) t ∧ SameBytes s t

/-- R232, R236, R244, R246, R248, R256: `ADD`, `SUB`, `AND`, `OR`, `EOR` of a data register into an operand, with their frame. -/
def Obligations.RegisterToOperand : Prop :=
  ∀ (op : AluOp) (size : Size) (dn : RegNum) (ea : Ea) (s : State), ea.isAlterable = true →
    OperandReady ea size s → isEven s.pc = true →
    ∃ d loc u, readOp ea size s = .ok (d, loc) u ∧
      let v := s.readDPart dn size
      let r := trunc size (op.result v d)
      let f := op.flags s.sr.ccr v d r size
      let t := ((u.locWritten loc size r).withCcr f).finished (s.cfg.opCost (.alu op.kind size ea.mode))
      exec (op.toEa size dn ea) s = .next t ∧ SameCore (((s.adjusted ea size).stored loc size r).withCcr f) t ∧
        SameBytesBut (loc.storesTo s size) s t

/-- R234, R238, R245, R247, R249, R256: `ADDI`, `SUBI`, `ANDI`, `ORI`, `EORI`, with their frame: the immediate comes first. -/
def Obligations.ImmediateToOperand : Prop :=
  ∀ (op : AluOp) (size : Size) (ea : Ea) (s : State), ea.isDataAlterable = true → isEven s.pc = true →
    OperandReady ea size (s.immTaken size) →
    ∃ d loc u, readOp ea size (s.immTaken size) = .ok (d, loc) u ∧
      let v := s.immNext size
      let r := trunc size (op.result v d)
      let f := op.flags s.sr.ccr v d r size
      let t := ((u.locWritten loc size r).withCcr f).finished (s.cfg.opCost (.alu op.immKind size ea.mode))
      exec (op.immToEa size ea) s = .next t ∧ SameCore (((s.adjusted ea size).stored loc size r).withCcr f) t ∧
        SameBytesBut (loc.storesTo s size) s t

/-- R240 to R243: the compares write flags only, `X` not among them, and store nothing. -/
def Obligations.Compares : Prop :=
  (∀ (size : Size) (ea : Ea) (dn : RegNum) (s : State), OperandReady ea size s → isEven s.pc = true →
    ∃ v loc u, readOp ea size s = .ok (v, loc) u ∧
      let d := s.readDPart dn size
      let f := cmpFlags s.sr.ccr v d (trunc size (d - v)) size
      let t := (u.withCcr f).finished (s.cfg.opCost (.alu .cmp size ea.mode))
      exec (.cmp size ea dn) s = .next t ∧ SameCore ((s.adjusted ea size).withCcr f) t ∧ SameBytes s t) ∧
  (∀ (size : Size) (ea : Ea) (an : RegNum) (s : State), OperandReady ea size s → isEven s.pc = true →
    ∃ v loc u, readOp ea size s = .ok (v, loc) u ∧
      let w := extendToLong size v
      let d := (s.adjusted ea size).readA an
      let f := cmpFlags s.sr.ccr w d (d - w) .l
      let t := (u.withCcr f).finished (s.cfg.opCost (.alu .cmpa size ea.mode))
      exec (.cmpa size ea an) s = .next t ∧ SameCore ((s.adjusted ea size).withCcr f) t ∧ SameBytes s t) ∧
  (∀ (size : Size) (ea : Ea) (s : State), isEven s.pc = true → OperandReady ea size (s.immTaken size) →
    ∃ d loc u, readOp ea size (s.immTaken size) = .ok (d, loc) u ∧
      let v := s.immNext size
      let f := cmpFlags s.sr.ccr v d (trunc size (d - v)) size
      let t := (u.withCcr f).finished (s.cfg.opCost (.alu .cmpi size ea.mode))
      exec (.cmpi size ea) s = .next t ∧ SameCore ((s.adjusted ea size).withCcr f) t ∧ SameBytes s t) ∧
  (∀ (size : Size) (ay ax : RegNum) (s : State), alignedFor size (s.readA ay) = true → isEven s.pc = true →
    alignedFor size ((s.adjusted (.postInc ay) size).readA ax) = true →
    ∃ v lv u d ld w, readOp (.postInc ay) size s = .ok (v, lv) u ∧ readOp (.postInc ax) size u = .ok (d, ld) w ∧
      let f := cmpFlags s.sr.ccr v d (trunc size (d - v)) size
      let t := (w.withCcr f).finished (s.cfg.opCost (.cmpm size))
      exec (.cmpm size ay ax) s = .next t ∧
        SameCore (((s.adjusted (.postInc ay) size).adjusted (.postInc ax) size).withCcr f) t ∧ SameBytes s t)

/-- R233, R237: `ADDA` and `SUBA` add to all 32 bits, a word source sign-extended, and write no flag. -/
def Obligations.AddressArithmetic : Prop :=
  ∀ (size : Size) (ea : Ea) (an : RegNum) (s : State), OperandReady ea size s → isEven s.pc = true →
    ∃ v loc u, readOp ea size s = .ok (v, loc) u ∧
      let a := (s.adjusted ea size).readA an
      let sum := a + extendToLong size v
      let diff := a - extendToLong size v
      let t := (u.writeA an sum).finished (s.cfg.opCost (.alu .adda size ea.mode))
      let t' := (u.writeA an diff).finished (s.cfg.opCost (.alu .suba size ea.mode))
      (exec (.adda size ea an) s = .next t ∧ SameCore ((s.adjusted ea size).writeA an sum) t ∧ SameBytes s t) ∧
      (exec (.suba size ea an) s = .next t' ∧ SameCore ((s.adjusted ea size).writeA an diff) t' ∧ SameBytes s t')

/-- R235, R239, R100: `ADDQ` and `SUBQ` of 1 to 8; an address register is written whole and without flags. -/
def Obligations.QuickArithmetic : Prop :=
  (∀ (q : BitVec 3) (size : Size) (r : RegNum) (s : State), isEven s.pc = true →
    let v : Long := if q = 0 then 8 else q.setWidth 32
    let t := (s.writeA r (s.readA r + v)).finished (s.cfg.opCost (.alu .addq size .an))
    let t' := (s.writeA r (s.readA r - v)).finished (s.cfg.opCost (.alu .subq size .an))
    (exec (.addq q size (.an r)) s = .next t ∧ SameCore (s.writeA r (s.readA r + v)) t ∧ SameBytes s t) ∧
    (exec (.subq q size (.an r)) s = .next t' ∧ SameCore (s.writeA r (s.readA r - v)) t' ∧ SameBytes s t')) ∧
  (∀ (q : BitVec 3) (size : Size) (ea : Ea) (s : State), ea.isDataAlterable = true → OperandReady ea size s → isEven s.pc = true →
    ∃ d loc u, readOp ea size s = .ok (d, loc) u ∧
      let v : Long := if q = 0 then 8 else q.setWidth 32
      let r := trunc size (d + v)
      let r' := trunc size (d - v)
      let t := ((u.locWritten loc size r).withCcr (addFlags v d r size)).finished (s.cfg.opCost (.alu .addq size ea.mode))
      let t' := ((u.locWritten loc size r').withCcr (subFlags v d r' size)).finished (s.cfg.opCost (.alu .subq size ea.mode))
      (exec (.addq q size ea) s = .next t ∧
        SameCore (((s.adjusted ea size).stored loc size r).withCcr (addFlags v d r size)) t ∧
        SameBytesBut (loc.storesTo s size) s t) ∧
      (exec (.subq q size ea) s = .next t' ∧
        SameCore (((s.adjusted ea size).stored loc size r').withCcr (subFlags v d r' size)) t' ∧
        SameBytesBut (loc.storesTo s size) s t'))

/-- R250, R251: `NEG` and `NOT` of an operand in place, with their frame. -/
def Obligations.NegateAndComplement : Prop :=
  ∀ (size : Size) (ea : Ea) (s : State), ea.isDataAlterable = true → OperandReady ea size s → isEven s.pc = true →
    ∃ d loc u, readOp ea size s = .ok (d, loc) u ∧
      let r := trunc size (0 - d)
      let r' := trunc size (~~~d)
      let f := subFlags d 0 r size
      let f' := moveFlags s.sr.ccr r' size
      let t := ((u.locWritten loc size r).withCcr f).finished (s.cfg.opCost (.alu .neg size ea.mode))
      let t' := ((u.locWritten loc size r').withCcr f').prefetched
      (exec (.neg size ea) s = .next t ∧ SameCore (((s.adjusted ea size).stored loc size r).withCcr f) t ∧
        SameBytesBut (loc.storesTo s size) s t) ∧
      (exec (.notEa size ea) s = .next t' ∧ SameCore (((s.adjusted ea size).stored loc size r').withCcr f') t' ∧
        SameBytesBut (loc.storesTo s size) s t')

/-- R179, R215: `CLR` and `MOVE SR,<ea>` read a memory destination, drop the value and write it, with their frame. -/
def Obligations.ClearAndStoreStatus : Prop :=
  (∀ (size : Size) (ea : Ea) (s : State), ea.isDataAlterable = true → OperandReady ea size s → isEven s.pc = true →
    ∃ d loc u, readOp ea size s = .ok (d, loc) u ∧
      let f : Ccr := { x := s.sr.ccr.x, n := false, z := true, v := false, c := false }
      let t := ((u.locWritten loc size 0).withCcr f).finished (s.cfg.opCost (.clr size ea.mode))
      exec (.clr size ea) s = .next t ∧ SameCore (((s.adjusted ea size).stored loc size 0).withCcr f) t ∧
        SameBytesBut (loc.storesTo s size) s t) ∧
  (∀ (ea : Ea) (s : State), ea.isDataAlterable = true → OperandReady ea .w s → isEven s.pc = true →
    ∃ d loc u, readOp ea .w s = .ok (d, loc) u ∧
      let v : Long := s.getSr.setWidth 32
      let t := (u.locWritten loc .w v).finished (s.cfg.opCost .moveFromSr)
      exec (.moveFromSr ea) s = .next t ∧ SameCore ((s.adjusted ea .w).stored loc .w v) t ∧
        SameBytesBut (loc.storesTo s .w) s t)

/-- R252, R253: the 32-bit product of two words, unsigned and signed. -/
def Obligations.Multiplies : Prop :=
  ∀ (ea : Ea) (dn : RegNum) (s : State), OperandReady ea .w s → isEven s.pc = true →
    ∃ v loc u, readOp ea .w s = .ok (v, loc) u ∧
      let a : Word := v.extractLsb' 0 16
      let b : Word := (s.readD dn).extractLsb' 0 16
      let p : Long := BitVec.ofNat 32 (a.toNat * b.toNat)
      let q : Long := BitVec.ofInt 32 (a.toInt * b.toInt)
      let t := ((u.writeD dn p).withCcr (moveFlags s.sr.ccr p .l)).finished (s.cfg.opCost (.mulu a))
      let t' := ((u.writeD dn q).withCcr (moveFlags s.sr.ccr q .l)).finished (s.cfg.opCost (.muls a))
      (exec (.mulu ea dn) s = .next t ∧
        SameCore (((s.adjusted ea .w).writeD dn p).withCcr (moveFlags s.sr.ccr p .l)) t ∧ SameBytes s t) ∧
      (exec (.muls ea dn) s = .next t' ∧
        SameCore (((s.adjusted ea .w).writeD dn q).withCcr (moveFlags s.sr.ccr q .l)) t' ∧ SameBytes s t')

/-! ### Moves -/

/-- R160, R210: `MOVE` reads its source, then resolves and writes its destination; flags from the value, `X` unchanged. -/
def Obligations.MoveCompletes : Prop :=
  ∀ (size : Size) (src dst : Ea) (s : State), OperandReady src size s → isEven s.pc = true → dst.isDataAlterable = true →
    ∃ v l u, readOp src size s = .ok (v, l) u ∧
      (OperandReady dst size u → ∃ loc w, resolve dst size u = .ok loc w ∧
        let f := moveFlags s.sr.ccr v size
        let t := (((w.locWritten loc size v).postAdjusted dst size).withCcr f).finished
          (s.cfg.opCost (.move size src.mode dst.mode))
        exec (.move size src dst) s = .next t ∧
          SameCore ((((s.adjusted src size).adjusted dst size).stored loc size v).withCcr f) t ∧
          SameBytesBut (loc.storesTo s size) s t)

/-- R211, R213: `MOVEA` writes all 32 bits of its register, `LEA` the address itself; no flag, no store. -/
def Obligations.AddressLoads : Prop :=
  (∀ (size : Size) (src : Ea) (an : RegNum) (s : State), OperandReady src size s → isEven s.pc = true →
    ∃ v loc u, readOp src size s = .ok (v, loc) u ∧
      let r := if size = .w then (v.extractLsb' 0 16).signExtend 32 else v
      let t := (u.writeA an r).finished (s.cfg.opCost (.movea size src.mode))
      exec (.movea size src an) s = .next t ∧ SameCore ((s.adjusted src size).writeA an r) t ∧ SameBytes s t) ∧
  (∀ (ea : Ea) (an : RegNum) (s : State), AddressReady ea s → isEven s.pc = true →
    ∃ x u, controlEa ea s = .ok x u ∧
      let t := (u.writeA an x).finished (s.cfg.opCost (.lea ea.mode))
      exec (.lea ea an) s = .next t ∧ SameCore (s.writeA an x) t ∧ SameBytes s t)

/-- R212, R217, R218, R171: the register-only moves and `NOP`. -/
def Obligations.RegisterMoves : Prop :=
  ∀ (s : State) (dn : RegNum), isEven s.pc = true →
    (∀ d8 : Byte, let r : Long := d8.signExtend 32
      let e := (s.writeD dn r).withCcr (moveFlags s.sr.ccr r .l)
      exec (.moveq d8 dn) s = .next e.prefetched ∧ SameCore e e.prefetched ∧ SameBytes s e.prefetched) ∧
    (let r : Word := ((s.readD dn).extractLsb' 0 8).signExtend 16
      let e := (s.writeD dn ((s.readD dn).extractLsb' 16 16 ++ r)).withCcr (moveFlags s.sr.ccr (r.setWidth 32) .w)
      exec (.extW dn) s = .next e.prefetched ∧ SameCore e e.prefetched ∧ SameBytes s e.prefetched) ∧
    (let r : Long := ((s.readD dn).extractLsb' 0 16).signExtend 32
      let e := (s.writeD dn r).withCcr (moveFlags s.sr.ccr r .l)
      exec (.extL dn) s = .next e.prefetched ∧ SameCore e e.prefetched ∧ SameBytes s e.prefetched) ∧
    (let r : Long := (s.readD dn).extractLsb' 0 16 ++ (s.readD dn).extractLsb' 16 16
      let e := (s.writeD dn r).withCcr (moveFlags s.sr.ccr r .l)
      exec (.swap dn) s = .next e.prefetched ∧ SameCore e e.prefetched ∧ SameBytes s e.prefetched) ∧
    (exec .nop s = .next s.prefetched ∧ SameCore s s.prefetched ∧ SameBytes s s.prefetched)

/-- R216, R219: `TST` writes flags only; `TAS` sets bit 7 of the byte, with flags from the old byte. -/
def Obligations.Tests : Prop :=
  (∀ (size : Size) (ea : Ea) (s : State), OperandReady ea size s → isEven s.pc = true →
    ∃ v loc u, readOp ea size s = .ok (v, loc) u ∧
      let f := moveFlags s.sr.ccr v size
      let t := (u.withCcr f).finished (s.cfg.opCost (.tst size ea.mode))
      exec (.tst size ea) s = .next t ∧ SameCore ((s.adjusted ea size).withCcr f) t ∧ SameBytes s t) ∧
  (∀ (ea : Ea) (s : State), ea.isDataAlterable = true → OperandReady ea .b s → isEven s.pc = true →
    ∃ v loc u, readOp ea .b s = .ok (v, loc) u ∧
      let f := moveFlags s.sr.ccr v .b
      let t := (((u.record (.notify .tasInstr)).locWritten loc .b (v ||| 0x80)).withCcr f).finished (s.cfg.opCost (.tas ea.mode))
      exec (.tas ea) s = .next t ∧ SameCore (((s.adjusted ea .b).stored loc .b (v ||| 0x80)).withCcr f) t ∧
        SameBytesBut (loc.storesTo s .b) s t)

/-! ### Control -/

/-- R203, R206, R214, R75, R124: `PEA` pushes an address; `JSR` and `BSR` push the address of the next instruction and refill at the
target. On an odd stack pointer the push is the address error, with the stack pointer already decremented; an odd target is one
after the push, with `pc` at the target. -/
def Obligations.Calls : Prop :=
  (∀ (ea : Ea) (s : State), AddressReady ea s →
    ∃ x u, controlEa ea s = .ok x u ∧ SameCore s u ∧
      (isEven s.sp = true → isEven s.pc = true →
        let t := (u.longPushed x).finished (s.cfg.opCost (.pea ea.mode))
        exec (.pea ea) s = .next t ∧ SameCore (s.pushed .l x) t ∧ SameBytesBut (storesTo s (s.sp - 4) .l) s t) ∧
      (isEven s.sp = false →
        exec (.pea ea) s = addressErrorEntry (s.sp - 4) .write .data (u.writeA 7 (s.sp - 4)))) ∧
  (∀ (ea : Ea) (s : State), AddressReady ea s →
    ∃ x u, controlEa ea s = .ok x u ∧ SameCore s u ∧
      let g := ((u.longPushed u.pc).setPc x).tick (s.cfg.opCost (.jsr ea.mode))
      (isEven s.sp = true → isEven x = true →
        let t := g.refilled.record (.notify .callInstr)
        exec (.jsr ea) s = .next t ∧ SameCore (s.pushed .l u.pc) t ∧ t.pc = x ∧
          SameBytesBut (storesTo s (s.sp - 4) .l) s t) ∧
      (isEven s.sp = true → isEven x = false → exec (.jsr ea) s = addressErrorEntry x .read .prog g) ∧
      (isEven s.sp = false →
        exec (.jsr ea) s = addressErrorEntry (s.sp - 4) .write .data (u.writeA 7 (s.sp - 4)))) ∧
  (∀ (d8 : Byte) (s : State),
    let x := if d8 = 0 then s.pc + s.irc.signExtend 32 else s.pc + d8.signExtend 32
    let ret := if d8 = 0 then s.pc + 2 else s.pc
    let g := ((s.longPushed ret).setPc x).tick (s.cfg.opCost .bsr)
    (isEven s.sp = true → isEven x = true →
      let t := g.refilled.record (.notify .callInstr)
      exec (.bsr d8) s = .next t ∧ SameCore (s.pushed .l ret) t ∧ t.pc = x ∧ SameBytesBut (storesTo s (s.sp - 4) .l) s t) ∧
    (isEven s.sp = true → isEven x = false → exec (.bsr d8) s = addressErrorEntry x .read .prog g) ∧
    (isEven s.sp = false →
      exec (.bsr d8) s = addressErrorEntry (s.sp - 4) .write .data (s.writeA 7 (s.sp - 4))))

/-- R201, R202, R205, R207, R208, R75, R124: the branches and jumps change no register but `RTS` the stack pointer, and store nothing.
An odd target is an address error in the refill there, with `pc` at the target; an odd stack pointer ends `RTS` before anything
changed. -/
def Obligations.Jumps : Prop :=
  (∀ (d8 : Byte) (s : State),
    let x := if d8 = 0 then s.pc + s.irc.signExtend 32 else s.pc + d8.signExtend 32
    let g := fun key => (s.setPc x).tick (s.cfg.opCost key)
    let t := fun key => (g key).refilled
    let n := ((if d8 = 0 then s.extTaken else s).finished (s.cfg.opCost .bccNotTaken))
    (isEven x = true → exec (.bra d8) s = .next (t .bra) ∧ SameCore s (t .bra) ∧ (t .bra).pc = x ∧ SameBytes s (t .bra)) ∧
    (isEven x = false → exec (.bra d8) s = addressErrorEntry x .read .prog (g .bra)) ∧
    (∀ cond, condHolds s.sr.ccr cond = true → isEven x = true →
      exec (.bcc cond d8) s = .next (t .bccTaken) ∧ SameCore s (t .bccTaken) ∧ (t .bccTaken).pc = x ∧
        SameBytes s (t .bccTaken)) ∧
    (∀ cond, condHolds s.sr.ccr cond = true → isEven x = false →
      exec (.bcc cond d8) s = addressErrorEntry x .read .prog (g .bccTaken)) ∧
    (∀ cond, condHolds s.sr.ccr cond = false → isEven s.pc = true →
      exec (.bcc cond d8) s = .next n ∧ SameCore s n ∧ n.pc = (if d8 = 0 then s.pc + 2 else s.pc) ∧ SameBytes s n)) ∧
  (∀ (ea : Ea) (s : State), AddressReady ea s →
    ∃ x u, controlEa ea s = .ok x u ∧
      let g := (u.setPc x).tick (s.cfg.opCost (.jmp ea.mode))
      (isEven x = true → exec (.jmp ea) s = .next g.refilled ∧ SameCore s g.refilled ∧ g.refilled.pc = x ∧ SameBytes s g.refilled) ∧
      (isEven x = false → exec (.jmp ea) s = addressErrorEntry x .read .prog g)) ∧
  (∀ s : State,
    let g := (((s.longRead s.sp).writeA 7 (s.sp + 4)).setPc (s.answer32 s.sp)).tick (s.cfg.opCost .rts)
    (isEven s.sp = true → isEven (s.answer32 s.sp) = true →
      let t := g.refilled.record (.notify .returnInstr)
      exec .rts s = .next t ∧ SameCore (s.writeA 7 (s.sp + 4)) t ∧ t.pc = s.answer32 s.sp ∧ SameBytes s t) ∧
    (isEven s.sp = true → isEven (s.answer32 s.sp) = false →
      exec .rts s = addressErrorEntry (s.answer32 s.sp) .read .prog g) ∧
    (isEven s.sp = false → exec .rts s = addressErrorEntry s.sp .read .data s))

/-- R204, R124: `DBcc` ends when the condition holds; otherwise it counts the low word down and branches unless it reached -1. An odd
target is an address error after the count, with `pc` at the target. -/
def Obligations.DecrementAndBranch : Prop :=
  ∀ (cond : Cond) (dn : RegNum) (s : State), isEven s.pc = true →
    let cnt : Word := (s.readD dn).extractLsb' 0 16 - 1
    let x := s.pc + s.irc.signExtend 32
    let e := s.writeDPart dn .w (cnt.setWidth 32)
    let t := s.extTaken.finished (s.cfg.opCost .dbccTrue)
    let g := (e.setPc x).tick (s.cfg.opCost .dbccBranch)
    let n := e.extTaken.finished (s.cfg.opCost .dbccExpired)
    (condHolds s.sr.ccr cond = true → exec (.dbcc cond dn) s = .next t ∧ SameCore s t ∧ t.pc = s.pc + 2 ∧ SameBytes s t) ∧
    (condHolds s.sr.ccr cond = false → cnt ≠ 0xFFFF → isEven x = true →
      exec (.dbcc cond dn) s = .next g.refilled ∧ SameCore e g.refilled ∧ g.refilled.pc = x ∧ SameBytes s g.refilled) ∧
    (condHolds s.sr.ccr cond = false → cnt ≠ 0xFFFF → isEven x = false →
      exec (.dbcc cond dn) s = addressErrorEntry x .read .prog g) ∧
    (condHolds s.sr.ccr cond = false → cnt = 0xFFFF →
      exec (.dbcc cond dn) s = .next n ∧ SameCore e n ∧ n.pc = s.pc + 2 ∧ SameBytes s n)

/-! ### System -/

/-- R180, R183, R185, R187: the forms that write the condition codes write nothing else. -/
def Obligations.ConditionCodeForms : Prop :=
  (∀ s : State, isEven s.pc = true →
    let b : Byte := s.irc.extractLsb' 0 8
    let t := fun v : Byte => (s.extTaken.setCcr v).prefetched
    (exec .oriCcr s = .next (t (s.getCcr ||| b)) ∧ SameCore (s.setCcr (s.getCcr ||| b)) (t (s.getCcr ||| b)) ∧
      SameBytes s (t (s.getCcr ||| b))) ∧
    (exec .andiCcr s = .next (t (s.getCcr &&& b)) ∧ SameCore (s.setCcr (s.getCcr &&& b)) (t (s.getCcr &&& b)) ∧
      SameBytes s (t (s.getCcr &&& b))) ∧
    (exec .eoriCcr s = .next (t (s.getCcr ^^^ b)) ∧ SameCore (s.setCcr (s.getCcr ^^^ b)) (t (s.getCcr ^^^ b)) ∧
      SameBytes s (t (s.getCcr ^^^ b)))) ∧
  (∀ (ea : Ea) (s : State), OperandReady ea .w s → isEven s.pc = true →
    ∃ v loc u, readOp ea .w s = .ok (v, loc) u ∧
      let t := (u.setCcr (v.extractLsb' 0 8)).finished (s.cfg.opCost .moveToCcr)
      exec (.moveToCcr ea) s = .next t ∧ SameCore ((s.adjusted ea .w).setCcr (v.extractLsb' 0 8)) t ∧ SameBytes s t)

/-- R178, R184, R186, R188: the forms that write the status register, in supervisor mode: all of it, with the swap of R23. -/
def Obligations.StatusRegisterForms : Prop :=
  (∀ s : State, s.sr.s = true → isEven s.pc = true →
    let t := fun v : Word => (s.extTaken.setSr v).prefetched
    (exec .oriSr s = .next (t (s.getSr ||| s.irc)) ∧ SameCore (s.setSr (s.getSr ||| s.irc)) (t (s.getSr ||| s.irc)) ∧
      SameBytes s (t (s.getSr ||| s.irc))) ∧
    (exec .andiSr s = .next (t (s.getSr &&& s.irc)) ∧ SameCore (s.setSr (s.getSr &&& s.irc)) (t (s.getSr &&& s.irc)) ∧
      SameBytes s (t (s.getSr &&& s.irc))) ∧
    (exec .eoriSr s = .next (t (s.getSr ^^^ s.irc)) ∧ SameCore (s.setSr (s.getSr ^^^ s.irc)) (t (s.getSr ^^^ s.irc)) ∧
      SameBytes s (t (s.getSr ^^^ s.irc)))) ∧
  (∀ (ea : Ea) (s : State), s.sr.s = true → OperandReady ea .w s → isEven s.pc = true →
    ∃ v loc u, readOp ea .w s = .ok (v, loc) u ∧
      let t := (u.setSr (v.extractLsb' 0 16)).finished (s.cfg.opCost .moveToSr)
      exec (.moveToSr ea) s = .next t ∧ SameCore ((s.adjusted ea .w).setSr (v.extractLsb' 0 16)) t ∧ SameBytes s t)

/-- R173, R175, R176, R181, R182, R124: the other privileged instructions in supervisor mode. An odd stack pointer ends `RTE` before
anything changed; an odd return address is an address error after the whole status register was restored. -/
def Obligations.SupervisorInstructions : Prop :=
  ∀ s : State, s.sr.s = true →
    (isEven s.pc = true → ∀ an, let t := (s.setUsp (s.readA an)).prefetched
      exec (.moveToUsp an) s = .next t ∧ SameCore (s.setUsp (s.readA an)) t ∧ SameBytes s t) ∧
    (isEven s.pc = true → ∀ an, let t := (s.writeA an s.usp).prefetched
      exec (.moveFromUsp an) s = .next t ∧ SameCore (s.writeA an s.usp) t ∧ SameBytes s t) ∧
    (isEven s.pc = true → let t := (s.record (.notify .resetInstr)).finished (s.cfg.opCost .reset)
      exec .reset s = .next t ∧ SameCore s t ∧ SameBytes s t) ∧
    (isEven s.pc = true →
      let t := ((((s.extTaken.setSr s.irc).setRun .stopped).sampled).record (.notify .stopInstr)).tick (s.cfg.opCost .stop)
      exec .stop s = .next t ∧ SameCore ((s.setSr s.irc).setRun .stopped) t ∧ t.pc = s.pc + 2 ∧ t.ird = s.ird ∧ SameBytes s t) ∧
    (isEven s.sp = true →
      let sr := s.answer16 (s.phys s.sp)
      let pc := (s.wordRead s.sp).answer32 (s.sp + 2)
      let g := ((((s.wordRead s.sp).longRead (s.sp + 2)).writeA 7 (s.sp + 6)).setSr sr).setPc pc
      (isEven pc = true →
        exec .rte s = .next g.refilled ∧ SameCore ((s.writeA 7 (s.sp + 6)).setSr sr) g.refilled ∧ g.refilled.pc = pc ∧
          SameBytes s g.refilled) ∧
      (isEven pc = false → exec .rte s = addressErrorEntry pc .read .prog g)) ∧
    (isEven s.sp = false → exec .rte s = addressErrorEntry s.sp .read .data s)

/-! ### Exceptions -/

/-- R170, R172, R174, R177, R306, R307: the instructions whose effect is an exception take it: the vector, the return pc, the
frame, supervisor mode, the handler. -/
def Obligations.TrapInstructions : Prop :=
  ∀ s : State,
    (EntryReady .illegalOpcode 4 s.pc0 s → ∃ t, exec .illegal s = .next t ∧ Enters .illegalOpcode 4 s.pc0 s t) ∧
    (∀ low, EntryReady .reservedOpcodeGroup 10 s.pc0 s →
      ∃ t, exec (.lineA low) s = .next t ∧ Enters .reservedOpcodeGroup 10 s.pc0 s t) ∧
    (∀ low, EntryReady .reservedOpcodeGroup 11 s.pc0 s →
      ∃ t, exec (.lineF low) s = .next t ∧ Enters .reservedOpcodeGroup 11 s.pc0 s t) ∧
    (∀ v : BitVec 4, EntryReady .softwareTrap (BitVec.ofNat 8 (32 + v.toNat)) s.pc s →
      ∃ t, exec (.trap v) s = .next t ∧ Enters .softwareTrap (BitVec.ofNat 8 (32 + v.toNat)) s.pc s t)

/-- R169, R330: the privileged kinds, and that each raises PrivilegeViolation in user mode, with nothing else done. -/
def Obligations.PrivilegeViolations : Prop :=
  (∀ i : Instr, i.descriptor.priv = true ↔
    i = .stop ∨ i = .reset ∨ i = .rte ∨ (∃ ea, i = .moveToSr ea) ∨ (∃ an, i = .moveToUsp an) ∨ (∃ an, i = .moveFromUsp an) ∨
      i = .oriSr ∨ i = .andiSr ∨ i = .eoriSr) ∧
  (∀ (i : Instr) (s : State), i.descriptor.priv = true → s.sr.s = false → EntryReady .privilegeViolation 8 s.pc0 s →
    ∃ t, exec i s = .next t ∧ Enters .privilegeViolation 8 s.pc0 s t)

/-- R121 line 2, R306, R307: a queued trace is taken first, with the next instruction as its return pc. -/
def Obligations.TraceIsTaken : Prop :=
  ∀ s : State, s.run ≠ .halted → s.pipelineBroken = false → s.tracePending = true → ¬(s.run = .stopped ∧ s.cfg.stopTraceHold = true) →
    let u := (s.setTracePending false).setRun .running
    EntryReady .traceException 9 s.pc u → ∃ t, step s = .next t ∧ Enters .traceException 9 s.pc u t

/-- R318, R320, R321: an eligible interrupt is taken: the old status word and the next pc are pushed, the mask is raised to the
level, Stopped is left, level 7 is disarmed until a lower sample, and the vector is the level's or the one the host supplies. -/
def Obligations.InterruptIsTaken : Prop :=
  ∀ s : State, s.run ≠ .halted → s.pipelineBroken = false → (s.tracePending = false ∨ (s.run = .stopped ∧ s.cfg.stopTraceHold = true)) →
    s.irqEligible s.iplPolled = true →
    let level := s.iplPolled
    let vector : BitVec 8 := match s.iackAnswer with | .auto => BitVec.ofNat 8 (24 + level.toNat) | .vector v => v
    let frame := s.interruptFrame level
    isEven s.supervisorSp = true → isEven (frame.handler vector) = true →
    ∃ t, step s = .next t ∧ SameCore frame t ∧ Refilled (frame.atHandler vector) t ∧
      t.clock = s.clock + s.cfg.vecCost .interrupt + 28 ∧ t.run = .running ∧ t.sr.i = level ∧ t.iplPolled = s.iplAnswer ∧
      t.nmiArmed = ((s.nmiArmed && level != 7) || s.iplAnswer != 7) ∧
      t.port.head? = some (.notify (.exception .interrupt (some vector))) ∧
      SameBytesBut (fun p => storesTo s (s.supervisorSp - 4) .l p ∨ storesTo s (s.supervisorSp - 6) .w p) s t

/-- R302, R307 to R310: what an entry of the normal kind leaves. The 6-byte frame as it stands in memory: the status word lowest, then
the return pc, high word first. The handler comes from the vector's entry at 4 times its number. A queued trace is dropped for an
illegal opcode, a reserved group and a privilege violation, and kept for a software trap and for the trace itself. The refill at the
handler samples the interrupt level. -/
def Obligations.NormalFrameLayout : Prop :=
  (∀ v : BitVec 8, (vectorAddress v).toNat = 4 * v.toNat) ∧
  ∀ (kind : ExcKind) (vector : BitVec 8) (retpc : Long) (s : State), MemInv s → 3 ≤ s.cfg.addrBits →
    EntryReady kind vector retpc s →
    ∃ t, takeException kind vector retpc s = .next t ∧ Enters kind vector retpc s t ∧ t.sp = s.supervisorSp - 6 ∧
      t.mem.readWord (s.phys t.sp) = s.getSr ∧ t.mem.readWord (s.phys (t.sp + 2)) = retpc.extractLsb' 16 16 ∧
      t.mem.readWord (s.phys (t.sp + 4)) = retpc.extractLsb' 0 16 ∧ t.sr = { s.sr with s := true, t := false } ∧
      (s.hostReads = [] → t.pc = t.mem.readWord (s.phys (BitVec.ofNat 32 (4 * vector.toNat))) ++
        t.mem.readWord (s.phys (BitVec.ofNat 32 (4 * vector.toNat + 2)))) ∧
      (kind = .illegalOpcode ∨ kind = .reservedOpcodeGroup ∨ kind = .privilegeViolation → t.tracePending = false) ∧
      (kind = .softwareTrap ∨ kind = .traceException → t.tracePending = s.tracePending) ∧
      t.iplPolled = s.iplAnswer ∧ t.nmiArmed = (s.nmiArmed || s.iplAnswer != 7)

/-- R312, R313: an address error that is not in service is entered through vector 3, with the 14-byte frame as it stands in memory:
the special status word, the masked address, `ird`, the old status word, `pc`. -/
def Obligations.AddressErrorFrameLayout : Prop :=
  ∀ (addr : Long) (dir : Dir) (space : Space) (s : State), MemInv s → 4 ≤ s.cfg.addrBits → s.aeInService = false →
    isEven s.supervisorSp = true → isEven ((s.addressErrorFrame addr dir space).handler 3) = true →
    ∃ t, addressErrorEntry addr dir space s = .next t ∧ SameCore (s.addressErrorFrame addr dir space) t ∧
      Refilled ((s.addressErrorFrame addr dir space).atHandler 3) t ∧ t.clock = s.clock + s.cfg.vecCost .addressError + 44 ∧
      t.port.head? = some (.notify (.exception .addressError (some 3))) ∧ t.sp = s.supervisorSp - 14 ∧
      t.sr = { s.sr with s := true, t := false } ∧ t.tracePending = false ∧ t.iplPolled = s.iplAnswer ∧
      t.nmiArmed = (s.nmiArmed || s.iplAnswer != 7) ∧
      (let word := fun x : Long => t.mem.readWord (s.phys x);
        word t.sp = s.ird.extractLsb' 5 11 ++ BitVec.ofBool (dir == .read) ++ BitVec.ofBool s.excInService ++
          BitVec.ofBool s.sr.s ++ (match space with | .prog => 2#2 | .data => 1#2) ∧
        word (t.sp + 2) ++ word (t.sp + 4) = BitVec.ofNat 32 (s.phys addr) ∧ word (t.sp + 6) = s.ird ∧
        word (t.sp + 8) = s.getSr ∧ word (t.sp + 10) ++ word (t.sp + 12) = s.pc)

/-- R314: an address error while one is in service, or on an odd supervisor stack pointer, halts the core; an exception on an odd
supervisor stack pointer halts it too. -/
def Obligations.DoubleFaultHalts : Prop :=
  (∀ (addr : Long) (dir : Dir) (space : Space) (s : State), s.aeInService = true →
    ∃ t, addressErrorEntry addr dir space s = .next t ∧
      t = { s with run := .halted, aeInService := false, excInService := false,
                   port := .notify .haltEntry :: .notify (.exception .doubleFault none) :: s.port }) ∧
  (∀ (addr : Long) (dir : Dir) (space : Space) (s : State), isEven s.supervisorSp = false →
    ∃ t, addressErrorEntry addr dir space s = .next t ∧ t.run = .halted ∧ t.mem = s.mem) ∧
  (∀ (kind : ExcKind) (vector : BitVec 8) (retpc : Long) (s : State), isEven s.supervisorSp = false →
    ∃ t, takeException kind vector retpc s = .next t ∧ t.run = .halted ∧ t.mem = s.mem)

/-! ### Invariants and whole-machine rules -/

/-- The invariants below hold after reset. -/
def Obligations.InvariantsHoldAtReset : Prop :=
  MemInv State.reset ∧ QuietInv State.reset ∧ PcInv State.reset ∧ PipelineInv State.reset

/-- R38, R61: every step keeps the transient bits clear, and memory canonical and inside the address space; and no step breaks or
mends the pipeline's mark, which is the host's (log entry 18). -/
def Obligations.ControlAndMemoryInvariant : Prop :=
  ∀ s t : State, QuietInv s → step s = .next t → QuietInv t ∧ (MemInv s → MemInv t) ∧ t.pipelineBroken = s.pipelineBroken

/-- R25, R26, R33: every step keeps `pc` even and equal to `pc0`, and the pipeline filled with words read from `pc` and `pc + 2`
(in Stopped: from `pc`, with the STOP opcode in `ird`). -/
def Obligations.PipelineStaysFilled : Prop :=
  ∀ s t : State, QuietInv s → PcInv s → PipelineInv s → step s = .next t → PcInv t ∧ PipelineInv t

/-- R34, R64, R5: no step turns the clock back, changes a parameter or takes back a transaction. -/
def Obligations.ClockNeverFalls : Prop :=
  ∀ s t : State, QuietInv s → step s = .next t → s.clock ≤ t.clock ∧ t.cfg = s.cfg ∧ s.port <:+ t.port

/-- R331: what a step that begins and ends in user mode cannot change; and user mode is left only through an exception or interrupt
entry, or by halting in one. -/
def Obligations.UserModeIsConfined : Prop :=
  ∀ s t : State, QuietInv s → s.sr.s = false → step s = .next t →
    (t.sr.s = false → t.sr.t = s.sr.t ∧ t.sr.i = s.sr.i ∧ t.usp = s.usp ∧ t.ssp = s.ssp ∧ t.run = s.run) ∧
    (t.sr.s = true → ∃ k v, PortCall.notify (.exception k v) ∈ t.port.take 2)

/-- R331: supervisor mode is left only by `RTE`, `MOVE <ea>,SR`, `ANDI #imm,SR`, `EORI #imm,SR` and `STOP #imm`. -/
def Obligations.SupervisorModeIsLeftOnlyBySrWrites : Prop :=
  ∀ s t : State, QuietInv s → s.sr.s = true → step s = .next t → t.sr.s = false →
    s.run = .running ∧ (decode s.ird).canLeaveSupervisor = true

/-- R36: the transitions of the run state, and that there is no other. -/
def Obligations.RunStateTransitions : Prop :=
  ∀ s t : State, QuietInv s → step s = .next t →
    (s.run = .halted → t.run = .halted) ∧
    (s.run = .running → t.run = .stopped → decode s.ird = .stop ∧ s.sr.s = true) ∧
    (s.run = .stopped → t.run = .running →
      s.irqEligible s.iplPolled = true ∨ (s.tracePending = true ∧ s.cfg.stopTraceHold = false)) ∧
    (s.run ≠ .halted → t.run = .halted → t.port.head? = some (.notify .haltEntry))
end

