-- ==== Sys2Proof/Laws/State.lean ====
section
/-! SUPPORT. The updates of the state: for each named update, what every field and every accessor of the state reads after it.
Each theorem is a conjunction with one conjunct per field, true by `rfl`, and so one simp rule per field; no later proof unfolds
a record update. Below them, the register accessors against the register writes, and the status register. -/

namespace Sys2Proof.Machine

/-! ### One simp rule per field per update -/

@[simp] theorem setPc_fields (s : State) (v : Long) :
    (s.setPc v).cfg = s.cfg ∧ (s.setPc v).d = s.d ∧ (s.setPc v).a = s.a ∧ (s.setPc v).usp = s.usp ∧
    (s.setPc v).ssp = s.ssp ∧ (s.setPc v).pc = v ∧ (s.setPc v).pc0 = s.pc0 ∧ (s.setPc v).sr = s.sr ∧
    (s.setPc v).ird = s.ird ∧ (s.setPc v).irc = s.irc ∧ (s.setPc v).clock = s.clock ∧
    (s.setPc v).iplPolled = s.iplPolled ∧ (s.setPc v).nmiArmed = s.nmiArmed ∧ (s.setPc v).run = s.run ∧
    (s.setPc v).tracePending = s.tracePending ∧ (s.setPc v).aeInService = s.aeInService ∧
    (s.setPc v).excInService = s.excInService ∧ (s.setPc v).pipelineBroken = s.pipelineBroken ∧
    (s.setPc v).mem = s.mem ∧ (s.setPc v).hostIpl = s.hostIpl ∧ (s.setPc v).hostIack = s.hostIack ∧
    (s.setPc v).hostReads = s.hostReads ∧ (s.setPc v).port = s.port ∧ (∀ x : Long, (s.setPc v).phys x = s.phys x) ∧
    (∀ q : RegNum, (s.setPc v).readD q = s.readD q) ∧ (∀ q : RegNum, (s.setPc v).readA q = s.readA q) ∧
    (s.setPc v).sp = s.sp ∧ (s.setPc v).getSr = s.getSr ∧ (s.setPc v).getCcr = s.getCcr ∧
    (∀ p : Nat, (s.setPc v).answer8 p = s.answer8 p) ∧ (∀ p : Nat, (s.setPc v).answer16 p = s.answer16 p) ∧
    (s.setPc v).iplAnswer = s.iplAnswer ∧ (s.setPc v).iackAnswer = s.iackAnswer := by
  exact ⟨rfl, rfl, rfl, rfl, rfl, rfl, rfl, rfl, rfl, rfl, rfl, rfl, rfl, rfl, rfl, rfl, rfl, rfl, rfl, rfl, rfl, rfl, rfl, fun _ => rfl, fun _ => rfl, fun _ => rfl, rfl, rfl, rfl, fun _ => rfl, fun _ => rfl, rfl, rfl⟩

@[simp] theorem setPc0_fields (s : State) (v : Long) :
    (s.setPc0 v).cfg = s.cfg ∧ (s.setPc0 v).d = s.d ∧ (s.setPc0 v).a = s.a ∧ (s.setPc0 v).usp = s.usp ∧
    (s.setPc0 v).ssp = s.ssp ∧ (s.setPc0 v).pc = s.pc ∧ (s.setPc0 v).pc0 = v ∧ (s.setPc0 v).sr = s.sr ∧
    (s.setPc0 v).ird = s.ird ∧ (s.setPc0 v).irc = s.irc ∧ (s.setPc0 v).clock = s.clock ∧
    (s.setPc0 v).iplPolled = s.iplPolled ∧ (s.setPc0 v).nmiArmed = s.nmiArmed ∧ (s.setPc0 v).run = s.run ∧
    (s.setPc0 v).tracePending = s.tracePending ∧ (s.setPc0 v).aeInService = s.aeInService ∧
    (s.setPc0 v).excInService = s.excInService ∧ (s.setPc0 v).pipelineBroken = s.pipelineBroken ∧
    (s.setPc0 v).mem = s.mem ∧ (s.setPc0 v).hostIpl = s.hostIpl ∧ (s.setPc0 v).hostIack = s.hostIack ∧
    (s.setPc0 v).hostReads = s.hostReads ∧ (s.setPc0 v).port = s.port ∧ (∀ x : Long, (s.setPc0 v).phys x = s.phys x) ∧
    (∀ q : RegNum, (s.setPc0 v).readD q = s.readD q) ∧ (∀ q : RegNum, (s.setPc0 v).readA q = s.readA q) ∧
    (s.setPc0 v).sp = s.sp ∧ (s.setPc0 v).getSr = s.getSr ∧ (s.setPc0 v).getCcr = s.getCcr ∧
    (∀ p : Nat, (s.setPc0 v).answer8 p = s.answer8 p) ∧ (∀ p : Nat, (s.setPc0 v).answer16 p = s.answer16 p) ∧
    (s.setPc0 v).iplAnswer = s.iplAnswer ∧ (s.setPc0 v).iackAnswer = s.iackAnswer := by
  exact ⟨rfl, rfl, rfl, rfl, rfl, rfl, rfl, rfl, rfl, rfl, rfl, rfl, rfl, rfl, rfl, rfl, rfl, rfl, rfl, rfl, rfl, rfl, rfl, fun _ => rfl, fun _ => rfl, fun _ => rfl, rfl, rfl, rfl, fun _ => rfl, fun _ => rfl, rfl, rfl⟩

@[simp] theorem setIrd_fields (s : State) (v : Word) :
    (s.setIrd v).cfg = s.cfg ∧ (s.setIrd v).d = s.d ∧ (s.setIrd v).a = s.a ∧ (s.setIrd v).usp = s.usp ∧
    (s.setIrd v).ssp = s.ssp ∧ (s.setIrd v).pc = s.pc ∧ (s.setIrd v).pc0 = s.pc0 ∧ (s.setIrd v).sr = s.sr ∧
    (s.setIrd v).ird = v ∧ (s.setIrd v).irc = s.irc ∧ (s.setIrd v).clock = s.clock ∧
    (s.setIrd v).iplPolled = s.iplPolled ∧ (s.setIrd v).nmiArmed = s.nmiArmed ∧ (s.setIrd v).run = s.run ∧
    (s.setIrd v).tracePending = s.tracePending ∧ (s.setIrd v).aeInService = s.aeInService ∧
    (s.setIrd v).excInService = s.excInService ∧ (s.setIrd v).pipelineBroken = s.pipelineBroken ∧
    (s.setIrd v).mem = s.mem ∧ (s.setIrd v).hostIpl = s.hostIpl ∧ (s.setIrd v).hostIack = s.hostIack ∧
    (s.setIrd v).hostReads = s.hostReads ∧ (s.setIrd v).port = s.port ∧ (∀ x : Long, (s.setIrd v).phys x = s.phys x) ∧
    (∀ q : RegNum, (s.setIrd v).readD q = s.readD q) ∧ (∀ q : RegNum, (s.setIrd v).readA q = s.readA q) ∧
    (s.setIrd v).sp = s.sp ∧ (s.setIrd v).getSr = s.getSr ∧ (s.setIrd v).getCcr = s.getCcr ∧
    (∀ p : Nat, (s.setIrd v).answer8 p = s.answer8 p) ∧ (∀ p : Nat, (s.setIrd v).answer16 p = s.answer16 p) ∧
    (s.setIrd v).iplAnswer = s.iplAnswer ∧ (s.setIrd v).iackAnswer = s.iackAnswer := by
  exact ⟨rfl, rfl, rfl, rfl, rfl, rfl, rfl, rfl, rfl, rfl, rfl, rfl, rfl, rfl, rfl, rfl, rfl, rfl, rfl, rfl, rfl, rfl, rfl, fun _ => rfl, fun _ => rfl, fun _ => rfl, rfl, rfl, rfl, fun _ => rfl, fun _ => rfl, rfl, rfl⟩

@[simp] theorem setIrc_fields (s : State) (v : Word) :
    (s.setIrc v).cfg = s.cfg ∧ (s.setIrc v).d = s.d ∧ (s.setIrc v).a = s.a ∧ (s.setIrc v).usp = s.usp ∧
    (s.setIrc v).ssp = s.ssp ∧ (s.setIrc v).pc = s.pc ∧ (s.setIrc v).pc0 = s.pc0 ∧ (s.setIrc v).sr = s.sr ∧
    (s.setIrc v).ird = s.ird ∧ (s.setIrc v).irc = v ∧ (s.setIrc v).clock = s.clock ∧
    (s.setIrc v).iplPolled = s.iplPolled ∧ (s.setIrc v).nmiArmed = s.nmiArmed ∧ (s.setIrc v).run = s.run ∧
    (s.setIrc v).tracePending = s.tracePending ∧ (s.setIrc v).aeInService = s.aeInService ∧
    (s.setIrc v).excInService = s.excInService ∧ (s.setIrc v).pipelineBroken = s.pipelineBroken ∧
    (s.setIrc v).mem = s.mem ∧ (s.setIrc v).hostIpl = s.hostIpl ∧ (s.setIrc v).hostIack = s.hostIack ∧
    (s.setIrc v).hostReads = s.hostReads ∧ (s.setIrc v).port = s.port ∧ (∀ x : Long, (s.setIrc v).phys x = s.phys x) ∧
    (∀ q : RegNum, (s.setIrc v).readD q = s.readD q) ∧ (∀ q : RegNum, (s.setIrc v).readA q = s.readA q) ∧
    (s.setIrc v).sp = s.sp ∧ (s.setIrc v).getSr = s.getSr ∧ (s.setIrc v).getCcr = s.getCcr ∧
    (∀ p : Nat, (s.setIrc v).answer8 p = s.answer8 p) ∧ (∀ p : Nat, (s.setIrc v).answer16 p = s.answer16 p) ∧
    (s.setIrc v).iplAnswer = s.iplAnswer ∧ (s.setIrc v).iackAnswer = s.iackAnswer := by
  exact ⟨rfl, rfl, rfl, rfl, rfl, rfl, rfl, rfl, rfl, rfl, rfl, rfl, rfl, rfl, rfl, rfl, rfl, rfl, rfl, rfl, rfl, rfl, rfl, fun _ => rfl, fun _ => rfl, fun _ => rfl, rfl, rfl, rfl, fun _ => rfl, fun _ => rfl, rfl, rfl⟩

@[simp] theorem setUsp_fields (s : State) (v : Long) :
    (s.setUsp v).cfg = s.cfg ∧ (s.setUsp v).d = s.d ∧ (s.setUsp v).a = s.a ∧ (s.setUsp v).usp = v ∧
    (s.setUsp v).ssp = s.ssp ∧ (s.setUsp v).pc = s.pc ∧ (s.setUsp v).pc0 = s.pc0 ∧ (s.setUsp v).sr = s.sr ∧
    (s.setUsp v).ird = s.ird ∧ (s.setUsp v).irc = s.irc ∧ (s.setUsp v).clock = s.clock ∧
    (s.setUsp v).iplPolled = s.iplPolled ∧ (s.setUsp v).nmiArmed = s.nmiArmed ∧ (s.setUsp v).run = s.run ∧
    (s.setUsp v).tracePending = s.tracePending ∧ (s.setUsp v).aeInService = s.aeInService ∧
    (s.setUsp v).excInService = s.excInService ∧ (s.setUsp v).pipelineBroken = s.pipelineBroken ∧
    (s.setUsp v).mem = s.mem ∧ (s.setUsp v).hostIpl = s.hostIpl ∧ (s.setUsp v).hostIack = s.hostIack ∧
    (s.setUsp v).hostReads = s.hostReads ∧ (s.setUsp v).port = s.port ∧ (∀ x : Long, (s.setUsp v).phys x = s.phys x) ∧
    (∀ q : RegNum, (s.setUsp v).readD q = s.readD q) ∧ (∀ q : RegNum, (s.setUsp v).readA q = s.readA q) ∧
    (s.setUsp v).sp = s.sp ∧ (s.setUsp v).getSr = s.getSr ∧ (s.setUsp v).getCcr = s.getCcr ∧
    (∀ p : Nat, (s.setUsp v).answer8 p = s.answer8 p) ∧ (∀ p : Nat, (s.setUsp v).answer16 p = s.answer16 p) ∧
    (s.setUsp v).iplAnswer = s.iplAnswer ∧ (s.setUsp v).iackAnswer = s.iackAnswer := by
  exact ⟨rfl, rfl, rfl, rfl, rfl, rfl, rfl, rfl, rfl, rfl, rfl, rfl, rfl, rfl, rfl, rfl, rfl, rfl, rfl, rfl, rfl, rfl, rfl, fun _ => rfl, fun _ => rfl, fun _ => rfl, rfl, rfl, rfl, fun _ => rfl, fun _ => rfl, rfl, rfl⟩

@[simp] theorem setSsp_fields (s : State) (v : Long) :
    (s.setSsp v).cfg = s.cfg ∧ (s.setSsp v).d = s.d ∧ (s.setSsp v).a = s.a ∧ (s.setSsp v).usp = s.usp ∧
    (s.setSsp v).ssp = v ∧ (s.setSsp v).pc = s.pc ∧ (s.setSsp v).pc0 = s.pc0 ∧ (s.setSsp v).sr = s.sr ∧
    (s.setSsp v).ird = s.ird ∧ (s.setSsp v).irc = s.irc ∧ (s.setSsp v).clock = s.clock ∧
    (s.setSsp v).iplPolled = s.iplPolled ∧ (s.setSsp v).nmiArmed = s.nmiArmed ∧ (s.setSsp v).run = s.run ∧
    (s.setSsp v).tracePending = s.tracePending ∧ (s.setSsp v).aeInService = s.aeInService ∧
    (s.setSsp v).excInService = s.excInService ∧ (s.setSsp v).pipelineBroken = s.pipelineBroken ∧
    (s.setSsp v).mem = s.mem ∧ (s.setSsp v).hostIpl = s.hostIpl ∧ (s.setSsp v).hostIack = s.hostIack ∧
    (s.setSsp v).hostReads = s.hostReads ∧ (s.setSsp v).port = s.port ∧ (∀ x : Long, (s.setSsp v).phys x = s.phys x) ∧
    (∀ q : RegNum, (s.setSsp v).readD q = s.readD q) ∧ (∀ q : RegNum, (s.setSsp v).readA q = s.readA q) ∧
    (s.setSsp v).sp = s.sp ∧ (s.setSsp v).getSr = s.getSr ∧ (s.setSsp v).getCcr = s.getCcr ∧
    (∀ p : Nat, (s.setSsp v).answer8 p = s.answer8 p) ∧ (∀ p : Nat, (s.setSsp v).answer16 p = s.answer16 p) ∧
    (s.setSsp v).iplAnswer = s.iplAnswer ∧ (s.setSsp v).iackAnswer = s.iackAnswer := by
  exact ⟨rfl, rfl, rfl, rfl, rfl, rfl, rfl, rfl, rfl, rfl, rfl, rfl, rfl, rfl, rfl, rfl, rfl, rfl, rfl, rfl, rfl, rfl, rfl, fun _ => rfl, fun _ => rfl, fun _ => rfl, rfl, rfl, rfl, fun _ => rfl, fun _ => rfl, rfl, rfl⟩

@[simp] theorem setRun_fields (s : State) (v : RunState) :
    (s.setRun v).cfg = s.cfg ∧ (s.setRun v).d = s.d ∧ (s.setRun v).a = s.a ∧ (s.setRun v).usp = s.usp ∧
    (s.setRun v).ssp = s.ssp ∧ (s.setRun v).pc = s.pc ∧ (s.setRun v).pc0 = s.pc0 ∧ (s.setRun v).sr = s.sr ∧
    (s.setRun v).ird = s.ird ∧ (s.setRun v).irc = s.irc ∧ (s.setRun v).clock = s.clock ∧
    (s.setRun v).iplPolled = s.iplPolled ∧ (s.setRun v).nmiArmed = s.nmiArmed ∧ (s.setRun v).run = v ∧
    (s.setRun v).tracePending = s.tracePending ∧ (s.setRun v).aeInService = s.aeInService ∧
    (s.setRun v).excInService = s.excInService ∧ (s.setRun v).pipelineBroken = s.pipelineBroken ∧
    (s.setRun v).mem = s.mem ∧ (s.setRun v).hostIpl = s.hostIpl ∧ (s.setRun v).hostIack = s.hostIack ∧
    (s.setRun v).hostReads = s.hostReads ∧ (s.setRun v).port = s.port ∧ (∀ x : Long, (s.setRun v).phys x = s.phys x) ∧
    (∀ q : RegNum, (s.setRun v).readD q = s.readD q) ∧ (∀ q : RegNum, (s.setRun v).readA q = s.readA q) ∧
    (s.setRun v).sp = s.sp ∧ (s.setRun v).getSr = s.getSr ∧ (s.setRun v).getCcr = s.getCcr ∧
    (∀ p : Nat, (s.setRun v).answer8 p = s.answer8 p) ∧ (∀ p : Nat, (s.setRun v).answer16 p = s.answer16 p) ∧
    (s.setRun v).iplAnswer = s.iplAnswer ∧ (s.setRun v).iackAnswer = s.iackAnswer := by
  exact ⟨rfl, rfl, rfl, rfl, rfl, rfl, rfl, rfl, rfl, rfl, rfl, rfl, rfl, rfl, rfl, rfl, rfl, rfl, rfl, rfl, rfl, rfl, rfl, fun _ => rfl, fun _ => rfl, fun _ => rfl, rfl, rfl, rfl, fun _ => rfl, fun _ => rfl, rfl, rfl⟩

@[simp] theorem setTracePending_fields (s : State) (v : Bool) :
    (s.setTracePending v).cfg = s.cfg ∧ (s.setTracePending v).d = s.d ∧ (s.setTracePending v).a = s.a ∧
    (s.setTracePending v).usp = s.usp ∧ (s.setTracePending v).ssp = s.ssp ∧ (s.setTracePending v).pc = s.pc ∧
    (s.setTracePending v).pc0 = s.pc0 ∧ (s.setTracePending v).sr = s.sr ∧ (s.setTracePending v).ird = s.ird ∧
    (s.setTracePending v).irc = s.irc ∧ (s.setTracePending v).clock = s.clock ∧
    (s.setTracePending v).iplPolled = s.iplPolled ∧ (s.setTracePending v).nmiArmed = s.nmiArmed ∧
    (s.setTracePending v).run = s.run ∧ (s.setTracePending v).tracePending = v ∧
    (s.setTracePending v).aeInService = s.aeInService ∧ (s.setTracePending v).excInService = s.excInService ∧
    (s.setTracePending v).pipelineBroken = s.pipelineBroken ∧ (s.setTracePending v).mem = s.mem ∧
    (s.setTracePending v).hostIpl = s.hostIpl ∧ (s.setTracePending v).hostIack = s.hostIack ∧
    (s.setTracePending v).hostReads = s.hostReads ∧ (s.setTracePending v).port = s.port ∧
    (∀ x : Long, (s.setTracePending v).phys x = s.phys x) ∧ (∀ q : RegNum, (s.setTracePending v).readD q = s.readD q) ∧
    (∀ q : RegNum, (s.setTracePending v).readA q = s.readA q) ∧ (s.setTracePending v).sp = s.sp ∧
    (s.setTracePending v).getSr = s.getSr ∧ (s.setTracePending v).getCcr = s.getCcr ∧
    (∀ p : Nat, (s.setTracePending v).answer8 p = s.answer8 p) ∧
    (∀ p : Nat, (s.setTracePending v).answer16 p = s.answer16 p) ∧ (s.setTracePending v).iplAnswer = s.iplAnswer ∧
    (s.setTracePending v).iackAnswer = s.iackAnswer := by
  exact ⟨rfl, rfl, rfl, rfl, rfl, rfl, rfl, rfl, rfl, rfl, rfl, rfl, rfl, rfl, rfl, rfl, rfl, rfl, rfl, rfl, rfl, rfl, rfl, fun _ => rfl, fun _ => rfl, fun _ => rfl, rfl, rfl, rfl, fun _ => rfl, fun _ => rfl, rfl, rfl⟩

@[simp] theorem setNmiArmed_fields (s : State) (v : Bool) :
    (s.setNmiArmed v).cfg = s.cfg ∧ (s.setNmiArmed v).d = s.d ∧ (s.setNmiArmed v).a = s.a ∧
    (s.setNmiArmed v).usp = s.usp ∧ (s.setNmiArmed v).ssp = s.ssp ∧ (s.setNmiArmed v).pc = s.pc ∧
    (s.setNmiArmed v).pc0 = s.pc0 ∧ (s.setNmiArmed v).sr = s.sr ∧ (s.setNmiArmed v).ird = s.ird ∧
    (s.setNmiArmed v).irc = s.irc ∧ (s.setNmiArmed v).clock = s.clock ∧ (s.setNmiArmed v).iplPolled = s.iplPolled ∧
    (s.setNmiArmed v).nmiArmed = v ∧ (s.setNmiArmed v).run = s.run ∧ (s.setNmiArmed v).tracePending = s.tracePending ∧
    (s.setNmiArmed v).aeInService = s.aeInService ∧ (s.setNmiArmed v).excInService = s.excInService ∧
    (s.setNmiArmed v).pipelineBroken = s.pipelineBroken ∧ (s.setNmiArmed v).mem = s.mem ∧
    (s.setNmiArmed v).hostIpl = s.hostIpl ∧ (s.setNmiArmed v).hostIack = s.hostIack ∧
    (s.setNmiArmed v).hostReads = s.hostReads ∧ (s.setNmiArmed v).port = s.port ∧
    (∀ x : Long, (s.setNmiArmed v).phys x = s.phys x) ∧ (∀ q : RegNum, (s.setNmiArmed v).readD q = s.readD q) ∧
    (∀ q : RegNum, (s.setNmiArmed v).readA q = s.readA q) ∧ (s.setNmiArmed v).sp = s.sp ∧
    (s.setNmiArmed v).getSr = s.getSr ∧ (s.setNmiArmed v).getCcr = s.getCcr ∧
    (∀ p : Nat, (s.setNmiArmed v).answer8 p = s.answer8 p) ∧ (∀ p : Nat, (s.setNmiArmed v).answer16 p = s.answer16 p) ∧
    (s.setNmiArmed v).iplAnswer = s.iplAnswer ∧ (s.setNmiArmed v).iackAnswer = s.iackAnswer := by
  exact ⟨rfl, rfl, rfl, rfl, rfl, rfl, rfl, rfl, rfl, rfl, rfl, rfl, rfl, rfl, rfl, rfl, rfl, rfl, rfl, rfl, rfl, rfl, rfl, fun _ => rfl, fun _ => rfl, fun _ => rfl, rfl, rfl, rfl, fun _ => rfl, fun _ => rfl, rfl, rfl⟩

@[simp] theorem setAeInService_fields (s : State) (v : Bool) :
    (s.setAeInService v).cfg = s.cfg ∧ (s.setAeInService v).d = s.d ∧ (s.setAeInService v).a = s.a ∧
    (s.setAeInService v).usp = s.usp ∧ (s.setAeInService v).ssp = s.ssp ∧ (s.setAeInService v).pc = s.pc ∧
    (s.setAeInService v).pc0 = s.pc0 ∧ (s.setAeInService v).sr = s.sr ∧ (s.setAeInService v).ird = s.ird ∧
    (s.setAeInService v).irc = s.irc ∧ (s.setAeInService v).clock = s.clock ∧
    (s.setAeInService v).iplPolled = s.iplPolled ∧ (s.setAeInService v).nmiArmed = s.nmiArmed ∧
    (s.setAeInService v).run = s.run ∧ (s.setAeInService v).tracePending = s.tracePending ∧
    (s.setAeInService v).aeInService = v ∧ (s.setAeInService v).excInService = s.excInService ∧
    (s.setAeInService v).pipelineBroken = s.pipelineBroken ∧ (s.setAeInService v).mem = s.mem ∧
    (s.setAeInService v).hostIpl = s.hostIpl ∧ (s.setAeInService v).hostIack = s.hostIack ∧
    (s.setAeInService v).hostReads = s.hostReads ∧ (s.setAeInService v).port = s.port ∧
    (∀ x : Long, (s.setAeInService v).phys x = s.phys x) ∧ (∀ q : RegNum, (s.setAeInService v).readD q = s.readD q) ∧
    (∀ q : RegNum, (s.setAeInService v).readA q = s.readA q) ∧ (s.setAeInService v).sp = s.sp ∧
    (s.setAeInService v).getSr = s.getSr ∧ (s.setAeInService v).getCcr = s.getCcr ∧
    (∀ p : Nat, (s.setAeInService v).answer8 p = s.answer8 p) ∧
    (∀ p : Nat, (s.setAeInService v).answer16 p = s.answer16 p) ∧ (s.setAeInService v).iplAnswer = s.iplAnswer ∧
    (s.setAeInService v).iackAnswer = s.iackAnswer := by
  exact ⟨rfl, rfl, rfl, rfl, rfl, rfl, rfl, rfl, rfl, rfl, rfl, rfl, rfl, rfl, rfl, rfl, rfl, rfl, rfl, rfl, rfl, rfl, rfl, fun _ => rfl, fun _ => rfl, fun _ => rfl, rfl, rfl, rfl, fun _ => rfl, fun _ => rfl, rfl, rfl⟩

@[simp] theorem setExcInService_fields (s : State) (v : Bool) :
    (s.setExcInService v).cfg = s.cfg ∧ (s.setExcInService v).d = s.d ∧ (s.setExcInService v).a = s.a ∧
    (s.setExcInService v).usp = s.usp ∧ (s.setExcInService v).ssp = s.ssp ∧ (s.setExcInService v).pc = s.pc ∧
    (s.setExcInService v).pc0 = s.pc0 ∧ (s.setExcInService v).sr = s.sr ∧ (s.setExcInService v).ird = s.ird ∧
    (s.setExcInService v).irc = s.irc ∧ (s.setExcInService v).clock = s.clock ∧
    (s.setExcInService v).iplPolled = s.iplPolled ∧ (s.setExcInService v).nmiArmed = s.nmiArmed ∧
    (s.setExcInService v).run = s.run ∧ (s.setExcInService v).tracePending = s.tracePending ∧
    (s.setExcInService v).aeInService = s.aeInService ∧ (s.setExcInService v).excInService = v ∧
    (s.setExcInService v).pipelineBroken = s.pipelineBroken ∧ (s.setExcInService v).mem = s.mem ∧
    (s.setExcInService v).hostIpl = s.hostIpl ∧ (s.setExcInService v).hostIack = s.hostIack ∧
    (s.setExcInService v).hostReads = s.hostReads ∧ (s.setExcInService v).port = s.port ∧
    (∀ x : Long, (s.setExcInService v).phys x = s.phys x) ∧ (∀ q : RegNum, (s.setExcInService v).readD q = s.readD q) ∧
    (∀ q : RegNum, (s.setExcInService v).readA q = s.readA q) ∧ (s.setExcInService v).sp = s.sp ∧
    (s.setExcInService v).getSr = s.getSr ∧ (s.setExcInService v).getCcr = s.getCcr ∧
    (∀ p : Nat, (s.setExcInService v).answer8 p = s.answer8 p) ∧
    (∀ p : Nat, (s.setExcInService v).answer16 p = s.answer16 p) ∧ (s.setExcInService v).iplAnswer = s.iplAnswer ∧
    (s.setExcInService v).iackAnswer = s.iackAnswer := by
  exact ⟨rfl, rfl, rfl, rfl, rfl, rfl, rfl, rfl, rfl, rfl, rfl, rfl, rfl, rfl, rfl, rfl, rfl, rfl, rfl, rfl, rfl, rfl, rfl, fun _ => rfl, fun _ => rfl, fun _ => rfl, rfl, rfl, rfl, fun _ => rfl, fun _ => rfl, rfl, rfl⟩

@[simp] theorem setPipelineBroken_fields (s : State) (v : Bool) :
    (s.setPipelineBroken v).cfg = s.cfg ∧ (s.setPipelineBroken v).d = s.d ∧ (s.setPipelineBroken v).a = s.a ∧
    (s.setPipelineBroken v).usp = s.usp ∧ (s.setPipelineBroken v).ssp = s.ssp ∧ (s.setPipelineBroken v).pc = s.pc ∧
    (s.setPipelineBroken v).pc0 = s.pc0 ∧ (s.setPipelineBroken v).sr = s.sr ∧ (s.setPipelineBroken v).ird = s.ird ∧
    (s.setPipelineBroken v).irc = s.irc ∧ (s.setPipelineBroken v).clock = s.clock ∧
    (s.setPipelineBroken v).iplPolled = s.iplPolled ∧ (s.setPipelineBroken v).nmiArmed = s.nmiArmed ∧
    (s.setPipelineBroken v).run = s.run ∧ (s.setPipelineBroken v).tracePending = s.tracePending ∧
    (s.setPipelineBroken v).aeInService = s.aeInService ∧ (s.setPipelineBroken v).excInService = s.excInService ∧
    (s.setPipelineBroken v).pipelineBroken = v ∧ (s.setPipelineBroken v).mem = s.mem ∧
    (s.setPipelineBroken v).hostIpl = s.hostIpl ∧ (s.setPipelineBroken v).hostIack = s.hostIack ∧
    (s.setPipelineBroken v).hostReads = s.hostReads ∧ (s.setPipelineBroken v).port = s.port ∧
    (∀ x : Long, (s.setPipelineBroken v).phys x = s.phys x) ∧
    (∀ q : RegNum, (s.setPipelineBroken v).readD q = s.readD q) ∧
    (∀ q : RegNum, (s.setPipelineBroken v).readA q = s.readA q) ∧ (s.setPipelineBroken v).sp = s.sp ∧
    (s.setPipelineBroken v).getSr = s.getSr ∧ (s.setPipelineBroken v).getCcr = s.getCcr ∧
    (∀ p : Nat, (s.setPipelineBroken v).answer8 p = s.answer8 p) ∧
    (∀ p : Nat, (s.setPipelineBroken v).answer16 p = s.answer16 p) ∧ (s.setPipelineBroken v).iplAnswer = s.iplAnswer ∧
    (s.setPipelineBroken v).iackAnswer = s.iackAnswer := by
  exact ⟨rfl, rfl, rfl, rfl, rfl, rfl, rfl, rfl, rfl, rfl, rfl, rfl, rfl, rfl, rfl, rfl, rfl, rfl, rfl, rfl, rfl, rfl, rfl, fun _ => rfl, fun _ => rfl, fun _ => rfl, rfl, rfl, rfl, fun _ => rfl, fun _ => rfl, rfl, rfl⟩

@[simp] theorem tick_fields (s : State) (n : Nat) :
    (s.tick n).cfg = s.cfg ∧ (s.tick n).d = s.d ∧ (s.tick n).a = s.a ∧ (s.tick n).usp = s.usp ∧ (s.tick n).ssp = s.ssp ∧
    (s.tick n).pc = s.pc ∧ (s.tick n).pc0 = s.pc0 ∧ (s.tick n).sr = s.sr ∧ (s.tick n).ird = s.ird ∧
    (s.tick n).irc = s.irc ∧ (s.tick n).clock = s.clock + n ∧ (s.tick n).iplPolled = s.iplPolled ∧
    (s.tick n).nmiArmed = s.nmiArmed ∧ (s.tick n).run = s.run ∧ (s.tick n).tracePending = s.tracePending ∧
    (s.tick n).aeInService = s.aeInService ∧ (s.tick n).excInService = s.excInService ∧
    (s.tick n).pipelineBroken = s.pipelineBroken ∧ (s.tick n).mem = s.mem ∧ (s.tick n).hostIpl = s.hostIpl ∧
    (s.tick n).hostIack = s.hostIack ∧ (s.tick n).hostReads = s.hostReads ∧ (s.tick n).port = s.port ∧
    (∀ x : Long, (s.tick n).phys x = s.phys x) ∧ (∀ q : RegNum, (s.tick n).readD q = s.readD q) ∧
    (∀ q : RegNum, (s.tick n).readA q = s.readA q) ∧ (s.tick n).sp = s.sp ∧ (s.tick n).getSr = s.getSr ∧
    (s.tick n).getCcr = s.getCcr ∧ (∀ p : Nat, (s.tick n).answer8 p = s.answer8 p) ∧
    (∀ p : Nat, (s.tick n).answer16 p = s.answer16 p) ∧ (s.tick n).iplAnswer = s.iplAnswer ∧
    (s.tick n).iackAnswer = s.iackAnswer := by
  exact ⟨rfl, rfl, rfl, rfl, rfl, rfl, rfl, rfl, rfl, rfl, rfl, rfl, rfl, rfl, rfl, rfl, rfl, rfl, rfl, rfl, rfl, rfl, rfl, fun _ => rfl, fun _ => rfl, fun _ => rfl, rfl, rfl, rfl, fun _ => rfl, fun _ => rfl, rfl, rfl⟩

@[simp] theorem setMem_fields (s : State) (m : Memory) :
    (s.setMem m).cfg = s.cfg ∧ (s.setMem m).d = s.d ∧ (s.setMem m).a = s.a ∧ (s.setMem m).usp = s.usp ∧
    (s.setMem m).ssp = s.ssp ∧ (s.setMem m).pc = s.pc ∧ (s.setMem m).pc0 = s.pc0 ∧ (s.setMem m).sr = s.sr ∧
    (s.setMem m).ird = s.ird ∧ (s.setMem m).irc = s.irc ∧ (s.setMem m).clock = s.clock ∧
    (s.setMem m).iplPolled = s.iplPolled ∧ (s.setMem m).nmiArmed = s.nmiArmed ∧ (s.setMem m).run = s.run ∧
    (s.setMem m).tracePending = s.tracePending ∧ (s.setMem m).aeInService = s.aeInService ∧
    (s.setMem m).excInService = s.excInService ∧ (s.setMem m).pipelineBroken = s.pipelineBroken ∧ (s.setMem m).mem = m ∧
    (s.setMem m).hostIpl = s.hostIpl ∧ (s.setMem m).hostIack = s.hostIack ∧ (s.setMem m).hostReads = s.hostReads ∧
    (s.setMem m).port = s.port ∧ (∀ x : Long, (s.setMem m).phys x = s.phys x) ∧
    (∀ q : RegNum, (s.setMem m).readD q = s.readD q) ∧ (∀ q : RegNum, (s.setMem m).readA q = s.readA q) ∧
    (s.setMem m).sp = s.sp ∧ (s.setMem m).getSr = s.getSr ∧ (s.setMem m).getCcr = s.getCcr ∧
    (s.setMem m).iplAnswer = s.iplAnswer ∧ (s.setMem m).iackAnswer = s.iackAnswer := by
  exact ⟨rfl, rfl, rfl, rfl, rfl, rfl, rfl, rfl, rfl, rfl, rfl, rfl, rfl, rfl, rfl, rfl, rfl, rfl, rfl, rfl, rfl, rfl, rfl, fun _ => rfl, fun _ => rfl, fun _ => rfl, rfl, rfl, rfl, rfl, rfl⟩

@[simp] theorem record_fields (s : State) (c : PortCall) :
    (s.record c).cfg = s.cfg ∧ (s.record c).d = s.d ∧ (s.record c).a = s.a ∧ (s.record c).usp = s.usp ∧
    (s.record c).ssp = s.ssp ∧ (s.record c).pc = s.pc ∧ (s.record c).pc0 = s.pc0 ∧ (s.record c).sr = s.sr ∧
    (s.record c).ird = s.ird ∧ (s.record c).irc = s.irc ∧ (s.record c).clock = s.clock ∧
    (s.record c).iplPolled = s.iplPolled ∧ (s.record c).nmiArmed = s.nmiArmed ∧ (s.record c).run = s.run ∧
    (s.record c).tracePending = s.tracePending ∧ (s.record c).aeInService = s.aeInService ∧
    (s.record c).excInService = s.excInService ∧ (s.record c).pipelineBroken = s.pipelineBroken ∧
    (s.record c).mem = s.mem ∧ (s.record c).hostIpl = s.hostIpl ∧ (s.record c).hostIack = s.hostIack ∧
    (s.record c).hostReads = s.hostReads ∧ (s.record c).port = c :: s.port ∧
    (∀ x : Long, (s.record c).phys x = s.phys x) ∧ (∀ q : RegNum, (s.record c).readD q = s.readD q) ∧
    (∀ q : RegNum, (s.record c).readA q = s.readA q) ∧ (s.record c).sp = s.sp ∧ (s.record c).getSr = s.getSr ∧
    (s.record c).getCcr = s.getCcr ∧ (∀ p : Nat, (s.record c).answer8 p = s.answer8 p) ∧
    (∀ p : Nat, (s.record c).answer16 p = s.answer16 p) ∧ (s.record c).iplAnswer = s.iplAnswer ∧
    (s.record c).iackAnswer = s.iackAnswer := by
  exact ⟨rfl, rfl, rfl, rfl, rfl, rfl, rfl, rfl, rfl, rfl, rfl, rfl, rfl, rfl, rfl, rfl, rfl, rfl, rfl, rfl, rfl, rfl, rfl, fun _ => rfl, fun _ => rfl, fun _ => rfl, rfl, rfl, rfl, fun _ => rfl, fun _ => rfl, rfl, rfl⟩

@[simp] theorem popRead_fields (s : State)  :
    (s.popRead).cfg = s.cfg ∧ (s.popRead).d = s.d ∧ (s.popRead).a = s.a ∧ (s.popRead).usp = s.usp ∧
    (s.popRead).ssp = s.ssp ∧ (s.popRead).pc = s.pc ∧ (s.popRead).pc0 = s.pc0 ∧ (s.popRead).sr = s.sr ∧
    (s.popRead).ird = s.ird ∧ (s.popRead).irc = s.irc ∧ (s.popRead).clock = s.clock ∧
    (s.popRead).iplPolled = s.iplPolled ∧ (s.popRead).nmiArmed = s.nmiArmed ∧ (s.popRead).run = s.run ∧
    (s.popRead).tracePending = s.tracePending ∧ (s.popRead).aeInService = s.aeInService ∧
    (s.popRead).excInService = s.excInService ∧ (s.popRead).pipelineBroken = s.pipelineBroken ∧
    (s.popRead).mem = s.mem ∧ (s.popRead).hostIpl = s.hostIpl ∧ (s.popRead).hostIack = s.hostIack ∧
    (s.popRead).hostReads = s.hostReads.tail ∧ (s.popRead).port = s.port ∧ (∀ x : Long, (s.popRead).phys x = s.phys x) ∧
    (∀ q : RegNum, (s.popRead).readD q = s.readD q) ∧ (∀ q : RegNum, (s.popRead).readA q = s.readA q) ∧
    (s.popRead).sp = s.sp ∧ (s.popRead).getSr = s.getSr ∧ (s.popRead).getCcr = s.getCcr ∧
    (s.popRead).iplAnswer = s.iplAnswer ∧ (s.popRead).iackAnswer = s.iackAnswer := by
  exact ⟨rfl, rfl, rfl, rfl, rfl, rfl, rfl, rfl, rfl, rfl, rfl, rfl, rfl, rfl, rfl, rfl, rfl, rfl, rfl, rfl, rfl, rfl, rfl, fun _ => rfl, fun _ => rfl, fun _ => rfl, rfl, rfl, rfl, rfl, rfl⟩

@[simp] theorem answered_fields (s : State) (c : PortCall) :
    (s.answered c).cfg = s.cfg ∧ (s.answered c).d = s.d ∧ (s.answered c).a = s.a ∧ (s.answered c).usp = s.usp ∧
    (s.answered c).ssp = s.ssp ∧ (s.answered c).pc = s.pc ∧ (s.answered c).pc0 = s.pc0 ∧ (s.answered c).sr = s.sr ∧
    (s.answered c).ird = s.ird ∧ (s.answered c).irc = s.irc ∧ (s.answered c).clock = s.clock ∧
    (s.answered c).iplPolled = s.iplPolled ∧ (s.answered c).nmiArmed = s.nmiArmed ∧ (s.answered c).run = s.run ∧
    (s.answered c).tracePending = s.tracePending ∧ (s.answered c).aeInService = s.aeInService ∧
    (s.answered c).excInService = s.excInService ∧ (s.answered c).pipelineBroken = s.pipelineBroken ∧
    (s.answered c).mem = s.mem ∧ (s.answered c).hostIpl = s.hostIpl ∧ (s.answered c).hostIack = s.hostIack ∧
    (s.answered c).hostReads = s.hostReads.tail ∧ (s.answered c).port = c :: s.port ∧
    (∀ x : Long, (s.answered c).phys x = s.phys x) ∧ (∀ q : RegNum, (s.answered c).readD q = s.readD q) ∧
    (∀ q : RegNum, (s.answered c).readA q = s.readA q) ∧ (s.answered c).sp = s.sp ∧ (s.answered c).getSr = s.getSr ∧
    (s.answered c).getCcr = s.getCcr ∧ (s.answered c).iplAnswer = s.iplAnswer ∧ (s.answered c).iackAnswer = s.iackAnswer := by
  exact ⟨rfl, rfl, rfl, rfl, rfl, rfl, rfl, rfl, rfl, rfl, rfl, rfl, rfl, rfl, rfl, rfl, rfl, rfl, rfl, rfl, rfl, rfl, rfl, fun _ => rfl, fun _ => rfl, fun _ => rfl, rfl, rfl, rfl, rfl, rfl⟩

@[simp] theorem writeD_fields (s : State) (r : RegNum) (v : Long) :
    (s.writeD r v).cfg = s.cfg ∧ (s.writeD r v).a = s.a ∧ (s.writeD r v).usp = s.usp ∧ (s.writeD r v).ssp = s.ssp ∧
    (s.writeD r v).pc = s.pc ∧ (s.writeD r v).pc0 = s.pc0 ∧ (s.writeD r v).sr = s.sr ∧ (s.writeD r v).ird = s.ird ∧
    (s.writeD r v).irc = s.irc ∧ (s.writeD r v).clock = s.clock ∧ (s.writeD r v).iplPolled = s.iplPolled ∧
    (s.writeD r v).nmiArmed = s.nmiArmed ∧ (s.writeD r v).run = s.run ∧ (s.writeD r v).tracePending = s.tracePending ∧
    (s.writeD r v).aeInService = s.aeInService ∧ (s.writeD r v).excInService = s.excInService ∧
    (s.writeD r v).pipelineBroken = s.pipelineBroken ∧ (s.writeD r v).mem = s.mem ∧ (s.writeD r v).hostIpl = s.hostIpl ∧
    (s.writeD r v).hostIack = s.hostIack ∧ (s.writeD r v).hostReads = s.hostReads ∧ (s.writeD r v).port = s.port ∧
    (∀ x : Long, (s.writeD r v).phys x = s.phys x) ∧ (∀ q : RegNum, (s.writeD r v).readA q = s.readA q) ∧
    (s.writeD r v).sp = s.sp ∧ (s.writeD r v).getSr = s.getSr ∧ (s.writeD r v).getCcr = s.getCcr ∧
    (∀ p : Nat, (s.writeD r v).answer8 p = s.answer8 p) ∧ (∀ p : Nat, (s.writeD r v).answer16 p = s.answer16 p) ∧
    (s.writeD r v).iplAnswer = s.iplAnswer ∧ (s.writeD r v).iackAnswer = s.iackAnswer := by
  exact ⟨rfl, rfl, rfl, rfl, rfl, rfl, rfl, rfl, rfl, rfl, rfl, rfl, rfl, rfl, rfl, rfl, rfl, rfl, rfl, rfl, rfl, rfl, fun _ => rfl, fun _ => rfl, rfl, rfl, rfl, fun _ => rfl, fun _ => rfl, rfl, rfl⟩

@[simp] theorem writeDPart_fields (s : State) (r : RegNum) (size : Size) (v : Long) :
    (s.writeDPart r size v).cfg = s.cfg ∧ (s.writeDPart r size v).a = s.a ∧ (s.writeDPart r size v).usp = s.usp ∧
    (s.writeDPart r size v).ssp = s.ssp ∧ (s.writeDPart r size v).pc = s.pc ∧ (s.writeDPart r size v).pc0 = s.pc0 ∧
    (s.writeDPart r size v).sr = s.sr ∧ (s.writeDPart r size v).ird = s.ird ∧ (s.writeDPart r size v).irc = s.irc ∧
    (s.writeDPart r size v).clock = s.clock ∧ (s.writeDPart r size v).iplPolled = s.iplPolled ∧
    (s.writeDPart r size v).nmiArmed = s.nmiArmed ∧ (s.writeDPart r size v).run = s.run ∧
    (s.writeDPart r size v).tracePending = s.tracePending ∧ (s.writeDPart r size v).aeInService = s.aeInService ∧
    (s.writeDPart r size v).excInService = s.excInService ∧ (s.writeDPart r size v).pipelineBroken = s.pipelineBroken ∧
    (s.writeDPart r size v).mem = s.mem ∧ (s.writeDPart r size v).hostIpl = s.hostIpl ∧
    (s.writeDPart r size v).hostIack = s.hostIack ∧ (s.writeDPart r size v).hostReads = s.hostReads ∧
    (s.writeDPart r size v).port = s.port ∧ (∀ x : Long, (s.writeDPart r size v).phys x = s.phys x) ∧
    (∀ q : RegNum, (s.writeDPart r size v).readA q = s.readA q) ∧ (s.writeDPart r size v).sp = s.sp ∧
    (s.writeDPart r size v).getSr = s.getSr ∧ (s.writeDPart r size v).getCcr = s.getCcr ∧
    (∀ p : Nat, (s.writeDPart r size v).answer8 p = s.answer8 p) ∧
    (∀ p : Nat, (s.writeDPart r size v).answer16 p = s.answer16 p) ∧ (s.writeDPart r size v).iplAnswer = s.iplAnswer ∧
    (s.writeDPart r size v).iackAnswer = s.iackAnswer := by
  exact ⟨rfl, rfl, rfl, rfl, rfl, rfl, rfl, rfl, rfl, rfl, rfl, rfl, rfl, rfl, rfl, rfl, rfl, rfl, rfl, rfl, rfl, rfl, fun _ => rfl, fun _ => rfl, rfl, rfl, rfl, fun _ => rfl, fun _ => rfl, rfl, rfl⟩

@[simp] theorem writeA_fields (s : State) (r : RegNum) (v : Long) :
    (s.writeA r v).cfg = s.cfg ∧ (s.writeA r v).d = s.d ∧ (s.writeA r v).usp = s.usp ∧ (s.writeA r v).ssp = s.ssp ∧
    (s.writeA r v).pc = s.pc ∧ (s.writeA r v).pc0 = s.pc0 ∧ (s.writeA r v).sr = s.sr ∧ (s.writeA r v).ird = s.ird ∧
    (s.writeA r v).irc = s.irc ∧ (s.writeA r v).clock = s.clock ∧ (s.writeA r v).iplPolled = s.iplPolled ∧
    (s.writeA r v).nmiArmed = s.nmiArmed ∧ (s.writeA r v).run = s.run ∧ (s.writeA r v).tracePending = s.tracePending ∧
    (s.writeA r v).aeInService = s.aeInService ∧ (s.writeA r v).excInService = s.excInService ∧
    (s.writeA r v).pipelineBroken = s.pipelineBroken ∧ (s.writeA r v).mem = s.mem ∧ (s.writeA r v).hostIpl = s.hostIpl ∧
    (s.writeA r v).hostIack = s.hostIack ∧ (s.writeA r v).hostReads = s.hostReads ∧ (s.writeA r v).port = s.port ∧
    (∀ x : Long, (s.writeA r v).phys x = s.phys x) ∧ (∀ q : RegNum, (s.writeA r v).readD q = s.readD q) ∧
    (s.writeA r v).getSr = s.getSr ∧ (s.writeA r v).getCcr = s.getCcr ∧
    (∀ p : Nat, (s.writeA r v).answer8 p = s.answer8 p) ∧ (∀ p : Nat, (s.writeA r v).answer16 p = s.answer16 p) ∧
    (s.writeA r v).iplAnswer = s.iplAnswer ∧ (s.writeA r v).iackAnswer = s.iackAnswer := by
  exact ⟨rfl, rfl, rfl, rfl, rfl, rfl, rfl, rfl, rfl, rfl, rfl, rfl, rfl, rfl, rfl, rfl, rfl, rfl, rfl, rfl, rfl, rfl, fun _ => rfl, fun _ => rfl, rfl, rfl, fun _ => rfl, fun _ => rfl, rfl, rfl⟩

@[simp] theorem withCcr_fields (s : State) (c : Ccr) :
    (s.withCcr c).cfg = s.cfg ∧ (s.withCcr c).d = s.d ∧ (s.withCcr c).a = s.a ∧ (s.withCcr c).usp = s.usp ∧
    (s.withCcr c).ssp = s.ssp ∧ (s.withCcr c).pc = s.pc ∧ (s.withCcr c).pc0 = s.pc0 ∧
    (s.withCcr c).sr = { s.sr with ccr := c } ∧ (s.withCcr c).ird = s.ird ∧ (s.withCcr c).irc = s.irc ∧
    (s.withCcr c).clock = s.clock ∧ (s.withCcr c).iplPolled = s.iplPolled ∧ (s.withCcr c).nmiArmed = s.nmiArmed ∧
    (s.withCcr c).run = s.run ∧ (s.withCcr c).tracePending = s.tracePending ∧
    (s.withCcr c).aeInService = s.aeInService ∧ (s.withCcr c).excInService = s.excInService ∧
    (s.withCcr c).pipelineBroken = s.pipelineBroken ∧ (s.withCcr c).mem = s.mem ∧ (s.withCcr c).hostIpl = s.hostIpl ∧
    (s.withCcr c).hostIack = s.hostIack ∧ (s.withCcr c).hostReads = s.hostReads ∧ (s.withCcr c).port = s.port ∧
    (∀ x : Long, (s.withCcr c).phys x = s.phys x) ∧ (∀ q : RegNum, (s.withCcr c).readD q = s.readD q) ∧
    (∀ q : RegNum, (s.withCcr c).readA q = s.readA q) ∧ (s.withCcr c).sp = s.sp ∧
    (∀ p : Nat, (s.withCcr c).answer8 p = s.answer8 p) ∧ (∀ p : Nat, (s.withCcr c).answer16 p = s.answer16 p) ∧
    (s.withCcr c).iplAnswer = s.iplAnswer ∧ (s.withCcr c).iackAnswer = s.iackAnswer := by
  exact ⟨rfl, rfl, rfl, rfl, rfl, rfl, rfl, rfl, rfl, rfl, rfl, rfl, rfl, rfl, rfl, rfl, rfl, rfl, rfl, rfl, rfl, rfl, rfl, fun _ => rfl, fun _ => rfl, fun _ => rfl, rfl, fun _ => rfl, fun _ => rfl, rfl, rfl⟩

@[simp] theorem setCcr_fields (s : State) (v : Byte) :
    (s.setCcr v).cfg = s.cfg ∧ (s.setCcr v).d = s.d ∧ (s.setCcr v).a = s.a ∧ (s.setCcr v).usp = s.usp ∧
    (s.setCcr v).ssp = s.ssp ∧ (s.setCcr v).pc = s.pc ∧ (s.setCcr v).pc0 = s.pc0 ∧
    (s.setCcr v).sr = { s.sr with ccr := ccrOfByte v } ∧ (s.setCcr v).ird = s.ird ∧ (s.setCcr v).irc = s.irc ∧
    (s.setCcr v).clock = s.clock ∧ (s.setCcr v).iplPolled = s.iplPolled ∧ (s.setCcr v).nmiArmed = s.nmiArmed ∧
    (s.setCcr v).run = s.run ∧ (s.setCcr v).tracePending = s.tracePending ∧ (s.setCcr v).aeInService = s.aeInService ∧
    (s.setCcr v).excInService = s.excInService ∧ (s.setCcr v).pipelineBroken = s.pipelineBroken ∧
    (s.setCcr v).mem = s.mem ∧ (s.setCcr v).hostIpl = s.hostIpl ∧ (s.setCcr v).hostIack = s.hostIack ∧
    (s.setCcr v).hostReads = s.hostReads ∧ (s.setCcr v).port = s.port ∧ (∀ x : Long, (s.setCcr v).phys x = s.phys x) ∧
    (∀ q : RegNum, (s.setCcr v).readD q = s.readD q) ∧ (∀ q : RegNum, (s.setCcr v).readA q = s.readA q) ∧
    (s.setCcr v).sp = s.sp ∧ (∀ p : Nat, (s.setCcr v).answer8 p = s.answer8 p) ∧
    (∀ p : Nat, (s.setCcr v).answer16 p = s.answer16 p) ∧ (s.setCcr v).iplAnswer = s.iplAnswer ∧
    (s.setCcr v).iackAnswer = s.iackAnswer := by
  exact ⟨rfl, rfl, rfl, rfl, rfl, rfl, rfl, rfl, rfl, rfl, rfl, rfl, rfl, rfl, rfl, rfl, rfl, rfl, rfl, rfl, rfl, rfl, rfl, fun _ => rfl, fun _ => rfl, fun _ => rfl, rfl, fun _ => rfl, fun _ => rfl, rfl, rfl⟩

@[simp] theorem writeS_fields (s : State) (b : Bool) :
    (s.writeS b).cfg = s.cfg ∧ (s.writeS b).d = s.d ∧ (s.writeS b).a = s.a ∧ (s.writeS b).usp = s.usp ∧
    (s.writeS b).ssp = s.ssp ∧ (s.writeS b).pc = s.pc ∧ (s.writeS b).pc0 = s.pc0 ∧
    (s.writeS b).sr = { s.sr with s := b } ∧ (s.writeS b).ird = s.ird ∧ (s.writeS b).irc = s.irc ∧
    (s.writeS b).clock = s.clock ∧ (s.writeS b).iplPolled = s.iplPolled ∧ (s.writeS b).nmiArmed = s.nmiArmed ∧
    (s.writeS b).run = s.run ∧ (s.writeS b).tracePending = s.tracePending ∧ (s.writeS b).aeInService = s.aeInService ∧
    (s.writeS b).excInService = s.excInService ∧ (s.writeS b).pipelineBroken = s.pipelineBroken ∧
    (s.writeS b).mem = s.mem ∧ (s.writeS b).hostIpl = s.hostIpl ∧ (s.writeS b).hostIack = s.hostIack ∧
    (s.writeS b).hostReads = s.hostReads ∧ (s.writeS b).port = s.port ∧ (∀ x : Long, (s.writeS b).phys x = s.phys x) ∧
    (∀ q : RegNum, (s.writeS b).readD q = s.readD q) ∧ (∀ q : RegNum, (s.writeS b).readA q = s.readA q) ∧
    (s.writeS b).sp = s.sp ∧ (∀ p : Nat, (s.writeS b).answer8 p = s.answer8 p) ∧
    (∀ p : Nat, (s.writeS b).answer16 p = s.answer16 p) ∧ (s.writeS b).iplAnswer = s.iplAnswer ∧
    (s.writeS b).iackAnswer = s.iackAnswer := by
  exact ⟨rfl, rfl, rfl, rfl, rfl, rfl, rfl, rfl, rfl, rfl, rfl, rfl, rfl, rfl, rfl, rfl, rfl, rfl, rfl, rfl, rfl, rfl, rfl, fun _ => rfl, fun _ => rfl, fun _ => rfl, rfl, fun _ => rfl, fun _ => rfl, rfl, rfl⟩

@[simp] theorem setT_fields (s : State) (b : Bool) :
    (s.setT b).cfg = s.cfg ∧ (s.setT b).d = s.d ∧ (s.setT b).a = s.a ∧ (s.setT b).usp = s.usp ∧ (s.setT b).ssp = s.ssp ∧
    (s.setT b).pc = s.pc ∧ (s.setT b).pc0 = s.pc0 ∧ (s.setT b).sr = { s.sr with t := b } ∧ (s.setT b).ird = s.ird ∧
    (s.setT b).irc = s.irc ∧ (s.setT b).clock = s.clock ∧ (s.setT b).iplPolled = s.iplPolled ∧
    (s.setT b).nmiArmed = s.nmiArmed ∧ (s.setT b).run = s.run ∧ (s.setT b).tracePending = s.tracePending ∧
    (s.setT b).aeInService = s.aeInService ∧ (s.setT b).excInService = s.excInService ∧
    (s.setT b).pipelineBroken = s.pipelineBroken ∧ (s.setT b).mem = s.mem ∧ (s.setT b).hostIpl = s.hostIpl ∧
    (s.setT b).hostIack = s.hostIack ∧ (s.setT b).hostReads = s.hostReads ∧ (s.setT b).port = s.port ∧
    (∀ x : Long, (s.setT b).phys x = s.phys x) ∧ (∀ q : RegNum, (s.setT b).readD q = s.readD q) ∧
    (∀ q : RegNum, (s.setT b).readA q = s.readA q) ∧ (s.setT b).sp = s.sp ∧
    (∀ p : Nat, (s.setT b).answer8 p = s.answer8 p) ∧ (∀ p : Nat, (s.setT b).answer16 p = s.answer16 p) ∧
    (s.setT b).iplAnswer = s.iplAnswer ∧ (s.setT b).iackAnswer = s.iackAnswer := by
  exact ⟨rfl, rfl, rfl, rfl, rfl, rfl, rfl, rfl, rfl, rfl, rfl, rfl, rfl, rfl, rfl, rfl, rfl, rfl, rfl, rfl, rfl, rfl, rfl, fun _ => rfl, fun _ => rfl, fun _ => rfl, rfl, fun _ => rfl, fun _ => rfl, rfl, rfl⟩

@[simp] theorem setMask_fields (s : State) (i : BitVec 3) :
    (s.setMask i).cfg = s.cfg ∧ (s.setMask i).d = s.d ∧ (s.setMask i).a = s.a ∧ (s.setMask i).usp = s.usp ∧
    (s.setMask i).ssp = s.ssp ∧ (s.setMask i).pc = s.pc ∧ (s.setMask i).pc0 = s.pc0 ∧
    (s.setMask i).sr = { s.sr with i := i } ∧ (s.setMask i).ird = s.ird ∧ (s.setMask i).irc = s.irc ∧
    (s.setMask i).clock = s.clock ∧ (s.setMask i).iplPolled = s.iplPolled ∧ (s.setMask i).nmiArmed = s.nmiArmed ∧
    (s.setMask i).run = s.run ∧ (s.setMask i).tracePending = s.tracePending ∧
    (s.setMask i).aeInService = s.aeInService ∧ (s.setMask i).excInService = s.excInService ∧
    (s.setMask i).pipelineBroken = s.pipelineBroken ∧ (s.setMask i).mem = s.mem ∧ (s.setMask i).hostIpl = s.hostIpl ∧
    (s.setMask i).hostIack = s.hostIack ∧ (s.setMask i).hostReads = s.hostReads ∧ (s.setMask i).port = s.port ∧
    (∀ x : Long, (s.setMask i).phys x = s.phys x) ∧ (∀ q : RegNum, (s.setMask i).readD q = s.readD q) ∧
    (∀ q : RegNum, (s.setMask i).readA q = s.readA q) ∧ (s.setMask i).sp = s.sp ∧
    (∀ p : Nat, (s.setMask i).answer8 p = s.answer8 p) ∧ (∀ p : Nat, (s.setMask i).answer16 p = s.answer16 p) ∧
    (s.setMask i).iplAnswer = s.iplAnswer ∧ (s.setMask i).iackAnswer = s.iackAnswer := by
  exact ⟨rfl, rfl, rfl, rfl, rfl, rfl, rfl, rfl, rfl, rfl, rfl, rfl, rfl, rfl, rfl, rfl, rfl, rfl, rfl, rfl, rfl, rfl, rfl, fun _ => rfl, fun _ => rfl, fun _ => rfl, rfl, fun _ => rfl, fun _ => rfl, rfl, rfl⟩

@[simp] theorem sampled_fields (s : State)  :
    (s.sampled).cfg = s.cfg ∧ (s.sampled).d = s.d ∧ (s.sampled).a = s.a ∧ (s.sampled).usp = s.usp ∧
    (s.sampled).ssp = s.ssp ∧ (s.sampled).pc = s.pc ∧ (s.sampled).pc0 = s.pc0 ∧ (s.sampled).sr = s.sr ∧
    (s.sampled).ird = s.ird ∧ (s.sampled).irc = s.irc ∧ (s.sampled).clock = s.clock ∧
    (s.sampled).iplPolled = s.iplAnswer ∧ (s.sampled).nmiArmed = (s.nmiArmed || s.iplAnswer != 7) ∧
    (s.sampled).run = s.run ∧ (s.sampled).tracePending = s.tracePending ∧ (s.sampled).aeInService = s.aeInService ∧
    (s.sampled).excInService = s.excInService ∧ (s.sampled).pipelineBroken = s.pipelineBroken ∧
    (s.sampled).mem = s.mem ∧ (s.sampled).hostIpl = dropAnswer s.hostIpl ∧ (s.sampled).hostIack = s.hostIack ∧
    (s.sampled).hostReads = s.hostReads ∧ (s.sampled).port = .ipl s.iplAnswer :: s.port ∧
    (∀ x : Long, (s.sampled).phys x = s.phys x) ∧ (∀ q : RegNum, (s.sampled).readD q = s.readD q) ∧
    (∀ q : RegNum, (s.sampled).readA q = s.readA q) ∧ (s.sampled).sp = s.sp ∧ (s.sampled).getSr = s.getSr ∧
    (s.sampled).getCcr = s.getCcr ∧ (∀ p : Nat, (s.sampled).answer8 p = s.answer8 p) ∧
    (∀ p : Nat, (s.sampled).answer16 p = s.answer16 p) ∧ (s.sampled).iackAnswer = s.iackAnswer := by
  exact ⟨rfl, rfl, rfl, rfl, rfl, rfl, rfl, rfl, rfl, rfl, rfl, rfl, rfl, rfl, rfl, rfl, rfl, rfl, rfl, rfl, rfl, rfl, rfl, fun _ => rfl, fun _ => rfl, fun _ => rfl, rfl, rfl, rfl, fun _ => rfl, fun _ => rfl, rfl⟩

@[simp] theorem acknowledged_fields (s : State) (l : BitVec 3) :
    (s.acknowledged l).cfg = s.cfg ∧ (s.acknowledged l).d = s.d ∧ (s.acknowledged l).a = s.a ∧
    (s.acknowledged l).usp = s.usp ∧ (s.acknowledged l).ssp = s.ssp ∧ (s.acknowledged l).pc = s.pc ∧
    (s.acknowledged l).pc0 = s.pc0 ∧ (s.acknowledged l).sr = s.sr ∧ (s.acknowledged l).ird = s.ird ∧
    (s.acknowledged l).irc = s.irc ∧ (s.acknowledged l).clock = s.clock ∧ (s.acknowledged l).iplPolled = s.iplPolled ∧
    (s.acknowledged l).nmiArmed = s.nmiArmed ∧ (s.acknowledged l).run = s.run ∧
    (s.acknowledged l).tracePending = s.tracePending ∧ (s.acknowledged l).aeInService = s.aeInService ∧
    (s.acknowledged l).excInService = s.excInService ∧ (s.acknowledged l).pipelineBroken = s.pipelineBroken ∧
    (s.acknowledged l).mem = s.mem ∧ (s.acknowledged l).hostIpl = s.hostIpl ∧
    (s.acknowledged l).hostIack = dropAnswer s.hostIack ∧ (s.acknowledged l).hostReads = s.hostReads ∧
    (s.acknowledged l).port = .iack l s.iackAnswer :: s.port ∧ (∀ x : Long, (s.acknowledged l).phys x = s.phys x) ∧
    (∀ q : RegNum, (s.acknowledged l).readD q = s.readD q) ∧ (∀ q : RegNum, (s.acknowledged l).readA q = s.readA q) ∧
    (s.acknowledged l).sp = s.sp ∧ (s.acknowledged l).getSr = s.getSr ∧ (s.acknowledged l).getCcr = s.getCcr ∧
    (∀ p : Nat, (s.acknowledged l).answer8 p = s.answer8 p) ∧
    (∀ p : Nat, (s.acknowledged l).answer16 p = s.answer16 p) ∧ (s.acknowledged l).iplAnswer = s.iplAnswer := by
  exact ⟨rfl, rfl, rfl, rfl, rfl, rfl, rfl, rfl, rfl, rfl, rfl, rfl, rfl, rfl, rfl, rfl, rfl, rfl, rfl, rfl, rfl, rfl, rfl, fun _ => rfl, fun _ => rfl, fun _ => rfl, rfl, rfl, rfl, fun _ => rfl, fun _ => rfl, rfl⟩

@[simp] theorem setS_fields (s : State) (b : Bool) :
    (s.setS b).cfg = s.cfg ∧ (s.setS b).d = s.d ∧ (s.setS b).pc = s.pc ∧ (s.setS b).pc0 = s.pc0 ∧
    (s.setS b).ird = s.ird ∧ (s.setS b).irc = s.irc ∧ (s.setS b).clock = s.clock ∧ (s.setS b).iplPolled = s.iplPolled ∧
    (s.setS b).nmiArmed = s.nmiArmed ∧ (s.setS b).run = s.run ∧ (s.setS b).tracePending = s.tracePending ∧
    (s.setS b).aeInService = s.aeInService ∧ (s.setS b).excInService = s.excInService ∧
    (s.setS b).pipelineBroken = s.pipelineBroken ∧ (s.setS b).mem = s.mem ∧ (s.setS b).hostIpl = s.hostIpl ∧
    (s.setS b).hostIack = s.hostIack ∧ (s.setS b).hostReads = s.hostReads ∧ (s.setS b).port = s.port ∧
    (∀ x : Long, (s.setS b).phys x = s.phys x) ∧ (∀ q : RegNum, (s.setS b).readD q = s.readD q) ∧
    (∀ p : Nat, (s.setS b).answer8 p = s.answer8 p) ∧ (∀ p : Nat, (s.setS b).answer16 p = s.answer16 p) ∧
    (s.setS b).iplAnswer = s.iplAnswer ∧ (s.setS b).iackAnswer = s.iackAnswer := by
  unfold State.setS
  split
  · simp
  · split <;> simp

@[simp] theorem dropTrace_fields (s : State) (k : ExcKind) :
    (s.dropTrace k).cfg = s.cfg ∧ (s.dropTrace k).d = s.d ∧ (s.dropTrace k).a = s.a ∧ (s.dropTrace k).usp = s.usp ∧
    (s.dropTrace k).ssp = s.ssp ∧ (s.dropTrace k).pc = s.pc ∧ (s.dropTrace k).pc0 = s.pc0 ∧ (s.dropTrace k).sr = s.sr ∧
    (s.dropTrace k).ird = s.ird ∧ (s.dropTrace k).irc = s.irc ∧ (s.dropTrace k).clock = s.clock ∧
    (s.dropTrace k).iplPolled = s.iplPolled ∧ (s.dropTrace k).nmiArmed = s.nmiArmed ∧ (s.dropTrace k).run = s.run ∧
    (s.dropTrace k).aeInService = s.aeInService ∧ (s.dropTrace k).excInService = s.excInService ∧
    (s.dropTrace k).pipelineBroken = s.pipelineBroken ∧ (s.dropTrace k).mem = s.mem ∧
    (s.dropTrace k).hostIpl = s.hostIpl ∧ (s.dropTrace k).hostIack = s.hostIack ∧
    (s.dropTrace k).hostReads = s.hostReads ∧ (s.dropTrace k).port = s.port ∧
    (∀ x : Long, (s.dropTrace k).phys x = s.phys x) ∧ (∀ q : RegNum, (s.dropTrace k).readD q = s.readD q) ∧
    (∀ q : RegNum, (s.dropTrace k).readA q = s.readA q) ∧ (s.dropTrace k).sp = s.sp ∧ (s.dropTrace k).getSr = s.getSr ∧
    (s.dropTrace k).getCcr = s.getCcr ∧ (∀ p : Nat, (s.dropTrace k).answer8 p = s.answer8 p) ∧
    (∀ p : Nat, (s.dropTrace k).answer16 p = s.answer16 p) ∧ (s.dropTrace k).iplAnswer = s.iplAnswer ∧
    (s.dropTrace k).iackAnswer = s.iackAnswer := by
  unfold State.dropTrace
  split <;> simp

@[simp] theorem disarm_fields (s : State) (l : BitVec 3) :
    (s.disarm l).cfg = s.cfg ∧ (s.disarm l).d = s.d ∧ (s.disarm l).a = s.a ∧ (s.disarm l).usp = s.usp ∧
    (s.disarm l).ssp = s.ssp ∧ (s.disarm l).pc = s.pc ∧ (s.disarm l).pc0 = s.pc0 ∧ (s.disarm l).sr = s.sr ∧
    (s.disarm l).ird = s.ird ∧ (s.disarm l).irc = s.irc ∧ (s.disarm l).clock = s.clock ∧
    (s.disarm l).iplPolled = s.iplPolled ∧ (s.disarm l).run = s.run ∧ (s.disarm l).tracePending = s.tracePending ∧
    (s.disarm l).aeInService = s.aeInService ∧ (s.disarm l).excInService = s.excInService ∧
    (s.disarm l).pipelineBroken = s.pipelineBroken ∧ (s.disarm l).mem = s.mem ∧ (s.disarm l).hostIpl = s.hostIpl ∧
    (s.disarm l).hostIack = s.hostIack ∧ (s.disarm l).hostReads = s.hostReads ∧ (s.disarm l).port = s.port ∧
    (∀ x : Long, (s.disarm l).phys x = s.phys x) ∧ (∀ q : RegNum, (s.disarm l).readD q = s.readD q) ∧
    (∀ q : RegNum, (s.disarm l).readA q = s.readA q) ∧ (s.disarm l).sp = s.sp ∧ (s.disarm l).getSr = s.getSr ∧
    (s.disarm l).getCcr = s.getCcr ∧ (∀ p : Nat, (s.disarm l).answer8 p = s.answer8 p) ∧
    (∀ p : Nat, (s.disarm l).answer16 p = s.answer16 p) ∧ (s.disarm l).iplAnswer = s.iplAnswer ∧
    (s.disarm l).iackAnswer = s.iackAnswer := by
  unfold State.disarm
  split <;> simp

/-- `SetSR` changes only the status register and, by the swap, the stack pointers. -/
@[simp] theorem setSr_fields (s : State) (v : Word) :
    (s.setSr v).cfg = s.cfg ∧ (s.setSr v).d = s.d ∧ (s.setSr v).pc = s.pc ∧ (s.setSr v).pc0 = s.pc0 ∧
    (s.setSr v).ird = s.ird ∧ (s.setSr v).irc = s.irc ∧ (s.setSr v).clock = s.clock ∧
    (s.setSr v).iplPolled = s.iplPolled ∧ (s.setSr v).nmiArmed = s.nmiArmed ∧ (s.setSr v).run = s.run ∧
    (s.setSr v).tracePending = s.tracePending ∧ (s.setSr v).aeInService = s.aeInService ∧
    (s.setSr v).excInService = s.excInService ∧ (s.setSr v).pipelineBroken = s.pipelineBroken ∧
    (s.setSr v).mem = s.mem ∧ (s.setSr v).hostIpl = s.hostIpl ∧ (s.setSr v).hostIack = s.hostIack ∧
    (s.setSr v).hostReads = s.hostReads ∧ (s.setSr v).port = s.port ∧ (∀ x : Long, (s.setSr v).phys x = s.phys x) ∧
    (∀ q : RegNum, (s.setSr v).readD q = s.readD q) ∧ (∀ p : Nat, (s.setSr v).answer8 p = s.answer8 p) ∧
    (∀ p : Nat, (s.setSr v).answer16 p = s.answer16 p) ∧ (s.setSr v).iplAnswer = s.iplAnswer ∧
    (s.setSr v).iackAnswer = s.iackAnswer := by
  simp [State.setSr]

/-! ### Registers -/

@[simp] theorem readD_writeD_same (s : State) (r : RegNum) (v : Long) : (s.writeD r v).readD r = v := by
  simp [State.readD, State.writeD]

theorem readD_writeD_other (s : State) {r q : RegNum} (v : Long) (h : q ≠ r) : (s.writeD r v).readD q = s.readD q := by
  have h' : r.val ≠ q.val := fun e => h (Fin.ext e.symm)
  simp [State.readD, State.writeD, h']

theorem readD_writeD (s : State) (r q : RegNum) (v : Long) :
    (s.writeD r v).readD q = if q = r then v else s.readD q := by
  by_cases h : q = r
  · subst h; simp
  · simp [h, readD_writeD_other]

@[simp] theorem readA_writeA_same (s : State) (r : RegNum) (v : Long) : (s.writeA r v).readA r = v := by
  simp [State.readA, State.writeA]

theorem readA_writeA_other (s : State) {r q : RegNum} (v : Long) (h : q ≠ r) : (s.writeA r v).readA q = s.readA q := by
  have h' : r.val ≠ q.val := fun e => h (Fin.ext e.symm)
  simp [State.readA, State.writeA, h']

theorem readA_writeA (s : State) (r q : RegNum) (v : Long) :
    (s.writeA r v).readA q = if q = r then v else s.readA q := by
  by_cases h : q = r
  · subst h; simp
  · simp [h, readA_writeA_other]

@[simp] theorem sp_writeA7 (s : State) (v : Long) : (s.writeA 7 v).sp = v := readA_writeA_same s 7 v

@[simp] theorem readD_writeDPart_same (s : State) (r : RegNum) (size : Size) (v : Long) :
    (s.writeDPart r size v).readD r = merge size (s.readD r) v := by
  simp [State.writeDPart]

theorem readD_writeDPart_other (s : State) {r q : RegNum} (size : Size) (v : Long) (h : q ≠ r) :
    (s.writeDPart r size v).readD q = s.readD q := by
  simp [State.writeDPart, readD_writeD_other, h]

/-- A register written with the value it holds changes nothing. -/
@[simp] theorem writeD_readD (s : State) (r : RegNum) : s.writeD r (s.readD r) = s := by
  simp [State.writeD, State.readD]

/-- A register written with the value it holds changes nothing. -/
@[simp] theorem writeA_readA (s : State) (r : RegNum) : s.writeA r (s.readA r) = s := by
  simp [State.writeA, State.readA]

/-! ### The status register -/

/-- `SetS` to the current value is a no-op (R23). -/
@[simp] theorem setS_same (s : State) : s.setS s.sr.s = s := by simp [State.setS]

/-- `S` after `SetS` (R23). -/
@[simp] theorem setS_s (s : State) (b : Bool) : (s.setS b).sr.s = b := by
  unfold State.setS
  split
  · simp_all
  · split <;> simp_all

/-- `SetS` leaves the other fields of the status register alone (R23). -/
@[simp] theorem setS_sr_rest (s : State) (b : Bool) :
    (s.setS b).sr.t = s.sr.t ∧ (s.setS b).sr.i = s.sr.i ∧ (s.setS b).sr.ccr = s.sr.ccr := by
  unfold State.setS
  split
  · simp
  · split <;> simp

/-- Entering supervisor mode makes the supervisor stack pointer active (R23). -/
@[simp] theorem setS_true_sp (s : State) : (s.setS true).sp = s.supervisorSp := by
  unfold State.setS State.supervisorSp
  cases h : s.sr.s <;> simp [State.sp, State.readA, State.writeA, State.writeS, State.setUsp]

/-- The four fields after `SetSR` (R29). -/
theorem setSr_sr (s : State) (v : Word) :
    (s.setSr v).sr = { t := v.getLsbD 15, s := v.getLsbD 13, i := v.extractLsb' 8 3, ccr := ccrOfByte (v.extractLsb' 0 8) } := by
  have h := setS_sr_rest (s.setT (v.getLsbD 15)) (v.getLsbD 13)
  have h2 := setS_s (s.setT (v.getLsbD 15)) (v.getLsbD 13)
  unfold State.setSr
  simp only [setCcr_fields, setMask_fields]
  generalize (s.setT (v.getLsbD 15)).setS (v.getLsbD 13) = u at *
  obtain ⟨h3, -, -⟩ := h
  simp only [setT_fields] at h3
  simp [h2, h3]

/-- The fields of the status word, read back (R29). -/
theorem word_fields : ∀ (t s x n z v c : Bool) (i : BitVec 3),
    let r : Status := { t := t, s := s, i := i, ccr := { x := x, n := n, z := z, v := v, c := c } }
    r.word.getLsbD 15 = t ∧ r.word.getLsbD 13 = s ∧ r.word.extractLsb' 8 3 = i ∧
      ccrOfByte (r.word.extractLsb' 0 8) = r.ccr ∧ r.word &&& 0xA71F = r.word := by decide +kernel

theorem getSr_fields (s : State) : s.getSr.getLsbD 15 = s.sr.t ∧ s.getSr.getLsbD 13 = s.sr.s ∧
    s.getSr.extractLsb' 8 3 = s.sr.i ∧ ccrOfByte (s.getSr.extractLsb' 0 8) = s.sr.ccr ∧ s.getSr &&& 0xA71F = s.getSr :=
  word_fields s.sr.t s.sr.s s.sr.ccr.x s.sr.ccr.n s.sr.ccr.z s.sr.ccr.v s.sr.ccr.c s.sr.i

end Sys2Proof.Machine
end

