-- ==== Sys2Proof/Laws/Bits.lean ====
section
/-! SUPPORT. Values of an operand size, bit by bit: what the truncation and the partial register write do (R6, R7, R20). -/

namespace Sys2Proof.Machine

/-- The mask of a size, bit by bit. -/
theorem sizeMask_bit (size : Size) (k : Nat) : (sizeMask size).getLsbD k = decide (k < size.bits) := by
  rcases Nat.lt_or_ge k 32 with h | h
  · have : ∀ k : Fin 32, (sizeMask size).getLsbD k.val = decide (k.val < size.bits) := by cases size <;> decide
    exact this ⟨k, h⟩
  · rw [BitVec.getLsbD_of_ge _ _ h]
    have : ¬ k < size.bits := by cases size <;> (simp only [Size.bits]; omega)
    simp [this]

/-- `trunc`, bit by bit. -/
theorem trunc_bit (size : Size) (v : Long) (k : Nat) : (trunc size v).getLsbD k = (v.getLsbD k && decide (k < size.bits)) := by
  rw [trunc, BitVec.getLsbD_and, sizeMask_bit]

/-- `merge`, bit by bit (R20). -/
theorem merge_bit (size : Size) (old v : Long) (k : Nat) :
    (merge size old v).getLsbD k = if k < size.bits then v.getLsbD k else old.getLsbD k := by
  rw [merge, BitVec.getLsbD_or, BitVec.getLsbD_and, BitVec.getLsbD_and, BitVec.getLsbD_not, sizeMask_bit]
  rcases Nat.lt_or_ge k 32 with h | h
  · by_cases hk : k < size.bits <;> simp [hk, h]
  · rw [BitVec.getLsbD_of_ge _ _ h, BitVec.getLsbD_of_ge _ _ h]
    simp

theorem trunc_l (v : Long) : trunc .l v = v := by
  apply BitVec.eq_of_getLsbD_eq; intro i hi
  rw [trunc_bit]; simp [Size.bits, hi]

theorem merge_l (old v : Long) : merge .l old v = v := by
  apply BitVec.eq_of_getLsbD_eq; intro i hi
  rw [merge_bit, if_pos (by exact hi)]

theorem trunc_merge (size : Size) (old v : Long) : trunc size (merge size old v) = trunc size v := by
  apply BitVec.eq_of_getLsbD_eq; intro i hi
  rw [trunc_bit, trunc_bit, merge_bit]
  by_cases h : i < size.bits <;> simp [h]

theorem trunc_trunc (size : Size) (v : Long) : trunc size (trunc size v) = trunc size v := by
  apply BitVec.eq_of_getLsbD_eq; intro i hi
  rw [trunc_bit, trunc_bit]; cases v.getLsbD i <;> simp

@[simp] theorem writeDPart_l (s : State) (r : RegNum) (v : Long) : s.writeDPart r .l v = s.writeD r v := by
  rw [State.writeDPart, merge_l]

theorem loWord_setWidth (w : Word) : loWord (w.setWidth 32) = w := by
  apply BitVec.eq_of_getLsbD_eq; intro i hi
  simp [loWord, hi]; omega

theorem loByte_immByte (w : Word) : loByte (w.setWidth 32 &&& 0xFF) = w.extractLsb' 0 8 := by
  apply BitVec.eq_of_getLsbD_eq; intro i hi
  have h : (255#32 : Long).getLsbD i = true := (sizeMask_bit .b i).trans (by simp [Size.bits, hi])
  simp only [loByte, BitVec.getLsbD_extractLsb', BitVec.getLsbD_and, hi, Nat.zero_add]
  show (true && (_ && (255#32 : Long).getLsbD i)) = _
  rw [h]
  simp; omega

theorem merge_w (old v : Long) : merge .w old v = old.extractLsb' 16 16 ++ loWord v := by
  apply BitVec.eq_of_getLsbD_eq; intro i hi
  rw [merge_bit, BitVec.getLsbD_append]
  by_cases h : i < 16
  · simp [Size.bits, h, loWord]
  · simp [Size.bits, h, show i - 16 < 16 by omega, show 16 + (i - 16) = i by omega]

theorem trunc_w (v : Long) : trunc .w v = (loWord v).setWidth 32 := by
  apply BitVec.eq_of_getLsbD_eq; intro i hi
  rw [trunc_bit]
  by_cases h : i < 16 <;> simp [Size.bits, h, loWord, hi]

theorem loWord_sext8 (b : Byte) : loWord (sext8 b) = b.signExtend 16 := by
  apply BitVec.eq_of_getLsbD_eq; intro i hi
  simp [loWord, sext8, hi, BitVec.getLsbD_signExtend, BitVec.getElem_signExtend]
  simp [show i < 32 by omega]
  split <;> simp_all [BitVec.getLsbD_eq_getElem]
end Sys2Proof.Machine
end

