-- ==== Sys2Proof/Laws/Monad.lean ====
section
/-! SUPPORT. How a rule's pseudocode runs: one lemma per primitive action, so that a straight-line rule rewrites to the state it
leaves, and the sequencing lemmas for an action whose result is known. -/

namespace Sys2Proof.Machine

variable {α β : Type}

/-- Sequencing: the second action runs on the first one's result; an abort ends both (R124). -/
theorem bind_run (x : M α) (k : α → M β) (s : State) :
    (x >>= k) s = match x s with | .ok a t => k a t | .error e t => .error e t := by
  show EStateM.bind x k s = _
  unfold EStateM.bind
  cases x s <;> rfl

theorem bind_ok {x : M α} {k : α → M β} {s t : State} {a : α} (h : x s = .ok a t) : (x >>= k) s = k a t := by
  rw [bind_run, h]

theorem bind_error {x : M α} {k : α → M β} {s t : State} {e : Abort} (h : x s = .error e t) :
    (x >>= k) s = .error e t := by
  rw [bind_run, h]

/-- A sequence that completes: both parts completed. -/
theorem bind_eq_ok {x : M α} {k : α → M β} {s u : State} {b : β} (h : (x >>= k) s = .ok b u) :
    ∃ a t, x s = .ok a t ∧ k a t = .ok b u := by
  rw [bind_run] at h
  cases hx : x s with
  | ok a t => rw [hx] at h; exact ⟨a, t, rfl, h⟩
  | error e t => rw [hx] at h; cases h

/-- A sequence that aborts: the first part aborted, or it completed and the second did. -/
theorem bind_eq_error {x : M α} {k : α → M β} {s u : State} {e : Abort} (h : (x >>= k) s = .error e u) :
    x s = .error e u ∨ ∃ a t, x s = .ok a t ∧ k a t = .error e u := by
  rw [bind_run] at h
  cases hx : x s with
  | ok a t => rw [hx] at h; exact .inr ⟨a, t, rfl, h⟩
  | error e' t => rw [hx] at h; cases h; exact .inl rfl

theorem pure_run (a : α) (s : State) : (pure a : M α) s = .ok a s := rfl

theorem bind_assoc_run (x : M α) (k : α → M β) {γ : Type} (l : β → M γ) (s : State) :
    ((x >>= k) >>= l) s = (x >>= fun a => k a >>= l) s := by
  simp only [bind_run]
  cases x s <;> rfl

/-! ### Primitive actions in front of a rule -/

theorem pure_bind_run (a : α) (k : α → M β) (s : State) : ((pure a : M α) >>= k) s = k a s := bind_ok rfl

theorem assign_bind_run (f : State → State) (k : Unit → M β) (s : State) : (assign f >>= k) s = k () (f s) := bind_ok rfl

theorem look_bind_run (f : State → α) (k : α → M β) (s : State) : (look f >>= k) s = k (f s) s := bind_ok rfl

theorem charge_bind_run (n : Nat) (k : Unit → M β) (s : State) : (charge n >>= k) s = k () (s.tick n) := bind_ok rfl

theorem chargeOp_bind_run (key : CostKey) (k : Unit → M β) (s : State) :
    (chargeOp key >>= k) s = k () (s.tick (s.cfg.opCost key)) := bind_ok rfl

theorem chargeVec_bind_run (kind : ExcKind) (k : Unit → M β) (s : State) :
    (chargeVec kind >>= k) s = k () (s.tick (s.cfg.vecCost kind)) := bind_ok rfl

theorem notify_bind_run (e : Event) (k : Unit → M β) (s : State) :
    (notify e >>= k) s = k () (s.record (.notify e)) := bind_ok rfl

theorem jumpTo_bind_run (x : Long) (k : Unit → M β) (s : State) : (jumpTo x >>= k) s = k () (s.setPc x) := bind_ok rfl

theorem sampleIpl_bind_run (k : Unit → M β) (s : State) : (sampleIpl >>= k) s = k () s.sampled := bind_ok rfl

theorem sampleIf_bind_run (poll : Bool) (k : Unit → M β) (s : State) :
    (sampleIf poll >>= k) s = k () (if poll then s.sampled else s) := bind_ok rfl

theorem hostRead8_bind_run (p : Nat) (k : Byte → M β) (s : State) :
    (hostRead8 p >>= k) s = k (s.answer8 p) (s.answered (.read8 p (s.answer8 p))) := bind_ok rfl

theorem hostRead16_bind_run (p : Nat) (k : Word → M β) (s : State) :
    (hostRead16 p >>= k) s = k (s.answer16 p) (s.answered (.read16 p (s.answer16 p))) := bind_ok rfl

theorem hostResetRead16_bind_run (p : Nat) (k : Word → M β) (s : State) :
    (hostResetRead16 p >>= k) s = k (s.answer16 p) (s.answered (.resetRead16 p (s.answer16 p))) := bind_ok rfl

theorem hostWrite8_bind_run (p : Nat) (v : Byte) (k : Unit → M β) (s : State) :
    (hostWrite8 p v >>= k) s = k () ((s.setMem (s.mem.writeByte p v)).record (.write8 p v)) := bind_ok rfl

theorem hostWrite16_bind_run (p : Nat) (v : Word) (k : Unit → M β) (s : State) :
    (hostWrite16 p v >>= k) s = k () ((s.setMem (s.mem.writeWord p v)).record (.write16 p v)) := bind_ok rfl

theorem hostIackOf_bind_run (l : BitVec 3) (k : IackAnswer → M β) (s : State) :
    (hostIackOf l >>= k) s = k s.iackAnswer (s.acknowledged l) := bind_ok rfl

theorem checkEven_run {x : Long} (h : isEven x = true) (d : Dir) (sp : Space) (s : State) :
    checkEven x d sp s = .ok () s := by
  simp only [isEven, Bool.not_eq_true'] at h
  simp [checkEven, h]

theorem checkEven_odd {x : Long} (h : isEven x = false) (d : Dir) (sp : Space) (s : State) :
    checkEven x d sp s = .error (.addressError x d sp) s := by
  simp only [isEven, Bool.not_eq_false'] at h
  simp [checkEven, h]

theorem checkEven_bind_run {x : Long} (h : isEven x = true) (d : Dir) (sp : Space) (k : Unit → M β) (s : State) :
    (checkEven x d sp >>= k) s = k () s := bind_ok (checkEven_run h d sp s)

theorem checkEven_bind_odd {x : Long} (h : isEven x = false) (d : Dir) (sp : Space) (k : Unit → M β) (s : State) :
    (checkEven x d sp >>= k) s = .error (.addressError x d sp) s := bind_error (checkEven_odd h d sp s)

/-! ### Even addresses -/

theorem isEven_iff (x : Long) : isEven x = true ↔ x.toNat % 2 = 0 := by
  have h : x.getLsbD 0 = decide (x.toNat % 2 = 1) := by
    simp [BitVec.getLsbD, Nat.testBit_zero]
  rw [isEven, isOdd, h, Bool.not_eq_true', decide_eq_false_iff_not]
  omega

/-- Adding an even amount keeps an address even or odd (R69: a long access is checked once). -/
theorem isEven_add_even (x y : Long) (hy : y.toNat % 2 = 0) : isEven (x + y) = isEven x := by
  have h : isEven (x + y) = true ↔ isEven x = true := by
    rw [isEven_iff, isEven_iff, BitVec.toNat_add]
    omega
  cases h1 : isEven (x + y) <;> cases h2 : isEven x <;> simp_all

/-- Subtracting an even amount keeps an address even or odd. -/
theorem isEven_sub_even (x y : Long) (hy : y.toNat % 2 = 0) : isEven (x - y) = isEven x := by
  have h : isEven (x - y) = true ↔ isEven x = true := by
    rw [isEven_iff, isEven_iff, BitVec.toNat_sub]
    omega
  cases h1 : isEven (x - y) <;> cases h2 : isEven x <;> simp_all

theorem isEven_add_two (x : Long) : isEven (x + 2) = isEven x := isEven_add_even x 2 rfl
theorem isEven_add_four (x : Long) : isEven (x + 4) = isEven x := isEven_add_even x 4 rfl
theorem isEven_add_six (x : Long) : isEven (x + 6) = isEven x := isEven_add_even x 6 rfl
theorem isEven_sub_two (x : Long) : isEven (x - 2) = isEven x := isEven_sub_even x 2 rfl
theorem isEven_sub_four (x : Long) : isEven (x - 4) = isEven x := isEven_sub_even x 4 rfl

/-! The same in the form `simp` writes a literal. -/

@[simp] theorem isEven_add_two' (x : Long) : isEven (x + 2#32) = isEven x := isEven_add_two x
@[simp] theorem isEven_add_four' (x : Long) : isEven (x + 4#32) = isEven x := isEven_add_four x
@[simp] theorem isEven_add_six' (x : Long) : isEven (x + 6#32) = isEven x := isEven_add_six x
@[simp] theorem isEven_sub_two' (x : Long) : isEven (x - 2#32) = isEven x := isEven_sub_two x
@[simp] theorem isEven_sub_four' (x : Long) : isEven (x - 4#32) = isEven x := isEven_sub_four x

/-- The address of a vector's entry is even (R302). -/
@[simp] theorem isEven_vectorAddress (v : BitVec 8) : isEven (vectorAddress v) = true := by
  rw [isEven_iff, vectorAddress, BitVec.toNat_shiftLeft, BitVec.toNat_setWidth]
  have : v.toNat < 256 := v.isLt
  rw [Nat.shiftLeft_eq]
  omega

end Sys2Proof.Machine
end

