-- ==== Sys2Proof/Laws/Bus.lean ====
section
/-! SUPPORT. The spec lemma of each bus primitive, stack helper and pipeline advance: on an even address it completes with the
answer and the state that Safety.lean names; on an odd one it aborts with nothing issued and nothing charged (R66). -/

namespace Sys2Proof.Machine

/-! ### Reads and writes (R66 to R73) -/

theorem busRead8_run (x : Long) (s : State) : busRead8 x s = .ok (s.answer8 (s.phys x)) (s.byteRead x) := rfl

theorem busRead16_run {x : Long} (h : isEven x = true) (space : Space) (poll : Bool) (s : State) :
    busRead16 space x poll s = .ok (s.answer16 (s.phys x)) (s.wordRead x poll) := by
  unfold busRead16
  rw [checkEven_bind_run h]
  cases poll <;> rfl

theorem busRead16_odd {x : Long} (h : isEven x = false) (space : Space) (poll : Bool) (s : State) :
    busRead16 space x poll s = .error (.addressError x .read space) s := by
  unfold busRead16
  rw [checkEven_bind_odd h]

theorem busRead32_run {x : Long} (h : isEven x = true) (space : Space) (s : State) :
    busRead32 space x s = .ok (s.answer32 x) (s.longRead x) := by
  unfold busRead32
  rw [checkEven_bind_run h, bind_ok (busRead16_run h space false s),
    bind_ok (busRead16_run (isEven_add_two x ▸ h) space false _)]
  rfl

theorem busRead32_odd {x : Long} (h : isEven x = false) (space : Space) (s : State) :
    busRead32 space x s = .error (.addressError x .read space) s := by
  unfold busRead32
  rw [checkEven_bind_odd h]

theorem busWrite8_run (x : Long) (v : Byte) (s : State) : busWrite8 x v s = .ok () (s.byteWritten x v) := rfl

theorem busWrite16_run {x : Long} (h : isEven x = true) (space : Space) (v : Word) (s : State) :
    busWrite16 space x v s = .ok () (s.wordWritten x v) := by
  unfold busWrite16
  rw [checkEven_bind_run h]
  rfl

theorem busWrite16_odd {x : Long} (h : isEven x = false) (space : Space) (v : Word) (s : State) :
    busWrite16 space x v s = .error (.addressError x .write space) s := by
  unfold busWrite16
  rw [checkEven_bind_odd h]

theorem busWrite32_run {x : Long} (h : isEven x = true) (space : Space) (v : Long) (s : State) :
    busWrite32 space x v s = .ok () (s.longWritten x v) := by
  unfold busWrite32
  rw [checkEven_bind_run h, bind_ok (busWrite16_run h space _ s), busWrite16_run (isEven_add_two x ▸ h)]
  rfl

theorem busWrite32_odd {x : Long} (h : isEven x = false) (space : Space) (v : Long) (s : State) :
    busWrite32 space x v s = .error (.addressError x .write space) s := by
  unfold busWrite32
  rw [checkEven_bind_odd h]

theorem memRead_run {x : Long} {size : Size} (h : alignedFor size x = true) (space : Space) (s : State) :
    memRead space x size s = .ok (s.answerSize x size) (s.sizeRead x size) := by
  cases size with
  | b => rfl
  | w => exact bind_ok (busRead16_run (by simpa [alignedFor] using h) space false s)
  | l => exact busRead32_run (by simpa [alignedFor] using h) space s

theorem memRead_odd {x : Long} {size : Size} (h : alignedFor size x = false) (space : Space) (s : State) :
    memRead space x size s = .error (.addressError x .read space) s := by
  cases size with
  | b => simp [alignedFor] at h
  | w => exact bind_error (busRead16_odd (by simpa [alignedFor] using h) space false s)
  | l => exact busRead32_odd (by simpa [alignedFor] using h) space s

theorem memWrite_run {x : Long} {size : Size} (h : alignedFor size x = true) (v : Long) (s : State) :
    memWrite x v size s = .ok () (s.sizeWritten x v size) := by
  cases size with
  | b => rfl
  | w => exact busWrite16_run (by simpa [alignedFor] using h) .data _ s
  | l => exact busWrite32_run (by simpa [alignedFor] using h) .data v s

theorem memWrite_odd {x : Long} {size : Size} (h : alignedFor size x = false) (v : Long) (s : State) :
    memWrite x v size s = .error (.addressError x .write .data) s := by
  cases size with
  | b => simp [alignedFor] at h
  | w => exact busWrite16_odd (by simpa [alignedFor] using h) .data _ s
  | l => exact busWrite32_odd (by simpa [alignedFor] using h) .data v s

/-! ### Stack helpers (R75) -/

theorem push16_run {s : State} (h : isEven s.sp = true) (v : Word) :
    push16 v s = .ok () ((s.writeA 7 (s.sp - 2)).wordWritten (s.sp - 2) v) := by
  unfold push16
  rw [assign_bind_run, look_bind_run, sp_writeA7]
  exact busWrite16_run (by simpa using h) _ _ _

/-- A push on an odd stack pointer leaves it decremented (R75). -/
theorem push16_odd {s : State} (h : isEven s.sp = false) (v : Word) :
    push16 v s = .error (.addressError (s.sp - 2) .write .data) (s.writeA 7 (s.sp - 2)) := by
  unfold push16
  rw [assign_bind_run, look_bind_run, sp_writeA7]
  exact busWrite16_odd (by simpa using h) _ _ _

theorem push32_run {s : State} (h : isEven s.sp = true) (v : Long) :
    push32 v s = .ok () ((s.writeA 7 (s.sp - 4)).longWritten (s.sp - 4) v) := by
  unfold push32
  rw [assign_bind_run, look_bind_run, sp_writeA7]
  exact busWrite32_run (by simpa using h) _ _ _

/-- A push on an odd stack pointer leaves it decremented (R75). -/
theorem push32_odd {s : State} (h : isEven s.sp = false) (v : Long) :
    push32 v s = .error (.addressError (s.sp - 4) .write .data) (s.writeA 7 (s.sp - 4)) := by
  unfold push32
  rw [assign_bind_run, look_bind_run, sp_writeA7]
  exact busWrite32_odd (by simpa using h) _ _ _

theorem pop32_run {s : State} (h : isEven s.sp = true) :
    pop32 s = .ok (s.answer32 s.sp) ((s.longRead s.sp).writeA 7 ((s.longRead s.sp).sp + 4)) := by
  unfold pop32
  rw [look_bind_run, bind_ok (busRead32_run h .data s)]
  rfl

/-- A faulting pop leaves the stack pointer alone (R75). -/
theorem pop32_odd {s : State} (h : isEven s.sp = false) : pop32 s = .error (.addressError s.sp .read .data) s := by
  unfold pop32
  rw [look_bind_run, bind_error (busRead32_odd h .data s)]

theorem pop16_run {s : State} (h : isEven s.sp = true) :
    pop16 s = .ok (s.answer16 (s.phys s.sp)) ((s.wordRead s.sp).writeA 7 ((s.wordRead s.sp).sp + 2)) := by
  unfold pop16
  rw [look_bind_run, bind_ok (busRead16_run h .data false s)]
  rfl

theorem pop16_odd {s : State} (h : isEven s.sp = false) : pop16 s = .error (.addressError s.sp .read .data) s := by
  unfold pop16
  rw [look_bind_run, bind_error (busRead16_odd h .data false s)]

/-! ### The pipeline (R127 to R129) -/

theorem readExt_run {s : State} (h : isEven s.pc = true) : readExt s = .ok s.irc s.extTaken := by
  unfold readExt
  rw [look_bind_run, assign_bind_run, look_bind_run, bind_ok (busRead16_run (by simpa using h) .prog false _)]
  rfl

/-- A fetch at an odd address aborts with `pc` already advanced (R127). -/
theorem readExt_odd {s : State} (h : isEven s.pc = false) :
    readExt s = .error (.addressError (s.pc + 2) .read .prog) (s.setPc (s.pc + 2)) := by
  unfold readExt
  rw [look_bind_run, assign_bind_run, look_bind_run, bind_error (busRead16_odd (by simpa using h) .prog false _)]
  rfl

theorem prefetch_run {s : State} (h : isEven s.pc = true) : prefetch s = .ok () s.prefetched := by
  unfold prefetch
  rw [assign_bind_run, look_bind_run, bind_ok (busRead16_run (by simpa using h) .prog true _)]
  rfl

/-- A fetch at an odd address aborts with `ird` already taken and `pc0` not updated (R128). -/
theorem prefetch_odd {s : State} (h : isEven s.pc = false) :
    prefetch s = .error (.addressError (s.pc + 2) .read .prog) (s.setIrd s.irc) := by
  unfold prefetch
  rw [assign_bind_run, look_bind_run, bind_error (busRead16_odd (by simpa using h) .prog true _)]
  rfl

theorem refill_run {s : State} (h : isEven s.pc = true) : refill s = .ok () s.refilled := by
  unfold refill
  rw [look_bind_run, bind_ok (busRead16_run h .prog false _), assign_bind_run]
  exact prefetch_run (by simpa [State.wordRead] using h)

/-- A refill from an odd address aborts at its first fetch (R129). -/
theorem refill_odd {s : State} (h : isEven s.pc = false) :
    refill s = .error (.addressError s.pc .read .prog) s := by
  unfold refill
  rw [look_bind_run, bind_error (busRead16_odd h .prog false _)]

end Sys2Proof.Machine
end

