-- ==== Sys2Proof/Laws/Core.lean ====
section
/-! SUPPORT. `SameCore`: an equivalence that every pipeline and read operation keeps and every update of a core field respects.
With these, what an instruction changes is read off the state its effect is stated in. -/

namespace Sys2Proof.Machine

namespace SameCore

theorem refl (s : State) : SameCore s s := ⟨rfl, rfl, rfl, rfl, rfl, rfl, rfl, rfl, rfl, rfl, rfl, rfl⟩

theorem symm {s t : State} (h : SameCore s t) : SameCore t s :=
  ⟨h.cfg.symm, h.d.symm, h.a.symm, h.usp.symm, h.ssp.symm, h.sr.symm, h.run.symm, h.tracePending.symm,
    h.aeInService.symm, h.excInService.symm, h.pipelineBroken.symm, h.mem.symm⟩

theorem trans {s t u : State} (h : SameCore s t) (k : SameCore t u) : SameCore s u :=
  ⟨k.cfg.trans h.cfg, k.d.trans h.d, k.a.trans h.a, k.usp.trans h.usp, k.ssp.trans h.ssp, k.sr.trans h.sr,
    k.run.trans h.run, k.tracePending.trans h.tracePending, k.aeInService.trans h.aeInService,
    k.excInService.trans h.excInService, k.pipelineBroken.trans h.pipelineBroken, k.mem.trans h.mem⟩

variable {s t : State}

/-! ### What the accessors read -/

theorem readD (h : SameCore s t) (r : RegNum) : t.readD r = s.readD r := by simp [State.readD, h.d]
theorem readA (h : SameCore s t) (r : RegNum) : t.readA r = s.readA r := by simp [State.readA, h.a]
theorem sp (h : SameCore s t) : t.sp = s.sp := h.readA 7
theorem readDPart (h : SameCore s t) (r : RegNum) (size : Size) : t.readDPart r size = s.readDPart r size := by
  simp [State.readDPart, h.readD]
theorem getSr (h : SameCore s t) : t.getSr = s.getSr := by simp [State.getSr, h.sr]
theorem getCcr (h : SameCore s t) : t.getCcr = s.getCcr := by simp [State.getCcr, h.sr]
theorem phys (h : SameCore s t) (x : Long) : t.phys x = s.phys x := by simp [State.phys, h.cfg]
theorem supervisorSp (h : SameCore s t) : t.supervisorSp = s.supervisorSp := by
  simp [State.supervisorSp, h.sr, h.ssp, h.sp]
theorem userSp (h : SameCore s t) : t.userSp = s.userSp := by simp [State.userSp, h.sr, h.usp, h.sp]
theorem scaledIndex (h : SameCore s t) (x : IndexReg) : t.scaledIndex x = s.scaledIndex x := by
  simp [State.scaledIndex, h.readA, h.readD]
theorem functionCode (h : SameCore s t) (sp : Space) : t.functionCode sp = s.functionCode sp := by
  simp [State.functionCode, h.sr]

/-! ### The operations it does not see -/

theorem tick (s : State) (n : Nat) : SameCore s (s.tick n) := by constructor <;> simp
theorem record (s : State) (c : PortCall) : SameCore s (s.record c) := by constructor <;> simp
theorem answered (s : State) (c : PortCall) : SameCore s (s.answered c) := by constructor <;> simp
theorem sampled (s : State) : SameCore s s.sampled := by constructor <;> simp
theorem acknowledged (s : State) (l : BitVec 3) : SameCore s (s.acknowledged l) := by constructor <;> simp
theorem setPc (s : State) (v : Long) : SameCore s (s.setPc v) := by constructor <;> simp
theorem setPc0 (s : State) (v : Long) : SameCore s (s.setPc0 v) := by constructor <;> simp
theorem setIrd (s : State) (v : Word) : SameCore s (s.setIrd v) := by constructor <;> simp
theorem setIrc (s : State) (v : Word) : SameCore s (s.setIrc v) := by constructor <;> simp

theorem byteRead (s : State) (x : Long) : SameCore s (s.byteRead x) :=
  ((tick s _).trans (answered _ _)).trans (tick _ _)

theorem wordRead (s : State) (x : Long) (poll : Bool) : SameCore s (s.wordRead x poll) := by
  unfold State.wordRead
  cases poll
  · exact ((tick s _).trans (answered _ _)).trans (tick _ _)
  · exact (((tick s _).trans (sampled _)).trans (answered _ _)).trans (tick _ _)

theorem longRead (s : State) (x : Long) : SameCore s (s.longRead x) := (wordRead s _ _).trans (wordRead _ _ _)

theorem sizeRead (s : State) (x : Long) (size : Size) : SameCore s (s.sizeRead x size) := by
  cases size
  · exact byteRead s x
  · exact wordRead s x false
  · exact longRead s x

theorem extTaken (s : State) : SameCore s s.extTaken :=
  ((setPc s _).trans (wordRead _ _ _)).trans (setIrc _ _)

theorem immTaken (s : State) (size : Size) : SameCore s (s.immTaken size) := by
  cases size
  · exact extTaken s
  · exact extTaken s
  · exact (extTaken s).trans (extTaken _)

theorem prefetched (s : State) : SameCore s s.prefetched :=
  (((setIrd s _).trans (wordRead _ _ _)).trans (setIrc _ _)).trans (setPc0 _ _)

theorem refilled (s : State) : SameCore s s.refilled :=
  ((wordRead s _ _).trans (setIrc _ _)).trans (prefetched _)

/-! ### The updates it respects -/

theorem writeD (h : SameCore s t) (r : RegNum) (v : Long) : SameCore (s.writeD r v) (t.writeD r v) := by
  obtain ⟨⟩ := h; constructor <;> simp [State.writeD, *]
theorem writeDPart (h : SameCore s t) (r : RegNum) (size : Size) (v : Long) :
    SameCore (s.writeDPart r size v) (t.writeDPart r size v) := by
  unfold State.writeDPart; rw [h.readD]; exact h.writeD r _
theorem writeA (h : SameCore s t) (r : RegNum) (v : Long) : SameCore (s.writeA r v) (t.writeA r v) := by
  obtain ⟨⟩ := h; constructor <;> simp [State.writeA, *]
theorem withCcr (h : SameCore s t) (c : Ccr) : SameCore (s.withCcr c) (t.withCcr c) := by
  obtain ⟨⟩ := h; constructor <;> simp [*]
theorem setCcr (h : SameCore s t) (v : Byte) : SameCore (s.setCcr v) (t.setCcr v) := h.withCcr _
theorem setT (h : SameCore s t) (b : Bool) : SameCore (s.setT b) (t.setT b) := by
  obtain ⟨⟩ := h; constructor <;> simp [*]
theorem setMask (h : SameCore s t) (i : BitVec 3) : SameCore (s.setMask i) (t.setMask i) := by
  obtain ⟨⟩ := h; constructor <;> simp [*]
theorem writeS (h : SameCore s t) (b : Bool) : SameCore (s.writeS b) (t.writeS b) := by
  obtain ⟨⟩ := h; constructor <;> simp [*]
theorem setUsp (h : SameCore s t) (v : Long) : SameCore (s.setUsp v) (t.setUsp v) := by
  obtain ⟨⟩ := h; constructor <;> simp [*]
theorem setSsp (h : SameCore s t) (v : Long) : SameCore (s.setSsp v) (t.setSsp v) := by
  obtain ⟨⟩ := h; constructor <;> simp [*]
theorem setRun (h : SameCore s t) (v : RunState) : SameCore (s.setRun v) (t.setRun v) := by
  obtain ⟨⟩ := h; constructor <;> simp [*]
theorem setTracePending (h : SameCore s t) (v : Bool) : SameCore (s.setTracePending v) (t.setTracePending v) := by
  obtain ⟨⟩ := h; constructor <;> simp [*]
theorem setAeInService (h : SameCore s t) (v : Bool) : SameCore (s.setAeInService v) (t.setAeInService v) := by
  obtain ⟨⟩ := h; constructor <;> simp [*]
theorem setExcInService (h : SameCore s t) (v : Bool) : SameCore (s.setExcInService v) (t.setExcInService v) := by
  obtain ⟨⟩ := h; constructor <;> simp [*]
theorem setMem (h : SameCore s t) (m : Memory) : SameCore (s.setMem m) (t.setMem m) := by
  obtain ⟨⟩ := h; constructor <;> simp [*]
theorem dropTrace (h : SameCore s t) (k : ExcKind) : SameCore (s.dropTrace k) (t.dropTrace k) := by
  unfold State.dropTrace; split
  · exact h.setTracePending false
  · exact h

theorem setS (h : SameCore s t) (b : Bool) : SameCore (s.setS b) (t.setS b) := by
  unfold State.setS
  rw [h.sr, h.sp, h.ssp, h.usp]
  split
  · exact h
  · split
    · exact ((h.setUsp _).writeA 7 _).writeS true
    · exact ((h.setSsp _).writeA 7 _).writeS false

theorem setSr (h : SameCore s t) (v : Word) : SameCore (s.setSr v) (t.setSr v) :=
  (((h.setT _).setS _).setMask _).setCcr _

theorem storedMem (h : SameCore s t) (x : Long) (size : Size) (v : Long) :
    t.storedMem x size v = s.storedMem x size v := by
  cases size <;> simp [State.storedMem, h.mem, h.phys]

theorem stored (h : SameCore s t) (loc : Loc) (size : Size) (v : Long) :
    SameCore (s.stored loc size v) (t.stored loc size v) := by
  cases loc with
  | dreg r => exact h.writeDPart r size v
  | areg r => exact h.writeA r _
  | mem x sp => simp only [State.stored, h.storedMem]; exact h.setMem _
  | imm _ => exact h

theorem pushed (h : SameCore s t) (size : Size) (v : Long) : SameCore (s.pushed size v) (t.pushed size v) := by
  unfold State.pushed
  rw [h.sp]
  exact (h.writeA 7 _).stored _ size v

theorem adjusted (h : SameCore s t) (ea : Ea) (size : Size) : SameCore (s.adjusted ea size) (t.adjusted ea size) := by
  cases ea <;> simp only [State.adjusted, h.readA] <;> first | exact h.writeA _ _ | exact h

end SameCore

/-! ### Writes, seen through the core -/

theorem byteWritten_core (s : State) (x v : Long) :
    SameCore (s.setMem (s.storedMem x .b v)) (s.byteWritten x (loByte v)) := by
  unfold State.byteWritten
  constructor <;> simp [State.storedMem]

theorem wordWritten_core (s : State) (x : Long) (v : Word) :
    SameCore (s.setMem (s.mem.writeWord (s.phys x) v)) (s.wordWritten x v) := by
  unfold State.wordWritten
  constructor <;> simp

theorem longWritten_core (s : State) (x v : Long) :
    SameCore (s.setMem (s.storedMem x .l v)) (s.longWritten x v) := by
  have h := wordWritten_core s x (hiWord v)
  refine SameCore.trans ?_ (wordWritten_core (s.wordWritten x (hiWord v)) (x + 2) (loWord v))
  rw [h.mem, h.phys]
  exact h.setMem ((s.mem.writeWord (s.phys x) (hiWord v)).writeWord (s.phys (x + 2)) (loWord v))

/-- An aligned write's effect on the core is the store (R70 to R73). -/
theorem sizeWritten_core (s : State) (x v : Long) (size : Size) (sp : Space) :
    SameCore (s.stored (.mem x sp) size v) (s.sizeWritten x v size) := by
  cases size
  · exact byteWritten_core s x v
  · exact wordWritten_core s x (loWord v)
  · exact longWritten_core s x v

/-! ### The program counters and the pipeline after an advance -/

@[simp] theorem wordRead_pc (s : State) (x : Long) (p : Bool) : (s.wordRead x p).pc = s.pc := by
  unfold State.wordRead; cases p <;> simp
@[simp] theorem wordRead_irc (s : State) (x : Long) (p : Bool) : (s.wordRead x p).irc = s.irc := by
  unfold State.wordRead; cases p <;> simp
@[simp] theorem wordRead_ird (s : State) (x : Long) (p : Bool) : (s.wordRead x p).ird = s.ird := by
  unfold State.wordRead; cases p <;> simp
@[simp] theorem wordRead_pc0 (s : State) (x : Long) (p : Bool) : (s.wordRead x p).pc0 = s.pc0 := by
  unfold State.wordRead; cases p <;> simp
@[simp] theorem wordRead_phys (s : State) (x y : Long) (p : Bool) : (s.wordRead x p).phys y = s.phys y :=
  (SameCore.wordRead s x p).phys y
@[simp] theorem byteRead_pc (s : State) (x : Long) : (s.byteRead x).pc = s.pc := by simp [State.byteRead]
@[simp] theorem byteRead_irc (s : State) (x : Long) : (s.byteRead x).irc = s.irc := by simp [State.byteRead]
@[simp] theorem byteRead_ird (s : State) (x : Long) : (s.byteRead x).ird = s.ird := by simp [State.byteRead]
@[simp] theorem byteRead_pc0 (s : State) (x : Long) : (s.byteRead x).pc0 = s.pc0 := by simp [State.byteRead]

@[simp] theorem sizeRead_pc (s : State) (x : Long) (size : Size) : (s.sizeRead x size).pc = s.pc := by
  cases size <;> simp [State.sizeRead, State.longRead]
@[simp] theorem sizeRead_irc (s : State) (x : Long) (size : Size) : (s.sizeRead x size).irc = s.irc := by
  cases size <;> simp [State.sizeRead, State.longRead]
@[simp] theorem sizeRead_ird (s : State) (x : Long) (size : Size) : (s.sizeRead x size).ird = s.ird := by
  cases size <;> simp [State.sizeRead, State.longRead]
@[simp] theorem sizeRead_pc0 (s : State) (x : Long) (size : Size) : (s.sizeRead x size).pc0 = s.pc0 := by
  cases size <;> simp [State.sizeRead, State.longRead]

@[simp] theorem sizeWritten_pipeline (s : State) (x v : Long) (size : Size) :
    (s.sizeWritten x v size).pc = s.pc ∧ (s.sizeWritten x v size).pc0 = s.pc0 ∧ (s.sizeWritten x v size).ird = s.ird ∧
    (s.sizeWritten x v size).irc = s.irc ∧ (s.sizeWritten x v size).hostReads = s.hostReads := by
  cases size <;> simp [State.sizeWritten, State.byteWritten, State.wordWritten, State.longWritten]

@[simp] theorem extTaken_pc (s : State) : s.extTaken.pc = s.pc + 2 := by simp [State.extTaken]
@[simp] theorem extTaken_irc (s : State) : s.extTaken.irc = s.answer16 (s.phys (s.pc + 2)) := by simp [State.extTaken]
@[simp] theorem extTaken_ird (s : State) : s.extTaken.ird = s.ird := by simp [State.extTaken]
@[simp] theorem extTaken_pc0 (s : State) : s.extTaken.pc0 = s.pc0 := by simp [State.extTaken]

theorem immTaken_pc (s : State) (size : Size) (h : isEven s.pc = true) : isEven (s.immTaken size).pc = true := by
  cases size <;> simp [State.immTaken, h]

theorem prefetched_pipeline (s : State) : Prefetched s s.prefetched := by
  constructor <;> simp [State.prefetched]

theorem refilled_pipeline (s : State) : Refilled s s.refilled := by
  constructor <;> simp [State.refilled, State.prefetched]

end Sys2Proof.Machine
end

