-- ==== Sys2Proof/Laws/Steps.lean ====
section
/-! SUPPORT. What every run of an action does, said once: `Steps R E m` says that a run of `m` that completes relates its start to
its end by `R`, and one that aborts by `E` of the abort. The sequencing lemmas are here, and `Closed`: the relations that every
operand access keeps. -/

namespace Sys2Proof.Machine

variable {α β : Type} {R : State → State → Prop} {E : Abort → State → State → Prop}

/-- Every run that completes is in `R`, every run that aborts in `E`. -/
def Steps (R : State → State → Prop) (E : Abort → State → State → Prop) (m : M α) : Prop :=
  ∀ s, match m s with | .ok _ t => R s t | .error e t => E e s t

theorem Steps.ok {m : M α} (h : Steps R E m) {s t : State} {a : α} (e : m s = .ok a t) : R s t := by
  have := h s; rw [e] at this; exact this

theorem Steps.error {m : M α} (h : Steps R E m) {s t : State} {x : Abort} (e : m s = .error x t) : E x s t := by
  have := h s; rw [e] at this; exact this

/-- `R` holds of no change and of two changes in a row, and of a change before an abort in `E`; a refusal of a reserved index word
at once is in `E`. -/
structure Chain (R : State → State → Prop) (E : Abort → State → State → Prop) : Prop where
  refl : ∀ s, R s s
  trans : ∀ s t u, R s t → R t u → R s u
  before : ∀ e s t u, R s t → E e t u → E e s u
  reserved : ∀ s, E (.refuse .reservedIndexWord) s s
  misaligned : ∀ x d sp s, E (.addressError x d sp) s s

theorem Steps.bind (hR : Chain R E) {m : M α} {k : α → M β} (hm : Steps R E m) (hk : ∀ a, Steps R E (k a)) :
    Steps R E (m >>= k) := by
  intro s
  rw [bind_run]
  have h1 := hm s
  cases hx : m s with
  | ok a t =>
    rw [hx] at h1
    have h2 := hk a t
    dsimp only
    cases hy : k a t with
    | ok b u => rw [hy] at h2; exact hR.trans _ _ _ h1 h2
    | error e u => rw [hy] at h2; exact hR.before _ _ _ _ h1 h2
  | error e t => rw [hx] at h1; exact h1

/-- The second action may count on what the first one answered. -/
theorem Steps.bindOk (hR : Chain R E) {m : M α} {k : α → M β} (hm : Steps R E m)
    (hk : ∀ s a t, m s = .ok a t → Steps R E (k a)) : Steps R E (m >>= k) := by
  intro s
  rw [bind_run]
  have h1 := hm s
  cases hx : m s with
  | ok a t =>
    rw [hx] at h1
    have h2 := hk s a t hx t
    dsimp only
    cases hy : k a t with
    | ok b u => rw [hy] at h2; exact hR.trans _ _ _ h1 h2
    | error e u => rw [hy] at h2; exact hR.before _ _ _ _ h1 h2
  | error e t => rw [hx] at h1; exact h1

theorem Steps.pure (hR : Chain R E) (a : α) : Steps R E (pure a : M α) := hR.refl

theorem Steps.look (hR : Chain R E) (f : State → α) : Steps R E (look f) := hR.refl

theorem Steps.reserved (hR : Chain R E) : Steps R E (refuseWith .reservedIndexWord : M α) := hR.reserved

theorem Steps.assign {f : State → State} (h : ∀ s, R s (f s)) : Steps R E (assign f) := h

/-- A weaker relation. -/
theorem Steps.mono {R' : State → State → Prop} {E' : Abort → State → State → Prop} {m : M α} (h : Steps R E m)
    (hR : ∀ s t, R s t → R' s t) (hE : ∀ e s t, E e s t → E' e s t) : Steps R' E' m := by
  intro s
  have := h s
  cases hm : m s with
  | ok a t => rw [hm] at this; exact hR _ _ this
  | error e t => rw [hm] at this; exact hE _ _ _ this

/-- A relation that every operand access keeps: the bus, the operand registers and the flags may change, the extension words be
consumed; the mode, the pc otherwise, and the run state may not. -/
structure Closed (R : State → State → Prop) (E : Abort → State → State → Prop) : Prop extends Chain R E where
  tick : ∀ s n, R s (s.tick n)
  record : ∀ s c, R s (s.record c)
  answered : ∀ s c, R s (s.answered c)
  writeD : ∀ s r v, R s (s.writeD r v)
  writeA : ∀ s r v, R s (s.writeA r v)
  withCcr : ∀ s c, R s (s.withCcr c)
  storeByte : ∀ s x v, R s (s.setMem (s.mem.writeByte (s.phys x) v))
  storeWord : ∀ s x v, isEven x = true → R s (s.setMem (s.mem.writeWord (s.phys x) v))
  ext : Steps R E readExt

namespace Closed

theorem byteRead (h : Closed R E) (s : State) (x : Long) : R s (s.byteRead x) :=
  h.trans _ _ _ (h.tick _ _) (h.trans _ _ _ (h.answered _ _) (h.tick _ _))

theorem wordRead (h : Closed R E) (s : State) (x : Long) : R s (s.wordRead x) :=
  h.trans _ _ _ (h.tick _ _) (h.trans _ _ _ (h.answered _ _) (h.tick _ _))

theorem longRead (h : Closed R E) (s : State) (x : Long) : R s (s.longRead x) :=
  h.trans _ _ _ (h.wordRead _ _) (h.wordRead _ _)

theorem sizeRead (h : Closed R E) (s : State) (x : Long) (size : Size) : R s (s.sizeRead x size) := by
  cases size
  · exact h.byteRead s x
  · exact h.wordRead s x
  · exact h.longRead s x

theorem byteWritten (h : Closed R E) (s : State) (x : Long) (v : Byte) : R s (s.byteWritten x v) := by
  refine h.trans _ _ _ (h.tick s cBusSetup) (h.trans _ _ _ (h.storeByte _ x v) (h.trans _ _ _ (h.record _ _) (h.tick _ _)))

theorem wordWritten (h : Closed R E) (s : State) (x : Long) (hx : isEven x = true) (v : Word) : R s (s.wordWritten x v) := by
  refine h.trans _ _ _ (h.tick s cBusSetup) (h.trans _ _ _ (h.storeWord _ x v hx) (h.trans _ _ _ (h.record _ _) (h.tick _ _)))

theorem longWritten (h : Closed R E) (s : State) (x : Long) (hx : isEven x = true) (v : Long) : R s (s.longWritten x v) :=
  h.trans _ _ _ (h.wordWritten _ _ hx _) (h.wordWritten _ _ (by simpa using hx) _)

theorem sizeWritten (h : Closed R E) (s : State) (x v : Long) (size : Size) (hx : alignedFor size x = true) :
    R s (s.sizeWritten x v size) := by
  cases size
  · exact h.byteWritten s x _
  · exact h.wordWritten s x (by simpa [alignedFor] using hx) _
  · exact h.longWritten s x (by simpa [alignedFor] using hx) _

theorem writeDPart (h : Closed R E) (s : State) (r : RegNum) (size : Size) (v : Long) : R s (s.writeDPart r size v) :=
  h.writeD _ _ _

theorem charge (h : Closed R E) (n : Nat) : Steps R E (charge n) := fun s => h.tick s n

theorem chargeOp (h : Closed R E) (k : CostKey) : Steps R E (chargeOp k) := fun s => h.tick s _

theorem notify (h : Closed R E) (e : Event) : Steps R E (notify e) := fun s => h.record s _

theorem memRead (h : Closed R E) (space : Space) (x : Long) (size : Size) : Steps R E (memRead space x size) := by
  intro s
  cases hx : alignedFor size x
  · rw [memRead_odd hx]; exact h.misaligned _ _ _ _
  · rw [memRead_run hx]; exact h.sizeRead s x size

theorem memWrite (h : Closed R E) (x v : Long) (size : Size) : Steps R E (memWrite x v size) := by
  intro s
  cases hx : alignedFor size x
  · rw [memWrite_odd hx]; exact h.misaligned _ _ _ _
  · rw [memWrite_run hx]; exact h.sizeWritten s x v size hx

theorem busRead16 (h : Closed R E) (space : Space) (x : Long) : Steps R E (busRead16 space x) := by
  intro s
  cases hx : isEven x
  · rw [busRead16_odd hx]; exact h.misaligned _ _ _ _
  · rw [busRead16_run hx]; exact h.wordRead s x

theorem busRead32 (h : Closed R E) (space : Space) (x : Long) : Steps R E (busRead32 space x) := by
  intro s
  cases hx : isEven x
  · rw [busRead32_odd hx]; exact h.misaligned _ _ _ _
  · rw [busRead32_run hx]; exact h.longRead s x

theorem push32 (h : Closed R E) (v : Long) : Steps R E (push32 v) := by
  intro s
  cases hx : isEven s.sp
  · rw [push32_odd hx]; exact h.before _ _ _ _ (h.writeA _ _ _) (h.misaligned _ _ _ _)
  · rw [push32_run hx]
    exact h.trans _ _ _ (h.writeA _ _ _) (h.longWritten _ _ (by simpa using hx) _)

theorem push16 (h : Closed R E) (v : Word) : Steps R E (push16 v) := by
  intro s
  cases hx : isEven s.sp
  · rw [push16_odd hx]; exact h.before _ _ _ _ (h.writeA _ _ _) (h.misaligned _ _ _ _)
  · rw [push16_run hx]
    exact h.trans _ _ _ (h.writeA _ _ _) (h.wordWritten _ _ (by simpa using hx) _)

theorem pop32 (h : Closed R E) : Steps R E pop32 := by
  intro s
  cases hx : isEven s.sp
  · rw [pop32_odd hx]; exact h.misaligned _ _ _ _
  · rw [pop32_run hx]; exact h.trans _ _ _ (h.longRead _ _) (h.writeA _ _ _)

end Closed

end Sys2Proof.Machine
end

