-- ==== Sys2Proof/Laws/Operands.lean ====
section
/-! SUPPORT. The spec lemmas of the resolver (R140 to R162): what consuming extension words changes, the address of every mode,
and what an operand access does when the operand is ready. -/

namespace Sys2Proof.Machine

variable {α β : Type}

/-! ### Actions that only fetch and read -/

/-- Only the pipeline, the clock and the host's side moved: the instruction register and `pc0` are as they were and `pc` is as
even as it was. -/
structure Fetched (s t : State) : Prop where
  core : SameCore s t
  ird : t.ird = s.ird
  pc0 : t.pc0 = s.pc0
  even : isEven t.pc = isEven s.pc

namespace Fetched
theorem refl (s : State) : Fetched s s := ⟨SameCore.refl s, rfl, rfl, rfl⟩
theorem trans {s t u : State} (h : Fetched s t) (k : Fetched t u) : Fetched s u :=
  ⟨h.core.trans k.core, k.ird.trans h.ird, k.pc0.trans h.pc0, k.even.trans h.even⟩
theorem extTaken (s : State) : Fetched s s.extTaken :=
  ⟨SameCore.extTaken s, by simp, by simp, by simp⟩
theorem immTaken (s : State) (size : Size) : Fetched s (s.immTaken size) := by
  cases size
  · exact extTaken s
  · exact extTaken s
  · exact (extTaken s).trans (extTaken _)
theorem sizeRead (s : State) (x : Long) (size : Size) : Fetched s (s.sizeRead x size) :=
  ⟨SameCore.sizeRead s x size, by simp, by simp, by simp⟩
theorem longRead (s : State) (x : Long) : Fetched s (s.longRead x) := sizeRead s x .l
theorem tick (s : State) (n : Nat) : Fetched s (s.tick n) := ⟨SameCore.tick s n, by simp, by simp, by simp⟩
end Fetched

theorem Fetched.chain : Chain Fetched (fun _ => Fetched) :=
  ⟨Fetched.refl, fun _ _ _ => Fetched.trans, fun _ _ _ _ => Fetched.trans, Fetched.refl, fun _ _ _ => Fetched.refl⟩

theorem readExt_fetches : Steps Fetched (fun _ => Fetched) readExt := by
  intro s
  by_cases h : isEven s.pc = true
  · rw [readExt_run h]; exact Fetched.extTaken s
  · rw [readExt_odd (by simpa using h)]
    exact ⟨SameCore.setPc s _, by simp, by simp, by simp⟩

theorem busRead32_fetches (space : Space) (x : Long) : Steps Fetched (fun _ => Fetched) (busRead32 space x) := by
  intro s
  by_cases h : isEven x = true
  · rw [busRead32_run h]; exact Fetched.longRead s x
  · rw [busRead32_odd (by simpa using h)]; exact Fetched.refl s

theorem readImm_fetches (size : Size) : Steps Fetched (fun _ => Fetched) (readImm size) := by
  cases size with
  | b => exact Steps.bind Fetched.chain readExt_fetches fun _ => Steps.pure Fetched.chain _
  | w => exact Steps.bind Fetched.chain readExt_fetches fun _ => Steps.pure Fetched.chain _
  | l =>
    exact Steps.bind Fetched.chain readExt_fetches fun _ =>
      Steps.bind Fetched.chain readExt_fetches fun _ => Steps.pure Fetched.chain _

theorem readDisp_fetches (k : DispSize) : Steps Fetched (fun _ => Fetched) (readDisp k) := by
  cases k with
  | none => exact Steps.pure Fetched.chain _
  | word => exact Steps.bind Fetched.chain readExt_fetches fun _ => Steps.pure Fetched.chain _
  | long =>
    exact Steps.bind Fetched.chain readExt_fetches fun _ =>
      Steps.bind Fetched.chain readExt_fetches fun _ => Steps.pure Fetched.chain _

theorem fullIndexEa_fetches (base idx : Long) (space : Space) (bs is : Bool) (bd : DispSize) (ind : Indirection) :
    Steps Fetched (fun _ => Fetched) (fullIndexEa base idx space bs is bd ind) := by
  unfold fullIndexEa
  refine Steps.bind Fetched.chain (readDisp_fetches bd) fun bdv => ?_
  cases ind with
  | none => exact Steps.pure Fetched.chain _
  | preIndexed od =>
    exact Steps.bind Fetched.chain (readDisp_fetches od) fun _ =>
      Steps.bind Fetched.chain (busRead32_fetches space _) fun _ => Steps.pure Fetched.chain _
  | postIndexed od =>
    exact Steps.bind Fetched.chain (readDisp_fetches od) fun _ =>
      Steps.bind Fetched.chain (busRead32_fetches space _) fun _ => Steps.pure Fetched.chain _
  | noIndex od =>
    exact Steps.bind Fetched.chain (readDisp_fetches od) fun _ =>
      Steps.bind Fetched.chain (busRead32_fetches space _) fun _ => Steps.pure Fetched.chain _

theorem indexEaOf_fetches (w : Option IndexWord) (base : Long) (space : Space) : Steps Fetched (fun _ => Fetched) (indexEaOf w base space) := by
  match w with
  | none => exact Steps.reserved Fetched.chain
  | some (.brief x d8) => exact Steps.look Fetched.chain _
  | some (.full x bs is bd ind) =>
    exact Steps.bind Fetched.chain (Steps.look Fetched.chain _) fun _ => fullIndexEa_fetches _ _ _ _ _ _ _

theorem indexEa_fetches (base : Long) (space : Space) : Steps Fetched (fun _ => Fetched) (indexEa base space) := by
  unfold indexEa
  refine Steps.bind Fetched.chain readExt_fetches fun w => Steps.bind Fetched.chain (Steps.look Fetched.chain _) fun n =>
    Steps.bind Fetched.chain (fun s => Fetched.tick s n) fun _ => indexEaOf_fetches _ _ _

/-! ### Immediates and index words -/

theorem readImm_run {s : State} (h : isEven s.pc = true) (size : Size) :
    readImm size s = .ok (s.immNext size) (s.immTaken size) := by
  cases size with
  | b => simp only [readImm]; rw [bind_ok (readExt_run h)]; rfl
  | w => simp only [readImm]; rw [bind_ok (readExt_run h)]; rfl
  | l =>
    have h2 : isEven s.extTaken.pc = true := by simpa using h
    simp only [readImm]
    rw [bind_ok (readExt_run h), bind_ok (readExt_run h2)]
    rfl

/-- The address of a brief-form index word (R151, R152). -/
theorem indexEa_brief {s : State} (h : isEven s.pc = true) {x : IndexReg} {d8 : Byte}
    (hw : decodeIndexWord s.irc = some (.brief x d8)) (base : Long) (space : Space) :
    indexEa base space s = .ok (base + s.scaledIndex x + sext8 d8) (s.extTaken.tick s.cfg.cIdx) := by
  unfold indexEa
  rw [bind_ok (readExt_run h), look_bind_run, charge_bind_run, hw]
  have hx : (s.extTaken.tick s.extTaken.cfg.cIdx).scaledIndex x = s.scaledIndex x :=
    ((SameCore.extTaken s).trans (SameCore.tick _ _)).scaledIndex x
  rw [← hx, (SameCore.extTaken s).cfg]
  rfl

/-- A full-form index word goes on with its displacements (R153). -/
theorem indexEa_full {s : State} (h : isEven s.pc = true) {x : IndexReg} {bs is : Bool} {bd : DispSize} {ind : Indirection}
    (hw : decodeIndexWord s.irc = some (.full x bs is bd ind)) (base : Long) (space : Space) :
    indexEa base space s = fullIndexEa base (s.scaledIndex x) space bs is bd ind (s.extTaken.tick s.cfg.cIdx) := by
  unfold indexEa
  rw [bind_ok (readExt_run h), look_bind_run, charge_bind_run, hw]
  have hx : (s.extTaken.tick s.extTaken.cfg.cIdx).scaledIndex x = s.scaledIndex x :=
    ((SameCore.extTaken s).trans (SameCore.tick _ _)).scaledIndex x
  rw [← hx, (SameCore.extTaken s).cfg]
  rfl

/-- A reserved index word is refused (R154). -/
theorem indexEa_reserved {s : State} (h : isEven s.pc = true) (hw : decodeIndexWord s.irc = none) (base : Long)
    (space : Space) : indexEa base space s = .error (.refuse .reservedIndexWord) (s.extTaken.tick s.cfg.cIdx) := by
  unfold indexEa
  rw [bind_ok (readExt_run h), look_bind_run, charge_bind_run, hw, (SameCore.extTaken s).cfg]
  rfl

/-! ### Resolving (R141) -/

/-- A pre-decrement is made by resolving; a post-increment is not (R141, R145). -/
def State.preAdjusted (s : State) (ea : Ea) (size : Size) : State :=
  match ea with
  | .preDec r => s.writeA r (s.readA r - inc r size)
  | _ => s

/-- What a mode resolves to, by kind: a register, an immediate, or an aligned memory address. -/
def LocFits (ea : Ea) (size : Size) (loc : Loc) : Prop :=
  match ea with
  | .dn r => loc = .dreg r
  | .an r => loc = .areg r
  | .imm => ∃ v, loc = .imm v
  | _ => ∃ x sp, loc = .mem x sp ∧ alignedFor size x = true

/-- Resolving a ready operand completes: its location fits the mode, and only its pre-decrement and the pipeline moved. -/
theorem resolve_ready {ea : Ea} {size : Size} {s : State} (h : OperandReady ea size s) :
    ∃ loc u, resolve ea size s = .ok loc u ∧ Fetched (s.preAdjusted ea size) u ∧ LocFits ea size loc := by
  cases ea with
  | dn r => exact ⟨_, _, rfl, Fetched.refl s, rfl⟩
  | an r => exact ⟨_, _, rfl, Fetched.refl s, rfl⟩
  | ind r => exact ⟨_, _, rfl, Fetched.refl s, ⟨_, _, rfl, h⟩⟩
  | postInc r => exact ⟨_, _, rfl, Fetched.refl s, ⟨_, _, rfl, h⟩⟩
  | preDec r =>
    refine ⟨.mem (s.readA r - inc r size) .data, ((s.tick cAdj).writeA r (s.readA r - inc r size)), ?_, ?_, ⟨_, _, rfl, h⟩⟩
    · simp only [resolve]
      rw [charge_bind_run, assign_bind_run, look_bind_run]
      simp only [readA_writeA_same, tick_fields, pure_run]
    · exact ⟨(SameCore.tick s cAdj).writeA r _, by simp [State.preAdjusted], by simp [State.preAdjusted],
        by simp [State.preAdjusted]⟩
  | disp r =>
    refine ⟨.mem (s.readA r + sext16 s.irc) .data, s.extTaken, ?_, Fetched.extTaken s, ⟨_, _, rfl, h.2⟩⟩
    simp only [resolve]
    rw [bind_ok (readExt_run h.1), look_bind_run, (SameCore.extTaken s).readA, pure_run]
  | index r =>
    obtain ⟨x, u, hu, hx⟩ := h
    refine ⟨.mem x .data, u, ?_, (indexEa_fetches _ _).ok hu, ⟨_, _, rfl, hx⟩⟩
    simp only [resolve]
    rw [look_bind_run, bind_ok hu, pure_run]
  | absW =>
    refine ⟨.mem (sext16 s.irc) .data, s.extTaken, ?_, Fetched.extTaken s, ⟨_, _, rfl, h.2⟩⟩
    simp only [resolve]
    rw [bind_ok (readExt_run h.1), pure_run]
  | absL =>
    refine ⟨.mem (longOf s.irc s.extTaken.irc) .data, s.extTaken.extTaken, ?_,
      (Fetched.extTaken s).trans (Fetched.extTaken _), ⟨_, _, rfl, h.2⟩⟩
    have h2 : isEven s.extTaken.pc = true := by simpa using h.1
    simp only [resolve]
    rw [bind_ok (readExt_run h.1), bind_ok (readExt_run h2), pure_run]
  | pcDisp =>
    refine ⟨.mem (s.pc + sext16 s.irc) .prog, s.extTaken, ?_, Fetched.extTaken s, ⟨_, _, rfl, h.2⟩⟩
    simp only [resolve]
    rw [look_bind_run, bind_ok (readExt_run h.1), pure_run]
  | pcIndex =>
    obtain ⟨x, u, hu, hx⟩ := h
    refine ⟨.mem x .prog, u, ?_, (indexEa_fetches _ _).ok hu, ⟨_, _, rfl, hx⟩⟩
    simp only [resolve]
    rw [look_bind_run, bind_ok hu, pure_run]
  | imm =>
    refine ⟨.imm (s.immNext size), s.immTaken size, ?_, Fetched.immTaken s size, ⟨_, rfl⟩⟩
    simp only [resolve]
    rw [bind_ok (readImm_run h size), pure_run]

/-! ### Reading and writing a location (R142) -/

/-- The value a location holds (R142). -/
def State.locValue (s : State) (loc : Loc) (size : Size) : Long :=
  match loc with
  | .dreg r => trunc size (s.readD r)
  | .areg r => trunc size (s.readA r)
  | .mem x _ => s.answerSize x size
  | .imm v => v

/-- The state after it was read. -/
def State.locRead (s : State) (loc : Loc) (size : Size) : State :=
  match loc with
  | .mem x _ => s.sizeRead x size
  | _ => s

theorem LocFits.aligned {ea : Ea} {size : Size} {loc : Loc} (h : LocFits ea size loc) :
    ∀ x sp, loc = .mem x sp → alignedFor size x = true := by
  intro x sp e
  subst e
  cases ea <;> simp_all [LocFits]

theorem readLoc_run {ea : Ea} {size : Size} {loc : Loc} (h : LocFits ea size loc) (s : State) :
    readLoc loc size s = .ok (s.locValue loc size) (s.locRead loc size) := by
  cases loc with
  | dreg r => rfl
  | areg r => rfl
  | mem x sp => exact memRead_run (h.aligned x sp rfl) sp s
  | imm v => rfl

/-- A location of an alterable mode can be written (R94, R142). -/
theorem writeLoc_run {ea : Ea} {size : Size} {loc : Loc} (h : LocFits ea size loc) (ha : ea.isAlterable = true) (v : Long)
    (s : State) : writeLoc loc size v s = .ok () (s.locWritten loc size v) := by
  cases loc with
  | dreg r => rfl
  | areg r => rfl
  | mem x sp => exact memWrite_run (h.aligned x sp rfl) v s
  | imm v => cases ea <;> simp_all [LocFits, Ea.isAlterable]

theorem locRead_fetched (s : State) (loc : Loc) (size : Size) : Fetched s (s.locRead loc size) := by
  cases loc with
  | mem x sp => exact Fetched.sizeRead s x size
  | _ => exact Fetched.refl s

theorem locWritten_core (s : State) (loc : Loc) (size : Size) (v : Long) :
    SameCore (s.stored loc size v) (s.locWritten loc size v) := by
  cases loc with
  | mem x sp => exact sizeWritten_core s x v size sp
  | _ => exact SameCore.refl _

@[simp] theorem locWritten_pipeline (s : State) (loc : Loc) (size : Size) (v : Long) :
    (s.locWritten loc size v).pc = s.pc ∧ (s.locWritten loc size v).pc0 = s.pc0 ∧
    (s.locWritten loc size v).ird = s.ird ∧ (s.locWritten loc size v).irc = s.irc := by
  cases loc <;> simp [State.locWritten]

/-! ### Operands (R140, R145) -/

theorem postAdjust_run (ea : Ea) (size : Size) (s : State) : postAdjust ea size s = .ok () (s.postAdjusted ea size) := by
  cases ea <;> rfl

theorem postAdjusted_core {s u : State} {ea : Ea} {size : Size} (h : SameCore (s.preAdjusted ea size) u) :
    SameCore (s.adjusted ea size) (u.postAdjusted ea size) := by
  cases ea with
  | postInc r =>
    have h' : SameCore s u := h
    simp only [State.adjusted, State.postAdjusted, h'.readA]
    exact (h'.writeA r _).trans (SameCore.tick _ _)
  | _ => exact h

@[simp] theorem postAdjusted_pipeline (s : State) (ea : Ea) (size : Size) :
    (s.postAdjusted ea size).pc = s.pc ∧ (s.postAdjusted ea size).pc0 = s.pc0 ∧
    (s.postAdjusted ea size).ird = s.ird ∧ (s.postAdjusted ea size).irc = s.irc := by
  cases ea <;> simp [State.postAdjusted]

/-- `ReadOp` of a ready operand completes: the adjustment of its mode is the only change to the core; the location fits the mode
and holds the value read; only the pipeline, the clock and the host's side moved otherwise. -/
theorem readOp_ready {ea : Ea} {size : Size} {s : State} (h : OperandReady ea size s) :
    ∃ v loc u, readOp ea size s = .ok (v, loc) u ∧ SameCore (s.adjusted ea size) u ∧ LocFits ea size loc ∧
      u.ird = s.ird ∧ u.pc0 = s.pc0 ∧ isEven u.pc = isEven s.pc := by
  obtain ⟨loc, u, hr, hf, hl⟩ := resolve_ready h
  refine ⟨u.locValue loc size, loc, (u.locRead loc size).postAdjusted ea size, ?_,
    postAdjusted_core (hf.core.trans (locRead_fetched u loc size).core), hl, ?_, ?_, ?_⟩
  · unfold readOp
    rw [bind_ok hr, bind_ok (readLoc_run hl u), bind_ok (postAdjust_run ea size _), pure_run]
  · have := (hf.trans (locRead_fetched u loc size)).ird
    rw [(postAdjusted_pipeline _ ea size).2.2.1, this]
    cases ea <;> simp [State.preAdjusted]
  · have := (hf.trans (locRead_fetched u loc size)).pc0
    rw [(postAdjusted_pipeline _ ea size).2.1, this]
    cases ea <;> simp [State.preAdjusted]
  · have := (hf.trans (locRead_fetched u loc size)).even
    rw [(postAdjusted_pipeline _ ea size).1, this]
    cases ea <;> simp [State.preAdjusted]

/-- `WriteOp` to a ready alterable operand completes: the store and the adjustment of its mode are the only changes to the
core (R140, R145). -/
theorem writeOp_ready {ea : Ea} {size : Size} {s : State} (h : OperandReady ea size s) (ha : ea.isAlterable = true) (v : Long) :
    ∃ loc u w, resolve ea size s = .ok loc u ∧ writeOp ea size v s = .ok () w ∧ LocFits ea size loc ∧
      SameCore ((s.adjusted ea size).stored loc size v) w ∧ w.ird = s.ird ∧ w.pc0 = s.pc0 ∧ isEven w.pc = isEven s.pc := by
  obtain ⟨loc, u, hr, hf, hl⟩ := resolve_ready h
  refine ⟨loc, u, (u.locWritten loc size v).postAdjusted ea size, hr, ?_, hl, ?_, ?_, ?_, ?_⟩
  · unfold writeOp
    rw [bind_ok hr, bind_ok (writeLoc_run hl ha v u), postAdjust_run]
  · have h1 := (hf.core.stored loc size v).trans (locWritten_core u loc size v)
    cases ea with
    | postInc r =>
      obtain ⟨x, sp, rfl, -⟩ := hl
      have h2 : SameCore (s.setMem (s.storedMem x size v)) (u.sizeWritten x v size) := h1
      simp only [State.adjusted, State.postAdjusted, State.locWritten, State.stored]
      rw [h2.readA, show (s.setMem (s.storedMem x size v)).readA r = s.readA r by simp]
      have h3 := (h2.writeA r (s.readA r + inc r size)).trans (SameCore.tick _ cAdj)
      have h4 : (s.writeA r (s.readA r + inc r size)).storedMem x size v = s.storedMem x size v := by
        cases size <;> simp [State.storedMem]
      rw [h4]
      exact h3
    | preDec r => exact h1
    | _ => exact h1
  · rw [(postAdjusted_pipeline _ ea size).2.2.1, (locWritten_pipeline u loc size v).2.2.1, hf.ird]
    cases ea <;> simp [State.preAdjusted]
  · rw [(postAdjusted_pipeline _ ea size).2.1, (locWritten_pipeline u loc size v).2.1, hf.pc0]
    cases ea <;> simp [State.preAdjusted]
  · rw [(postAdjusted_pipeline _ ea size).1, (locWritten_pipeline u loc size v).1, hf.even]
    cases ea <;> simp [State.preAdjusted]

/-- `ControlEA` of an operand whose address can be formed completes and makes no access there (R140). -/
theorem controlEa_ready {ea : Ea} {s : State} (h : AddressReady ea s) :
    ∃ x u, controlEa ea s = .ok x u ∧ Fetched s u := by
  have key : ∃ x sp u, resolve ea .l s = .ok (.mem x sp) u ∧ Fetched s u := by
    cases ea with
    | ind r => exact ⟨_, _, _, rfl, Fetched.refl s⟩
    | disp r =>
      refine ⟨s.readA r + sext16 s.irc, .data, s.extTaken, ?_, Fetched.extTaken s⟩
      simp only [resolve]
      rw [bind_ok (readExt_run h), look_bind_run, (SameCore.extTaken s).readA, pure_run]
    | index r =>
      obtain ⟨x, u, hu⟩ := h
      refine ⟨x, .data, u, ?_, (indexEa_fetches _ _).ok hu⟩
      simp only [resolve]
      rw [look_bind_run, bind_ok hu, pure_run]
    | absW =>
      refine ⟨sext16 s.irc, .data, s.extTaken, ?_, Fetched.extTaken s⟩
      simp only [resolve]
      rw [bind_ok (readExt_run h), pure_run]
    | absL =>
      refine ⟨longOf s.irc s.extTaken.irc, .data, s.extTaken.extTaken, ?_, (Fetched.extTaken s).trans (Fetched.extTaken _)⟩
      have h2 : isEven s.extTaken.pc = true := by simpa [AddressReady] using h
      simp only [resolve]
      rw [bind_ok (readExt_run h), bind_ok (readExt_run h2), pure_run]
    | pcDisp =>
      refine ⟨s.pc + sext16 s.irc, .prog, s.extTaken, ?_, Fetched.extTaken s⟩
      simp only [resolve]
      rw [look_bind_run, bind_ok (readExt_run h), pure_run]
    | pcIndex =>
      obtain ⟨x, u, hu⟩ := h
      refine ⟨x, .prog, u, ?_, (indexEa_fetches _ _).ok hu⟩
      simp only [resolve]
      rw [look_bind_run, bind_ok hu, pure_run]
    | _ => exact absurd h (by simp [AddressReady])
  obtain ⟨x, sp, u, hr, hf⟩ := key
  exact ⟨x, u, by unfold controlEa; rw [bind_ok hr]; rfl, hf⟩

/-! ### What every run of the resolver does, ready operand or not -/

/-- What kind of location a mode resolves to (R141). -/
def Loc.isOf (loc : Loc) (ea : Ea) : Prop :=
  match ea with
  | .dn r => loc = .dreg r
  | .an r => loc = .areg r
  | .imm => ∃ v, loc = .imm v
  | _ => ∃ x sp, loc = .mem x sp

theorem resolve_isOf {ea : Ea} {size : Size} {s t : State} {loc : Loc} (h : resolve ea size s = .ok loc t) : loc.isOf ea := by
  cases ea with
  | dn r => cases h; rfl
  | an r => cases h; rfl
  | ind r => cases h; exact ⟨_, _, rfl⟩
  | postInc r => cases h; exact ⟨_, _, rfl⟩
  | preDec r => cases h; exact ⟨_, _, rfl⟩
  | disp r =>
    obtain ⟨_, _, -, h⟩ := bind_eq_ok h; cases h; exact ⟨_, _, rfl⟩
  | index r =>
    obtain ⟨_, _, -, h⟩ := bind_eq_ok h
    obtain ⟨_, _, -, h⟩ := bind_eq_ok h; cases h; exact ⟨_, _, rfl⟩
  | absW => obtain ⟨_, _, -, h⟩ := bind_eq_ok h; cases h; exact ⟨_, _, rfl⟩
  | absL =>
    obtain ⟨_, _, -, h⟩ := bind_eq_ok h
    obtain ⟨_, _, -, h⟩ := bind_eq_ok h; cases h; exact ⟨_, _, rfl⟩
  | pcDisp =>
    obtain ⟨_, _, -, h⟩ := bind_eq_ok h
    obtain ⟨_, _, -, h⟩ := bind_eq_ok h; cases h; exact ⟨_, _, rfl⟩
  | pcIndex =>
    obtain ⟨_, _, -, h⟩ := bind_eq_ok h
    obtain ⟨_, _, -, h⟩ := bind_eq_ok h; cases h; exact ⟨_, _, rfl⟩
  | imm => obtain ⟨_, _, -, h⟩ := bind_eq_ok h; cases h; exact ⟨_, rfl⟩

theorem readOp_isOf {ea : Ea} {size : Size} {s t : State} {v : Long} {loc : Loc} (h : readOp ea size s = .ok (v, loc) t) :
    loc.isOf ea := by
  obtain ⟨loc', _, h1, h⟩ := bind_eq_ok h
  obtain ⟨_, _, -, h⟩ := bind_eq_ok h
  obtain ⟨_, _, -, h⟩ := bind_eq_ok h
  cases h
  exact resolve_isOf h1

namespace Closed

variable {R : State → State → Prop} {E : Abort → State → State → Prop}

theorem readImm (h : Closed R E) (size : Size) : Steps R E (readImm size) := by
  cases size with
  | b => exact Steps.bind h.toChain h.ext fun _ => Steps.pure h.toChain _
  | w => exact Steps.bind h.toChain h.ext fun _ => Steps.pure h.toChain _
  | l => exact Steps.bind h.toChain h.ext fun _ => Steps.bind h.toChain h.ext fun _ => Steps.pure h.toChain _

theorem readDisp (h : Closed R E) (k : DispSize) : Steps R E (readDisp k) := by
  cases k with
  | none => exact Steps.pure h.toChain _
  | word => exact Steps.bind h.toChain h.ext fun _ => Steps.pure h.toChain _
  | long => exact Steps.bind h.toChain h.ext fun _ => Steps.bind h.toChain h.ext fun _ => Steps.pure h.toChain _

theorem fullIndexEa (h : Closed R E) (base idx : Long) (space : Space) (bs is : Bool) (bd : DispSize) (ind : Indirection) :
    Steps R E (fullIndexEa base idx space bs is bd ind) := by
  unfold Machine.fullIndexEa
  refine Steps.bind h.toChain (h.readDisp bd) fun bdv => ?_
  cases ind with
  | none => exact Steps.pure h.toChain _
  | preIndexed od =>
    exact Steps.bind h.toChain (h.readDisp od) fun _ =>
      Steps.bind h.toChain (h.busRead32 space _) fun _ => Steps.pure h.toChain _
  | postIndexed od =>
    exact Steps.bind h.toChain (h.readDisp od) fun _ =>
      Steps.bind h.toChain (h.busRead32 space _) fun _ => Steps.pure h.toChain _
  | noIndex od =>
    exact Steps.bind h.toChain (h.readDisp od) fun _ =>
      Steps.bind h.toChain (h.busRead32 space _) fun _ => Steps.pure h.toChain _

theorem indexEaOf (h : Closed R E) (w : Option IndexWord) (base : Long) (space : Space) : Steps R E (indexEaOf w base space) := by
  match w with
  | none => exact Steps.reserved h.toChain
  | some (.brief x d8) => exact Steps.look h.toChain _
  | some (.full x bs is bd ind) =>
    exact Steps.bind h.toChain (Steps.look h.toChain _) fun _ => h.fullIndexEa _ _ _ _ _ _ _

theorem indexEa (h : Closed R E) (base : Long) (space : Space) : Steps R E (indexEa base space) := by
  unfold Machine.indexEa
  exact Steps.bind h.toChain h.ext fun _ => Steps.bind h.toChain (Steps.look h.toChain _) fun n =>
    Steps.bind h.toChain (h.charge n) fun _ => h.indexEaOf _ _ _

theorem resolve (h : Closed R E) (ea : Ea) (size : Size) : Steps R E (resolve ea size) := by
  have hC := h.toChain
  cases ea with
  | dn r => exact Steps.pure hC _
  | an r => exact Steps.pure hC _
  | ind r => exact Steps.bind hC (Steps.look hC _) fun _ => Steps.pure hC _
  | postInc r => exact Steps.bind hC (Steps.look hC _) fun _ => Steps.pure hC _
  | preDec r =>
    exact Steps.bind hC (h.charge _) fun _ => Steps.bind hC (Steps.assign fun s => h.writeA s _ _) fun _ =>
      Steps.bind hC (Steps.look hC _) fun _ => Steps.pure hC _
  | disp r => exact Steps.bind hC h.ext fun _ => Steps.bind hC (Steps.look hC _) fun _ => Steps.pure hC _
  | index r => exact Steps.bind hC (Steps.look hC _) fun _ => Steps.bind hC (h.indexEa _ _) fun _ => Steps.pure hC _
  | absW => exact Steps.bind hC h.ext fun _ => Steps.pure hC _
  | absL => exact Steps.bind hC h.ext fun _ => Steps.bind hC h.ext fun _ => Steps.pure hC _
  | pcDisp => exact Steps.bind hC (Steps.look hC _) fun _ => Steps.bind hC h.ext fun _ => Steps.pure hC _
  | pcIndex => exact Steps.bind hC (Steps.look hC _) fun _ => Steps.bind hC (h.indexEa _ _) fun _ => Steps.pure hC _
  | imm => exact Steps.bind hC (h.readImm size) fun _ => Steps.pure hC _

theorem readLoc (h : Closed R E) (loc : Loc) (size : Size) : Steps R E (readLoc loc size) := by
  cases loc with
  | dreg r => exact Steps.look h.toChain _
  | areg r => exact Steps.look h.toChain _
  | mem x sp => exact h.memRead sp x size
  | imm v => exact Steps.pure h.toChain _

/-- A location of an alterable mode is no immediate, so writing it refuses nothing (R94, R142). -/
theorem writeLoc (h : Closed R E) {ea : Ea} {loc : Loc} (hl : loc.isOf ea) (ha : ea.isAlterable = true) (size : Size) (v : Long) :
    Steps R E (writeLoc loc size v) := by
  cases loc with
  | dreg r => exact Steps.assign fun s => h.writeD s _ _
  | areg r => exact Steps.assign fun s => h.writeA s _ _
  | mem x sp => exact h.memWrite x v size
  | imm v => cases ea <;> simp_all [Loc.isOf, Ea.isAlterable]

theorem postAdjust (h : Closed R E) (ea : Ea) (size : Size) : Steps R E (postAdjust ea size) := by
  cases ea with
  | postInc r => exact Steps.bind h.toChain (Steps.assign fun s => h.writeA s _ _) fun _ => h.charge _
  | _ => exact Steps.pure h.toChain _

theorem readOp (h : Closed R E) (ea : Ea) (size : Size) : Steps R E (readOp ea size) :=
  Steps.bind h.toChain (h.resolve ea size) fun _ => Steps.bind h.toChain (h.readLoc _ size) fun _ =>
    Steps.bind h.toChain (h.postAdjust ea size) fun _ => Steps.pure h.toChain _

theorem writeOp (h : Closed R E) (ea : Ea) (ha : ea.isAlterable = true) (size : Size) (v : Long) : Steps R E (writeOp ea size v) :=
  Steps.bindOk h.toChain (h.resolve ea size) fun _ _ _ hr =>
    Steps.bind h.toChain (h.writeLoc (resolve_isOf hr) ha size v) fun _ => h.postAdjust ea size

theorem controlEa (h : Closed R E) (ea : Ea) (ha : ea.isControl = true) : Steps R E (controlEa ea) := by
  refine Steps.bindOk h.toChain (h.resolve ea .l) fun s loc t hr => ?_
  have hl := resolve_isOf hr
  cases loc with
  | mem x sp => exact Steps.pure h.toChain _
  | _ => cases ea <;> simp_all [Loc.isOf, Ea.isControl]

theorem setFlags (h : Closed R E) (rule : FlagRule) (s dd r : Long) (size : Size) : Steps R E (setFlags rule s dd r size) :=
  Steps.assign fun st => h.withCcr st _

/-- `ReadOp`, then a use of what it answered. -/
theorem withOp (h : Closed R E) (ea : Ea) (size : Size) {k : Long × Loc → M β}
    (hk : ∀ v loc, loc.isOf ea → Steps R E (k (v, loc))) : Steps R E (Machine.readOp ea size >>= k) :=
  Steps.bindOk h.toChain (h.readOp ea size) fun _ a _ hr => hk a.1 a.2 (readOp_isOf hr)

theorem replaceOperand (h : Closed R E) (ea : Ea) (ha : ea.isAlterable = true) (size : Size) (v : Long) :
    Steps R E (replaceOperand ea size v) := by
  have key : Steps R E (Machine.readOp ea size >>= fun p => Machine.writeLoc p.2 size v) :=
    h.withOp ea size fun _ loc hl => h.writeLoc hl ha size v
  cases ea with
  | dn r => exact Steps.assign fun s => h.writeD s _ _
  | _ => exact key

end Closed

/-! ### What no operand read changes, completed or ended (R159) -/

/-- The status register and memory are as before. -/
structure OnlyReads (s t : State) : Prop where
  sr : t.sr = s.sr
  mem : t.mem = s.mem

namespace OnlyReads

theorem refl (s : State) : OnlyReads s s := ⟨rfl, rfl⟩

theorem trans {s t u : State} (h : OnlyReads s t) (k : OnlyReads t u) : OnlyReads s u := ⟨k.sr.trans h.sr, k.mem.trans h.mem⟩

theorem of_core {s t : State} (h : SameCore s t) : OnlyReads s t := ⟨h.sr, h.mem⟩

theorem chain : Chain OnlyReads (fun _ => OnlyReads) :=
  ⟨refl, fun _ _ _ => trans, fun _ _ _ _ => trans, refl, fun _ _ _ => refl⟩

theorem ofFetched {α : Type} {m : M α} (h : Steps Fetched (fun _ => Fetched) m) : Steps OnlyReads (fun _ => OnlyReads) m :=
  h.mono (fun _ _ k => of_core k.core) fun _ _ _ k => of_core k.core

theorem ext : Steps OnlyReads (fun _ => OnlyReads) readExt := ofFetched readExt_fetches

theorem resolve (ea : Ea) (size : Size) : Steps OnlyReads (fun _ => OnlyReads) (resolve ea size) := by
  cases ea with
  | dn r => exact Steps.pure chain _
  | an r => exact Steps.pure chain _
  | ind r => exact Steps.bind chain (Steps.look chain _) fun _ => Steps.pure chain _
  | postInc r => exact Steps.bind chain (Steps.look chain _) fun _ => Steps.pure chain _
  | preDec r =>
    exact Steps.bind chain (fun s => of_core (SameCore.tick s cAdj)) fun _ =>
      Steps.bind chain (Steps.assign fun s => (⟨rfl, rfl⟩ : OnlyReads s (s.writeA r (s.readA r - inc r size)))) fun _ =>
        Steps.bind chain (Steps.look chain _) fun _ => Steps.pure chain _
  | disp r => exact Steps.bind chain ext fun _ => Steps.bind chain (Steps.look chain _) fun _ => Steps.pure chain _
  | index r =>
    exact Steps.bind chain (Steps.look chain _) fun _ => Steps.bind chain (ofFetched (indexEa_fetches _ _)) fun _ => Steps.pure chain _
  | absW => exact Steps.bind chain ext fun _ => Steps.pure chain _
  | absL => exact Steps.bind chain ext fun _ => Steps.bind chain ext fun _ => Steps.pure chain _
  | pcDisp => exact Steps.bind chain (Steps.look chain _) fun _ => Steps.bind chain ext fun _ => Steps.pure chain _
  | pcIndex =>
    exact Steps.bind chain (Steps.look chain _) fun _ => Steps.bind chain (ofFetched (indexEa_fetches _ _)) fun _ => Steps.pure chain _
  | imm => exact Steps.bind chain (ofFetched (readImm_fetches size)) fun _ => Steps.pure chain _

theorem readLoc (loc : Loc) (size : Size) : Steps OnlyReads (fun _ => OnlyReads) (readLoc loc size) := by
  cases loc with
  | dreg r => exact Steps.look chain _
  | areg r => exact Steps.look chain _
  | imm v => exact Steps.pure chain _
  | mem x space =>
    intro s
    have e : Machine.readLoc (.mem x space) size s = memRead space x size s := rfl
    rw [e]
    cases hx : alignedFor size x
    · rw [memRead_odd hx]; exact refl s
    · rw [memRead_run hx]; exact of_core (Fetched.sizeRead s x size).core

theorem postAdjust (ea : Ea) (size : Size) : Steps OnlyReads (fun _ => OnlyReads) (postAdjust ea size) := by
  intro s
  rw [postAdjust_run]
  cases ea <;> exact ⟨rfl, rfl⟩

theorem readOp (ea : Ea) (size : Size) : Steps OnlyReads (fun _ => OnlyReads) (readOp ea size) :=
  Steps.bind chain (resolve ea size) fun loc => Steps.bind chain (readLoc loc size) fun _ =>
    Steps.bind chain (postAdjust ea size) fun _ => Steps.pure chain _

theorem controlEa (ea : Ea) : Steps OnlyReads (fun _ => OnlyReads) (controlEa ea) :=
  Steps.bind chain (resolve ea .l) fun loc => by
    cases loc with
    | mem x space => exact Steps.pure chain _
    | _ => exact refl

end OnlyReads

/-! ### Reads that end in an address error -/

theorem readImm_odd {s : State} (h : isEven s.pc = false) (size : Size) :
    readImm size s = .error (.addressError (s.pc + 2) .read .prog) (s.setPc (s.pc + 2)) := by
  cases size <;> exact bind_error (readExt_odd h)

/-- `CLR` and `MOVE SR,<ea>` end where the read of their operand does (R179, R215). -/
theorem replaceOperand_error {ea : Ea} {size : Size} {v : Long} {e : Abort} {s u : State} (h : readOp ea size s = .error e u) :
    replaceOperand ea size v s = .error e u := by
  have key : (readOp ea size >>= fun p => writeLoc p.2 size v) s = .error e u := bind_error h
  cases ea with
  | dn r => cases h
  | _ => exact key

end Sys2Proof.Machine
end

