-- ==== Sys2Proof/Laws/Bodies.lean ====
section
/-! SUPPORT. What every run of an instruction's rule does, said once for any relation: `Rules R Q E` lists what a relation must
keep, and each body's lemma concludes that a run that completes is in `Q` and one that aborts in `E`. With `Q = R` this gives the
invariants; with a `Q` that only the final prefetch or refill establishes it gives what holds of the pipeline at a step boundary. -/

namespace Sys2Proof.Machine

variable {α β : Type} {R Q : State → State → Prop} {E : Abort → State → State → Prop}

/-- An action that only charges. -/
def OnlyCharges (m : M Unit) : Prop := ∀ s, ∃ n, m s = .ok () (s.tick n)

theorem OnlyCharges.chargeOp (k : CostKey) : OnlyCharges (chargeOp k) := fun _ => ⟨_, rfl⟩

/-- What `R` before a jump, and `Q` with it, must keep for a sequence that ends in a jump to end in `Q`. -/
structure Jumps (R Q : State → State → Prop) (E : Abort → State → State → Prop) : Prop extends Closed R E where
  andThen : ∀ s t u, R s t → Q t u → Q s u
  jump : ∀ x c, OnlyCharges c → Steps Q E (jumpTo x >>= fun _ => c >>= fun _ => refill)

/-- What `R` before the final fetch, and `Q` with it, must keep for every unprivileged rule to end in `Q`. -/
structure Rules (R Q : State → State → Prop) (E : Abort → State → State → Prop) : Prop extends Jumps R Q E where
  prefetch : Steps Q E prefetch
  notifyLast : ∀ s t c, Q s t → Q s (t.record c)

/-- The same for the privileged rules, which also write the status register and the user stack pointer. -/
structure PrivilegedRules (R Q : State → State → Prop) (E : Abort → State → State → Prop) : Prop extends Rules R Q E where
  setSr : ∀ s v, R s (s.setSr v)
  setUsp : ∀ s v, R s (s.setUsp v)

/-- A part of a rule, then the rest. -/
theorem Steps.andThen (h : Jumps R Q E) {m : M α} {k : α → M β} (hm : Steps R E m) (hk : ∀ a, Steps Q E (k a)) :
    Steps Q E (m >>= k) := by
  intro s
  rw [bind_run]
  have h1 := hm s
  cases hx : m s with
  | ok a t =>
    rw [hx] at h1
    have h2 := hk a t
    dsimp only
    cases hy : k a t with
    | ok b u => rw [hy] at h2; exact h.andThen _ _ _ h1 h2
    | error e u => rw [hy] at h2; exact h.before _ _ _ _ h1 h2
  | error e t => rw [hx] at h1; exact h1

/-- The end of a rule, then a notification. -/
theorem Steps.thenNotify (h : Rules R Q E) {m : M Unit} (hm : Steps Q E m) (e : Event) :
    Steps Q E (m >>= fun _ => Machine.notify e) := by
  intro s
  rw [bind_run]
  have h1 := hm s
  cases hx : m s with
  | ok a t => rw [hx] at h1; exact h.notifyLast _ _ _ h1
  | error e t => rw [hx] at h1; exact h1

/-- `ReadOp`, then the rest. -/
theorem Rules.withOp (h : Rules R Q E) (ea : Ea) (size : Size) {k : Long × Loc → M β}
    (hk : ∀ v loc, loc.isOf ea → Steps Q E (k (v, loc))) : Steps Q E (readOp ea size >>= k) := by
  intro s
  rw [bind_run]
  have h1 := h.readOp ea size s
  cases hx : readOp ea size s with
  | ok a t =>
    rw [hx] at h1
    have h2 := hk a.1 a.2 (readOp_isOf hx) t
    dsimp only
    cases hy : k a t with
    | ok b u => rw [hy] at h2; exact h.andThen _ _ _ h1 h2
    | error e u => rw [hy] at h2; exact h.before _ _ _ _ h1 h2
  | error e t => rw [hx] at h1; exact h1

theorem assign_steps {f : State → State} (h : ∀ s, R s (f s)) : Steps R E (assign f) := h

/-- The shared end: the internal charge and the prefetch. -/
theorem Rules.finish (h : Rules R Q E) (k : CostKey) : Steps Q E (Machine.chargeOp k >>= fun _ => Machine.prefetch) :=
  Steps.andThen h.toJumps (h.chargeOp k) fun _ => h.prefetch

theorem Jumps.look {f : State → α} (_ : Jumps R Q E) {k : α → M β} (hk : ∀ a, Steps Q E (k a)) :
    Steps Q E (Machine.look f >>= k) := fun s => hk (f s) s

/-! ### Arithmetic and logic -/

theorem eaToReg_steps (h : Rules R Q E) (f : Long → Long → Long) (rule : FlagRule) (kind : AluKind) (size : Size) (ea : Ea)
    (dn : RegNum) : Steps Q E (eaToReg f rule kind size ea dn) :=
  h.withOp ea size fun _ _ _ => h.look fun _ => Steps.andThen h.toJumps (assign_steps fun s => h.writeD s _ _) fun _ =>
    Steps.andThen h.toJumps (h.setFlags rule _ _ _ size) fun _ => h.finish _

theorem regToEa_steps (h : Rules R Q E) (f : Long → Long → Long) (rule : FlagRule) (kind : AluKind) (size : Size) (dn : RegNum)
    (ea : Ea) (ha : ea.isAlterable = true) : Steps Q E (regToEa f rule kind size dn ea) :=
  h.look fun _ => h.withOp ea size fun _ _ hl => Steps.andThen h.toJumps (h.writeLoc hl ha size _) fun _ =>
    Steps.andThen h.toJumps (h.setFlags rule _ _ _ size) fun _ => h.finish _

theorem immToEa_steps (h : Rules R Q E) (f : Long → Long → Long) (rule : FlagRule) (writes : Bool) (kind : AluKind) (size : Size)
    (ea : Ea) (ha : ea.isAlterable = true) : Steps Q E (immToEa f rule writes kind size ea) := by
  refine Steps.andThen h.toJumps (h.readImm size) fun _ => h.withOp ea size fun _ _ hl => Steps.andThen h.toJumps ?_ fun _ =>
    Steps.andThen h.toJumps (h.setFlags rule _ _ _ size) fun _ => h.finish _
  cases writes
  · exact Steps.pure h.toChain _
  · exact h.writeLoc hl ha size _

theorem eaToAddr_steps (h : Rules R Q E) (f : Long → Long → Long) (kind : AluKind) (size : Size) (ea : Ea) (an : RegNum) :
    Steps Q E (eaToAddr f kind size ea an) :=
  h.withOp ea size fun _ _ _ => Steps.andThen h.toJumps (assign_steps fun s => h.writeA s _ _) fun _ => h.finish _

theorem quickOperand_steps (h : Closed R E) (f : Long → Long → Long) (rule : FlagRule) (q : Long) (size : Size) (ea : Ea)
    (ha : ea.isAlterable = true) : Steps R E (quickOperand f rule q size ea) := by
  have key : Steps R E (readOp ea size >>= fun p => writeLoc p.2 size (trunc size (f q p.1)) >>= fun _ =>
      setFlags rule q p.1 (trunc size (f q p.1)) size) :=
    h.withOp ea size fun v loc hl => Steps.bind h.toChain (h.writeLoc hl ha size _) fun _ => h.setFlags rule _ _ _ size
  cases ea with
  | an r => exact assign_steps fun s => h.writeA s _ _
  | _ => exact key

/-- `ADDQ` and `SUBQ` end where the read of their operand does (R235, R239). -/
theorem quickOperand_error {f : Long → Long → Long} {rule : FlagRule} {q : Long} {size : Size} {ea : Ea} {e : Abort} {s u : State}
    (h : readOp ea size s = .error e u) : quickOperand f rule q size ea s = .error e u := by
  have key : (readOp ea size >>= fun p => writeLoc p.2 size (trunc size (f q p.1)) >>= fun _ =>
      setFlags rule q p.1 (trunc size (f q p.1)) size) s = .error e u := bind_error h
  cases ea with
  | an r => cases h
  | _ => exact key

theorem quickToEa_steps (h : Rules R Q E) (f : Long → Long → Long) (rule : FlagRule) (kind : AluKind) (q : BitVec 3) (size : Size)
    (ea : Ea) (ha : ea.isAlterable = true) : Steps Q E (quickToEa f rule kind q size ea) :=
  Steps.andThen h.toJumps (quickOperand_steps h.toClosed f rule _ size ea ha) fun _ => h.finish _

theorem negBody_steps (h : Rules R Q E) (size : Size) (ea : Ea) (ha : ea.isAlterable = true) : Steps Q E (negBody size ea) :=
  h.withOp ea size fun _ _ hl => Steps.andThen h.toJumps (h.writeLoc hl ha size _) fun _ =>
    Steps.andThen h.toJumps (h.setFlags _ _ _ _ size) fun _ => h.finish _

theorem notBody_steps (h : Rules R Q E) (size : Size) (ea : Ea) (ha : ea.isAlterable = true) : Steps Q E (notBody size ea) :=
  h.withOp ea size fun _ _ hl => Steps.andThen h.toJumps (h.writeLoc hl ha size _) fun _ =>
    Steps.andThen h.toJumps (h.setFlags _ _ _ _ size) fun _ => h.prefetch

theorem cmpBody_steps (h : Rules R Q E) (size : Size) (ea : Ea) (dn : RegNum) : Steps Q E (cmpBody size ea dn) :=
  h.withOp ea size fun _ _ _ => h.look fun _ => Steps.andThen h.toJumps (h.setFlags _ _ _ _ size) fun _ => h.finish _

theorem cmpaBody_steps (h : Rules R Q E) (size : Size) (ea : Ea) (an : RegNum) : Steps Q E (cmpaBody size ea an) :=
  h.withOp ea size fun _ _ _ => h.look fun _ => Steps.andThen h.toJumps (h.setFlags _ _ _ _ .l) fun _ => h.finish _

theorem cmpmBody_steps (h : Rules R Q E) (size : Size) (ay ax : RegNum) : Steps Q E (cmpmBody size ay ax) :=
  h.withOp _ size fun _ _ _ => h.withOp _ size fun _ _ _ => Steps.andThen h.toJumps (h.setFlags _ _ _ _ size) fun _ => h.finish _

theorem multiply_steps (h : Rules R Q E) (product : Word → Word → Long) (cost : Word → CostKey) (ea : Ea) (dn : RegNum) :
    Steps Q E (multiply product cost ea dn) :=
  h.withOp ea .w fun _ _ _ => h.look fun _ => Steps.andThen h.toJumps (assign_steps fun s => h.writeD s _ _) fun _ =>
    Steps.andThen h.toJumps (h.setFlags _ _ _ _ .l) fun _ => h.finish _

/-! ### Moves -/

theorem setMoveFlags_steps (h : Closed R E) (v : Long) (size : Size) : Steps R E (setMoveFlags v size) :=
  assign_steps fun s => h.withCcr s _

theorem moveBody_steps (h : Rules R Q E) (size : Size) (src dst : Ea) (ha : dst.isAlterable = true) :
    Steps Q E (moveBody size src dst) :=
  h.withOp src size fun v _ _ => Steps.andThen h.toJumps (h.writeOp dst ha size v) fun _ =>
    Steps.andThen h.toJumps (setMoveFlags_steps h.toClosed _ size) fun _ => h.finish _

theorem moveaBody_steps (h : Rules R Q E) (size : Size) (src : Ea) (dst : RegNum) : Steps Q E (moveaBody size src dst) :=
  h.withOp src size fun _ _ _ => Steps.andThen h.toJumps (assign_steps fun s => h.writeA s _ _) fun _ => h.finish _

theorem updateD_steps (h : Rules R Q E) (f : Long → Long) (size : Size) (dn : RegNum) : Steps Q E (updateD f size dn) :=
  h.look fun _ => Steps.andThen h.toJumps (assign_steps fun s => h.writeD s _ _) fun _ =>
    Steps.andThen h.toJumps (setMoveFlags_steps h.toClosed _ size) fun _ => h.prefetch

theorem leaBody_steps (h : Rules R Q E) (ea : Ea) (ha : ea.isControl = true) (an : RegNum) : Steps Q E (leaBody ea an) :=
  Steps.andThen h.toJumps (h.controlEa ea ha) fun _ => Steps.andThen h.toJumps (assign_steps fun s => h.writeA s _ _) fun _ => h.finish _

theorem peaBody_steps (h : Rules R Q E) (ea : Ea) (ha : ea.isControl = true) : Steps Q E (peaBody ea) :=
  Steps.andThen h.toJumps (h.controlEa ea ha) fun _ => Steps.andThen h.toJumps (h.push32 _) fun _ => h.finish _

theorem clrBody_steps (h : Rules R Q E) (size : Size) (ea : Ea) (ha : ea.isAlterable = true) : Steps Q E (clrBody size ea) :=
  Steps.andThen h.toJumps (h.replaceOperand ea ha size _) fun _ => Steps.andThen h.toJumps (assign_steps fun s => h.withCcr s _) fun _ =>
    h.finish _

theorem tstBody_steps (h : Rules R Q E) (size : Size) (ea : Ea) : Steps Q E (tstBody size ea) :=
  h.withOp ea size fun _ _ _ => Steps.andThen h.toJumps (setMoveFlags_steps h.toClosed _ size) fun _ => h.finish _

theorem tasBody_steps (h : Rules R Q E) (ea : Ea) (ha : ea.isAlterable = true) : Steps Q E (tasBody ea) :=
  h.withOp ea .b fun _ _ hl => Steps.andThen h.toJumps (h.notify _) fun _ => Steps.andThen h.toJumps (h.writeLoc hl ha .b _) fun _ =>
    Steps.andThen h.toJumps (setMoveFlags_steps h.toClosed _ .b) fun _ => h.finish _

/-! ### Control -/

theorem braBody_steps (h : Rules R Q E) (d8 : Byte) : Steps Q E (braBody d8) :=
  h.look fun _ => h.jump _ _ (.chargeOp _)

theorem bccBody_steps (h : Rules R Q E) (cond : Cond) (d8 : Byte) : Steps Q E (bccBody cond d8) := by
  refine h.look fun p => h.look fun b => ?_
  cases b
  · refine Steps.andThen h.toJumps ?_ fun _ => h.finish _
    rw [skipWord]
    split
    · exact Steps.bind h.toChain h.ext fun _ => Steps.pure h.toChain _
    · exact Steps.pure h.toChain _
  · exact h.jump _ _ (.chargeOp _)

/-- The jump that ends a call, with its notification. -/
theorem Rules.call (h : Rules R Q E) (x : Long) (k : CostKey) (e : Event) :
    Steps Q E (jumpTo x >>= fun _ => chargeOp k >>= fun _ => refill >>= fun _ => Machine.notify e) := by
  have := Steps.thenNotify h (h.jump x _ (.chargeOp k)) e
  intro s
  have := this s
  rwa [bind_assoc_run, jumpTo_bind_run, bind_assoc_run] at this

theorem bsrBody_steps (h : Rules R Q E) (d8 : Byte) : Steps Q E (bsrBody d8) :=
  h.look fun _ => h.look fun _ => Steps.andThen h.toJumps (h.push32 _) fun _ => h.call _ _ _

theorem dbccBody_steps (h : Rules R Q E) (cond : Cond) (dn : RegNum) : Steps Q E (dbccBody cond dn) := by
  refine h.look fun base => h.look fun b => ?_
  cases b
  · refine h.look fun cnt => Steps.andThen h.toJumps (assign_steps fun s => h.writeD s _ _) fun _ => ?_
    by_cases hc : cnt ≠ 0xFFFF
    · rw [if_pos hc]
      exact h.look fun _ => h.jump _ _ (.chargeOp _)
    · rw [if_neg hc]
      exact Steps.andThen h.toJumps h.ext fun _ => h.finish _
  · exact Steps.andThen h.toJumps h.ext fun _ => h.finish _

theorem jmpBody_steps (h : Rules R Q E) (ea : Ea) (ha : ea.isControl = true) : Steps Q E (jmpBody ea) :=
  Steps.andThen h.toJumps (h.controlEa ea ha) fun _ => h.jump _ _ (.chargeOp _)

theorem jsrBody_steps (h : Rules R Q E) (ea : Ea) (ha : ea.isControl = true) : Steps Q E (jsrBody ea) :=
  Steps.andThen h.toJumps (h.controlEa ea ha) fun _ => h.look fun _ => Steps.andThen h.toJumps (h.push32 _) fun _ => h.call _ _ _

theorem rtsBody_steps (h : Rules R Q E) : Steps Q E rtsBody :=
  Steps.andThen h.toJumps h.pop32 fun _ => h.call _ _ _

/-! ### System -/

theorem moveFromSrBody_steps (h : Rules R Q E) (ea : Ea) (ha : ea.isAlterable = true) : Steps Q E (moveFromSrBody ea) :=
  h.look fun _ => Steps.andThen h.toJumps (h.replaceOperand ea ha .w _) fun _ => h.finish _

theorem moveToCcrBody_steps (h : Rules R Q E) (ea : Ea) : Steps Q E (moveToCcrBody ea) :=
  h.withOp ea .w fun _ _ _ => Steps.andThen h.toJumps (assign_steps fun s => h.withCcr s _) fun _ => h.finish _

theorem immToCcr_steps (h : Rules R Q E) (f : Byte → Byte → Byte) : Steps Q E (immToCcr f) :=
  Steps.andThen h.toJumps (h.readImm .b) fun _ => Steps.andThen h.toJumps (assign_steps fun s => h.withCcr s _) fun _ => h.prefetch

theorem resetBody_steps (h : Rules R Q E) : Steps Q E resetBody :=
  Steps.andThen h.toJumps (h.notify _) fun _ => h.finish _

theorem moveToUspBody_steps (h : Rules R Q E) (hu : ∀ s v, R s (s.setUsp v)) (an : RegNum) : Steps Q E (moveToUspBody an) :=
  Steps.andThen h.toJumps (assign_steps fun s => hu s _) fun _ => h.prefetch

theorem moveFromUspBody_steps (h : Rules R Q E) (an : RegNum) : Steps Q E (moveFromUspBody an) :=
  Steps.andThen h.toJumps (assign_steps fun s => h.writeA s _ _) fun _ => h.prefetch

theorem moveToSrBody_steps (h : PrivilegedRules R Q E) (ea : Ea) : Steps Q E (moveToSrBody ea) :=
  h.withOp ea .w fun _ _ _ => Steps.andThen h.toRules.toJumps (assign_steps fun s => h.setSr s _) fun _ => h.finish _

theorem immToSr_steps (h : Rules R Q E) (f : Word → Word → Word) (hf : ∀ s w, R s (s.setSr (f s.getSr w))) :
    Steps Q E (immToSr f) :=
  Steps.andThen h.toJumps (h.readImm .w) fun _ => Steps.andThen h.toJumps (assign_steps fun s => hf s _) fun _ => h.prefetch

/-- A jump without a charge. -/
theorem Jumps.jumpOnly (h : Jumps R Q E) (x : Long) : Steps Q E (jumpTo x >>= fun _ => refill) := by
  have := h.jump x (pure ()) (fun s => ⟨0, by simp [State.tick, pure_run]⟩)
  exact this

theorem returnFromException_steps (h : PrivilegedRules R Q E) : Steps Q E returnFromException :=
  h.look fun _ => Steps.andThen h.toRules.toJumps (h.busRead16 _ _) fun _ => h.look fun _ =>
    Steps.andThen h.toRules.toJumps (h.busRead32 _ _) fun _ => Steps.andThen h.toRules.toJumps (assign_steps fun s => h.writeA s _ _) fun _ =>
      Steps.andThen h.toRules.toJumps (assign_steps fun s => h.setSr s _) fun _ => h.jumpOnly _

end Sys2Proof.Machine
end

