-- ==== Sys2Proof/Laws/Decode.lean ====
section
/-! SUPPORT. The decoder's rows: every instruction it gives is well formed, and `STOP` has one opcode (R97). -/

namespace Sys2Proof

theorem eaRow_some {ok : Ea → Bool} {f : Ea → Instr} {w : Word} {i : Instr} (h : eaRow ok f w = some i) :
    ∃ ea, ok ea = true ∧ i = f ea := by
  unfold eaRow at h
  split at h
  · split at h
    · cases h; exact ⟨_, ‹_›, rfl⟩
    · cases h
  · cases h

theorem sizeEaRow_some {ok : Size → Ea → Bool} {f : Size → Ea → Instr} {w : Word} {i : Instr} (h : sizeEaRow ok f w = some i) :
    ∃ size ea, ok size ea = true ∧ i = f size ea := by
  unfold sizeEaRow at h
  split at h
  · split at h
    · cases h; exact ⟨_, _, ‹_›, rfl⟩
    · cases h
  · cases h

/-- A row gives well-formed instructions only, and `STOP` only by the row of its one opcode. -/
def OpcodeRow.sound (r : OpcodeRow) : Prop :=
  ∀ w i, r.build w = some i → i.wellFormed = true ∧ (i = .stop → r.mask = 0xFFFF ∧ r.pattern = 0x4E72)

theorem sound_eaRow {mask pattern : Word} {ok : Ea → Bool} {f : Ea → Instr}
    (h : ∀ ea, ok ea = true → (f ea).wellFormed = true ∧ f ea ≠ .stop) : OpcodeRow.sound ⟨mask, pattern, eaRow ok f⟩ := by
  intro w i hb
  obtain ⟨ea, ho, rfl⟩ := eaRow_some hb
  exact ⟨(h ea ho).1, fun e => absurd e (h ea ho).2⟩

theorem sound_eaRowOf {mask pattern : Word} {ok : Ea → Bool} {f : Word → Ea → Instr}
    (h : ∀ w ea, ok ea = true → (f w ea).wellFormed = true ∧ f w ea ≠ .stop) :
    OpcodeRow.sound ⟨mask, pattern, fun w => eaRow ok (f w) w⟩ := by
  intro w i hb
  obtain ⟨ea, ho, rfl⟩ := eaRow_some hb
  exact ⟨(h w ea ho).1, fun e => absurd e (h w ea ho).2⟩

theorem sound_sizeEaRow {mask pattern : Word} {ok : Size → Ea → Bool} {f : Word → Size → Ea → Instr}
    (h : ∀ w size ea, ok size ea = true → (f w size ea).wellFormed = true ∧ f w size ea ≠ .stop) :
    OpcodeRow.sound ⟨mask, pattern, fun w => sizeEaRow ok (f w) w⟩ := by
  intro w i hb
  obtain ⟨size, ea, ho, rfl⟩ := sizeEaRow_some hb
  exact ⟨(h w size ea ho).1, fun e => absurd e (h w size ea ho).2⟩

theorem sound_plainRow {mask pattern : Word} {f : Word → Instr}
    (h : ∀ w, (f w).wellFormed = true ∧ (f w = .stop → mask = 0xFFFF ∧ pattern = 0x4E72)) :
    OpcodeRow.sound ⟨mask, pattern, plainRow f⟩ := by
  intro w i hb
  cases hb
  exact h w

theorem longField_isWordOrLong (w : Word) : (longField w).isWordOrLong = true := by
  unfold longField; split <;> rfl

theorem sound_rows (n : Nat) : ∀ r ∈ rowsOfLine n, r.sound := by
  match n with
  | 0 =>
    simp only [rowsOfLine, List.forall_mem_cons, List.not_mem_nil, IsEmpty.forall_iff, implies_true, and_true]
    exact ⟨sound_sizeEaRow (f := fun _ => _) fun _ _ _ h => ⟨h, nofun⟩, sound_sizeEaRow (f := fun _ => _) fun _ _ _ h => ⟨h, nofun⟩,
      sound_sizeEaRow (f := fun _ => _) fun _ _ _ h => ⟨h, nofun⟩, sound_sizeEaRow (f := fun _ => _) fun _ _ _ h => ⟨h, nofun⟩,
      sound_sizeEaRow (f := fun _ => _) fun _ _ _ h => ⟨h, nofun⟩, sound_sizeEaRow (f := fun _ => _) fun _ _ _ h => ⟨h, nofun⟩,
      sound_plainRow fun _ => ⟨rfl, nofun⟩, sound_plainRow fun _ => ⟨rfl, nofun⟩, sound_plainRow fun _ => ⟨rfl, nofun⟩,
      sound_plainRow fun _ => ⟨rfl, nofun⟩, sound_plainRow fun _ => ⟨rfl, nofun⟩, sound_plainRow fun _ => ⟨rfl, nofun⟩⟩
  | 1 | 2 | 3 =>
    simp only [rowsOfLine, List.forall_mem_cons, List.not_mem_nil, IsEmpty.forall_iff, implies_true, and_true]
    constructor
    · intro w i hb
      dsimp only at hb
      split at hb
      · split at hb
        · cases hb; exact ⟨‹_›, nofun⟩
        · cases hb
      · cases hb
    · intro w i hb
      dsimp only at hb
      split at hb
      · split at hb
        · cases hb; exact ⟨‹_›, nofun⟩
        · cases hb
      · cases hb
  | 4 =>
    simp only [rowsOfLine, List.forall_mem_cons, List.not_mem_nil, IsEmpty.forall_iff, implies_true, and_true]
    exact ⟨sound_eaRow fun _ h => ⟨h, nofun⟩, sound_sizeEaRow (f := fun _ => _) fun _ _ _ h => ⟨h, nofun⟩,
      sound_sizeEaRow (f := fun _ => _) fun _ _ _ h => ⟨h, nofun⟩, sound_eaRow fun _ h => ⟨h, nofun⟩,
      sound_sizeEaRow (f := fun _ => _) fun _ _ _ h => ⟨h, nofun⟩, sound_eaRow fun _ h => ⟨h, nofun⟩,
      sound_plainRow fun _ => ⟨rfl, nofun⟩, sound_eaRow fun _ h => ⟨h, nofun⟩, sound_plainRow fun _ => ⟨rfl, nofun⟩,
      sound_plainRow fun _ => ⟨rfl, nofun⟩, sound_sizeEaRow (f := fun _ => _) fun _ _ _ h => ⟨h, nofun⟩,
      sound_eaRow fun _ h => ⟨h, nofun⟩, sound_plainRow fun _ => ⟨rfl, nofun⟩, sound_plainRow fun _ => ⟨rfl, nofun⟩,
      sound_plainRow fun _ => ⟨rfl, nofun⟩, sound_plainRow fun _ => ⟨rfl, nofun⟩, sound_plainRow fun _ => ⟨rfl, nofun⟩,
      sound_plainRow fun _ => ⟨rfl, nofun⟩, sound_plainRow fun _ => ⟨rfl, fun _ => ⟨rfl, rfl⟩⟩, sound_plainRow fun _ => ⟨rfl, nofun⟩,
      sound_plainRow fun _ => ⟨rfl, nofun⟩, sound_eaRow fun _ h => ⟨h, nofun⟩, sound_eaRow fun _ h => ⟨h, nofun⟩,
      sound_eaRowOf (f := fun w ea => .lea ea (regField w 9)) fun _ _ h => ⟨h, nofun⟩⟩
  | 5 =>
    simp only [rowsOfLine, List.forall_mem_cons, List.not_mem_nil, IsEmpty.forall_iff, implies_true, and_true]
    exact ⟨sound_sizeEaRow (f := fun w => .addq (w.extractLsb' 9 3)) fun _ _ _ h => ⟨h, nofun⟩,
      sound_sizeEaRow (f := fun w => .subq (w.extractLsb' 9 3)) fun _ _ _ h => ⟨h, nofun⟩, sound_plainRow fun _ => ⟨rfl, nofun⟩⟩
  | 6 =>
    simp only [rowsOfLine, List.forall_mem_cons, List.not_mem_nil, IsEmpty.forall_iff, implies_true, and_true]
    refine ⟨sound_plainRow fun _ => ⟨rfl, nofun⟩, sound_plainRow fun _ => ⟨rfl, nofun⟩, ?_⟩
    intro w i hb
    dsimp only at hb
    split at hb
    · cases hb; exact ⟨‹_›, nofun⟩
    · cases hb
  | 7 =>
    simp only [rowsOfLine, List.forall_mem_cons, List.not_mem_nil, IsEmpty.forall_iff, implies_true, and_true]
    exact sound_plainRow fun _ => ⟨rfl, nofun⟩
  | 8 =>
    simp only [rowsOfLine, List.forall_mem_cons, List.not_mem_nil, IsEmpty.forall_iff, implies_true, and_true]
    exact ⟨sound_sizeEaRow (f := fun w size ea => .orToReg size ea (regField w 9)) fun _ _ _ h => ⟨h, nofun⟩,
      sound_sizeEaRow (f := fun w size ea => .orToMem size (regField w 9) ea) fun _ _ _ h => ⟨h, nofun⟩⟩
  | 9 =>
    simp only [rowsOfLine, List.forall_mem_cons, List.not_mem_nil, IsEmpty.forall_iff, implies_true, and_true]
    exact ⟨sound_sizeEaRow (f := fun w size ea => .subToReg size ea (regField w 9)) fun _ _ _ h => ⟨h, nofun⟩,
      sound_sizeEaRow (f := fun w size ea => .subToMem size (regField w 9) ea) fun _ _ _ h => ⟨h, nofun⟩,
      sound_eaRowOf (f := fun w ea => .suba (longField w) ea (regField w 9)) fun w _ _ => ⟨longField_isWordOrLong w, nofun⟩⟩
  | 10 =>
    simp only [rowsOfLine, List.forall_mem_cons, List.not_mem_nil, IsEmpty.forall_iff, implies_true, and_true]
    exact sound_plainRow fun _ => ⟨rfl, nofun⟩
  | 11 =>
    simp only [rowsOfLine, List.forall_mem_cons, List.not_mem_nil, IsEmpty.forall_iff, implies_true, and_true]
    refine ⟨sound_sizeEaRow (f := fun w size ea => .cmp size ea (regField w 9)) fun _ _ _ h => ⟨h, nofun⟩,
      sound_eaRowOf (f := fun w ea => .cmpa (longField w) ea (regField w 9)) fun w _ _ => ⟨longField_isWordOrLong w, nofun⟩,
      sound_sizeEaRow (f := fun w size ea => .eor size (regField w 9) ea) fun _ _ _ h => ⟨h, nofun⟩, ?_⟩
    intro w i hb
    dsimp only at hb
    split at hb
    · cases hb; exact ⟨rfl, nofun⟩
    · cases hb
  | 12 =>
    simp only [rowsOfLine, List.forall_mem_cons, List.not_mem_nil, IsEmpty.forall_iff, implies_true, and_true]
    exact ⟨sound_sizeEaRow (f := fun w size ea => .andToReg size ea (regField w 9)) fun _ _ _ h => ⟨h, nofun⟩,
      sound_sizeEaRow (f := fun w size ea => .andToMem size (regField w 9) ea) fun _ _ _ h => ⟨h, nofun⟩,
      sound_eaRowOf (f := fun w ea => .mulu ea (regField w 9)) fun _ _ h => ⟨h, nofun⟩,
      sound_eaRowOf (f := fun w ea => .muls ea (regField w 9)) fun _ _ h => ⟨h, nofun⟩⟩
  | 13 =>
    simp only [rowsOfLine, List.forall_mem_cons, List.not_mem_nil, IsEmpty.forall_iff, implies_true, and_true]
    exact ⟨sound_sizeEaRow (f := fun w size ea => .addToReg size ea (regField w 9)) fun _ _ _ h => ⟨h, nofun⟩,
      sound_sizeEaRow (f := fun w size ea => .addToMem size (regField w 9) ea) fun _ _ _ h => ⟨h, nofun⟩,
      sound_eaRowOf (f := fun w ea => .adda (longField w) ea (regField w 9)) fun w _ _ => ⟨longField_isWordOrLong w, nofun⟩⟩
  | 14 => exact fun r h => by cases h
  | 15 =>
    simp only [rowsOfLine, List.forall_mem_cons, List.not_mem_nil, IsEmpty.forall_iff, implies_true, and_true]
    exact sound_plainRow fun _ => ⟨rfl, nofun⟩
  | n + 16 => exact fun r h => by cases h

theorem decodeRow_some {w : Word} {i : Instr} (h : decodeRow w = some i) :
    i.wellFormed = true ∧ (i = .stop → w = 0x4E72) := by
  obtain ⟨r, hr, ht⟩ := List.exists_of_findSome?_eq_some h
  unfold OpcodeRow.take at ht
  split at ht
  · rename_i hm
    have hs := sound_rows _ r hr w i ht
    refine ⟨hs.1, fun e => ?_⟩
    obtain ⟨h1, h2⟩ := hs.2 e
    rw [h1, h2] at hm
    have h3 : w &&& 0xFFFF#16 = w := by
      have := BitVec.and_allOnes (x := w)
      exact this
    exact h3.symm.trans hm
  · cases ht

/-- The decoder gives well-formed instructions only (R97, R110). -/
theorem decode_wellFormed (w : Word) : (decode w).wellFormed = true := by
  unfold decode
  cases h : decodeRow w with
  | none => rfl
  | some i => exact (decodeRow_some h).1

/-- `STOP` has one opcode (R97). -/
theorem decode_eq_stop {w : Word} (h : decode w = .stop) : w = 0x4E72 := by
  unfold decode at h
  cases hr : decodeRow w with
  | none => rw [hr] at h; cases h
  | some i => rw [hr] at h; exact (decodeRow_some hr).2 h

/-! ### The ROM image -/

/-- An operation the ROM image holds is the one the baseline decodes (R96). -/
theorem romEntry_baseline {ext : List RomExtension} {w : Word} {i : Instr} (h : romEntry ext w = .baseline i) : i = decode w := by
  unfold romEntry at h
  unfold decode
  cases hr : decodeRow w with
  | some j => rw [hr] at h; cases h; rfl
  | none =>
    rw [hr] at h
    dsimp only at h
    split at h
    · cases h
    · cases h; rfl

end Sys2Proof
end

