-- ==== Sys2Proof/Laws/Memory.lean ====
section
/-! SUPPORT. The laws of memory: what a byte reads as after a byte or word write, and that every memory operation keeps the
canonical form and the bound of the address space. -/

namespace Sys2Proof.Machine

/-! ### Other addresses -/

theorem readByte_putCell_ne {p q : Nat} (h : q ≠ p) (v : Byte) (rest : Memory) :
    (Memory.putCell p v rest).readByte q = rest.readByte q := by
  unfold Memory.putCell
  split
  · rfl
  · simp [Memory.readByte, Ne.symm h]

theorem readByte_writeByte_ne {p q : Nat} (h : q ≠ p) (v : Byte) (m : Memory) : (m.writeByte p v).readByte q = m.readByte q := by
  induction m with
  | nil => rw [Memory.writeByte, readByte_putCell_ne h]
  | cons c rest ih =>
    obtain ⟨k, b⟩ := c
    simp only [Memory.writeByte]
    split
    · rw [readByte_putCell_ne h]
    · split
      · rename_i hk
        rw [readByte_putCell_ne h, Memory.readByte, if_neg (by omega)]
      · simp only [Memory.readByte, ih]

theorem readByte_writeWord_ne {p q : Nat} (h : q ≠ p) (h' : q ≠ p + 1) (v : Word) (m : Memory) :
    (m.writeWord p v).readByte q = m.readByte q := by
  rw [Memory.writeWord, readByte_writeByte_ne h', readByte_writeByte_ne h]

/-! ### The same address, in a canonical memory -/

theorem readByte_of_risesFrom {lo p : Nat} {m : Memory} (h : m.risesFrom lo = true) (hp : p < lo) :
    m.readByte p = unlistedByte := by
  induction m generalizing lo with
  | nil => rfl
  | cons c rest ih =>
    obtain ⟨k, b⟩ := c
    simp only [Memory.risesFrom, Bool.and_eq_true, decide_eq_true_eq] at h
    rw [Memory.readByte, if_neg (by omega)]
    exact ih h.2 (by omega)

theorem risesFrom_mono {lo lo' : Nat} {m : Memory} (h : m.risesFrom lo = true) (hl : lo' ≤ lo) : m.risesFrom lo' = true := by
  cases m with
  | nil => rfl
  | cons c rest =>
    simp only [Memory.risesFrom, Bool.and_eq_true, decide_eq_true_eq] at h ⊢
    exact ⟨by omega, h.2⟩

theorem readByte_putCell_same {p : Nat} {rest : Memory} (h : rest.risesFrom (p + 1) = true) (v : Byte) :
    (Memory.putCell p v rest).readByte p = v := by
  unfold Memory.putCell
  split
  · rename_i hv
    rw [readByte_of_risesFrom h (by omega), hv]
  · simp [Memory.readByte]

theorem readByte_writeByte_of_rises {lo p : Nat} {m : Memory} (h : m.risesFrom lo = true) (v : Byte) :
    (m.writeByte p v).readByte p = v := by
  induction m generalizing lo with
  | nil => exact readByte_putCell_same rfl v
  | cons c rest ih =>
    obtain ⟨k, b⟩ := c
    simp only [Memory.risesFrom, Bool.and_eq_true, decide_eq_true_eq] at h
    simp only [Memory.writeByte]
    split
    · refine readByte_putCell_same ?_ v
      simp only [Memory.risesFrom, Bool.and_eq_true, decide_eq_true_eq]
      exact ⟨by omega, h.2⟩
    · split
      · rename_i hk
        subst hk
        exact readByte_putCell_same h.2 v
      · rw [Memory.readByte, if_neg (by omega)]
        exact ih h.2

/-! ### The canonical form is kept -/

theorem risesFrom_putCell {lo p : Nat} {rest : Memory} (hp : lo ≤ p) (h : rest.risesFrom (p + 1) = true) (v : Byte) :
    (Memory.putCell p v rest).risesFrom lo = true := by
  unfold Memory.putCell
  split
  · exact risesFrom_mono h (by omega)
  · simp [Memory.risesFrom, hp, h]

theorem risesFrom_writeByte {lo p : Nat} {m : Memory} (hp : lo ≤ p) (h : m.risesFrom lo = true) (v : Byte) :
    (m.writeByte p v).risesFrom lo = true := by
  induction m generalizing lo with
  | nil => exact risesFrom_putCell hp rfl v
  | cons c rest ih =>
    obtain ⟨k, b⟩ := c
    simp only [Memory.risesFrom, Bool.and_eq_true, decide_eq_true_eq] at h
    simp only [Memory.writeByte]
    split
    · refine risesFrom_putCell hp ?_ v
      simp only [Memory.risesFrom, Bool.and_eq_true, decide_eq_true_eq]
      exact ⟨by omega, h.2⟩
    · split
      · rename_i hk
        subst hk
        exact risesFrom_putCell hp h.2 v
      · simp only [Memory.risesFrom, Bool.and_eq_true, decide_eq_true_eq]
        exact ⟨h.1, ih (by omega) h.2⟩

/-- A property of every cell that holds of the written cell, unless it is left out, holds after the write. -/
theorem all_writeByte {P : Host.Cell → Bool} {p : Nat} {v : Byte} {m : Memory} (hm : m.all P = true)
    (hv : v ≠ unlistedByte → P (p, v) = true) : (m.writeByte p v).all P = true := by
  have put : ∀ rest : Memory, rest.all P = true → (Memory.putCell p v rest).all P = true := by
    intro rest hr
    unfold Memory.putCell
    split
    · exact hr
    · rename_i hne
      rw [List.all_cons, hv hne, hr]; rfl
  induction m with
  | nil => exact put [] rfl
  | cons c rest ih =>
    obtain ⟨k, b⟩ := c
    rw [List.all_cons, Bool.and_eq_true] at hm
    simp only [Memory.writeByte]
    split
    · exact put _ (by rw [List.all_cons, hm.1, hm.2]; rfl)
    · split
      · exact put _ hm.2
      · rw [List.all_cons, hm.1, ih hm.2]; rfl

theorem wf_writeByte {m : Memory} (h : m.wf = true) (p : Nat) (v : Byte) : (m.writeByte p v).wf = true := by
  rw [Memory.wf, Bool.and_eq_true] at h ⊢
  exact ⟨risesFrom_writeByte (by omega) h.1 v, all_writeByte h.2 (by simp)⟩

theorem wf_writeWord {m : Memory} (h : m.wf = true) (p : Nat) (v : Word) : (m.writeWord p v).wf = true :=
  wf_writeByte (wf_writeByte h _ _) _ _

theorem below_writeByte {m : Memory} {bound p : Nat} (h : m.below bound = true) (hp : p < bound) (v : Byte) :
    (m.writeByte p v).below bound = true := all_writeByte h (by simp [hp])

theorem below_writeWord {m : Memory} {bound p : Nat} (h : m.below bound = true) (hp : p + 1 < bound) (v : Word) :
    (m.writeWord p v).below bound = true := below_writeByte (below_writeByte h (by omega) _) hp _

theorem wf_writeWords (bound : Nat) (ws : List Word) {m : Memory} (h : m.wf = true) (p : Nat) :
    (Memory.writeWords bound m p ws).wf = true := by
  induction ws generalizing m p with
  | nil => exact h
  | cons w ws ih => exact ih (wf_writeWord h _ _) _

/-! ### Reading back -/

theorem readByte_writeByte_same {m : Memory} (h : m.wf = true) (p : Nat) (v : Byte) : (m.writeByte p v).readByte p = v := by
  rw [Memory.wf, Bool.and_eq_true] at h
  exact readByte_writeByte_of_rises h.1 v

theorem append_bytes (v : Word) : v.extractLsb' 8 8 ++ v.extractLsb' 0 8 = v := by
  ext i hi
  simp only [BitVec.getElem_append, BitVec.getElem_extractLsb']
  split
  · simp [hi]
  · rw [show 8 + (i - 8) = i by omega, BitVec.getLsbD_eq_getElem hi]

theorem readWord_writeWord_same {m : Memory} (h : m.wf = true) (p : Nat) (v : Word) : (m.writeWord p v).readWord p = v := by
  rw [Memory.readWord, Memory.writeWord, readByte_writeByte_same (wf_writeByte h _ _),
    readByte_writeByte_ne (by omega), readByte_writeByte_same h, append_bytes]

theorem readWord_writeWord_ne {m : Memory} {p q : Nat} (h1 : q ≠ p) (h2 : q ≠ p + 1) (h3 : q + 1 ≠ p) (v : Word) :
    (m.writeWord p v).readWord q = m.readWord q := by
  rw [Memory.readWord, Memory.readWord, readByte_writeWord_ne h1 h2, readByte_writeWord_ne h3 (by omega)]

/-! ### Addresses of words -/

/-- A masked address is below `2 ^ ADDR_BITS` (R63). -/
theorem phys_lt (s : State) (x : Long) : s.phys x < 2 ^ s.cfg.addrBits := Nat.mod_lt _ (Nat.two_pow_pos _)

/-- The mask keeps an even address even, so a word does not cross the end of the address space (R66). -/
theorem phys_even {s : State} {x : Long} (h : isEven x = true) : s.phys x % 2 = 0 := by
  rw [isEven_iff] at h
  unfold State.phys
  rw [Nat.mod_mod_of_dvd]
  · exact h
  · exact ⟨2 ^ s.cfg.addrBitsPred.val, by rw [Config.addrBits, Nat.pow_succ, Nat.mul_comm]⟩

theorem phys_even_lt {s : State} {x : Long} (h : isEven x = true) : s.phys x + 1 < 2 ^ s.cfg.addrBits := by
  have h1 := phys_lt s x
  have h2 := phys_even (s := s) h
  have h3 : 2 ^ s.cfg.addrBits % 2 = 0 := by rw [Config.addrBits, Nat.pow_succ]; omega
  omega

/-- The byte after an even address (R65). -/
theorem phys_succ {s : State} {x : Long} (h : isEven x = true) : s.phys (x + 1) = s.phys x + 1 := by
  have h1 := phys_even_lt (s := s) h
  rw [isEven_iff] at h
  unfold State.phys at *
  have h2 : (x + 1).toNat = x.toNat + 1 := by
    rw [BitVec.toNat_add]
    show (x.toNat + 1) % 2 ^ 32 = _
    have := x.isLt
    omega
  rw [h2, Nat.add_mod, Nat.mod_eq_of_lt (a := x.toNat % _ + 1 % _)]
  · rw [Nat.mod_eq_of_lt (a := 1)]; omega
  · rw [Nat.mod_eq_of_lt (a := 1)] <;> omega

theorem MemInv.storeByte {s : State} (h : MemInv s) (x : Long) (v : Byte) :
    MemInv (s.setMem (s.mem.writeByte (s.phys x) v)) :=
  ⟨wf_writeByte h.1 _ _, below_writeByte h.2 (phys_lt s x) _⟩

theorem MemInv.storeWord {s : State} (h : MemInv s) {x : Long} (hx : isEven x = true) (v : Word) :
    MemInv (s.setMem (s.mem.writeWord (s.phys x) v)) :=
  ⟨wf_writeWord h.1 _ _, below_writeWord h.2 (phys_even_lt hx) _⟩

/-! ### Stores -/

/-- A store leaves every byte outside its own as it was (R70 to R73). -/
theorem readByte_storedMem {s : State} {x : Long} {size : Size} {p : Nat} (hx : alignedFor size x = true)
    (hp : ¬ storesTo s x size p) (v : Long) : (s.storedMem x size v).readByte p = s.mem.readByte p := by
  have h0 : p ≠ s.phys x := fun e => hp ⟨0, by cases size <;> decide, by simp [e]⟩
  cases size with
  | b => exact readByte_writeByte_ne h0 _ _
  | w =>
    have hx' : isEven x = true := by simpa [alignedFor] using hx
    have h1 : p ≠ s.phys x + 1 := fun e => hp ⟨1, by decide, by rw [e, ← phys_succ hx']; rfl⟩
    exact readByte_writeWord_ne h0 h1 _ _
  | l =>
    have hx' : isEven x = true := by simpa [alignedFor] using hx
    have hx2 : isEven (x + 2) = true := by rw [isEven_add_two]; exact hx'
    have h1 : p ≠ s.phys x + 1 := fun e => hp ⟨1, by decide, by rw [e, ← phys_succ hx']; rfl⟩
    have h2 : p ≠ s.phys (x + 2) := fun e => hp ⟨2, by decide, by rw [e]; rfl⟩
    have h3 : p ≠ s.phys (x + 2) + 1 := fun e => hp ⟨3, by decide, by rw [e, ← phys_succ hx2, BitVec.add_assoc]; rfl⟩
    show ((s.mem.writeWord (s.phys x) (hiWord v)).writeWord (s.phys (x + 2)) (loWord v)).readByte p = _
    rw [readByte_writeWord_ne h2 h3, readByte_writeWord_ne h0 h1]

end Sys2Proof.Machine
end

