-- ==== Sys2Proof/Laws/Invariants.lean ====
section
/-! SUPPORT. The two relations every rule keeps: `Steady`, what no unprivileged rule can change, and `Primed`, what the final
fetch leaves in the pipeline; and what each entry sequence leaves, whatever state it starts in. -/

namespace Sys2Proof.Machine

/-! ### What a privileged rule keeps, and what every rule keeps -/

/-- What every rule but `STOP` and the entries keep, privileged or not. -/
structure Kept (s t : State) : Prop where
  cfg : t.cfg = s.cfg
  run : t.run = s.run
  tracePending : t.tracePending = s.tracePending
  aeInService : t.aeInService = s.aeInService
  excInService : t.excInService = s.excInService
  pipelineBroken : t.pipelineBroken = s.pipelineBroken
  clock : s.clock ≤ t.clock
  mem : MemInv s → MemInv t
  port : s.port <:+ t.port

/-- What every unprivileged rule keeps: the mode, the mask, the trace flag and the shadow stack pointers beside. -/
structure Steady (s t : State) : Prop extends Kept s t where
  usp : t.usp = s.usp
  ssp : t.ssp = s.ssp
  traceFlag : t.sr.t = s.sr.t
  supervisor : t.sr.s = s.sr.s
  mask : t.sr.i = s.sr.i

theorem Kept.refl (s : State) : Kept s s := ⟨rfl, rfl, rfl, rfl, rfl, rfl, le_refl _, id, List.suffix_refl _⟩

theorem Kept.trans {s t u : State} (h : Kept s t) (k : Kept t u) : Kept s u :=
  ⟨k.cfg.trans h.cfg, k.run.trans h.run, k.tracePending.trans h.tracePending, k.aeInService.trans h.aeInService,
    k.excInService.trans h.excInService, k.pipelineBroken.trans h.pipelineBroken,
    le_trans h.clock k.clock, k.mem ∘ h.mem, h.port.trans k.port⟩

theorem Steady.refl (s : State) : Steady s s := ⟨Kept.refl s, rfl, rfl, rfl, rfl, rfl⟩

theorem Steady.trans {s t u : State} (h : Steady s t) (k : Steady t u) : Steady s u :=
  ⟨h.toKept.trans k.toKept, k.usp.trans h.usp, k.ssp.trans h.ssp, k.traceFlag.trans h.traceFlag, k.supervisor.trans h.supervisor, k.mask.trans h.mask⟩

/-- A change that leaves the control state, memory and the mode alone. -/
theorem Steady.of {s t : State} (hc : t.cfg = s.cfg := by rfl) (hr : t.run = s.run := by rfl)
    (htp : t.tracePending = s.tracePending := by rfl) (hae : t.aeInService = s.aeInService := by rfl)
    (hex : t.excInService = s.excInService := by rfl) (hpb : t.pipelineBroken = s.pipelineBroken := by rfl)
    (hk : s.clock ≤ t.clock) (hm : t.mem = s.mem := by rfl)
    (hp : s.port <:+ t.port) (hu : t.usp = s.usp := by rfl) (hs : t.ssp = s.ssp := by rfl) (ht : t.sr.t = s.sr.t := by rfl)
    (hS : t.sr.s = s.sr.s := by rfl) (hI : t.sr.i = s.sr.i := by rfl) : Steady s t :=
  ⟨⟨hc, hr, htp, hae, hex, hpb, hk, fun h => by rw [MemInv, hm, hc]; exact h, hp⟩, hu, hs, ht, hS, hI⟩

namespace Steady

theorem tick (s : State) (n : Nat) : Steady s (s.tick n) := .of (hk := by simp [State.tick]) (hp := List.suffix_refl _)
theorem record (s : State) (c : PortCall) : Steady s (s.record c) := .of (hk := le_refl _) (hp := List.suffix_cons _ _)
theorem answered (s : State) (c : PortCall) : Steady s (s.answered c) := .of (hk := le_refl _) (hp := List.suffix_cons _ _)
theorem sampled (s : State) : Steady s s.sampled := .of (hk := le_refl _) (hp := List.suffix_cons _ _)
theorem acknowledged (s : State) (l : BitVec 3) : Steady s (s.acknowledged l) :=
  .of (hk := le_refl _) (hp := List.suffix_cons _ _)
theorem writeD (s : State) (r : RegNum) (v : Long) : Steady s (s.writeD r v) := .of (hk := le_refl _) (hp := List.suffix_refl _)
theorem writeA (s : State) (r : RegNum) (v : Long) : Steady s (s.writeA r v) := .of (hk := le_refl _) (hp := List.suffix_refl _)
theorem withCcr (s : State) (c : Ccr) : Steady s (s.withCcr c) := .of (hk := le_refl _) (hp := List.suffix_refl _)
theorem setPc (s : State) (v : Long) : Steady s (s.setPc v) := .of (hk := le_refl _) (hp := List.suffix_refl _)
theorem setPc0 (s : State) (v : Long) : Steady s (s.setPc0 v) := .of (hk := le_refl _) (hp := List.suffix_refl _)
theorem setIrd (s : State) (v : Word) : Steady s (s.setIrd v) := .of (hk := le_refl _) (hp := List.suffix_refl _)
theorem setIrc (s : State) (v : Word) : Steady s (s.setIrc v) := .of (hk := le_refl _) (hp := List.suffix_refl _)

theorem setMem (s : State) (m : Memory) (h : MemInv s → MemInv (s.setMem m)) : Steady s (s.setMem m) :=
  ⟨⟨rfl, rfl, rfl, rfl, rfl, rfl, le_refl _, h, List.suffix_refl _⟩, rfl, rfl, rfl, rfl, rfl⟩

theorem wordRead (s : State) (x : Long) (poll : Bool) : Steady s (s.wordRead x poll) := by
  unfold State.wordRead
  cases poll
  · exact ((tick s _).trans (answered _ _)).trans (tick _ _)
  · exact (((tick s _).trans (sampled _)).trans (answered _ _)).trans (tick _ _)

theorem extTaken (s : State) : Steady s s.extTaken := ((setPc s _).trans (wordRead _ _ _)).trans (setIrc _ _)

theorem prefetched (s : State) : Steady s s.prefetched :=
  (((setIrd s _).trans (wordRead _ _ _)).trans (setIrc _ _)).trans (setPc0 _ _)

theorem refilled (s : State) : Steady s s.refilled := ((wordRead s _ _).trans (setIrc _ _)).trans (prefetched _)

theorem chain : Chain Steady fun _ => Steady :=
  ⟨refl, fun _ _ _ => trans, fun _ _ _ _ => trans, refl, fun _ _ _ => refl⟩

theorem prefetch : Steps Steady (fun _ => Steady) prefetch := by
  intro s
  cases h : isEven s.pc
  · rw [prefetch_odd h]; exact setIrd s _
  · rw [prefetch_run h]; exact prefetched s

theorem refill : Steps Steady (fun _ => Steady) refill := by
  intro s
  cases h : isEven s.pc
  · rw [refill_odd h]; exact refl s
  · rw [refill_run h]; exact refilled s

/-- Every unprivileged rule keeps `Steady`. -/
theorem rules : Rules Steady Steady fun _ => Steady where
  toChain := chain
  tick := tick
  record := record
  answered := answered
  writeD := writeD
  writeA := writeA
  withCcr := withCcr
  storeByte s x v := setMem s _ fun h => h.storeByte x v
  storeWord s x v hx := setMem s _ fun h => h.storeWord hx v
  ext := by
    intro s
    cases h : isEven s.pc
    · rw [readExt_odd h]; exact setPc s _
    · rw [readExt_run h]; exact extTaken s
  andThen _ _ _ := trans
  prefetch := prefetch
  jump x c hc := by
    refine Steps.bind chain (Steps.assign fun s => setPc s x) fun _ => Steps.bind chain ?_ fun _ => refill
    intro s
    obtain ⟨n, hn⟩ := hc s
    rw [hn]
    exact tick s n
  notifyLast _ _ _ h := h.trans (record _ _)

end Steady

/-- Every rule but `STOP` keeps `Kept`. -/
theorem Kept.rules : PrivilegedRules Kept Kept fun _ => Kept where
  toChain := ⟨Kept.refl, fun _ _ _ => Kept.trans, fun _ _ _ _ => Kept.trans, Kept.refl, fun _ _ _ => Kept.refl⟩
  tick s n := (Steady.tick s n).toKept
  record s c := (Steady.record s c).toKept
  answered s c := (Steady.answered s c).toKept
  writeD s r v := (Steady.writeD s r v).toKept
  writeA s r v := (Steady.writeA s r v).toKept
  withCcr s c := (Steady.withCcr s c).toKept
  storeByte s x v := (Steady.rules.storeByte s x v).toKept
  storeWord s x v hx := (Steady.rules.storeWord s x v hx).toKept
  ext := Steady.rules.ext.mono (fun _ _ => Steady.toKept) fun _ _ _ => Steady.toKept
  andThen _ _ _ := Kept.trans
  prefetch := Steady.prefetch.mono (fun _ _ => Steady.toKept) fun _ _ _ => Steady.toKept
  jump x c hc := (Steady.rules.jump x c hc).mono (fun _ _ => Steady.toKept) fun _ _ _ => Steady.toKept
  notifyLast _ _ _ h := h.trans (Steady.record _ _).toKept
  setSr s v := by
    refine ⟨?_, ?_, ?_, ?_, ?_, ?_, ?_, fun h => by simpa [State.setSr, State.setCcr, MemInv] using h, ?_⟩ <;>
      simp [State.setSr, State.setCcr]
  setUsp s v := ⟨rfl, rfl, rfl, rfl, rfl, rfl, le_refl _, id, List.suffix_refl _⟩

/-! ### The pipeline at a step boundary -/

/-- The lookahead stage holds a word that was read from `pc`, as it does while a rule runs (R127). -/
def Ahead (s : State) : Prop := PortCall.read16 (s.phys s.pc) s.irc ∈ s.port

/-- What a completed fetch leaves: `pc` even, `pc0` equal to it, both stages read from `pc` and `pc + 2` (R25, R26, R33). -/
structure Primed (s : State) : Prop where
  even : isEven s.pc = true
  pc0 : s.pc0 = s.pc
  ird : PortCall.read16 (s.phys s.pc) s.ird ∈ s.port
  irc : PortCall.read16 (s.phys (s.pc + 2)) s.irc ∈ s.port

theorem Primed.record {s : State} (h : Primed s) (c : PortCall) : Primed (s.record c) :=
  ⟨h.even, h.pc0, List.mem_cons_of_mem _ h.ird, List.mem_cons_of_mem _ h.irc⟩

/-- A word read is entered at the port. -/
theorem mem_port_wordRead (s : State) (x : Long) (poll : Bool) :
    PortCall.read16 (s.phys x) (s.answer16 (s.phys x)) ∈ (s.wordRead x poll).port := by
  unfold State.wordRead
  cases poll <;> simp [State.answered, State.tick, State.record, State.popRead, State.sampled]

theorem Ahead.extTaken (s : State) : Ahead s.extTaken := by
  have h := mem_port_wordRead (s.setPc (s.pc + 2)) (s.pc + 2) false
  unfold Ahead
  simpa [State.extTaken] using h

theorem Ahead.prefetched {s : State} (h : Ahead s) (he : isEven s.pc = true) : Primed s.prefetched := by
  have h1 := mem_port_wordRead (s.setIrd s.irc) (s.pc + 2) true
  have h2 : PortCall.read16 (s.phys s.pc) s.irc ∈ ((s.setIrd s.irc).wordRead (s.pc + 2) true).port :=
    (Steady.wordRead (s.setIrd s.irc) (s.pc + 2) true).port.subset h
  constructor
  · simpa [State.prefetched] using he
  · simp [State.prefetched]
  · simpa [State.prefetched] using h2
  · simpa [State.prefetched] using h1

theorem Primed.refilled {s : State} (he : isEven s.pc = true) : Primed s.refilled := by
  refine Ahead.prefetched ?_ (by simpa using he)
  have h := mem_port_wordRead s s.pc false
  unfold Ahead
  simpa using h

theorem Ahead.chain : Chain (fun s t => Ahead s → Ahead t) fun _ _ _ => True :=
  ⟨fun _ => id, fun _ _ _ h k => k ∘ h, fun _ _ _ _ _ _ => trivial, fun _ => trivial, fun _ _ _ _ => trivial⟩

theorem refill_primed : Steps (fun s t => Ahead s → Primed t) (fun _ _ _ => True) refill := by
  intro s
  cases h : isEven s.pc
  · rw [refill_odd h]; trivial
  · rw [refill_run h]; exact fun _ => Primed.refilled h

/-- Every rule that begins with the lookahead stage in step ends with the pipeline primed. -/
theorem Primed.rules : PrivilegedRules (fun s t => Ahead s → Ahead t) (fun s t => Ahead s → Primed t) fun _ _ _ => True where
  toChain := Ahead.chain
  tick _ _ := id
  record _ _ h := List.mem_cons_of_mem _ h
  answered _ _ h := List.mem_cons_of_mem _ h
  writeD _ _ _ := id
  writeA _ _ _ := id
  withCcr _ _ := id
  storeByte _ _ _ := id
  storeWord _ _ _ _ := id
  ext := by
    intro s
    cases h : isEven s.pc
    · rw [readExt_odd h]; trivial
    · rw [readExt_run h]; exact fun _ => Ahead.extTaken s
  andThen _ _ _ h k := k ∘ h
  prefetch := by
    intro s
    cases h : isEven s.pc
    · rw [prefetch_odd h]; trivial
    · rw [prefetch_run h]; exact fun ha => ha.prefetched h
  jump x c hc := by
    intro s
    obtain ⟨n, hn⟩ := hc (s.setPc x)
    rw [jumpTo_bind_run, bind_ok hn]
    cases h : isEven x
    · rw [refill_odd (by simpa using h)]; trivial
    · rw [refill_run (by simpa using h)]; exact fun _ => Primed.refilled (by simpa using h)
  notifyLast _ _ _ h := fun ha => (h ha).record _
  setSr s v h := by
    unfold Ahead at *
    simpa [State.setSr, State.setCcr] using h
  setUsp _ _ := id

/-- A sequence that ends in a jump ends with the pipeline primed, whatever it held before (R129). -/
theorem Primed.jumps : Jumps (fun _ _ => True) (fun _ t => Primed t) fun _ _ _ => True where
  toChain := ⟨fun _ => trivial, fun _ _ _ _ _ => trivial, fun _ _ _ _ _ _ => trivial, fun _ => trivial, fun _ _ _ _ => trivial⟩
  tick _ _ := trivial
  record _ _ := trivial
  answered _ _ := trivial
  writeD _ _ _ := trivial
  writeA _ _ _ := trivial
  withCcr _ _ := trivial
  storeByte _ _ _ := trivial
  storeWord _ _ _ _ := trivial
  ext s := by cases readExt s <;> trivial
  andThen _ _ _ _ k := k
  jump x c hc := by
    intro s
    obtain ⟨n, hn⟩ := hc (s.setPc x)
    rw [jumpTo_bind_run, bind_ok hn]
    cases h : isEven x
    · rw [refill_odd (by simpa using h)]; trivial
    · rw [refill_run (by simpa using h)]; exact Primed.refilled (by simpa using h)

end Sys2Proof.Machine
end

