-- ==== Sys2Proof/Laws/Entries.lean ====
section
/-! SUPPORT. What every run of an entry sequence leaves: an exception, an interrupt and an address error always end in a next
state, in supervisor mode, with the pipeline primed at the handler or the core halted (R307, R312, R314, R320). -/

namespace Sys2Proof.Machine

variable {R Q : State → State → Prop} {E : Abort → State → State → Prop}

/-! ### The parts of the sequences -/

/-- The state in which the normal frame is pushed (R307). -/
def State.entryPrologue (s : State) (kind : ExcKind) : State :=
  ((((s.setExcInService true).setS true).setT false).dropTrace kind).tick (s.cfg.vecCost kind)

/-- The state in which the interrupt frame is pushed (R320). -/
def State.interruptPrologue (s : State) (level : BitVec 3) : State :=
  ((((((s.setExcInService true).setS true).setT false).setMask level).disarm level).setRun .running |>.acknowledged level).tick
    (s.cfg.vecCost .interrupt)

/-- The state in which the address-error frame is pushed (R312). -/
def State.addressErrorPrologue (s : State) : State :=
  (((((s.setAeInService true).setExcInService true).setS true).setT false).setTracePending false).tick (s.cfg.vecCost .addressError)

@[simp] theorem setS_cfg (s : State) (b : Bool) : (s.setS b).cfg = s.cfg := by
  unfold State.setS; split
  · rfl
  · split <;> rfl

theorem dropTrace_cfg (s : State) (k : ExcKind) : (s.dropTrace k).cfg = s.cfg := by
  unfold State.dropTrace; split <;> rfl

/-- The pushes, the vector fetch and the refill of the address-error entry (R312). -/
def addressErrorFetch (addr : Long) (srOld ssw : Word) : M Unit := do
  push32 (← look State.pc)
  push16 srOld
  push16 (← look State.ird)
  push32 (← look fun s => BitVec.ofNat 32 (s.phys addr))
  push16 ssw
  jumpTo (← busRead32 .data (vectorAddress 3))
  refill

theorem exceptionSequence_run (kind : ExcKind) (vector : BitVec 8) (retpc : Long) (s : State) :
    exceptionSequence kind vector retpc s =
      (pushFrameAndVector retpc s.getSr vector >>= fun _ => (assign fun s => s.setExcInService false) >>= fun _ =>
        notify (.exception kind (some vector))) (s.entryPrologue kind) := by
  unfold exceptionSequence
  rw [assign_bind_run, look_bind_run, assign_bind_run, chargeVec_bind_run]
  have h : (((s.setExcInService true).setS true).setT false |>.dropTrace kind).cfg = s.cfg := by simp
  rw [h]
  rfl

theorem addressErrorSequence_run (addr : Long) (dir : Dir) (space : Space) (s : State) :
    addressErrorSequence addr dir space s =
      (addressErrorFetch addr s.getSr (s.specialStatus dir space) >>= fun _ =>
        (assign fun s => (s.setAeInService false).setExcInService false) >>= fun _ =>
          notify (.exception .addressError (some 3))) s.addressErrorPrologue := by
  unfold addressErrorSequence
  rw [look_bind_run, assign_bind_run, look_bind_run, assign_bind_run, chargeVec_bind_run]
  have h : (((((s.setAeInService true).setExcInService true).setS true).setT false).setTracePending false).cfg = s.cfg := by simp
  rw [h]
  unfold addressErrorFetch
  simp only [bind_assoc]
  rfl

theorem interruptSequence_run (level : BitVec 3) (s : State) :
    interruptSequence level s =
      (pushFrameAndVector s.pc s.getSr (vectorOf level s.iackAnswer) >>= fun _ => (assign fun s => s.setExcInService false) >>=
        fun _ => notify (.exception .interrupt (some (vectorOf level s.iackAnswer)))) (s.interruptPrologue level) := by
  unfold interruptSequence
  rw [assign_bind_run, look_bind_run, assign_bind_run, hostIackOf_bind_run, chargeVec_bind_run, look_bind_run]
  have hd : ∀ u : State, (u.disarm level).cfg = u.cfg ∧ (u.disarm level).pc = u.pc ∧ (u.disarm level).iackAnswer = u.iackAnswer := by
    intro u; unfold State.disarm; split <;> simp
  have hS : ∀ u : State, (u.setS true).pc = u.pc ∧ (u.setS true).iackAnswer = u.iackAnswer := by
    intro u; simp
  simp only [acknowledged_fields, tick_fields, setRun_fields, hd, setMask_fields, setT_fields, setS_cfg, setExcInService_fields, hS]
  unfold State.interruptPrologue
  rfl

/-! ### The parts keep what a rule keeps -/

theorem pushFrameAndVector_steps (h : Jumps R Q E) (retpc : Long) (srOld : Word) (vector : BitVec 8) :
    Steps Q E (pushFrameAndVector retpc srOld vector) :=
  Steps.andThen h (h.push32 _) fun _ => Steps.andThen h (h.push16 _) fun _ => Steps.andThen h (h.busRead32 _ _) fun _ =>
    h.jumpOnly _

theorem addressErrorFetch_steps (h : Jumps R Q E) (addr : Long) (srOld ssw : Word) :
    Steps Q E (addressErrorFetch addr srOld ssw) :=
  h.look fun _ => Steps.andThen h (h.push32 _) fun _ => Steps.andThen h (h.push16 _) fun _ => h.look fun _ =>
    Steps.andThen h (h.push16 _) fun _ => h.look fun _ => Steps.andThen h (h.push32 _) fun _ =>
      Steps.andThen h (h.push16 _) fun _ => Steps.andThen h (h.busRead32 _ _) fun _ => h.jumpOnly _

/-- No part of an entry sequence refuses: only the resolver does (R154). -/
def NoRefusal {α : Type} (m : M α) : Prop := ∀ s r u, m s ≠ .error (.refuse r) u

namespace NoRefusal

variable {α β : Type}

theorem bind {m : M α} {k : α → M β} (hm : NoRefusal m) (hk : ∀ a, NoRefusal (k a)) : NoRefusal (m >>= k) := by
  intro s r u h
  obtain h | ⟨a, t, -, h⟩ := bind_eq_error h
  · exact hm _ _ _ h
  · exact hk _ _ _ _ h

theorem assign (f : State → State) : NoRefusal (assign f) := fun _ _ _ h => by cases h
theorem look (f : State → α) : NoRefusal (look f) := fun _ _ _ h => by cases h
theorem notify (e : Event) : NoRefusal (notify e) := fun _ _ _ h => by cases h

theorem push32 (v : Long) : NoRefusal (push32 v) := by
  intro s r u h
  cases hx : isEven s.sp
  · rw [push32_odd hx] at h; cases h
  · rw [push32_run hx] at h; cases h

theorem push16 (v : Word) : NoRefusal (push16 v) := by
  intro s r u h
  cases hx : isEven s.sp
  · rw [push16_odd hx] at h; cases h
  · rw [push16_run hx] at h; cases h

theorem busRead32 (space : Space) (x : Long) : NoRefusal (busRead32 space x) := by
  intro s r u h
  cases hx : isEven x
  · rw [busRead32_odd hx] at h; cases h
  · rw [busRead32_run hx] at h; cases h

theorem refill : NoRefusal refill := by
  intro s r u h
  cases hx : isEven s.pc
  · rw [refill_odd hx] at h; cases h
  · rw [refill_run hx] at h; cases h

theorem pushFrameAndVector (retpc : Long) (srOld : Word) (vector : BitVec 8) :
    NoRefusal (pushFrameAndVector retpc srOld vector) :=
  (push32 _).bind fun _ => (push16 _).bind fun _ => (busRead32 _ _).bind fun _ => (assign _).bind fun _ => refill

theorem addressErrorFetch (addr : Long) (srOld ssw : Word) : NoRefusal (addressErrorFetch addr srOld ssw) :=
  (look _).bind fun _ => (push32 _).bind fun _ => (push16 _).bind fun _ => (look _).bind fun _ => (push16 _).bind fun _ =>
    (look _).bind fun _ => (push32 _).bind fun _ => (push16 _).bind fun _ => (busRead32 _ _).bind fun _ =>
      (assign _).bind fun _ => refill

end NoRefusal

/-! ### What an entry leaves -/

/-- What is the same after an entry, completed or halted: the parameters, a clock that has not fallen, a canonical memory, the
record of the port; supervisor mode is on, and the last notifications tell of an exception. -/
structure Entered (s t : State) : Prop where
  cfg : t.cfg = s.cfg
  clock : s.clock ≤ t.clock
  mem : MemInv s → MemInv t
  port : s.port <:+ t.port
  pipelineBroken : t.pipelineBroken = s.pipelineBroken
  supervisor : t.sr.s = true
  event : ∃ k v, PortCall.notify (.exception k v) ∈ t.port.take 2
  quiet : s.aeInService = false → QuietInv t

/-- How an entry ends: at the handler with the trace flag cleared, or halted, which is notified last. -/
def EndsAs (run : RunState) (t : State) : Prop :=
  (t.run = run ∧ Primed t ∧ t.sr.t = false) ∨ (t.run = .halted ∧ t.port.head? = some (.notify .haltEntry))

/-- What `Kept` still says when the service bits and the run state may have changed. -/
structure Grown (s t : State) : Prop where
  cfg : t.cfg = s.cfg
  clock : s.clock ≤ t.clock
  mem : MemInv s → MemInv t
  port : s.port <:+ t.port
  pipelineBroken : t.pipelineBroken = s.pipelineBroken

theorem Kept.grown {s t : State} (h : Kept s t) : Grown s t := ⟨h.cfg, h.clock, h.mem, h.port, h.pipelineBroken⟩

theorem Grown.trans {s t u : State} (h : Grown s t) (k : Grown t u) : Grown s u :=
  ⟨k.cfg.trans h.cfg, le_trans h.clock k.clock, k.mem ∘ h.mem, h.port.trans k.port, k.pipelineBroken.trans h.pipelineBroken⟩

theorem Grown.of {s t : State} (hc : t.cfg = s.cfg) (hk : s.clock ≤ t.clock) (hm : t.mem = s.mem) (hp : s.port <:+ t.port)
    (hb : t.pipelineBroken = s.pipelineBroken) : Grown s t :=
  ⟨hc, hk, fun h => by rw [MemInv, hm, hc]; exact h, hp, hb⟩

theorem grown_doubleFault (s : State) : Grown s s.doubleFault := by
  unfold State.doubleFault
  apply Grown.of <;> simp
  exact (List.suffix_cons _ _).trans (List.suffix_cons _ _)

theorem grown_addressErrorPrologue (s : State) : Grown s s.addressErrorPrologue := by
  apply Grown.of <;> simp [State.addressErrorPrologue, State.tick]

theorem grown_entryPrologue (s : State) (k : ExcKind) : Grown s (s.entryPrologue k) := by
  unfold State.entryPrologue State.dropTrace
  split <;> apply Grown.of <;> simp [State.tick]

theorem grown_interruptPrologue (s : State) (l : BitVec 3) : Grown s (s.interruptPrologue l) := by
  unfold State.interruptPrologue State.disarm
  split <;> apply Grown.of <;> simp [State.tick, State.acknowledged, State.record]

/-- A double fault from any state in supervisor mode (R314). -/
theorem entered_doubleFault {s u : State} (h : Grown s u) (hs : u.sr.s = true) : Entered s u.doubleFault := by
  have k := h.trans (grown_doubleFault u)
  refine ⟨k.cfg, k.clock, k.mem, k.port, k.pipelineBroken, hs, ⟨.doubleFault, none, ?_⟩, fun _ => ⟨rfl, rfl⟩⟩
  simp [State.doubleFault, State.record]

theorem addressErrorPrologue_sr (s : State) : s.addressErrorPrologue.sr.s = true ∧ s.addressErrorPrologue.sr.t = false := by
  constructor <;> simp [State.addressErrorPrologue]

/-- An address error, serviced from any state, ends in a next state: at its handler, or halted (R312, R314). -/
theorem addressErrorEntry_ends (addr : Long) (dir : Dir) (space : Space) (s : State) (hae : s.aeInService = false) :
    ∃ t, addressErrorEntry addr dir space s = .next t ∧ Entered s t ∧ EndsAs s.run t := by
  have hp := addressErrorPrologue_sr s
  have h1 := addressErrorFetch_steps Steady.rules.toJumps addr s.getSr (s.specialStatus dir space) s.addressErrorPrologue
  have h2 := addressErrorFetch_steps Primed.jumps addr s.getSr (s.specialStatus dir space) s.addressErrorPrologue
  have h3 := NoRefusal.addressErrorFetch addr s.getSr (s.specialStatus dir space) s.addressErrorPrologue
  have hrun : s.addressErrorPrologue.run = s.run := by simp [State.addressErrorPrologue]
  unfold addressErrorEntry
  rw [hae, addressErrorSequence_run]
  cases hm : addressErrorFetch addr s.getSr (s.specialStatus dir space) s.addressErrorPrologue with
  | ok a u =>
    rw [hm] at h1 h2
    rw [bind_ok hm, assign_bind_run]
    have hg := (grown_addressErrorPrologue s).trans h1.toKept.grown
    refine ⟨_, rfl, ⟨hg.cfg, hg.clock, hg.mem, hg.port.trans (List.suffix_cons _ _), hg.pipelineBroken, ?_, ⟨.addressError, some 3, ?_⟩,
      fun _ => ⟨rfl, rfl⟩⟩, .inl ⟨?_, ?_, ?_⟩⟩
    · exact h1.supervisor.trans hp.1
    · exact List.mem_cons_self
    · exact h1.run.trans hrun
    · exact Primed.record (s := (u.setAeInService false).setExcInService false) ⟨h2.even, h2.pc0, h2.ird, h2.irc⟩ _
    · exact h1.traceFlag.trans hp.2
  | error e u =>
    rw [hm] at h1
    rw [bind_error hm]
    match e, hm with
    | .addressError _ _ _, hm =>
      refine ⟨_, rfl, entered_doubleFault ((grown_addressErrorPrologue s).trans h1.toKept.grown) (h1.supervisor.trans hp.1), .inr ⟨rfl, rfl⟩⟩
    | .refuse r, hm => exact absurd hm (h3 r u)

theorem addressErrorEntry_inService (addr : Long) (dir : Dir) (space : Space) (s : State) (hae : s.aeInService = true) :
    addressErrorEntry addr dir space s = .next s.doubleFault := by
  unfold addressErrorEntry
  rw [if_pos hae]

/-- The rest of a normal or interrupt entry, from its prologue. -/
theorem frameEntry_ends {m : M Unit} {s p : State} {kind : ExcKind} {vector : BitVec 8} {retpc : Long} {srOld : Word}
    (hm : m s = (pushFrameAndVector retpc srOld vector >>= fun _ => (assign fun s => s.setExcInService false) >>= fun _ =>
        notify (.exception kind (some vector))) p)
    (hg : Grown s p) (hS : p.sr.s = true) (hT : p.sr.t = false) (hae : p.aeInService = s.aeInService)
    (hq : s.aeInService = false) : ∃ t, runOp m s = .next t ∧ Entered s t ∧ EndsAs p.run t := by
  have h1 := pushFrameAndVector_steps Steady.rules.toJumps retpc srOld vector p
  have h2 := pushFrameAndVector_steps Primed.jumps retpc srOld vector p
  have h3 := NoRefusal.pushFrameAndVector retpc srOld vector p
  unfold runOp
  rw [hm]
  cases hx : pushFrameAndVector retpc srOld vector p with
  | ok a u =>
    rw [hx] at h1 h2
    rw [bind_ok hx, assign_bind_run]
    have k := hg.trans h1.toKept.grown
    refine ⟨_, rfl, ⟨k.cfg, k.clock, k.mem, k.port.trans (List.suffix_cons _ _), k.pipelineBroken,
      h1.supervisor.trans hS,
      ⟨kind, some vector, List.mem_cons_self⟩, fun hs => ⟨?_, rfl⟩⟩, .inl ⟨h1.run, ?_, h1.traceFlag.trans hT⟩⟩
    · exact (h1.aeInService.trans hae).trans hs
    · exact Primed.record (s := u.setExcInService false) ⟨h2.even, h2.pc0, h2.ird, h2.irc⟩ _
  | error e u =>
    rw [hx] at h1
    rw [bind_error hx]
    match e, hx with
    | .refuse r, hx => exact absurd hx (h3 r u)
    | .addressError x d sp, hx =>
      have k := hg.trans h1.toKept.grown
      obtain ⟨t, ht, he, hr⟩ := addressErrorEntry_ends x d sp u ((h1.aeInService.trans hae).trans hq)
      refine ⟨t, ht, ⟨he.cfg.trans k.cfg, le_trans k.clock he.clock, he.mem ∘ k.mem, k.port.trans he.port,
        he.pipelineBroken.trans k.pipelineBroken, he.supervisor,
        he.event, fun _ => he.quiet ((h1.aeInService.trans hae).trans hq)⟩, ?_⟩
      rw [← h1.run]
      exact hr

/-- An exception, taken from any state at a step boundary or in a rule, ends in a next state (R307). -/
theorem takeException_ends (kind : ExcKind) (vector : BitVec 8) (retpc : Long) (s : State) (hq : s.aeInService = false) :
    ∃ t, takeException kind vector retpc s = .next t ∧ Entered s t ∧ EndsAs s.run t := by
  have h : (s.entryPrologue kind).sr.s = true ∧ (s.entryPrologue kind).sr.t = false ∧
      (s.entryPrologue kind).aeInService = s.aeInService ∧ (s.entryPrologue kind).run = s.run := by
    unfold State.entryPrologue State.dropTrace
    split <;> simp
  rw [← h.2.2.2]
  exact frameEntry_ends (exceptionSequence_run kind vector retpc s) (grown_entryPrologue s kind) h.1 h.2.1 h.2.2.1 hq

/-- An interrupt, taken from any state at a step boundary, ends in a next state (R320). -/
theorem takeInterrupt_ends (level : BitVec 3) (s : State) (hq : s.aeInService = false) :
    ∃ t, takeInterrupt level s = .next t ∧ Entered s t ∧ EndsAs .running t := by
  have h : (s.interruptPrologue level).sr.s = true ∧ (s.interruptPrologue level).sr.t = false ∧
      (s.interruptPrologue level).aeInService = s.aeInService ∧ (s.interruptPrologue level).run = .running := by
    unfold State.interruptPrologue State.disarm
    split <;> simp
  have k := frameEntry_ends (interruptSequence_run level s) (grown_interruptPrologue s level) h.1 h.2.1 h.2.2.1 hq
  rw [h.2.2.2] at k
  exact k

end Sys2Proof.Machine
end

