-- ==== Sys2Proof/Laws/Exec.lean ====
section
/-! SUPPORT. What every step does, said once: an instruction completes as its rule keeps it, or enters an exception, or is refused
for a reserved index word; `exec_cases`. -/

namespace Sys2Proof.Machine

variable {R Q : State → State → Prop} {E : Abort → State → State → Prop}

/-! ### The rule of each instruction -/

/-- The rule of an instruction that is neither a trap nor `STOP`, whose meaning is its run. -/
def body : Instr → Option (M Unit)
  | .oriEa size ea => some (immToEa orFn logicRule true .ori size ea)
  | .andiEa size ea => some (immToEa andFn logicRule true .andi size ea)
  | .subi size ea => some (immToEa subFn subRule true .subi size ea)
  | .addi size ea => some (immToEa addFn addRule true .addi size ea)
  | .eoriEa size ea => some (immToEa eorFn logicRule true .eori size ea)
  | .cmpi size ea => some (immToEa subFn cmpRule false .cmpi size ea)
  | .oriCcr => some (immToCcr (· ||| ·))
  | .oriSr => some (immToSr (· ||| ·))
  | .andiCcr => some (immToCcr (· &&& ·))
  | .andiSr => some (immToSr (· &&& ·))
  | .eoriCcr => some (immToCcr (· ^^^ ·))
  | .eoriSr => some (immToSr (· ^^^ ·))
  | .move size src dst => some (moveBody size src dst)
  | .movea size src dst => some (moveaBody size src dst)
  | .moveFromSr ea => some (moveFromSrBody ea)
  | .clr size ea => some (clrBody size ea)
  | .neg size ea => some (negBody size ea)
  | .moveToCcr ea => some (moveToCcrBody ea)
  | .notEa size ea => some (notBody size ea)
  | .moveToSr ea => some (moveToSrBody ea)
  | .swap dn => some (updateD (fun v => longOf (loWord v) (hiWord v)) .l dn)
  | .pea ea => some (peaBody ea)
  | .extW dn => some (updateD (fun v => sext8 (loByte v)) .w dn)
  | .extL dn => some (updateD (fun v => sext16 (loWord v)) .l dn)
  | .tst size ea => some (tstBody size ea)
  | .tas ea => some (tasBody ea)
  | .illegal => none
  | .trap _ => none
  | .moveToUsp an => some (moveToUspBody an)
  | .moveFromUsp an => some (moveFromUspBody an)
  | .reset => some resetBody
  | .nop => some prefetch
  | .stop => none
  | .rte => some returnFromException
  | .rts => some rtsBody
  | .jsr ea => some (jsrBody ea)
  | .jmp ea => some (jmpBody ea)
  | .lea ea an => some (leaBody ea an)
  | .addq q size ea => some (quickToEa addFn addRule .addq q size ea)
  | .subq q size ea => some (quickToEa subFn subRule .subq q size ea)
  | .dbcc cond dn => some (dbccBody cond dn)
  | .bra d8 => some (braBody d8)
  | .bsr d8 => some (bsrBody d8)
  | .bcc cond d8 => some (bccBody cond d8)
  | .moveq d8 dn => some (updateD (fun _ => sext8 d8) .l dn)
  | .orToReg size ea dn => some (eaToReg orFn logicRule .or size ea dn)
  | .orToMem size dn ea => some (regToEa orFn logicRule .or size dn ea)
  | .subToReg size ea dn => some (eaToReg subFn subRule .sub size ea dn)
  | .subToMem size dn ea => some (regToEa subFn subRule .sub size dn ea)
  | .suba size ea an => some (eaToAddr subFn .suba size ea an)
  | .lineA _ => none
  | .cmp size ea dn => some (cmpBody size ea dn)
  | .cmpa size ea an => some (cmpaBody size ea an)
  | .eor size dn ea => some (regToEa eorFn logicRule .eor size dn ea)
  | .cmpm size ay ax => some (cmpmBody size ay ax)
  | .andToReg size ea dn => some (eaToReg andFn logicRule .and size ea dn)
  | .andToMem size dn ea => some (regToEa andFn logicRule .and size dn ea)
  | .mulu ea dn => some (multiply unsignedProduct .mulu ea dn)
  | .muls ea dn => some (multiply signedProduct .muls ea dn)
  | .addToReg size ea dn => some (eaToReg addFn addRule .add size ea dn)
  | .addToMem size dn ea => some (regToEa addFn addRule .add size dn ea)
  | .adda size ea an => some (eaToAddr addFn .adda size ea an)
  | .lineF _ => none

theorem exec_body {i : Instr} {m : M Unit} (h : body i = some m) (s : State) :
    exec i s = if i.descriptor.priv then privileged m s else runOp m s := by
  cases i <;> cases h <;> rfl

theorem alterable_of_memory {ea : Ea} (h : ea.isMemoryAlterable = true) : ea.isAlterable = true := by
  cases ea <;> first | rfl | cases h

theorem alterable_of_data {ea : Ea} (h : ea.isDataAlterable = true) : ea.isAlterable = true := by
  cases ea <;> first | rfl | cases h

/-- Every unprivileged rule of a well-formed instruction is in `Q`. -/
theorem body_steps (h : Rules R Q E) {i : Instr} {m : M Unit} (hw : i.wellFormed = true) (hp : i.descriptor.priv = false)
    (hb : body i = some m) : Steps Q E m := by
  cases i <;> simp only [body, Option.some.injEq, reduceCtorEq] at hb <;> (try subst hb) <;> (try cases hp)
  case oriEa size ea => exact immToEa_steps h _ _ _ _ _ _ (alterable_of_data hw)
  case andiEa size ea => exact immToEa_steps h _ _ _ _ _ _ (alterable_of_data hw)
  case subi size ea => exact immToEa_steps h _ _ _ _ _ _ (alterable_of_data hw)
  case addi size ea => exact immToEa_steps h _ _ _ _ _ _ (alterable_of_data hw)
  case eoriEa size ea => exact immToEa_steps h _ _ _ _ _ _ (alterable_of_data hw)
  case cmpi size ea => exact immToEa_steps h _ _ _ _ _ _ (alterable_of_data hw)
  case oriCcr => exact immToCcr_steps h _
  case andiCcr => exact immToCcr_steps h _
  case eoriCcr => exact immToCcr_steps h _
  case move size src dst =>
    simp only [Instr.wellFormed, Bool.and_eq_true] at hw
    exact moveBody_steps h _ _ _ (alterable_of_data hw.2)
  case movea size src dst => exact moveaBody_steps h _ _ _
  case moveFromSr ea => exact moveFromSrBody_steps h _ (alterable_of_data hw)
  case clr size ea => exact clrBody_steps h _ _ (alterable_of_data hw)
  case neg size ea => exact negBody_steps h _ _ (alterable_of_data hw)
  case moveToCcr ea => exact moveToCcrBody_steps h _
  case notEa size ea => exact notBody_steps h _ _ (alterable_of_data hw)
  case swap dn => exact updateD_steps h _ _ _
  case pea ea => exact peaBody_steps h _ hw
  case extW dn => exact updateD_steps h _ _ _
  case extL dn => exact updateD_steps h _ _ _
  case tst size ea => exact tstBody_steps h _ _
  case tas ea => exact tasBody_steps h _ (alterable_of_data hw)
  case nop => exact h.prefetch
  case rts => exact rtsBody_steps h
  case jsr ea => exact jsrBody_steps h _ hw
  case jmp ea => exact jmpBody_steps h _ hw
  case lea ea an => exact leaBody_steps h _ hw _
  case addq q size ea =>
    simp only [Instr.wellFormed, Bool.and_eq_true] at hw
    exact quickToEa_steps h _ _ _ _ _ _ hw.1
  case subq q size ea =>
    simp only [Instr.wellFormed, Bool.and_eq_true] at hw
    exact quickToEa_steps h _ _ _ _ _ _ hw.1
  case dbcc cond dn => exact dbccBody_steps h _ _
  case bra d8 => exact braBody_steps h _
  case bsr d8 => exact bsrBody_steps h _
  case bcc cond d8 => exact bccBody_steps h _ _
  case moveq d8 dn => exact updateD_steps h _ _ _
  case orToReg size ea dn => exact eaToReg_steps h _ _ _ _ _ _
  case orToMem size dn ea => exact regToEa_steps h _ _ _ _ _ _ (alterable_of_memory hw)
  case subToReg size ea dn => exact eaToReg_steps h _ _ _ _ _ _
  case subToMem size dn ea => exact regToEa_steps h _ _ _ _ _ _ (alterable_of_memory hw)
  case suba size ea an => exact eaToAddr_steps h _ _ _ _ _
  case cmp size ea dn => exact cmpBody_steps h _ _ _
  case cmpa size ea an => exact cmpaBody_steps h _ _ _
  case eor size dn ea => exact regToEa_steps h _ _ _ _ _ _ (alterable_of_data hw)
  case cmpm size ay ax => exact cmpmBody_steps h _ _ _
  case andToReg size ea dn => exact eaToReg_steps h _ _ _ _ _ _
  case andToMem size dn ea => exact regToEa_steps h _ _ _ _ _ _ (alterable_of_memory hw)
  case mulu ea dn => exact multiply_steps h _ _ _ _
  case muls ea dn => exact multiply_steps h _ _ _ _
  case addToReg size ea dn => exact eaToReg_steps h _ _ _ _ _ _
  case addToMem size dn ea => exact regToEa_steps h _ _ _ _ _ _ (alterable_of_memory hw)
  case adda size ea an => exact eaToAddr_steps h _ _ _ _ _

/-- Every privileged rule but `STOP` is in `Q`. -/
theorem privilegedBody_steps (h : PrivilegedRules R Q E) {i : Instr} {m : M Unit} (hp : i.descriptor.priv = true)
    (hb : body i = some m) : Steps Q E m := by
  cases i <;> simp only [body, Option.some.injEq, reduceCtorEq] at hb <;> (try subst hb) <;> (try cases hp)
  case oriSr => exact immToSr_steps h.toRules _ fun s w => h.setSr s _
  case andiSr => exact immToSr_steps h.toRules _ fun s w => h.setSr s _
  case eoriSr => exact immToSr_steps h.toRules _ fun s w => h.setSr s _
  case moveToSr ea => exact moveToSrBody_steps h _
  case moveToUsp an => exact moveToUspBody_steps h.toRules h.setUsp _
  case moveFromUsp an => exact moveFromUspBody_steps h.toRules _
  case reset => exact resetBody_steps h.toRules
  case rte => exact returnFromException_steps h

/-- The privileged rules that cannot leave supervisor mode (R331). -/
theorem stayingBody_steps (h : Rules R Q E) (hu : ∀ s v, R s (s.setUsp v)) (ho : ∀ s w, R s (s.setSr (s.getSr ||| w))) {i : Instr}
    {m : M Unit} (hp : i.descriptor.priv = true) (hl : i.canLeaveSupervisor = false) (hb : body i = some m) : Steps Q E m := by
  cases i <;> simp only [body, Option.some.injEq, reduceCtorEq] at hb <;> (try subst hb) <;> (try cases hp) <;> (try cases hl)
  case oriSr => exact immToSr_steps h _ ho
  case moveToUsp an => exact moveToUspBody_steps h hu _
  case moveFromUsp an => exact moveFromUspBody_steps h _
  case reset => exact resetBody_steps h

/-! ### Two more relations -/

/-- Supervisor mode is not left. -/
theorem staysSupervisor_rules :
    Rules (fun s t => s.sr.s = true → t.sr.s = true) (fun s t => s.sr.s = true → t.sr.s = true) fun _ _ _ => True where
  toChain := ⟨fun _ => id, fun _ _ _ h k => k ∘ h, fun _ _ _ _ _ _ => trivial, fun _ => trivial, fun _ _ _ _ => trivial⟩
  tick _ _ := id
  record _ _ := id
  answered _ _ := id
  writeD _ _ _ := id
  writeA _ _ _ := id
  withCcr _ _ := id
  storeByte _ _ _ := id
  storeWord _ _ _ _ := id
  ext := Steady.rules.ext.mono (fun _ _ h hs => h.supervisor.trans hs) fun _ _ _ _ => trivial
  andThen _ _ _ h k := k ∘ h
  prefetch := Steady.rules.prefetch.mono (fun _ _ h hs => h.supervisor.trans hs) fun _ _ _ _ => trivial
  jump x c hc := (Steady.rules.jump x c hc).mono (fun _ _ h hs => h.supervisor.trans hs) fun _ _ _ _ => trivial
  notifyLast _ _ _ h := h

/-- The only refusal is that of a reserved index word. -/
def ReservedOnly (e : Abort) : Prop := ∀ r, e = .refuse r → r = .reservedIndexWord

theorem reservedOnly_rules : PrivilegedRules (fun _ _ => True) (fun _ _ => True) fun e _ _ => ReservedOnly e where
  toChain := ⟨fun _ => trivial, fun _ _ _ _ _ => trivial, fun _ _ _ _ _ h => h, fun _ r h => by cases h; rfl,
    fun _ _ _ _ r h => by cases h⟩
  tick _ _ := trivial
  record _ _ := trivial
  answered _ _ := trivial
  writeD _ _ _ := trivial
  writeA _ _ _ := trivial
  withCcr _ _ := trivial
  storeByte _ _ _ := trivial
  storeWord _ _ _ _ := trivial
  ext := by
    intro s
    cases h : isEven s.pc
    · rw [readExt_odd h]; exact fun r h => by cases h
    · rw [readExt_run h]; trivial
  andThen _ _ _ _ _ := trivial
  prefetch := by
    intro s
    cases h : isEven s.pc
    · rw [prefetch_odd h]; exact fun r h => by cases h
    · rw [prefetch_run h]; trivial
  jump x c hc := by
    intro s
    obtain ⟨n, hn⟩ := hc (s.setPc x)
    rw [jumpTo_bind_run, bind_ok hn]
    cases h : isEven x
    · rw [refill_odd (by simpa using h)]; exact fun r h => by cases h
    · rw [refill_run (by simpa using h)]; trivial
  notifyLast _ _ _ _ := trivial
  setSr _ _ := trivial
  setUsp _ _ := trivial

/-! ### What an instruction does -/

/-- The state `STOP` leaves when its immediate can be fetched (R173). -/
def State.stopped (s : State) : State :=
  (((((s.extTaken.setSr s.irc).setRun .stopped).sampled).record (.notify .stopInstr))).tick (s.cfg.opCost .stop)

theorem stopBody_run {s : State} (h : isEven s.pc = true) : stopBody s = .ok () s.stopped := by
  unfold stopBody
  rw [bind_ok (readExt_run h), assign_bind_run, assign_bind_run, sampleIpl_bind_run, notify_bind_run]
  have hc : ((((s.extTaken.setSr s.irc).setRun .stopped).sampled).record (.notify .stopInstr)).cfg = s.cfg := by
    simp [(SameCore.extTaken s).cfg]
  unfold chargeOp
  rw [look_bind_run, hc]
  rfl

/-- How an instruction ends: by its own rule, by `STOP`, or at the handler of an exception. -/
inductive Ran (i : Instr) (s t : State) : Prop where
  | completed (kept : Steady s t) (primed : Ahead s → Primed t)
  | privileged (supervisor : s.sr.s = true) (priv : i.descriptor.priv = true) (notStop : i ≠ .stop) (kept : Kept s t)
      (primed : Ahead s → Primed t) (stays : i.canLeaveSupervisor = false → t.sr.s = true)
  | stopped (stop : i = .stop) (supervisor : s.sr.s = true) (even : isEven s.pc = true) (state : t = s.stopped)
  | entered (state : Entered s t) (ends : EndsAs s.run t)

/-- A rule's address error, serviced in the same step (R124). -/
theorem entered_of_abort {s u : State} (hk : Kept s u) (hae : s.aeInService = false) (x : Long) (d : Dir) (sp : Space) :
    ∃ t, addressErrorEntry x d sp u = .next t ∧ Entered s t ∧ EndsAs s.run t := by
  obtain ⟨t, ht, he, hr⟩ := addressErrorEntry_ends x d sp u (hk.aeInService.trans hae)
  refine ⟨t, ht, ⟨he.cfg.trans hk.cfg, le_trans hk.clock he.clock, he.mem ∘ hk.mem, hk.port.trans he.port,
    he.pipelineBroken.trans hk.pipelineBroken, he.supervisor,
    he.event, fun _ => he.quiet (hk.aeInService.trans hae)⟩, ?_⟩
  rw [← hk.run]
  exact hr

theorem exec_cases {i : Instr} (hw : i.wellFormed = true) (s : State) (hae : s.aeInService = false) :
    exec i s = .refused .reservedIndexWord ∨ ∃ t, exec i s = .next t ∧ Ran i s t := by
  have trap : ∀ k v r, exec i s = takeException k v r s →
      exec i s = .refused .reservedIndexWord ∨ ∃ t, exec i s = .next t ∧ Ran i s t := by
    intro k v r h
    obtain ⟨t, ht, he, hr⟩ := takeException_ends k v r s hae
    exact .inr ⟨t, h.trans ht, .entered he hr⟩
  cases hb : body i with
  | none =>
    cases i <;> first | (exfalso; cases hb; done) | skip
    case illegal => exact trap _ _ _ rfl
    case trap v => exact trap _ _ _ rfl
    case lineA low => exact trap _ _ _ rfl
    case lineF low => exact trap _ _ _ rfl
    case stop =>
      cases hs : s.sr.s
      · refine trap .privilegeViolation 8 s.pc0 ?_
        show privileged stopBody s = _
        rw [Machine.privileged, if_neg (by simp [hs])]
      · have hx : exec .stop s = runOp stopBody s := by
          show privileged stopBody s = _
          rw [Machine.privileged, if_pos hs]
        rw [hx]
        unfold runOp
        cases he : isEven s.pc
        · have ho : stopBody s = .error (.addressError (s.pc + 2) .read .prog) (s.setPc (s.pc + 2)) := by
            unfold stopBody
            rw [bind_error (readExt_odd he)]
          rw [ho]
          obtain ⟨t, ht, h1, h2⟩ := entered_of_abort (Steady.setPc s (s.pc + 2)).toKept hae (s.pc + 2) .read .prog
          exact .inr ⟨t, ht, .entered h1 h2⟩
        · rw [stopBody_run he]
          exact .inr ⟨_, rfl, .stopped rfl hs he rfl⟩
  | some m =>
    rw [exec_body hb]
    cases hp : i.descriptor.priv
    · have h1 := body_steps Steady.rules hw hp hb s
      have h2 := body_steps Primed.rules.toRules hw hp hb s
      have h3 := body_steps reservedOnly_rules.toRules hw hp hb s
      simp only [Bool.false_eq_true, if_false]
      unfold runOp
      cases hm : m s with
      | ok a t =>
        rw [hm] at h1 h2
        exact .inr ⟨t, rfl, .completed h1 h2⟩
      | error e u =>
        rw [hm] at h1 h3
        match e, h3 with
        | .refuse r, h3 => cases h3 r rfl; exact .inl rfl
        | .addressError x d sp, _ =>
          obtain ⟨t, ht, k1, k2⟩ := entered_of_abort h1.toKept hae x d sp
          exact .inr ⟨t, ht, .entered k1 k2⟩
    · rw [if_pos rfl, Machine.privileged]
      cases hs : s.sr.s
      · obtain ⟨t, ht, he, hr⟩ := takeException_ends .privilegeViolation 8 s.pc0 s hae
        exact .inr ⟨t, ht, .entered he hr⟩
      · have h1 := privilegedBody_steps Kept.rules hp hb s
        have h2 := privilegedBody_steps Primed.rules hp hb s
        have h3 := privilegedBody_steps reservedOnly_rules hp hb s
        simp only [if_true]
        unfold runOp
        cases hm : m s with
        | ok a t =>
          rw [hm] at h1 h2
          refine .inr ⟨t, rfl, .privileged hs hp (fun e => by subst e; cases hb) h1 h2 fun hl => ?_⟩
          have h4 := stayingBody_steps staysSupervisor_rules (fun _ _ => id)
            (fun s w hs => by
              rw [setSr_sr]
              show (s.getSr ||| w).getLsbD 13 = true
              rw [BitVec.getLsbD_or, (getSr_fields s).2.1, hs]
              rfl) hp hl hb s
          rw [hm] at h4
          exact h4 hs
        | error e u =>
          rw [hm] at h1 h3
          match e, h3 with
          | .refuse r, h3 => cases h3 r rfl; exact .inl rfl
          | .addressError x d sp, _ =>
            obtain ⟨t, ht, k1, k2⟩ := entered_of_abort h1 hae x d sp
            exact .inr ⟨t, ht, .entered k1 k2⟩

end Sys2Proof.Machine
end

