-- ==== Sys2Proof/Laws/Rules.lean ====
section
/-! SUPPORT. How each pattern of rules runs when its operands can be accessed: the exact state it ends in, and what that state has in
common with the starting state. -/

namespace Sys2Proof.Machine

/-! ### The end of a rule -/

theorem finish_run {s : State} (h : isEven s.pc = true) (k : CostKey) :
    (chargeOp k >>= fun _ => prefetch) s = .ok () (s.finished (s.cfg.opCost k)) := by
  rw [chargeOp_bind_run]
  exact prefetch_run h

theorem finished_core {s t : State} (h : SameCore s t) (n : Nat) : SameCore s (t.finished n) :=
  (h.trans (SameCore.tick _ n)).trans (SameCore.prefetched _)

theorem prefetched_core {s t : State} (h : SameCore s t) : SameCore s t.prefetched := h.trans (SameCore.prefetched _)

theorem refilled_core {s t : State} (h : SameCore s t) : SameCore s t.refilled := h.trans (SameCore.refilled _)

theorem runOp_ok {m : M Unit} {s t : State} (h : m s = .ok () t) : runOp m s = .next t := by
  unfold runOp; rw [h]

/-- An address error leaves a rule for its entry, in the state as it stands (R124). -/
theorem runOp_abort {m : M Unit} {s t : State} {x : Long} {d : Dir} {sp : Space} (h : m s = .error (.addressError x d sp) t) :
    runOp m s = addressErrorEntry x d sp t := by
  unfold runOp; rw [h]

theorem privileged_abort {m : M Unit} {s t : State} {x : Long} {d : Dir} {sp : Space} (hs : s.sr.s = true)
    (h : m s = .error (.addressError x d sp) t) : privileged m s = addressErrorEntry x d sp t := by
  unfold privileged; rw [if_pos hs]; exact runOp_abort h

theorem privileged_ok {m : M Unit} {s t : State} (hs : s.sr.s = true) (h : m s = .ok () t) : privileged m s = .next t := by
  unfold privileged; rw [if_pos hs]; exact runOp_ok h

/-! ### Bytes -/

@[simp] theorem adjusted_mem (s : State) (ea : Ea) (size : Size) : (s.adjusted ea size).mem = s.mem := by
  cases ea <;> rfl

@[simp] theorem adjusted_cfg (s : State) (ea : Ea) (size : Size) : (s.adjusted ea size).cfg = s.cfg := by
  cases ea <;> rfl

@[simp] theorem adjusted_sr (s : State) (ea : Ea) (size : Size) : (s.adjusted ea size).sr = s.sr := by
  cases ea <;> rfl

@[simp] theorem adjusted_d (s : State) (ea : Ea) (size : Size) : (s.adjusted ea size).d = s.d := by
  cases ea <;> rfl

theorem sameBytes_of {s t : State} (h : t.mem = s.mem) : SameBytes s t := fun p => by rw [h]

theorem storesTo_congr {s t : State} (h : t.cfg = s.cfg) (x : Long) (size : Size) (p : Nat) :
    storesTo t x size p ↔ storesTo s x size p := by simp [storesTo, State.phys, h]

/-- The frame of a store: the bytes outside the written location read as before. -/
theorem sameBytesBut_stored {s e t : State} {ea : Ea} {loc : Loc} {size : Size} (hl : LocFits ea size loc) (v : Long)
    (hc : e.cfg = s.cfg) (hm : e.mem = s.mem) (ht : t.mem = (e.stored loc size v).mem) :
    SameBytesBut (loc.storesTo s size) s t := by
  intro p hp
  rw [ht]
  cases loc with
  | mem x sp =>
    have hx := hl.aligned x sp rfl
    show (e.storedMem x size v).readByte p = _
    rw [readByte_storedMem hx (fun h => hp ((storesTo_congr hc x size p).1 h)), hm]
  | dreg r => exact congrArg (Memory.readByte · p) hm
  | areg r => exact congrArg (Memory.readByte · p) hm
  | imm w => exact congrArg (Memory.readByte · p) hm

/-! ### What a ready operand's read leaves -/

theorem readOp_ready_even {ea : Ea} {size : Size} {s : State} (h : OperandReady ea size s) (hp : isEven s.pc = true) :
    ∃ v loc u, readOp ea size s = .ok (v, loc) u ∧ SameCore (s.adjusted ea size) u ∧ LocFits ea size loc ∧
      isEven u.pc = true := by
  obtain ⟨v, loc, u, hr, hc, hl, -, -, he⟩ := readOp_ready h
  exact ⟨v, loc, u, hr, hc, hl, he.trans hp⟩

theorem core_ccr {s u : State} {ea : Ea} {size : Size} (h : SameCore (s.adjusted ea size) u) : u.sr.ccr = s.sr.ccr := by
  rw [h.sr, adjusted_sr]

theorem core_cfg {s u : State} {ea : Ea} {size : Size} (h : SameCore (s.adjusted ea size) u) : u.cfg = s.cfg := by
  rw [h.cfg, adjusted_cfg]

theorem core_d {s u : State} {ea : Ea} {size : Size} (h : SameCore (s.adjusted ea size) u) (r : RegNum) : u.readD r = s.readD r := by
  simp [State.readD, h.d]

theorem core_dPart {s u : State} {ea : Ea} {size : Size} (h : SameCore (s.adjusted ea size) u) (r : RegNum) (size' : Size) :
    u.readDPart r size' = s.readDPart r size' := by simp [State.readDPart, core_d h]

@[simp] theorem locWritten_cfg (s : State) (loc : Loc) (size : Size) (v : Long) : (s.locWritten loc size v).cfg = s.cfg := by
  rw [(locWritten_core s loc size v).cfg]
  cases loc <;> rfl

@[simp] theorem locWritten_sr (s : State) (loc : Loc) (size : Size) (v : Long) : (s.locWritten loc size v).sr = s.sr := by
  rw [(locWritten_core s loc size v).sr]
  cases loc <;> rfl

/-! ### The patterns of R256 -/

theorem eaToReg_run {f : Long → Long → Long} {rule : FlagRule} {kind : AluKind} {size : Size} {ea : Ea} {dn : RegNum} {s u : State}
    {v : Long} {loc : Loc} (h : readOp ea size s = .ok (v, loc) u) (he : isEven u.pc = true) :
    eaToReg f rule kind size ea dn s = .ok ()
      (((u.writeDPart dn size (trunc size (f v (u.readDPart dn size)))).withCcr
        (rule u.sr.ccr v (u.readDPart dn size) (trunc size (f v (u.readDPart dn size))) size)).finished
          (u.cfg.opCost (.alu kind size ea.mode))) := by
  unfold eaToReg
  rw [bind_ok h]
  dsimp only
  rw [look_bind_run, assign_bind_run]
  unfold setFlags
  rw [assign_bind_run, finish_run (by simpa using he)]
  simp

theorem regToEa_run {f : Long → Long → Long} {rule : FlagRule} {kind : AluKind} {size : Size} {ea : Ea} {dn : RegNum} {s u : State}
    {d : Long} {loc : Loc} (h : readOp ea size s = .ok (d, loc) u) (hl : LocFits ea size loc) (ha : ea.isAlterable = true)
    (he : isEven u.pc = true) :
    regToEa f rule kind size dn ea s = .ok ()
      (((u.locWritten loc size (trunc size (f (s.readDPart dn size) d))).withCcr
        (rule u.sr.ccr (s.readDPart dn size) d (trunc size (f (s.readDPart dn size) d)) size)).finished
          (u.cfg.opCost (.alu kind size ea.mode))) := by
  unfold regToEa
  rw [look_bind_run, bind_ok h]
  dsimp only
  rw [bind_ok (writeLoc_run hl ha _ u)]
  unfold setFlags
  rw [assign_bind_run, finish_run (by simpa using he)]
  simp

theorem immToEa_run {f : Long → Long → Long} {rule : FlagRule} {kind : AluKind} {size : Size} {ea : Ea} {s u : State}
    {d : Long} {loc : Loc} (hp : isEven s.pc = true) (h : readOp ea size (s.immTaken size) = .ok (d, loc) u)
    (hl : LocFits ea size loc) (ha : ea.isAlterable = true) (he : isEven u.pc = true) :
    immToEa f rule true kind size ea s = .ok ()
      (((u.locWritten loc size (trunc size (f (s.immNext size) d))).withCcr
        (rule u.sr.ccr (s.immNext size) d (trunc size (f (s.immNext size) d)) size)).finished
          (u.cfg.opCost (.alu kind size ea.mode))) := by
  unfold immToEa
  rw [bind_ok (readImm_run hp size), bind_ok h]
  dsimp only
  rw [bind_ok (show writeLocIf true loc size _ u = _ from writeLoc_run hl ha _ u)]
  unfold setFlags
  rw [assign_bind_run, finish_run (by simpa using he)]
  simp

theorem immToEa_compare_run {f : Long → Long → Long} {rule : FlagRule} {kind : AluKind} {size : Size} {ea : Ea} {s u : State}
    {d : Long} {loc : Loc} (hp : isEven s.pc = true) (h : readOp ea size (s.immTaken size) = .ok (d, loc) u)
    (he : isEven u.pc = true) :
    immToEa f rule false kind size ea s = .ok ()
      ((u.withCcr (rule u.sr.ccr (s.immNext size) d (trunc size (f (s.immNext size) d)) size)).finished
          (u.cfg.opCost (.alu kind size ea.mode))) := by
  unfold immToEa
  rw [bind_ok (readImm_run hp size), bind_ok h]
  dsimp only
  rw [bind_ok (show writeLocIf false loc size _ u = .ok () u from rfl)]
  unfold setFlags
  rw [assign_bind_run, finish_run (by simpa using he)]
  simp

theorem immTaken_adjusted {s u : State} {ea : Ea} {size : Size}
    (h : SameCore ((s.immTaken size).adjusted ea size) u) : SameCore (s.adjusted ea size) u :=
  ((SameCore.immTaken s size).adjusted ea size).trans h

/-! ### Control -/

theorem jump_run {x : Long} (hx : isEven x = true) (k : CostKey) (s : State) :
    (jumpTo x >>= fun _ => chargeOp k >>= fun _ => refill) s = .ok () (((s.setPc x).tick (s.cfg.opCost k)).refilled) := by
  rw [jumpTo_bind_run, chargeOp_bind_run]
  exact refill_run (by simpa using hx)

theorem call_run {x : Long} (hx : isEven x = true) (k : CostKey) (e : Event) (s : State) :
    (jumpTo x >>= fun _ => chargeOp k >>= fun _ => refill >>= fun _ => notify e) s =
      .ok () ((((s.setPc x).tick (s.cfg.opCost k)).refilled).record (.notify e)) := by
  rw [jumpTo_bind_run, chargeOp_bind_run, bind_ok (refill_run (by simpa using hx))]
  rfl

/-- A transfer to an odd target ends in its refill, with `pc` at the target and the internal charge made (R129, R201). -/
theorem jump_odd {x : Long} (hx : isEven x = false) (k : CostKey) (s : State) :
    (jumpTo x >>= fun _ => chargeOp k >>= fun _ => refill) s =
      .error (.addressError x .read .prog) ((s.setPc x).tick (s.cfg.opCost k)) := by
  rw [jumpTo_bind_run, chargeOp_bind_run]
  exact refill_odd (by simpa using hx)

theorem call_odd {x : Long} (hx : isEven x = false) (k : CostKey) (e : Event) (s : State) :
    (jumpTo x >>= fun _ => chargeOp k >>= fun _ => refill >>= fun _ => notify e) s =
      .error (.addressError x .read .prog) ((s.setPc x).tick (s.cfg.opCost k)) := by
  rw [jumpTo_bind_run, chargeOp_bind_run, bind_error (refill_odd (by simpa using hx))]
  rfl

@[simp] theorem refilled_pc (s : State) : s.refilled.pc = s.pc := (refilled_pipeline s).pc

@[simp] theorem finished_pc (s : State) (n : Nat) : (s.finished n).pc = s.pc := by
  rw [State.finished, (prefetched_pipeline _).pc]
  simp

theorem longPushed_core (s : State) (v : Long) : SameCore (s.pushed .l v) (s.longPushed v) := by
  have h := sizeWritten_core (s.writeA 7 (s.sp - 4)) (s.sp - 4) v .l .data
  exact h

theorem push32_run' {s : State} (h : isEven s.sp = true) (v : Long) : push32 v s = .ok () (s.longPushed v) := push32_run h v

@[simp] theorem longPushed_pc (s : State) (v : Long) : (s.longPushed v).pc = s.pc := by
  have h := (sizeWritten_pipeline (s.writeA 7 (s.sp - 4)) (s.sp - 4) v .l).1
  exact h

theorem longPushed_cfg (s : State) (v : Long) : (s.longPushed v).cfg = s.cfg := by
  rw [(longPushed_core s v).cfg]; rfl

/-- The frame of a push of a long. -/
theorem sameBytesBut_pushed {s t : State} {v : Long} (h : isEven s.sp = true) (ht : t.mem = (s.pushed .l v).mem) :
    SameBytesBut (storesTo s (s.sp - 4) .l) s t := by
  intro p hp
  rw [ht]
  have hx : alignedFor .l (s.sp - 4) = true := by simpa [alignedFor] using h
  show ((s.writeA 7 (s.sp - 4)).storedMem (s.sp - 4) .l v).readByte p = _
  exact readByte_storedMem (s := s.writeA 7 (s.sp - 4)) hx (fun h => hp ((storesTo_congr rfl _ _ p).1 h)) v

end Sys2Proof.Machine
end

