-- ==== Sys2Proof/Laws/Frames.lean ====
section
/-! SUPPORT. The exact state each entry sequence ends in when its stack and its handler are even (R307, R312, R320). -/

namespace Sys2Proof.Machine

/-! ### What the host answers -/

/-- The host answers the same to the coming reads. -/
structure SameAnswers (s t : State) : Prop where
  cfg : t.cfg = s.cfg
  mem : t.mem = s.mem
  hostReads : t.hostReads = s.hostReads

namespace SameAnswers

variable {s t : State}

theorem phys (h : SameAnswers s t) (x : Long) : t.phys x = s.phys x := by simp [State.phys, h.cfg]

theorem answer16 (h : SameAnswers s t) (p : Nat) : t.answer16 p = s.answer16 p := by
  simp [State.answer16, h.hostReads, h.mem]

theorem wordRead (h : SameAnswers s t) (x y : Long) (b c : Bool) : SameAnswers (s.wordRead x b) (t.wordRead y c) := by
  constructor <;> cases b <;> cases c <;> simp [State.wordRead, h.cfg, h.mem, h.hostReads]

theorem answer32 (h : SameAnswers s t) (x : Long) : t.answer32 x = s.answer32 x := by
  simp only [State.answer32, h.phys, h.answer16, (h.wordRead x x false false).answer16]

theorem longRead (h : SameAnswers s t) (x : Long) : SameAnswers (s.longRead x) (t.longRead x) :=
  (h.wordRead x x false false).wordRead _ _ false false

theorem refilled (h : SameAnswers s t) (hp : t.pc = s.pc) {u : State} (hr : Refilled t u) : Refilled s u := by
  obtain ⟨h1, h2, h3, h4⟩ := hr
  constructor
  · rw [h1, hp]
  · rw [h2, hp]
  · rw [h3, hp, h.answer16, h.phys]
  · rw [h4, hp, (h.wordRead s.pc s.pc false false).answer16, h.phys]

theorem of_core (h : SameCore s t) (hr : t.hostReads = s.hostReads) : SameAnswers s t := ⟨h.cfg, h.mem, hr⟩

end SameAnswers

/-! ### The clock -/

@[simp] theorem wordRead_clock (s : State) (x : Long) (p : Bool) : (s.wordRead x p).clock = s.clock + 4 := by
  unfold State.wordRead; cases p <;> simp [State.tick, cBusSetup, cBusDone] <;> omega

@[simp] theorem longRead_clock (s : State) (x : Long) : (s.longRead x).clock = s.clock + 8 := by
  simp [State.longRead]; omega

@[simp] theorem extTaken_clock (s : State) : s.extTaken.clock = s.clock + 4 := by simp [State.extTaken]

@[simp] theorem prefetched_clock (s : State) : s.prefetched.clock = s.clock + 4 := by simp [State.prefetched]

@[simp] theorem refilled_clock (s : State) : s.refilled.clock = s.clock + 8 := by simp [State.refilled]; omega

@[simp] theorem wordWritten_clock (s : State) (x : Long) (v : Word) : (s.wordWritten x v).clock = s.clock + 4 := by
  simp [State.wordWritten, State.tick, cBusSetup, cBusDone]; omega

@[simp] theorem longWritten_clock (s : State) (x v : Long) : (s.longWritten x v).clock = s.clock + 8 := by
  simp [State.longWritten]; omega

@[simp] theorem longPushed_clock (s : State) (v : Long) : (s.longPushed v).clock = s.clock + 8 := by
  simp [State.longPushed]

/-! ### Pushes -/

/-- The state after an aligned `Push16` (R75). -/
def State.wordPushed (s : State) (v : Word) : State := (s.writeA 7 (s.sp - 2)).wordWritten (s.sp - 2) v

@[simp] theorem wordPushed_clock (s : State) (v : Word) : (s.wordPushed v).clock = s.clock + 4 := by
  simp [State.wordPushed]

theorem wordPushed_core (s : State) (v : Word) : SameCore (s.pushed .w (v.setWidth 32)) (s.wordPushed v) := by
  have h := sizeWritten_core (s.writeA 7 (s.sp - 2)) (s.sp - 2) (v.setWidth 32) .w .data
  simpa [State.sizeWritten, loWord_setWidth, State.pushed, State.wordPushed, Size.bytes] using h

theorem push16_run' {s : State} (h : isEven s.sp = true) (v : Word) : push16 v s = .ok () (s.wordPushed v) := push16_run h v

@[simp] theorem longPushed_fields (s : State) (v : Long) : (s.longPushed v).sp = s.sp - 4 ∧ (s.longPushed v).cfg = s.cfg ∧
    (s.longPushed v).hostReads = s.hostReads ∧ (s.longPushed v).pc = s.pc ∧ (s.longPushed v).ird = s.ird ∧
    (s.longPushed v).iplAnswer = s.iplAnswer ∧ (s.longPushed v).nmiArmed = s.nmiArmed ∧ (s.longPushed v).run = s.run ∧
    (s.longPushed v).sr = s.sr := by
  refine ⟨?_, ?_, ?_, ?_, ?_, ?_, ?_, ?_, ?_⟩ <;>
    simp [State.longPushed, State.longWritten, State.wordWritten, State.sp, State.readA, State.writeA, State.iplAnswer]

@[simp] theorem wordPushed_fields (s : State) (v : Word) : (s.wordPushed v).sp = s.sp - 2 ∧ (s.wordPushed v).cfg = s.cfg ∧
    (s.wordPushed v).hostReads = s.hostReads ∧ (s.wordPushed v).pc = s.pc ∧ (s.wordPushed v).ird = s.ird ∧
    (s.wordPushed v).iplAnswer = s.iplAnswer ∧ (s.wordPushed v).nmiArmed = s.nmiArmed ∧ (s.wordPushed v).run = s.run ∧
    (s.wordPushed v).sr = s.sr := by
  refine ⟨?_, ?_, ?_, ?_, ?_, ?_, ?_, ?_, ?_⟩ <;>
    simp [State.wordPushed, State.wordWritten, State.sp, State.readA, State.writeA, State.iplAnswer]

@[simp] theorem pushed_sp (s : State) (size : Size) (v : Long) : (s.pushed size v).sp = s.sp - BitVec.ofNat 32 size.bytes := by
  simp [State.pushed, State.stored, State.sp, State.readA, State.writeA]

@[simp] theorem pushed_fields (s : State) (size : Size) (v : Long) : (s.pushed size v).cfg = s.cfg ∧
    (s.pushed size v).hostReads = s.hostReads ∧ (s.pushed size v).sr = s.sr ∧ (s.pushed size v).run = s.run ∧
    (s.pushed size v).tracePending = s.tracePending ∧ (s.pushed size v).clock = s.clock := by
  refine ⟨?_, ?_, ?_, ?_, ?_, ?_⟩ <;> simp [State.pushed, State.stored]

/-! ### The two shorter entries (R307, R320) -/

/-- The frame pushed from a prologue. -/
def State.framePushed (p : State) (retpc : Long) (srOld : Word) : State := (p.longPushed retpc).wordPushed srOld

theorem pushFrameAndVector_run {p : State} (hsp : isEven p.sp = true) {retpc : Long} {srOld : Word} {vector : BitVec 8}
    (hh : isEven ((p.framePushed retpc srOld).handler vector) = true) :
    pushFrameAndVector retpc srOld vector p = .ok () ((p.framePushed retpc srOld).atHandler vector).refilled := by
  unfold pushFrameAndVector
  rw [bind_ok (push32_run' hsp retpc), bind_ok (push16_run' (by simpa using hsp) srOld),
    bind_ok (busRead32_run (isEven_vectorAddress vector) .data _), jumpTo_bind_run]
  exact refill_run hh

theorem framePushed_core (p : State) (retpc : Long) (srOld : Word) :
    SameCore ((p.pushed .l retpc).pushed .w (srOld.setWidth 32)) (p.framePushed retpc srOld) :=
  ((longPushed_core p retpc).pushed .w _).trans (wordPushed_core _ srOld)

theorem atHandler_core (f : State) (vector : BitVec 8) : SameCore f (f.atHandler vector) :=
  (SameCore.longRead f _).trans (SameCore.setPc _ _)

theorem SameAnswers.atHandler {s t : State} (h : SameAnswers s t) (v : BitVec 8) :
    SameAnswers (s.atHandler v) (t.atHandler v) ∧ (t.atHandler v).pc = (s.atHandler v).pc := by
  refine ⟨?_, ?_⟩
  · have k := h.longRead (vectorAddress v)
    exact ⟨k.cfg, k.mem, k.hostReads⟩
  · show t.answer32 _ = s.answer32 _
    exact h.answer32 _

theorem SameAnswers.handler {s t : State} (h : SameAnswers s t) (v : BitVec 8) : t.handler v = s.handler v := h.answer32 _

/-- The frame of an entry's 6 bytes: bytes outside them read as before. -/
theorem frame_bytes {s e : State} {retpc : Long} {w : Long} (hsp : isEven e.sp = true) (hc : e.cfg = s.cfg)
    (hm : e.mem = s.mem) :
    SameBytesBut (fun p => storesTo s (e.sp - 4) .l p ∨ storesTo s (e.sp - 6) .w p) s ((e.pushed .l retpc).pushed .w w) := by
  intro p hp
  have h1 : ¬ storesTo s (e.sp - 4) .l p := fun h => hp (.inl h)
  have h2 : ¬ storesTo s (e.sp - 6) .w p := fun h => hp (.inr h)
  have ha : e.sp - 4 - 2 = e.sp - 6 := by rw [BitVec.sub_sub]; rfl
  have hs : (e.pushed .l retpc).sp = e.sp - 4 := pushed_sp _ _ _
  show (((e.pushed .l retpc).writeA 7 ((e.pushed .l retpc).sp - 2)).storedMem ((e.pushed .l retpc).sp - 2) .w w).readByte p = _
  rw [hs, ha, readByte_storedMem (by simpa [alignedFor, isEven_sub_even] using hsp)
    (fun h => h2 ((storesTo_congr (by simp [hc]) _ _ p).1 h))]
  show ((e.writeA 7 (e.sp - 4)).storedMem (e.sp - 4) .l retpc).readByte p = _
  rw [readByte_storedMem (by simpa [alignedFor] using hsp) (fun h => h1 ((storesTo_congr (by simp [hc]) _ _ p).1 h))]
  exact congrArg (Memory.readByte · p) hm

theorem setS_setExcInService (s : State) (b c : Bool) : (s.setExcInService b).setS c = (s.setS c).setExcInService b := by
  unfold State.setS
  show (if c = s.sr.s then _ else _) = _
  split
  · rfl
  · split <;> rfl

theorem setS_setAeInService (s : State) (b c : Bool) : (s.setAeInService b).setS c = (s.setS c).setAeInService b := by
  unfold State.setS
  show (if c = s.sr.s then _ else _) = _
  split
  · rfl
  · split <;> rfl

/-- The refill at a handler samples the level; the vector's fetch does not (R317). -/
theorem atHandler_sampled (f : State) (vector : BitVec 8) : (f.atHandler vector).refilled.iplPolled = f.iplAnswer ∧
    (f.atHandler vector).refilled.nmiArmed = (f.nmiArmed || f.iplAnswer != 7) := by
  simp [State.atHandler, State.longRead, State.refilled, State.prefetched, State.wordRead]

/-- The level an entry samples is the one the host answers when it began. -/
theorem entered_sampled (s : State) (kind : ExcKind) (vector : BitVec 8) (retpc : Long) :
    (((s.entryPrologue kind).framePushed retpc s.getSr).atHandler vector).refilled.iplPolled = s.iplAnswer ∧
    (((s.entryPrologue kind).framePushed retpc s.getSr).atHandler vector).refilled.nmiArmed = (s.nmiArmed || s.iplAnswer != 7) := by
  have h := atHandler_sampled ((s.entryPrologue kind).framePushed retpc s.getSr) vector
  have hd : (s.entryPrologue kind).nmiArmed = s.nmiArmed ∧ (s.entryPrologue kind).iplAnswer = s.iplAnswer := by
    unfold State.entryPrologue State.dropTrace
    split <;> simp
  rw [h.1, h.2]
  simp [State.framePushed, hd]

/-- An exception whose stack and handler are even enters its handler (R307). -/
theorem takeException_enters {kind : ExcKind} {vector : BitVec 8} {retpc : Long} {s : State}
    (h : EntryReady kind vector retpc s) :
    ∃ t, takeException kind vector retpc s = .next t ∧ Enters kind vector retpc s t := by
  obtain ⟨hsp, hh⟩ := h
  have hd : ∀ u : State, (u.dropTrace kind).sp = u.sp ∧ (u.dropTrace kind).clock = u.clock ∧ (u.dropTrace kind).cfg = u.cfg ∧
      (u.dropTrace kind).mem = u.mem ∧ (u.dropTrace kind).hostReads = u.hostReads := by
    intro u; unfold State.dropTrace; split <;> simp
  have hpsp : (s.entryPrologue kind).sp = s.supervisorSp := by
    simp [State.entryPrologue, hd, State.supervisorSp]
  have hpe : isEven (s.entryPrologue kind).sp = true := by rw [hpsp]; exact hsp
  have hcore : SameCore ((((s.setS true).setT false).dropTrace kind).setExcInService false)
      ((s.entryPrologue kind).setExcInService false) := by
    refine SameCore.trans ?_ ((SameCore.tick _ (s.cfg.vecCost kind)).setExcInService false)
    rw [setS_setExcInService]
    unfold State.dropTrace
    split <;> exact SameCore.refl _
  have hc : SameCore (s.exceptionFrame kind retpc) (((s.entryPrologue kind).framePushed retpc s.getSr).setExcInService false) := by
    have h1 := framePushed_core (s.entryPrologue kind) retpc s.getSr
    exact ((hcore.pushed .l retpc).pushed .w _).trans (h1.setExcInService false)
  have hr : (s.exceptionFrame kind retpc).hostReads = s.hostReads := by simp [State.exceptionFrame]
  have ha : SameAnswers (s.exceptionFrame kind retpc) ((s.entryPrologue kind).framePushed retpc s.getSr) := by
    refine ⟨hc.cfg, hc.mem, ?_⟩
    rw [hr]
    simp [State.framePushed, State.entryPrologue]
  have hrun := pushFrameAndVector_run hpe (by rw [ha.handler]; exact hh)
  have hx : takeException kind vector retpc s = .next
      (((((s.entryPrologue kind).framePushed retpc s.getSr).atHandler vector).refilled.setExcInService false).record
        (.notify (.exception kind (some vector)))) := by
    unfold takeException
    refine runOp_ok ?_
    rw [exceptionSequence_run, bind_ok hrun, assign_bind_run]
    rfl
  refine ⟨_, hx, ?_⟩
  have hcore2 : SameCore (s.exceptionFrame kind retpc) (((((s.entryPrologue kind).framePushed retpc s.getSr).atHandler vector).refilled.setExcInService false).record
        (.notify (.exception kind (some vector)))) := by
    refine (hc.trans ?_).trans (SameCore.record _ _)
    exact ((atHandler_core _ vector).trans (SameCore.refilled _)).setExcInService false
  refine ⟨hcore2, ?_, (entered_sampled s kind vector retpc).1, (entered_sampled s kind vector retpc).2, ?_, rfl, ?_⟩
  · refine (ha.atHandler vector).1.refilled (ha.atHandler vector).2 ?_
    have := refilled_pipeline (((s.entryPrologue kind).framePushed retpc s.getSr).atHandler vector)
    exact ⟨this.pc, this.pc0, this.ird, this.irc⟩
  · simp [State.atHandler, State.framePushed, State.entryPrologue, State.tick]
    omega
  · intro p hp
    rw [hcore2.mem]
    have hb := frame_bytes (s := s) (e := (((s.setS true).setT false).dropTrace kind).setExcInService false) (retpc := retpc)
      (w := s.getSr.setWidth 32) (by simpa [hd] using hsp) (by simp) (by simp)
    refine hb p ?_
    have : ((((s.setS true).setT false).dropTrace kind).setExcInService false).sp = s.supervisorSp := by simp [hd]
    rwa [this]

/-! ### The interrupt entry (R320) -/

theorem disarm_nmiArmed (s : State) (l : BitVec 3) : (s.disarm l).nmiArmed = (s.nmiArmed && l != 7) := by
  unfold State.disarm
  split
  · simp [*]
  · rename_i h
    have : (l != 7) = true := bne_iff_ne.2 h
    rw [this, Bool.and_true]

/-- The state an interrupt entry ends in, its stack and handler even. -/
def State.interrupted (s : State) (level : BitVec 3) : State :=
  (((((s.interruptPrologue level).framePushed s.pc s.getSr).atHandler (vectorOf level s.iackAnswer)).refilled.setExcInService
    false).record (.notify (.exception .interrupt (some (vectorOf level s.iackAnswer)))))

theorem interruptFrame_core (s : State) (level : BitVec 3) : SameCore (s.interruptFrame level)
    (((s.interruptPrologue level).framePushed s.pc s.getSr).setExcInService false) := by
  have hcore : SameCore ((((((s.setS true).setT false).setMask level).disarm level).setRun .running).setExcInService false)
      ((s.interruptPrologue level).setExcInService false) := by
    refine SameCore.trans ?_ (((SameCore.acknowledged _ level).trans (SameCore.tick _ (s.cfg.vecCost .interrupt))).setExcInService false)
    rw [setS_setExcInService]
    unfold State.disarm
    split <;> exact SameCore.refl _
  exact ((hcore.pushed .l s.pc).pushed .w _).trans ((framePushed_core (s.interruptPrologue level) s.pc s.getSr).setExcInService false)

theorem interruptFrame_answers (s : State) (level : BitVec 3) : SameAnswers (s.interruptFrame level)
    ((s.interruptPrologue level).framePushed s.pc s.getSr) := by
  refine ⟨(interruptFrame_core s level).cfg, (interruptFrame_core s level).mem, ?_⟩
  simp [State.interruptFrame, State.framePushed, State.interruptPrologue]

theorem takeInterrupt_run {s : State} {level : BitVec 3} (hsp : isEven s.supervisorSp = true)
    (hh : isEven ((s.interruptFrame level).handler (vectorOf level s.iackAnswer)) = true) :
    takeInterrupt level s = .next (s.interrupted level) := by
  have hpe : isEven (s.interruptPrologue level).sp = true := by
    simpa [State.interruptPrologue, State.supervisorSp] using hsp
  have hrun := pushFrameAndVector_run hpe (by rw [(interruptFrame_answers s level).handler]; exact hh)
  unfold takeInterrupt
  refine runOp_ok ?_
  rw [interruptSequence_run, bind_ok hrun, assign_bind_run]
  rfl

theorem interrupted_core (s : State) (level : BitVec 3) : SameCore (s.interruptFrame level) (s.interrupted level) :=
  ((interruptFrame_core s level).trans
    (((atHandler_core _ _).trans (SameCore.refilled _)).setExcInService false)).trans (SameCore.record _ _)

theorem interrupted_pipeline (s : State) (level : BitVec 3) :
    Refilled ((s.interruptFrame level).atHandler (vectorOf level s.iackAnswer)) (s.interrupted level) := by
  have ha := interruptFrame_answers s level
  refine (ha.atHandler _).1.refilled (ha.atHandler _).2 ?_
  have := refilled_pipeline (((s.interruptPrologue level).framePushed s.pc s.getSr).atHandler (vectorOf level s.iackAnswer))
  exact ⟨this.pc, this.pc0, this.ird, this.irc⟩

/-! ### The address-error entry (R312) -/

/-- The 14-byte frame pushed from a prologue (R313). -/
def State.longFramePushed (p : State) (addr : Long) (srOld ssw : Word) : State :=
  ((((p.longPushed p.pc).wordPushed srOld).wordPushed p.ird).longPushed (BitVec.ofNat 32 (p.phys addr))).wordPushed ssw

theorem addressErrorFetch_run {p : State} (hsp : isEven p.sp = true) {addr : Long} {srOld ssw : Word}
    (hh : isEven ((p.longFramePushed addr srOld ssw).handler 3) = true) :
    addressErrorFetch addr srOld ssw p = .ok () ((p.longFramePushed addr srOld ssw).atHandler 3).refilled := by
  unfold addressErrorFetch
  rw [look_bind_run, bind_ok (push32_run' hsp _), bind_ok (push16_run' (by simpa using hsp) srOld), look_bind_run,
    bind_ok (push16_run' (by simpa using hsp) _), look_bind_run,
    bind_ok (push32_run' (by simpa using hsp) _), bind_ok (push16_run' (by simpa using hsp) ssw),
    bind_ok (busRead32_run (isEven_vectorAddress 3) .data _), jumpTo_bind_run]
  have hphys : ∀ x, (((p.longPushed p.pc).wordPushed srOld).wordPushed p.ird).phys x = p.phys x := by
    intro x; simp [State.phys]
  simp only [longPushed_fields, wordPushed_fields, hphys]
  exact refill_run hh

theorem pushed_setService (s : State) (b c : Bool) (size : Size) (v : Long) :
    ((s.setAeInService b).setExcInService c).pushed size v = ((s.pushed size v).setAeInService b).setExcInService c := by
  cases size <;> rfl

theorem SameCore.pushedService {f p : State} (h : SameCore f ((p.setAeInService false).setExcInService false)) (size : Size)
    (v : Long) : SameCore (f.pushed size v) (((p.pushed size v).setAeInService false).setExcInService false) := by
  rw [← pushed_setService]; exact h.pushed size v

theorem serviced_core {f x : State} (h : SameCore f ((x.setAeInService false).setExcInService false)) (c : PortCall) :
    SameCore f ((((x.atHandler 3).refilled.setAeInService false).setExcInService false).record c) :=
  (h.trans ((((atHandler_core x 3).trans (SameCore.refilled _)).setAeInService false).setExcInService false)).trans
    (SameCore.record _ _)

theorem serviced_pipeline (x : State) (c : PortCall) :
    Refilled (x.atHandler 3) ((((x.atHandler 3).refilled.setAeInService false).setExcInService false).record c) := by
  have := refilled_pipeline (x.atHandler 3)
  exact ⟨this.pc, this.pc0, this.ird, this.irc⟩

theorem addressErrorFrame_core (s : State) (addr : Long) (dir : Dir) (space : Space) :
    SameCore (s.addressErrorFrame addr dir space)
      ((s.addressErrorPrologue.longFramePushed addr s.getSr (s.specialStatus dir space)).setAeInService false |>.setExcInService false) := by
  have hcore : SameCore (((((s.setS true).setT false).setTracePending false).setAeInService false).setExcInService false)
      ((s.addressErrorPrologue.setAeInService false).setExcInService false) := by
    refine SameCore.trans ?_ (((SameCore.tick _ (s.cfg.vecCost .addressError)).setAeInService false).setExcInService false)
    rw [setS_setExcInService, setS_setAeInService]
    exact SameCore.refl _
  have h1 := longPushed_core s.addressErrorPrologue s.addressErrorPrologue.pc
  have h2 := (h1.pushed .w (s.getSr.setWidth 32)).trans (wordPushed_core _ s.getSr)
  have h3 := (h2.pushed .w (s.addressErrorPrologue.ird.setWidth 32)).trans (wordPushed_core _ s.addressErrorPrologue.ird)
  have h4 := (h3.pushed .l (BitVec.ofNat 32 (s.addressErrorPrologue.phys addr))).trans (longPushed_core _ _)
  have h5 := (h4.pushed .w ((s.specialStatus dir space).setWidth 32)).trans (wordPushed_core _ (s.specialStatus dir space))
  have e1 : s.addressErrorPrologue.pc = s.pc := by simp [State.addressErrorPrologue]
  have e2 : s.addressErrorPrologue.ird = s.ird := by simp [State.addressErrorPrologue]
  have e3 : s.addressErrorPrologue.phys addr = s.phys addr := by simp [State.addressErrorPrologue]
  unfold State.longFramePushed
  rw [e1, e2, e3] at h5 ⊢
  exact (((((hcore.pushedService .l s.pc).pushedService .w (s.getSr.setWidth 32)).pushedService .w (s.ird.setWidth 32)).pushedService .l
    (BitVec.ofNat 32 (s.phys addr))).pushedService .w ((s.specialStatus dir space).setWidth 32)).trans
    ((h5.setAeInService false).setExcInService false)

theorem addressErrorFrame_answers (s : State) (addr : Long) (dir : Dir) (space : Space) :
    SameAnswers (s.addressErrorFrame addr dir space)
      (s.addressErrorPrologue.longFramePushed addr s.getSr (s.specialStatus dir space)) := by
  have h := addressErrorFrame_core s addr dir space
  refine ⟨by simpa using h.cfg, by simpa using h.mem, ?_⟩
  simp [State.addressErrorFrame, State.longFramePushed, State.addressErrorPrologue]

/-- The state an address-error entry ends in, its stack and handler even. -/
def State.addressErrorServiced (s : State) (addr : Long) (dir : Dir) (space : Space) : State :=
  ((((s.addressErrorPrologue.longFramePushed addr s.getSr (s.specialStatus dir space)).atHandler 3).refilled.setAeInService
    false).setExcInService false).record (.notify (.exception .addressError (some 3)))

theorem addressErrorEntry_run {s : State} {addr : Long} {dir : Dir} {space : Space} (hae : s.aeInService = false)
    (hsp : isEven s.supervisorSp = true) (hh : isEven ((s.addressErrorFrame addr dir space).handler 3) = true) :
    addressErrorEntry addr dir space s = .next (s.addressErrorServiced addr dir space) := by
  have hpe : isEven s.addressErrorPrologue.sp = true := by
    simpa [State.addressErrorPrologue, State.supervisorSp] using hsp
  have hrun := addressErrorFetch_run hpe (by rw [(addressErrorFrame_answers s addr dir space).handler]; exact hh)
  unfold addressErrorEntry
  rw [if_neg (by simp [hae]), addressErrorSequence_run, bind_ok hrun, assign_bind_run]
  rfl

theorem addressErrorServiced_core (s : State) (addr : Long) (dir : Dir) (space : Space) :
    SameCore (s.addressErrorFrame addr dir space) (s.addressErrorServiced addr dir space) :=
  serviced_core (addressErrorFrame_core s addr dir space) _

theorem addressErrorServiced_pipeline (s : State) (addr : Long) (dir : Dir) (space : Space) :
    Refilled ((s.addressErrorFrame addr dir space).atHandler 3) (s.addressErrorServiced addr dir space) := by
  have ha := addressErrorFrame_answers s addr dir space
  exact (ha.atHandler 3).1.refilled (ha.atHandler 3).2 (serviced_pipeline _ _)

end Sys2Proof.Machine
end

