-- ==== Sys2Proof/Laws/PerInstr.lean ====
section
/-! SUPPORT. Statements made per instruction: `EncodeMatches`, that the opcode word written for an instruction, whatever its
operands, has the fixed bits of its row of spec/opcode_table.json, so no field spills into them (R93, R97, R98, R100). -/

namespace Sys2Proof.Laws

/-- The columns `mask` and `match` of the instruction's row of spec/opcode_table.json. -/
def fixedBits : Instr → Word × Word
  | .oriEa _ _ => (0xFF00, 0x0000)
  | .andiEa _ _ => (0xFF00, 0x0200)
  | .subi _ _ => (0xFF00, 0x0400)
  | .addi _ _ => (0xFF00, 0x0600)
  | .eoriEa _ _ => (0xFF00, 0x0A00)
  | .cmpi _ _ => (0xFF00, 0x0C00)
  | .oriCcr => (0xFFFF, 0x003C)
  | .oriSr => (0xFFFF, 0x007C)
  | .andiCcr => (0xFFFF, 0x023C)
  | .andiSr => (0xFFFF, 0x027C)
  | .eoriCcr => (0xFFFF, 0x0A3C)
  | .eoriSr => (0xFFFF, 0x0A7C)
  | .move _ _ _ => (0xC000, 0x0000)
  | .movea _ _ _ => (0xC1C0, 0x0040)
  | .moveFromSr _ => (0xFFC0, 0x40C0)
  | .clr _ _ => (0xFF00, 0x4200)
  | .neg _ _ => (0xFF00, 0x4400)
  | .moveToCcr _ => (0xFFC0, 0x44C0)
  | .notEa _ _ => (0xFF00, 0x4600)
  | .moveToSr _ => (0xFFC0, 0x46C0)
  | .swap _ => (0xFFF8, 0x4840)
  | .pea _ => (0xFFC0, 0x4840)
  | .extW _ => (0xFFF8, 0x4880)
  | .extL _ => (0xFFF8, 0x48C0)
  | .tst _ _ => (0xFF00, 0x4A00)
  | .tas _ => (0xFFC0, 0x4AC0)
  | .illegal => (0xFFFF, 0x4AFC)
  | .trap _ => (0xFFF0, 0x4E40)
  | .moveToUsp _ => (0xFFF8, 0x4E60)
  | .moveFromUsp _ => (0xFFF8, 0x4E68)
  | .reset => (0xFFFF, 0x4E70)
  | .nop => (0xFFFF, 0x4E71)
  | .stop => (0xFFFF, 0x4E72)
  | .rte => (0xFFFF, 0x4E73)
  | .rts => (0xFFFF, 0x4E75)
  | .jsr _ => (0xFFC0, 0x4E80)
  | .jmp _ => (0xFFC0, 0x4EC0)
  | .lea _ _ => (0xF1C0, 0x41C0)
  | .addq _ _ _ => (0xF100, 0x5000)
  | .subq _ _ _ => (0xF100, 0x5100)
  | .dbcc _ _ => (0xF0F8, 0x50C8)
  | .bra _ => (0xFF00, 0x6000)
  | .bsr _ => (0xFF00, 0x6100)
  | .bcc _ _ => (0xF000, 0x6000)
  | .moveq _ _ => (0xF100, 0x7000)
  | .orToReg _ _ _ => (0xF100, 0x8000)
  | .orToMem _ _ _ => (0xF100, 0x8100)
  | .subToReg _ _ _ => (0xF100, 0x9000)
  | .subToMem _ _ _ => (0xF100, 0x9100)
  | .suba _ _ _ => (0xF0C0, 0x90C0)
  | .lineA _ => (0xF000, 0xA000)
  | .cmp _ _ _ => (0xF100, 0xB000)
  | .cmpa _ _ _ => (0xF0C0, 0xB0C0)
  | .eor _ _ _ => (0xF100, 0xB100)
  | .cmpm _ _ _ => (0xF138, 0xB108)
  | .andToReg _ _ _ => (0xF100, 0xC000)
  | .andToMem _ _ _ => (0xF100, 0xC100)
  | .mulu _ _ => (0xF1C0, 0xC0C0)
  | .muls _ _ => (0xF1C0, 0xC1C0)
  | .addToReg _ _ _ => (0xF100, 0xD000)
  | .addToMem _ _ _ => (0xF100, 0xD100)
  | .adda _ _ _ => (0xF0C0, 0xD0C0)
  | .lineF _ => (0xF000, 0xF000)

/-! ### The fields -/

/-- A field that stays inside `f` leaves the bits of a mask disjoint from `f` alone. -/
theorem or_field {k x f m p : Word} (hk : k &&& m = p) (hx : x &&& f = x) (h : f &&& m = 0) : (k ||| x) &&& m = p := by
  have hd : (k ||| x) &&& m = k &&& m ||| x &&& m := by
    apply BitVec.eq_of_getLsbD_eq
    intro i _
    simp only [BitVec.getLsbD_and, BitVec.getLsbD_or, Bool.and_or_distrib_right]
  rw [hd, hk, ← hx, BitVec.and_assoc, h]
  simp

theorem sizeBits_field : ∀ s, sizeBits s &&& 0x00C0 = sizeBits s := by intro s; cases s <;> decide
theorem longBits_field : ∀ s, longBits s &&& 0x0100 = longBits s := by intro s; cases s <;> decide
theorem moveSizeBits_clear : ∀ s, moveSizeBits s &&& 0xC000 = 0 := by intro s; cases s <;> decide
theorem moveSizeBits_field : ∀ s, moveSizeBits s &&& 0x3000 = moveSizeBits s := by intro s; cases s <;> decide
theorem reg9_field : ∀ r, regBits r 9 &&& 0x0E00 = regBits r 9 := by decide
theorem reg0_field : ∀ r, regBits r 0 &&& 0x0007 = regBits r 0 := by decide
theorem condBits_field : ∀ c, condBits c &&& 0x0F00 = condBits c := by intro c; cases c <;> decide
theorem quickBits_field : ∀ q, quickBits q &&& 0x0E00 = quickBits q := by decide

theorem eaBits_field (ea : Ea) : eaBits ea &&& 0x003F = eaBits ea := by
  cases ea <;> first | decide | (rename_i r; revert r; decide)

theorem dstEaBits_field (ea : Ea) : dstEaBits ea &&& 0x0FC0 = dstEaBits ea := by
  cases ea <;> first | decide | (rename_i r; revert r; decide)

theorem low_field {n : Nat} (v : BitVec n) (f : Word) (h : ∀ i < n, f.getLsbD i = true) : v.setWidth 16 &&& f = v.setWidth 16 := by
  apply BitVec.eq_of_getLsbD_eq
  intro i hi
  rw [BitVec.getLsbD_and, BitVec.getLsbD_setWidth]
  by_cases hn : i < n
  · rw [h i hn, Bool.and_true]
  · rw [BitVec.getLsbD_of_ge v i (by omega)]; simp

theorem low4_field (v : BitVec 4) : v.setWidth 16 &&& 0x000F = (v.setWidth 16 : Word) := low_field v _ (by decide)
theorem low8_field (v : BitVec 8) : v.setWidth 16 &&& 0x00FF = (v.setWidth 16 : Word) := low_field v _ (by decide)
theorem low12_field (v : BitVec 12) : v.setWidth 16 &&& 0x0FFF = (v.setWidth 16 : Word) := low_field v _ (by decide)

/-! ### The family -/

/-- The fixed bits of the opcode word are those of the table's row. -/
def EncodeMatches.Statement (i : Instr) : Prop := encode i &&& (fixedBits i).1 = (fixedBits i).2

theorem EncodeMatches.oriEa (size : Size) (ea : Ea) : EncodeMatches.Statement (.oriEa size ea) := by
  show encode (.oriEa size ea) &&& (0xFF00 : Word) = 0x0000
  exact or_field (or_field (by decide) (sizeBits_field size) (by decide)) (eaBits_field ea) (by decide)

theorem EncodeMatches.andiEa (size : Size) (ea : Ea) : EncodeMatches.Statement (.andiEa size ea) := by
  show encode (.andiEa size ea) &&& (0xFF00 : Word) = 0x0200
  exact or_field (or_field (by decide) (sizeBits_field size) (by decide)) (eaBits_field ea) (by decide)

theorem EncodeMatches.subi (size : Size) (ea : Ea) : EncodeMatches.Statement (.subi size ea) := by
  show encode (.subi size ea) &&& (0xFF00 : Word) = 0x0400
  exact or_field (or_field (by decide) (sizeBits_field size) (by decide)) (eaBits_field ea) (by decide)

theorem EncodeMatches.addi (size : Size) (ea : Ea) : EncodeMatches.Statement (.addi size ea) := by
  show encode (.addi size ea) &&& (0xFF00 : Word) = 0x0600
  exact or_field (or_field (by decide) (sizeBits_field size) (by decide)) (eaBits_field ea) (by decide)

theorem EncodeMatches.eoriEa (size : Size) (ea : Ea) : EncodeMatches.Statement (.eoriEa size ea) := by
  show encode (.eoriEa size ea) &&& (0xFF00 : Word) = 0x0A00
  exact or_field (or_field (by decide) (sizeBits_field size) (by decide)) (eaBits_field ea) (by decide)

theorem EncodeMatches.cmpi (size : Size) (ea : Ea) : EncodeMatches.Statement (.cmpi size ea) := by
  show encode (.cmpi size ea) &&& (0xFF00 : Word) = 0x0C00
  exact or_field (or_field (by decide) (sizeBits_field size) (by decide)) (eaBits_field ea) (by decide)

theorem EncodeMatches.oriCcr : EncodeMatches.Statement (.oriCcr) := by
  show encode (.oriCcr) &&& (0xFFFF : Word) = 0x003C
  decide

theorem EncodeMatches.oriSr : EncodeMatches.Statement (.oriSr) := by
  show encode (.oriSr) &&& (0xFFFF : Word) = 0x007C
  decide

theorem EncodeMatches.andiCcr : EncodeMatches.Statement (.andiCcr) := by
  show encode (.andiCcr) &&& (0xFFFF : Word) = 0x023C
  decide

theorem EncodeMatches.andiSr : EncodeMatches.Statement (.andiSr) := by
  show encode (.andiSr) &&& (0xFFFF : Word) = 0x027C
  decide

theorem EncodeMatches.eoriCcr : EncodeMatches.Statement (.eoriCcr) := by
  show encode (.eoriCcr) &&& (0xFFFF : Word) = 0x0A3C
  decide

theorem EncodeMatches.eoriSr : EncodeMatches.Statement (.eoriSr) := by
  show encode (.eoriSr) &&& (0xFFFF : Word) = 0x0A7C
  decide

theorem EncodeMatches.move (size : Size) (src : Ea) (dst : Ea) : EncodeMatches.Statement (.move size src dst) := by
  show encode (.move size src dst) &&& (0xC000 : Word) = 0x0000
  exact or_field (or_field (moveSizeBits_clear size) (dstEaBits_field dst) (by decide)) (eaBits_field src) (by decide)

theorem EncodeMatches.movea (size : Size) (src : Ea) (dst : RegNum) : EncodeMatches.Statement (.movea size src dst) := by
  show encode (.movea size src dst) &&& (0xC1C0 : Word) = 0x0040
  exact or_field (or_field (or_field (by decide) (moveSizeBits_field size) (by decide)) (reg9_field dst) (by decide)) (eaBits_field src) (by decide)

theorem EncodeMatches.moveFromSr (ea : Ea) : EncodeMatches.Statement (.moveFromSr ea) := by
  show encode (.moveFromSr ea) &&& (0xFFC0 : Word) = 0x40C0
  exact or_field (by decide) (eaBits_field ea) (by decide)

theorem EncodeMatches.clr (size : Size) (ea : Ea) : EncodeMatches.Statement (.clr size ea) := by
  show encode (.clr size ea) &&& (0xFF00 : Word) = 0x4200
  exact or_field (or_field (by decide) (sizeBits_field size) (by decide)) (eaBits_field ea) (by decide)

theorem EncodeMatches.neg (size : Size) (ea : Ea) : EncodeMatches.Statement (.neg size ea) := by
  show encode (.neg size ea) &&& (0xFF00 : Word) = 0x4400
  exact or_field (or_field (by decide) (sizeBits_field size) (by decide)) (eaBits_field ea) (by decide)

theorem EncodeMatches.moveToCcr (ea : Ea) : EncodeMatches.Statement (.moveToCcr ea) := by
  show encode (.moveToCcr ea) &&& (0xFFC0 : Word) = 0x44C0
  exact or_field (by decide) (eaBits_field ea) (by decide)

theorem EncodeMatches.notEa (size : Size) (ea : Ea) : EncodeMatches.Statement (.notEa size ea) := by
  show encode (.notEa size ea) &&& (0xFF00 : Word) = 0x4600
  exact or_field (or_field (by decide) (sizeBits_field size) (by decide)) (eaBits_field ea) (by decide)

theorem EncodeMatches.moveToSr (ea : Ea) : EncodeMatches.Statement (.moveToSr ea) := by
  show encode (.moveToSr ea) &&& (0xFFC0 : Word) = 0x46C0
  exact or_field (by decide) (eaBits_field ea) (by decide)

theorem EncodeMatches.swap (dn : RegNum) : EncodeMatches.Statement (.swap dn) := by
  show encode (.swap dn) &&& (0xFFF8 : Word) = 0x4840
  exact or_field (by decide) (reg0_field dn) (by decide)

theorem EncodeMatches.pea (ea : Ea) : EncodeMatches.Statement (.pea ea) := by
  show encode (.pea ea) &&& (0xFFC0 : Word) = 0x4840
  exact or_field (by decide) (eaBits_field ea) (by decide)

theorem EncodeMatches.extW (dn : RegNum) : EncodeMatches.Statement (.extW dn) := by
  show encode (.extW dn) &&& (0xFFF8 : Word) = 0x4880
  exact or_field (by decide) (reg0_field dn) (by decide)

theorem EncodeMatches.extL (dn : RegNum) : EncodeMatches.Statement (.extL dn) := by
  show encode (.extL dn) &&& (0xFFF8 : Word) = 0x48C0
  exact or_field (by decide) (reg0_field dn) (by decide)

theorem EncodeMatches.tst (size : Size) (ea : Ea) : EncodeMatches.Statement (.tst size ea) := by
  show encode (.tst size ea) &&& (0xFF00 : Word) = 0x4A00
  exact or_field (or_field (by decide) (sizeBits_field size) (by decide)) (eaBits_field ea) (by decide)

theorem EncodeMatches.tas (ea : Ea) : EncodeMatches.Statement (.tas ea) := by
  show encode (.tas ea) &&& (0xFFC0 : Word) = 0x4AC0
  exact or_field (by decide) (eaBits_field ea) (by decide)

theorem EncodeMatches.illegal : EncodeMatches.Statement (.illegal) := by
  show encode (.illegal) &&& (0xFFFF : Word) = 0x4AFC
  decide

theorem EncodeMatches.trap (v : BitVec 4) : EncodeMatches.Statement (.trap v) := by
  show encode (.trap v) &&& (0xFFF0 : Word) = 0x4E40
  exact or_field (by decide) (low4_field v) (by decide)

theorem EncodeMatches.moveToUsp (an : RegNum) : EncodeMatches.Statement (.moveToUsp an) := by
  show encode (.moveToUsp an) &&& (0xFFF8 : Word) = 0x4E60
  exact or_field (by decide) (reg0_field an) (by decide)

theorem EncodeMatches.moveFromUsp (an : RegNum) : EncodeMatches.Statement (.moveFromUsp an) := by
  show encode (.moveFromUsp an) &&& (0xFFF8 : Word) = 0x4E68
  exact or_field (by decide) (reg0_field an) (by decide)

theorem EncodeMatches.reset : EncodeMatches.Statement (.reset) := by
  show encode (.reset) &&& (0xFFFF : Word) = 0x4E70
  decide

theorem EncodeMatches.nop : EncodeMatches.Statement (.nop) := by
  show encode (.nop) &&& (0xFFFF : Word) = 0x4E71
  decide

theorem EncodeMatches.stop : EncodeMatches.Statement (.stop) := by
  show encode (.stop) &&& (0xFFFF : Word) = 0x4E72
  decide

theorem EncodeMatches.rte : EncodeMatches.Statement (.rte) := by
  show encode (.rte) &&& (0xFFFF : Word) = 0x4E73
  decide

theorem EncodeMatches.rts : EncodeMatches.Statement (.rts) := by
  show encode (.rts) &&& (0xFFFF : Word) = 0x4E75
  decide

theorem EncodeMatches.jsr (ea : Ea) : EncodeMatches.Statement (.jsr ea) := by
  show encode (.jsr ea) &&& (0xFFC0 : Word) = 0x4E80
  exact or_field (by decide) (eaBits_field ea) (by decide)

theorem EncodeMatches.jmp (ea : Ea) : EncodeMatches.Statement (.jmp ea) := by
  show encode (.jmp ea) &&& (0xFFC0 : Word) = 0x4EC0
  exact or_field (by decide) (eaBits_field ea) (by decide)

theorem EncodeMatches.lea (ea : Ea) (an : RegNum) : EncodeMatches.Statement (.lea ea an) := by
  show encode (.lea ea an) &&& (0xF1C0 : Word) = 0x41C0
  exact or_field (or_field (by decide) (reg9_field an) (by decide)) (eaBits_field ea) (by decide)

theorem EncodeMatches.addq (q : BitVec 3) (size : Size) (ea : Ea) : EncodeMatches.Statement (.addq q size ea) := by
  show encode (.addq q size ea) &&& (0xF100 : Word) = 0x5000
  exact or_field (or_field (or_field (by decide) (quickBits_field q) (by decide)) (sizeBits_field size) (by decide)) (eaBits_field ea) (by decide)

theorem EncodeMatches.subq (q : BitVec 3) (size : Size) (ea : Ea) : EncodeMatches.Statement (.subq q size ea) := by
  show encode (.subq q size ea) &&& (0xF100 : Word) = 0x5100
  exact or_field (or_field (or_field (by decide) (quickBits_field q) (by decide)) (sizeBits_field size) (by decide)) (eaBits_field ea) (by decide)

theorem EncodeMatches.dbcc (cond : Cond) (dn : RegNum) : EncodeMatches.Statement (.dbcc cond dn) := by
  show encode (.dbcc cond dn) &&& (0xF0F8 : Word) = 0x50C8
  exact or_field (or_field (by decide) (condBits_field cond) (by decide)) (reg0_field dn) (by decide)

theorem EncodeMatches.bra (d8 : BitVec 8) : EncodeMatches.Statement (.bra d8) := by
  show encode (.bra d8) &&& (0xFF00 : Word) = 0x6000
  exact or_field (by decide) (low8_field d8) (by decide)

theorem EncodeMatches.bsr (d8 : BitVec 8) : EncodeMatches.Statement (.bsr d8) := by
  show encode (.bsr d8) &&& (0xFF00 : Word) = 0x6100
  exact or_field (by decide) (low8_field d8) (by decide)

theorem EncodeMatches.bcc (cond : Cond) (d8 : BitVec 8) : EncodeMatches.Statement (.bcc cond d8) := by
  show encode (.bcc cond d8) &&& (0xF000 : Word) = 0x6000
  exact or_field (or_field (by decide) (condBits_field cond) (by decide)) (low8_field d8) (by decide)

theorem EncodeMatches.moveq (d8 : BitVec 8) (dn : RegNum) : EncodeMatches.Statement (.moveq d8 dn) := by
  show encode (.moveq d8 dn) &&& (0xF100 : Word) = 0x7000
  exact or_field (or_field (by decide) (reg9_field dn) (by decide)) (low8_field d8) (by decide)

theorem EncodeMatches.orToReg (size : Size) (ea : Ea) (dn : RegNum) : EncodeMatches.Statement (.orToReg size ea dn) := by
  show encode (.orToReg size ea dn) &&& (0xF100 : Word) = 0x8000
  exact or_field (or_field (or_field (by decide) (reg9_field dn) (by decide)) (sizeBits_field size) (by decide)) (eaBits_field ea) (by decide)

theorem EncodeMatches.orToMem (size : Size) (dn : RegNum) (ea : Ea) : EncodeMatches.Statement (.orToMem size dn ea) := by
  show encode (.orToMem size dn ea) &&& (0xF100 : Word) = 0x8100
  exact or_field (or_field (or_field (by decide) (reg9_field dn) (by decide)) (sizeBits_field size) (by decide)) (eaBits_field ea) (by decide)

theorem EncodeMatches.subToReg (size : Size) (ea : Ea) (dn : RegNum) : EncodeMatches.Statement (.subToReg size ea dn) := by
  show encode (.subToReg size ea dn) &&& (0xF100 : Word) = 0x9000
  exact or_field (or_field (or_field (by decide) (reg9_field dn) (by decide)) (sizeBits_field size) (by decide)) (eaBits_field ea) (by decide)

theorem EncodeMatches.subToMem (size : Size) (dn : RegNum) (ea : Ea) : EncodeMatches.Statement (.subToMem size dn ea) := by
  show encode (.subToMem size dn ea) &&& (0xF100 : Word) = 0x9100
  exact or_field (or_field (or_field (by decide) (reg9_field dn) (by decide)) (sizeBits_field size) (by decide)) (eaBits_field ea) (by decide)

theorem EncodeMatches.suba (size : Size) (ea : Ea) (an : RegNum) : EncodeMatches.Statement (.suba size ea an) := by
  show encode (.suba size ea an) &&& (0xF0C0 : Word) = 0x90C0
  exact or_field (or_field (or_field (by decide) (reg9_field an) (by decide)) (longBits_field size) (by decide)) (eaBits_field ea) (by decide)

theorem EncodeMatches.lineA (low : BitVec 12) : EncodeMatches.Statement (.lineA low) := by
  show encode (.lineA low) &&& (0xF000 : Word) = 0xA000
  exact or_field (by decide) (low12_field low) (by decide)

theorem EncodeMatches.cmp (size : Size) (ea : Ea) (dn : RegNum) : EncodeMatches.Statement (.cmp size ea dn) := by
  show encode (.cmp size ea dn) &&& (0xF100 : Word) = 0xB000
  exact or_field (or_field (or_field (by decide) (reg9_field dn) (by decide)) (sizeBits_field size) (by decide)) (eaBits_field ea) (by decide)

theorem EncodeMatches.cmpa (size : Size) (ea : Ea) (an : RegNum) : EncodeMatches.Statement (.cmpa size ea an) := by
  show encode (.cmpa size ea an) &&& (0xF0C0 : Word) = 0xB0C0
  exact or_field (or_field (or_field (by decide) (reg9_field an) (by decide)) (longBits_field size) (by decide)) (eaBits_field ea) (by decide)

theorem EncodeMatches.eor (size : Size) (dn : RegNum) (ea : Ea) : EncodeMatches.Statement (.eor size dn ea) := by
  show encode (.eor size dn ea) &&& (0xF100 : Word) = 0xB100
  exact or_field (or_field (or_field (by decide) (reg9_field dn) (by decide)) (sizeBits_field size) (by decide)) (eaBits_field ea) (by decide)

theorem EncodeMatches.cmpm (size : Size) (ay : RegNum) (ax : RegNum) : EncodeMatches.Statement (.cmpm size ay ax) := by
  show encode (.cmpm size ay ax) &&& (0xF138 : Word) = 0xB108
  exact or_field (or_field (or_field (by decide) (reg9_field ax) (by decide)) (sizeBits_field size) (by decide)) (reg0_field ay) (by decide)

theorem EncodeMatches.andToReg (size : Size) (ea : Ea) (dn : RegNum) : EncodeMatches.Statement (.andToReg size ea dn) := by
  show encode (.andToReg size ea dn) &&& (0xF100 : Word) = 0xC000
  exact or_field (or_field (or_field (by decide) (reg9_field dn) (by decide)) (sizeBits_field size) (by decide)) (eaBits_field ea) (by decide)

theorem EncodeMatches.andToMem (size : Size) (dn : RegNum) (ea : Ea) : EncodeMatches.Statement (.andToMem size dn ea) := by
  show encode (.andToMem size dn ea) &&& (0xF100 : Word) = 0xC100
  exact or_field (or_field (or_field (by decide) (reg9_field dn) (by decide)) (sizeBits_field size) (by decide)) (eaBits_field ea) (by decide)

theorem EncodeMatches.mulu (ea : Ea) (dn : RegNum) : EncodeMatches.Statement (.mulu ea dn) := by
  show encode (.mulu ea dn) &&& (0xF1C0 : Word) = 0xC0C0
  exact or_field (or_field (by decide) (reg9_field dn) (by decide)) (eaBits_field ea) (by decide)

theorem EncodeMatches.muls (ea : Ea) (dn : RegNum) : EncodeMatches.Statement (.muls ea dn) := by
  show encode (.muls ea dn) &&& (0xF1C0 : Word) = 0xC1C0
  exact or_field (or_field (by decide) (reg9_field dn) (by decide)) (eaBits_field ea) (by decide)

theorem EncodeMatches.addToReg (size : Size) (ea : Ea) (dn : RegNum) : EncodeMatches.Statement (.addToReg size ea dn) := by
  show encode (.addToReg size ea dn) &&& (0xF100 : Word) = 0xD000
  exact or_field (or_field (or_field (by decide) (reg9_field dn) (by decide)) (sizeBits_field size) (by decide)) (eaBits_field ea) (by decide)

theorem EncodeMatches.addToMem (size : Size) (dn : RegNum) (ea : Ea) : EncodeMatches.Statement (.addToMem size dn ea) := by
  show encode (.addToMem size dn ea) &&& (0xF100 : Word) = 0xD100
  exact or_field (or_field (or_field (by decide) (reg9_field dn) (by decide)) (sizeBits_field size) (by decide)) (eaBits_field ea) (by decide)

theorem EncodeMatches.adda (size : Size) (ea : Ea) (an : RegNum) : EncodeMatches.Statement (.adda size ea an) := by
  show encode (.adda size ea an) &&& (0xF0C0 : Word) = 0xD0C0
  exact or_field (or_field (or_field (by decide) (reg9_field an) (by decide)) (longBits_field size) (by decide)) (eaBits_field ea) (by decide)

theorem EncodeMatches.lineF (low : BitVec 12) : EncodeMatches.Statement (.lineF low) := by
  show encode (.lineF low) &&& (0xF000 : Word) = 0xF000
  exact or_field (by decide) (low12_field low) (by decide)

end Sys2Proof.Laws
end

