-- ==== Sys2Proof/Laws/Step.lean ====
section
/-! SUPPORT. What every step does, said once (R121): idle, a trace, an interrupt, or the decoded instruction; `step_cases`. -/

namespace Sys2Proof.Machine

/-- How a step ends, by the test of R121 that decided it. -/
inductive Stepped (s t : State) : Prop where
  | halted (run : s.run = .halted) (state : t = s.idleHalted)
  | stopped (run : s.run = .stopped) (quiet : s.irqEligible s.iplPolled = false) (state : t = s.idleStopped)
  | trace (run : s.run ≠ .halted) (pending : s.tracePending = true) (notHeld : ¬(s.run = .stopped ∧ s.cfg.stopTraceHold = true))
      (state : Entered s t) (ends : EndsAs .running t)
  | interrupt (run : s.run ≠ .halted) (eligible : s.irqEligible s.iplPolled = true) (state : Entered s t) (ends : EndsAs .running t)
  | ran (run : s.run = .running) (how : Ran (decode s.ird) s.beginInstr t)
  | extension (run : s.run = .running) (user : s.sr.s = false) (state : Entered s t) (ends : EndsAs .running t)

theorem Entered.of_same {s u t : State} (h : Entered u t) (hc : u.cfg = s.cfg) (hk : u.clock = s.clock) (hm : u.mem = s.mem)
    (hp : u.port = s.port) (hb : u.pipelineBroken = s.pipelineBroken) (hae : u.aeInService = s.aeInService) : Entered s t :=
  ⟨h.cfg.trans hc, hk ▸ h.clock, fun k => h.mem (by rw [MemInv, hm, hc]; exact k), hp ▸ h.port, h.pipelineBroken.trans hb,
    h.supervisor, h.event, fun k => h.quiet (hae.trans k)⟩

/-- The refusals a step may answer with (R7, R96, R154, U12, U16, U17). -/
def StepRefusal (r : Refusal) : Prop := r = .reservedIndexWord ∨ r = .romExtension ∨ r = .pipelineBroken

/-- A descriptor of `ROM_EXT` is refused, but for a privileged one in user mode, which takes PrivilegeViolation (R121, R96). -/
theorem execRomExtension_cases (e : RomExtension) (s : State) :
    execRomExtension e s = .refused .romExtension ∨
      (s.sr.s = false ∧ execRomExtension e s = takeException .privilegeViolation 8 s.pc0 s) := by
  unfold execRomExtension Machine.privileged
  cases e.priv
  · exact .inl rfl
  · cases hs : s.sr.s
    · exact .inr ⟨rfl, by simp⟩
    · exact .inl rfl

theorem dispatch_cases {s : State} (hae : s.aeInService = false) (hrun : s.run = .running) :
    (∃ r, dispatch s = .refused r ∧ StepRefusal r) ∨ ∃ t, dispatch s = .next t ∧ Stepped s t := by
  unfold dispatch
  cases he : romEntry s.cfg.romExt s.ird with
  | baseline i =>
    cases romEntry_baseline he
    rcases exec_cases (decode_wellFormed s.ird) s.beginInstr hae with h | ⟨t, ht, hr⟩
    · exact .inl ⟨_, h, .inl rfl⟩
    · exact .inr ⟨t, ht, .ran hrun hr⟩
  | extension e =>
    rcases execRomExtension_cases e s.beginInstr with h | ⟨hs, h⟩
    · exact .inl ⟨_, h, .inr (.inl rfl)⟩
    · obtain ⟨t, ht, he, hr⟩ := takeException_ends .privilegeViolation 8 s.beginInstr.pc0 s.beginInstr hae
      exact .inr ⟨t, h.trans ht, .extension hrun hs (he.of_same rfl rfl rfl rfl rfl rfl) (hrun ▸ hr)⟩

theorem step_cases {s : State} (hq : QuietInv s) :
    (∃ r, step s = .refused r ∧ StepRefusal r) ∨ ∃ t, step s = .next t ∧ Stepped s t := by
  have hae := hq.1
  unfold step
  cases he : s.nextEvent
  case haltedIdle =>
    simp only [State.nextEvent] at he; split_ifs at he with h1
    exact .inr ⟨_, rfl, .halted h1 rfl⟩
  case pipelineBroken => exact .inl ⟨_, rfl, .inr (.inr rfl)⟩
  case trace =>
    simp only [State.nextEvent] at he; split_ifs at he with h1 _ h2
    obtain ⟨t, ht, he, hr⟩ := takeException_ends .traceException 9 s.pc ((s.setTracePending false).setRun .running) hae
    simp only [Bool.and_eq_true] at h2
    refine .inr ⟨t, ht, .trace h1 h2.1 ?_ (he.of_same rfl rfl rfl rfl rfl rfl) hr⟩
    rintro ⟨h3, h4⟩
    simp [h3, h4] at h2
  case interrupt =>
    simp only [State.nextEvent] at he; split_ifs at he with h1 _ h2 h3
    obtain ⟨t, ht, he, hr⟩ := takeInterrupt_ends s.iplPolled s hae
    exact .inr ⟨t, ht, .interrupt h1 h3 he hr⟩
  case stoppedIdle =>
    simp only [State.nextEvent] at he; split_ifs at he with h1 _ h2 h3 h4
    exact .inr ⟨_, rfl, .stopped h4 (by simpa using h3) rfl⟩
  case dispatch =>
    simp only [State.nextEvent] at he; split_ifs at he with h1 _ h2 h3 h4
    exact dispatch_cases hae (by cases h : s.run <;> simp_all)

theorem stepped {s t : State} (hq : QuietInv s) (h : step s = .next t) : Stepped s t := by
  rcases step_cases hq with ⟨r, h', -⟩ | ⟨u, h', hs⟩
  · rw [h'] at h; cases h
  · rw [h'] at h; cases h; exact hs

/-- What `STOP` keeps, beside its own effect (R173). -/
theorem stopped_kept {s t : State} : t = s.stopped → t.cfg = s.cfg ∧ s.clock ≤ t.clock ∧ t.mem = s.mem ∧ s.port <:+ t.port ∧
    t.aeInService = s.aeInService ∧ t.excInService = s.excInService ∧ t.pipelineBroken = s.pipelineBroken := by
  rintro rfl
  have h1 := (Steady.extTaken s).toKept.trans (Kept.rules.setSr _ s.irc)
  have h2 := ((Steady.sampled ((s.extTaken.setSr s.irc).setRun .stopped)).trans ((Steady.record _ (.notify .stopInstr)).trans (Steady.tick _ (s.cfg.opCost .stop))))
  refine ⟨h2.cfg.trans h1.cfg, le_trans h1.clock h2.clock, ?_, h1.port.trans h2.port, h2.aeInService.trans h1.aeInService, h2.excInService.trans h1.excInService,
    h2.pipelineBroken.trans h1.pipelineBroken⟩
  have : SameCore ((s.setSr s.irc).setRun .stopped) s.stopped := ((((SameCore.extTaken s).setSr s.irc).setRun .stopped).trans (SameCore.sampled _)).trans ((SameCore.record _ _).trans (SameCore.tick _ _))
  simpa using this.mem

end Sys2Proof.Machine
end

