-- ==== Sys2Proof/Tests/Slice0.lean ====
section
/-! SUPPORT. The model's own tests and the witnesses of its statements.

Expected results come from the spec: opcode words are written out, field by field, from spec/30_encoding.md; one-step tests are the
vectors of spec/95_test_vectors.md and 96, named in the docstrings; a test marked `by hand` was computed from the rules it names.
`machine` is the start state S0 of the vectors: stack pointer 0x8000, supervisor mode, mask 7, a program at 0x1000, handler of
vector `v` at 0x3000 + 0x10 * v. -/

namespace Sys2Proof.Tests

open Sys2Proof.Machine

set_option Elab.async false

/-! ### Well-formedness: one ill-formed term for each check -/

/-- Data alterable, for each of the rows that ask for it (R94, R97). -/
theorem smoke_dataAlterable :
    (Instr.oriEa .b (.an 0)).wellFormed = false ∧ (Instr.andiEa .w .pcDisp).wellFormed = false ∧
    (Instr.subi .l .pcIndex).wellFormed = false ∧ (Instr.addi .b .imm).wellFormed = false ∧
    (Instr.eoriEa .w (.an 7)).wellFormed = false ∧ (Instr.cmpi .w .pcDisp).wellFormed = false ∧
    (Instr.move .w (.dn 0) (.an 0)).wellFormed = false ∧ (Instr.move .w (.dn 0) .imm).wellFormed = false ∧
    (Instr.moveFromSr (.an 0)).wellFormed = false ∧ (Instr.clr .w (.an 0)).wellFormed = false ∧
    (Instr.neg .w .imm).wellFormed = false ∧ (Instr.notEa .w .pcDisp).wellFormed = false ∧
    (Instr.tst .w (.an 0)).wellFormed = false ∧ (Instr.tas .imm).wellFormed = false ∧
    (Instr.eor .w 0 (.an 0)).wellFormed = false := by decide

/-- Data, memory alterable, alterable and control (R94, R97). -/
theorem smoke_otherClasses :
    (Instr.moveToCcr (.an 0)).wellFormed = false ∧ (Instr.moveToSr (.an 0)).wellFormed = false ∧
    (Instr.orToReg .w (.an 0) 0).wellFormed = false ∧ (Instr.andToReg .w (.an 0) 0).wellFormed = false ∧
    (Instr.mulu (.an 0) 0).wellFormed = false ∧ (Instr.muls (.an 0) 0).wellFormed = false ∧
    (Instr.orToMem .w 0 (.dn 0)).wellFormed = false ∧ (Instr.andToMem .w 0 (.an 0)).wellFormed = false ∧
    (Instr.addToMem .w 0 .imm).wellFormed = false ∧ (Instr.subToMem .w 0 (.dn 0)).wellFormed = false ∧
    (Instr.addq 1 .w .pcDisp).wellFormed = false ∧ (Instr.subq 1 .w .imm).wellFormed = false ∧
    (Instr.pea (.dn 0)).wellFormed = false ∧ (Instr.jsr (.an 0)).wellFormed = false ∧
    (Instr.jmp (.postInc 0)).wellFormed = false ∧ (Instr.lea (.preDec 0) 0).wellFormed = false ∧
    (Instr.lea .imm 0).wellFormed = false := by decide

/-- No address register when the size is a byte; W and L only; the conditions of `Bcc`; the indirections of R153. -/
theorem smoke_sizesConditionsIndexWords :
    (Instr.move .b (.an 0) (.dn 0)).wellFormed = false ∧ (Instr.addq 1 .b (.an 0)).wellFormed = false ∧
    (Instr.subq 1 .b (.an 0)).wellFormed = false ∧ (Instr.subToReg .b (.an 0) 0).wellFormed = false ∧
    (Instr.cmp .b (.an 0) 0).wellFormed = false ∧ (Instr.addToReg .b (.an 0) 0).wellFormed = false ∧
    (Instr.movea .b (.dn 0) 0).wellFormed = false ∧ (Instr.adda .b (.dn 0) 0).wellFormed = false ∧
    (Instr.suba .b (.dn 0) 0).wellFormed = false ∧ (Instr.cmpa .b (.dn 0) 0).wellFormed = false ∧
    (Instr.bcc .t 0).wellFormed = false ∧ (Instr.bcc .f 0).wellFormed = false ∧
    (IndexWord.full ⟨false, 0, false, 0⟩ false true .none (.preIndexed .none)).wellFormed = false ∧
    (IndexWord.full ⟨false, 0, false, 0⟩ false true .none (.postIndexed .none)).wellFormed = false ∧
    (IndexWord.full ⟨false, 0, false, 0⟩ false false .none (.noIndex .none)).wellFormed = false := by decide

/-! ### Decoding: the words of the opcode map, field by field (R93, R97 to R100) -/

/-- Line 0. -/
theorem decode_line_0 :
    decode 0b00000000_01_110_010 = .oriEa .w (.index 2) ∧ decode 0b00000010_10_101_011 = .andiEa .l (.disp 3) ∧
    decode 0b00000100_00_100_111 = .subi .b (.preDec 7) ∧ decode 0b00000110_10_000_000 = .addi .l (.dn 0) ∧
    decode 0b00001010_00_111_001 = .eoriEa .b .absL ∧ decode 0b00001100_01_111_000 = .cmpi .w .absW ∧
    decode 0b0000000000111100 = .oriCcr ∧ decode 0b0000000001111100 = .oriSr ∧ decode 0b0000001000111100 = .andiCcr ∧
    decode 0b0000001001111100 = .andiSr ∧ decode 0b0000101000111100 = .eoriCcr ∧ decode 0b0000101001111100 = .eoriSr := by
  decide +kernel

/-- Lines 1 to 3: the size codes of `MOVE`, the register before the mode in its destination. -/
theorem decode_move :
    decode 0b00_01_110_100_011_101 = .move .b (.postInc 5) (.preDec 6) ∧
    decode 0b00_11_001_111_001_010 = .move .w (.an 2) .absL ∧ decode 0b00_10_011_101_111_011 = .move .l .pcIndex (.disp 3) ∧
    decode 0b00_11_110_001_111_100 = .movea .w .imm 6 ∧ decode 0b00_10_101_001_010_100 = .movea .l (.ind 4) 5 := by
  decide +kernel

/-- Line 4, the one-operand instructions. -/
theorem decode_line_4_operands :
    decode 0b0100000011_010_001 = .moveFromSr (.ind 1) ∧ decode 0b01000010_00_000_110 = .clr .b (.dn 6) ∧
    decode 0b01000100_01_011_010 = .neg .w (.postInc 2) ∧ decode 0b0100010011_111_100 = .moveToCcr .imm ∧
    decode 0b01000110_10_110_011 = .notEa .l (.index 3) ∧ decode 0b0100011011_111_010 = .moveToSr .pcDisp ∧
    decode 0b0100100001000_101 = .swap 5 ∧ decode 0b0100100001_010_101 = .pea (.ind 5) ∧
    decode 0b0100100010000_011 = .extW 3 ∧ decode 0b0100100011000_011 = .extL 3 ∧
    decode 0b01001010_10_111_000 = .tst .l .absW ∧ decode 0b0100101011_100_010 = .tas (.preDec 2) ∧
    decode 0b0100111010_111_011 = .jsr .pcIndex ∧ decode 0b0100111011_101_100 = .jmp (.disp 4) ∧
    decode 0b0100_011_111_111_001 = .lea .absL 3 := by decide +kernel

/-- Line 4, the rest. -/
theorem decode_line_4_system :
    decode 0b0100101011111100 = .illegal ∧ decode 0b010011100100_1001 = .trap 9 ∧ decode 0b0100111001100_010 = .moveToUsp 2 ∧
    decode 0b0100111001101_010 = .moveFromUsp 2 ∧ decode 0b0100111001110000 = .reset ∧ decode 0b0100111001110001 = .nop ∧
    decode 0b0100111001110010 = .stop ∧ decode 0b0100111001110011 = .rte ∧ decode 0b0100111001110101 = .rts := by
  decide +kernel

/-- Lines 5 to 7. -/
theorem decode_lines_5_to_7 :
    decode 0b0101_011_0_10_001_100 = .addq 3 .l (.an 4) ∧ decode 0b0101_000_1_01_010_001 = .subq 0 .w (.ind 1) ∧
    decode 0b0101_0110_11001_010 = .dbcc .ne 2 ∧ decode 0b01100000_00000010 = .bra 2 ∧
    decode 0b01100001_11111110 = .bsr 0xFE ∧ decode 0b0110_1110_01111111 = .bcc .gt 0x7F ∧
    decode 0b0110_0010_00000000 = .bcc .hi 0 ∧ decode 0b0111_101_0_10000000 = .moveq 0x80 5 := by decide +kernel

/-- Lines 8 and 9. -/
theorem decode_lines_8_and_9 :
    decode 0b1000_001_0_01_111_100 = .orToReg .w .imm 1 ∧ decode 0b1000_001_1_01_010_000 = .orToMem .w 1 (.ind 0) ∧
    decode 0b1001_110_0_10_001_011 = .subToReg .l (.an 3) 6 ∧ decode 0b1001_001_1_00_011_000 = .subToMem .b 1 (.postInc 0) ∧
    decode 0b1001_111_0_11_111_010 = .suba .w .pcDisp 7 ∧ decode 0b1001_111_1_11_000_010 = .suba .l (.dn 2) 7 := by
  decide +kernel

/-- Lines 10 to 15. -/
theorem decode_lines_10_to_15 :
    decode 0b1010_000100100011 = .lineA 0x123 ∧ decode 0b1011_010_0_00_111_011 = .cmp .b .pcIndex 2 ∧
    decode 0b1011_010_0_11_001_101 = .cmpa .w (.an 5) 2 ∧ decode 0b1011_010_1_11_000_101 = .cmpa .l (.dn 5) 2 ∧
    decode 0b1011_100_1_10_000_001 = .eor .l 4 (.dn 1) ∧ decode 0b1011_011_1_01_001_110 = .cmpm .w 6 3 ∧
    decode 0b1100_111_0_00_000_110 = .andToReg .b (.dn 6) 7 ∧ decode 0b1100_001_1_10_100_000 = .andToMem .l 1 (.preDec 0) ∧
    decode 0b1100_000_0_11_000_001 = .mulu (.dn 1) 0 ∧ decode 0b1100_000_1_11_000_001 = .muls (.dn 1) 0 ∧
    decode 0b1101_010_0_01_001_111 = .addToReg .w (.an 7) 2 ∧ decode 0b1101_010_1_00_111_001 = .addToMem .b 2 .absL ∧
    decode 0b1101_101_0_11_011_000 = .adda .w (.postInc 0) 5 ∧ decode 0b1101_101_1_11_100_000 = .adda .l (.preDec 0) 5 ∧
    decode 0b1111_111111111111 = .lineF 0xFFF := by decide +kernel

/-- Opcode values that no row takes: a size code or a mode that the row does not allow (R96). -/
theorem decode_unassigned :
    decode 0b00000000_00_001_000 = .illegal ∧ decode 0b00001110_00_000_000 = .illegal ∧ decode 0b00_01_000_000_001_000 = .illegal ∧
    decode 0b00_01_000_001_000_000 = .illegal ∧ decode 0b01000000_00_000_000 = .illegal ∧ decode 0b0100101011_111_010 = .illegal ∧
    decode 0b0100111001110110 = .illegal ∧ decode 0b0101_0110_11_000_000 = .illegal ∧ decode 0b0111_000_1_00000000 = .illegal ∧
    decode 0b1000_000_0_11_000_000 = .illegal ∧ decode 0b1100_000_1_00_000_000 = .illegal ∧
    decode 0b1101_000_0_01_111_101 = .illegal := by decide +kernel

/-- Index words, brief and full, and reserved ones (R152 to R154). -/
theorem decode_indexWords :
    decodeIndexWord 0b1_011_1_10_0_11111110 = some (.brief ⟨true, 3, true, 2⟩ 0xFE) ∧
    decodeIndexWord 0b0_001_0_00_1_0_0_10_0_000 = some (.full ⟨false, 1, false, 0⟩ false false .word .none) ∧
    decodeIndexWord 0b0_001_0_00_1_0_0_10_0_010 = some (.full ⟨false, 1, false, 0⟩ false false .word (.preIndexed .word)) ∧
    decodeIndexWord 0b0_001_0_10_1_1_0_11_0_101 = some (.full ⟨false, 1, false, 2⟩ true false .long (.postIndexed .none)) ∧
    decodeIndexWord 0b0_000_0_00_1_0_1_01_0_011 = some (.full ⟨false, 0, false, 0⟩ false true .none (.noIndex .long)) ∧
    decodeIndexWord 0b0_000_0_00_1_0_0_01_1_000 = none ∧ decodeIndexWord 0b0_000_0_00_1_0_0_00_0_000 = none ∧
    decodeIndexWord 0b0_000_0_00_1_0_0_01_0_100 = none ∧ decodeIndexWord 0b0_000_0_00_1_0_1_01_0_101 = none := by decide +kernel

/-! ### One step -/

/-- The low words of the reset vectors and of the vectors that these tests take: vector `v` at 0x3000 + 0x10 * v. -/
def handlers : Memory :=
  [(2, 0x80), (6, 0x10), (14, 0x30), (15, 0x30), (18, 0x30), (19, 0x40), (34, 0x30), (35, 0x80), (38, 0x30), (39, 0x90),
    (42, 0x30), (43, 0xA0), (46, 0x30), (47, 0xB0), (110, 0x31), (111, 0xB0), (122, 0x31), (123, 0xE0), (134, 0x32), (135, 0x10),
    (190, 0x32), (191, 0xF0), (258, 0x34)]

/-- The start state S0 of the vectors with a program at 0x1000 and further words in memory. -/
def machine (program : List Word) (data : List (Nat × List Word) := []) : State :=
  { State.reset with
    a := (Vector.replicate 8 0).set 7 0x8000
    ssp := 0x8000
    pc := 0x1000
    pc0 := 0x1000
    ird := program.getD 0 0
    irc := program.getD 1 0
    clock := 0
    mem := ((0x1000, program) :: data).foldl (fun m x => Memory.writeWords (2 ^ 24) m x.1 x.2) handlers
    port := [] }

/-- A step ended in a next state of which a test holds. -/
def after (o : Outcome) (p : State → Bool) : Bool :=
  match o with
  | .next t => p t
  | .fault _ => false
  | .refused _ => false

/-- The words of memory from an address. -/
def words (s : State) (p n : Nat) : List Word := (List.range n).map fun k => s.mem.readWord (p + 2 * k)

/-! ### System -/

/-- V-S1: designated ILLEGAL in supervisor mode. -/
theorem test_illegal : after (step (machine [0x4AFC]))
    (fun t => t.readA 7 == 0x7FFA && t.getSr == 0x2700 && t.pc == 0x3040 &&
      words t 0x7FFA 3 == [0x2700, 0, 0x1000] && t.clock == 28) = true := by decide +kernel

/-- V-S2: fallback ILLEGAL (an opcode no row matches) in user mode. -/
theorem test_unmatched_opcode : after (step (((machine [0x4E76]).setSr 0x10).hostSetUserSp 0x6000))
    (fun t => t.readA 7 == 0x7FFA && t.getSr == 0x2010 && t.pc == 0x3040 &&
      words t 0x7FFA 3 == [0x0010, 0, 0x1000] && t.clock == 28) = true := by decide +kernel

/-- V-S3: LINEA. -/
theorem test_lineA : after (step (machine [0xA123]))
    (fun t => t.readA 7 == 0x7FFA && t.getSr == 0x2700 && t.pc == 0x30A0 &&
      words t 0x7FFA 3 == [0x2700, 0, 0x1000] && t.clock == 28) = true := by decide +kernel

/-- V-S4: LINEF. -/
theorem test_lineF : after (step (machine [0xF000]))
    (fun t => t.readA 7 == 0x7FFA && t.getSr == 0x2700 && t.pc == 0x30B0 &&
      words t 0x7FFA 3 == [0x2700, 0, 0x1000] && t.clock == 28) = true := by decide +kernel

/-- V-S5: NOP. -/
theorem test_nop : after (step (machine [0x4E71, 0x4E71]))
    (fun t => t.getSr == 0x2700 && t.pc == 0x1002 && t.clock == 4) = true := by decide +kernel

/-- V-S6: STOP in supervisor mode. -/
theorem test_stop : after (step (machine [0x4E72, 0x2000]))
    (fun t => t.run == .stopped && t.getSr == 0x2000 && t.pc == 0x1004 && t.clock == 4) = true := by decide +kernel

/-- V-S8: STOP in user mode is a privilege violation. -/
theorem test_stop_user : after (step (((machine [0x4E72, 0x2000]).setSr 0).hostSetUserSp 0x6000))
    (fun t => t.readA 7 == 0x7FFA && t.getSr == 0x2000 && t.pc == 0x3080 && words t 0x7FFA 3 == [0, 0, 0x1000] &&
      t.clock == 28) = true := by decide +kernel

/-- V-S9: RESET instruction. -/
theorem test_reset : after (step (machine [0x4E70, 0x4E71]))
    (fun t => t.getSr == 0x2700 && t.pc == 0x1002 && t.clock == 4) = true := by decide +kernel

/-- V-S10: TRAP #1. -/
theorem test_trap : after (step (machine [0x4E41, 0x4E71]))
    (fun t => t.readA 7 == 0x7FFA && t.getSr == 0x2700 && t.pc == 0x3210 &&
      words t 0x7FFA 3 == [0x2700, 0, 0x1002] && t.clock == 28) = true := by decide +kernel

/-- V-S11: TRAP #15 from user mode. -/
theorem test_trap_user : after (step (((machine [0x4E4F, 0x4E71]).setSr 0x1F).hostSetUserSp 0x6000))
    (fun t => t.readA 7 == 0x7FFA && t.getSr == 0x201F && t.pc == 0x32F0 &&
      words t 0x7FFA 3 == [0x001F, 0, 0x1002] && t.clock == 28) = true := by decide +kernel

/-- V-S12: RTE to user mode. -/
theorem test_rte_to_user : after (step
    (((machine [0x4E73, 0x4E71] [(0x2000, [0x7001, 0x7002]), (0x7FFA, [0x0015, 0, 0x2000])]).hostSetUserSp 0x6000).writeA 7 0x7FFA))
    (fun t => t.readA 7 == 0x6000 && t.userSp == 0x6000 && t.getSr == 0x15 && t.pc == 0x2000 && t.clock == 20) = true := by decide +kernel

/-- V-S13: RTE with an odd stack pointer. -/
theorem test_rte_odd_stack : after (step ((machine [0x4E73, 0x4E71]).writeA 7 0x7FF9))
    (fun t => t.readA 7 == 0x7FF5 && t.run == .halted && t.getSr == 0x2700 && t.pc == 0x1002 && t.clock == 0) = true := by decide +kernel

/-- V-S14: RTE to an odd address. -/
theorem test_rte_odd_target : after (step
    (((machine [0x4E73, 0x4E71] [(0x7FFA, [0x2000, 0, 0x2001])]).hostSetUserSp 0x6000).writeA 7 0x7FFA))
    (fun t => t.readA 7 == 0x7FF2 && t.getSr == 0x2000 && t.pc == 0x3030 &&
      words t 0x7FF2 7 == [0x4E76, 0, 0x2001, 0x4E73, 0x2000, 0, 0x2001] && t.clock == 56) = true := by decide +kernel

/-- V-S15: MOVE #0,SR enters user mode. -/
theorem test_moveToSr : after (step ((machine [0x46FC, 0x0000]).hostSetUserSp 0x6000))
    (fun t => t.readA 7 == 0x6000 && t.userSp == 0x6000 && t.getSr == 0 && t.pc == 0x1004 && t.clock == 8) = true := by decide +kernel

/-- V-S16: MOVE to SR in user mode. -/
theorem test_moveToSr_user : after (step ((((machine [0x46C0, 0x4E71]).setSr 0).hostSetUserSp 0x6000).writeD 0 0x2700))
    (fun t => t.readA 7 == 0x7FFA && t.getSr == 0x2000 && t.pc == 0x3080 && words t 0x7FFA 3 == [0, 0, 0x1000] &&
      t.clock == 28) = true := by decide +kernel

/-- V-S17: MOVE SR,D0 in user mode is allowed. -/
theorem test_moveFromSr_user : after (step ((((machine [0x40C0, 0x4E71]).setSr 4).hostSetUserSp 0x6000).writeD 0 0xFFFFFFFF))
    (fun t => t.readD 0 == 0xFFFF0004 && t.getSr == 4 && t.pc == 0x1002 && t.clock == 4) = true := by decide +kernel

/-- V-S19: MOVE to CCR uses the low byte of a word. -/
theorem test_moveToCcr_low_byte : after (step (machine [0x44FC, 0xFF1F]))
    (fun t => t.getSr == 0x271F && t.pc == 0x1004 && t.clock == 8) = true := by decide +kernel

/-- V-S20: MOVE A0,USP. -/
theorem test_moveToUsp : after (step ((machine [0x4E60, 0x4E71]).writeA 0 0x6000))
    (fun t => t.userSp == 0x6000 && t.getSr == 0x2700 && t.pc == 0x1002 && t.clock == 4) = true := by decide +kernel

/-- V-S21: MOVE USP,A1. -/
theorem test_moveFromUsp : after (step ((machine [0x4E69, 0x4E71]).hostSetUserSp 0x6000))
    (fun t => t.readA 1 == 0x6000 && t.getSr == 0x2700 && t.pc == 0x1002 && t.clock == 4) = true := by decide +kernel

/-- V-S22: ORI to CCR. -/
theorem test_oriCcr : after (step (machine [0x003C, 0x0001]))
    (fun t => t.getSr == 0x2701 && t.pc == 0x1004 && t.clock == 8) = true := by decide +kernel

/-- V-S28: ORI to SR in user mode. -/
theorem test_oriSr_user : after (step (((machine [0x007C, 0x0700]).setSr 0).hostSetUserSp 0x6000))
    (fun t => t.readA 7 == 0x7FFA && t.getSr == 0x2000 && t.pc == 0x3080 && words t 0x7FFA 3 == [0, 0, 0x1000] &&
      t.clock == 28) = true := by decide +kernel

/-- V-S24: ANDI to CCR. -/
theorem test_andiCcr : after (step ((machine [0x023C, 0x00FE]).setCcr 0x1F))
    (fun t => t.getSr == 0x271E && t.pc == 0x1004 && t.clock == 8) = true := by decide +kernel

/-- V-S25: ANDI to SR lowers the mask. -/
theorem test_andiSr : after (step (machine [0x027C, 0xF8FF]))
    (fun t => t.getSr == 0x2000 && t.pc == 0x1004 && t.clock == 8) = true := by decide +kernel

/-- V-S26: EORI to CCR. -/
theorem test_eoriCcr : after (step (machine [0x0A3C, 0x0010]))
    (fun t => t.getSr == 0x2710 && t.pc == 0x1004 && t.clock == 8) = true := by decide +kernel

/-- V-S27: EORI to SR leaves supervisor mode. -/
theorem test_eoriSr : after (step ((machine [0x0A7C, 0x2000]).hostSetUserSp 0x6000))
    (fun t => t.readA 7 == 0x6000 && t.getSr == 0x700 && t.pc == 0x1004 && t.clock == 8) = true := by decide +kernel

/-! ### Control -/

/-- V-C1: BRA.S forward. -/
theorem test_bra_short : after (step (machine [0x6004, 0x4E71, 0x4E71, 0x7001, 0x7002]))
    (fun t => t.getSr == 0x2700 && t.pc == 0x1006 && t.clock == 8) = true := by decide +kernel

/-- V-C4: BRA.S with displacement 0xFF: an odd target. -/
theorem test_bra_odd_target : after (step (machine [0x60FF, 0x4E71]))
    (fun t => t.readA 7 == 0x7FF2 && t.getSr == 0x2700 && t.pc == 0x3030 &&
      words t 0x7FF2 7 == [0x60F6, 0, 0x1001, 0x60FF, 0x2700, 0, 0x1001] && t.clock == 44) = true := by decide +kernel

/-- V-C5: BEQ taken. -/
theorem test_beq_taken : after (step ((machine [0x6702, 0x7001, 0x7002, 0x7003]).setCcr 4))
    (fun t => t.getSr == 0x2704 && t.pc == 0x1004 && t.clock == 8) = true := by decide +kernel

/-- V-C8: BNE.W not taken never looks at an odd target. -/
theorem test_bne_not_taken_odd : after (step ((machine [0x6600, 0x0001, 0x7001, 0x7002]).setCcr 4))
    (fun t => t.getSr == 0x2704 && t.pc == 0x1004 && t.clock == 8) = true := by decide +kernel

/-- V-C10: BSR.W. -/
theorem test_bsr_word : after (step (machine [0x6100, 0x0100] [(0x1102, [0x7001, 0x7002])]))
    (fun t => t.readA 7 == 0x7FFC && t.getSr == 0x2700 && t.pc == 0x1102 && words t 0x7FFC 2 == [0, 0x1004] &&
      t.clock == 16) = true := by decide +kernel

/-- V-C21: BSR with an odd stack pointer, from user mode. -/
theorem test_bsr_user_odd_stack : after (step (((machine [0x6102, 0x4E71, 0x7001]).setSr 0).hostSetUserSp 0x6001))
    (fun t => t.readA 7 == 0x7FF2 && t.userSp == 0x5FFD && t.getSr == 0x2000 && t.pc == 0x3030 &&
      words t 0x7FF2 7 == [0x6101, 0, 0x5FFD, 0x6102, 0, 0, 0x1002] && t.clock == 44) = true := by decide +kernel

/-- V-C12: DBRA expires. -/
theorem test_dbra_expires : after (step ((machine [0x51C8, 0xFFFC, 0x7001, 0x7002]).writeD 0 0x10000))
    (fun t => t.readD 0 == 0x1FFFF && t.getSr == 0x2700 && t.pc == 0x1004 && t.clock == 8) = true := by decide +kernel

/-- V-C13: DBEQ with the condition true does not count. -/
theorem test_dbeq_true : after (step (((machine [0x57C8, 0xFFFC, 0x7001, 0x7002]).writeD 0 5).setCcr 4))
    (fun t => t.getSr == 0x2704 && t.pc == 0x1004 && t.clock == 8) = true := by decide +kernel

/-- V-C14: JMP (A0). -/
theorem test_jmp_indirect : after (step ((machine [0x4ED0, 0x4E71] [(0x2000, [0x7001, 0x7002])]).writeA 0 0x2000))
    (fun t => t.getSr == 0x2700 && t.pc == 0x2000 && t.clock == 8) = true := by decide +kernel

/-- V-C16: JMP d8(PC,Xn). -/
theorem test_jmp_pc_index : after (step ((machine [0x4EFB, 0x0000] [(0x1012, [0x7001, 0x7002])]).writeD 0 0x10))
    (fun t => t.getSr == 0x2700 && t.pc == 0x1012 && t.clock == 12) = true := by decide +kernel

/-- V-C17: JSR xxx.W. -/
theorem test_jsr_absolute : after (step (machine [0x4EB8, 0x2000] [(0x2000, [0x7001, 0x7002])]))
    (fun t => t.readA 7 == 0x7FFC && t.getSr == 0x2700 && t.pc == 0x2000 && words t 0x7FFC 2 == [0, 0x1004] &&
      t.clock == 20) = true := by decide +kernel

/-- V-C18: JSR (A7) uses the value before the push. -/
theorem test_jsr_through_sp : after (step ((machine [0x4E97, 0x4E71] [(0x2000, [0x7001, 0x7002])]).writeA 7 0x2000))
    (fun t => t.readA 7 == 0x1FFC && t.getSr == 0x2700 && t.pc == 0x2000 && words t 0x1FFC 2 == [0, 0x1002] &&
      t.clock == 16) = true := by decide +kernel

/-- V-C19: RTS. -/
theorem test_rts : after (step ((machine [0x4E75, 0x4E71, 0x7001, 0x7002] [(0x7FFC, [0, 0x1004])]).writeA 7 0x7FFC))
    (fun t => t.readA 7 == 0x8000 && t.getSr == 0x2700 && t.pc == 0x1004 && t.clock == 16) = true := by decide +kernel

/-- V-C20: RTS to an odd address. -/
theorem test_rts_odd : after (step ((machine [0x4E75, 0x4E71] [(0x7FFC, [0, 0x1005])]).writeA 7 0x7FFC))
    (fun t => t.readA 7 == 0x7FF2 && t.getSr == 0x2700 && t.pc == 0x3030 &&
      words t 0x7FF2 7 == [0x4E76, 0, 0x1005, 0x4E75, 0x2700, 0, 0x1005] && t.clock == 52) = true := by decide +kernel

/-! ### Move -/

/-- V-M9: MOVE.W #imm,xxx.L: source words first, then destination words. -/
theorem test_move_word_order : after (step (machine [0x33FC, 0x1234, 0x0000, 0x2000]))
    (fun t => t.getSr == 0x2700 && words t 0x2000 1 == [0x1234] && t.clock == 20) = true := by decide +kernel

/-- V-M11: MOVE.L A0,-(A0) stores the old value. -/
theorem test_move_old_register : after (step ((machine [0x2108, 0x4E71]).writeA 0 0x2004))
    (fun t => t.readA 0 == 0x2000 && t.getSr == 0x2700 && words t 0x2000 2 == [0, 0x2004] && t.clock == 14) = true := by decide +kernel

/-- V-M12: MOVEA.W sign-extends. -/
theorem test_movea_sign_extends : after (step ((machine [0x307C, 0x8000]).setCcr 0x1F))
    (fun t => t.readA 0 == 0xFFFF8000 && t.getSr == 0x271F && t.clock == 8) = true := by decide +kernel

/-- V-M13: MOVEA.L (A0)+,A0 ends with the loaded value. -/
theorem test_movea_same_register : after (step ((machine [0x2058, 0x4E71] [(0x2000, [0, 0x4444])]).writeA 0 0x2000))
    (fun t => t.readA 0 == 0x4444 && t.getSr == 0x2700 && t.clock == 14) = true := by decide +kernel

/-- V-M14: MOVEQ negative. -/
theorem test_moveq_negative : after (step ((machine [0x70FF, 0x4E71]).setCcr 0x1F))
    (fun t => t.readD 0 == 0xFFFFFFFF && t.getSr == 0x2718 && t.clock == 4) = true := by decide +kernel

/-- V-M17: LEA forms an odd address without fault. -/
theorem test_lea_odd : after (step ((machine [0x43E8, 0x0001]).writeA 0 0x2000))
    (fun t => t.readA 1 == 0x2001 && t.getSr == 0x2700 && t.clock == 8) = true := by decide +kernel

/-- V-M18: PEA xxx.W. -/
theorem test_pea_absolute : after (step (machine [0x4878, 0x1234]))
    (fun t => t.readA 7 == 0x7FFC && t.getSr == 0x2700 && words t 0x7FFC 2 == [0, 0x1234] && t.clock == 16) = true := by decide +kernel

/-- V-M19: PEA (A7) pushes the value before the push. -/
theorem test_pea_sp : after (step (machine [0x4857, 0x4E71]))
    (fun t => t.readA 7 == 0x7FFC && t.getSr == 0x2700 && words t 0x7FFC 2 == [0, 0x8000] && t.clock == 12) = true := by decide +kernel

/-- V-M20: CLR.W Dn. -/
theorem test_clr_word : after (step (((machine [0x4240, 0x4E71]).writeD 0 0x12345678).setCcr 0x1B))
    (fun t => t.readD 0 == 0x12340000 && t.getSr == 0x2714 && t.clock == 4) = true := by decide +kernel

/-- V-M21: CLR.L (A0) reads before it writes. -/
theorem test_clr_reads_first : after (step ((machine [0x4290, 0x4E71] [(0x2000, [0x1111, 0x2222])]).writeA 0 0x2000))
    (fun t => t.getSr == 0x2704 && words t 0x2000 2 == [0, 0] && t.clock == 20) = true := by decide +kernel

/-- V-M22: TST.B. -/
theorem test_tst_byte : after (step (((machine [0x4A00, 0x4E71]).writeD 0 0x80).setCcr 0x13))
    (fun t => t.getSr == 0x2718 && t.clock == 4) = true := by decide +kernel

/-- V-M23: TST.W (A0)+ still increments. -/
theorem test_tst_increments : after (step ((machine [0x4A58, 0x4E71] [(0x2000, [0])]).writeA 0 0x2000))
    (fun t => t.readA 0 == 0x2002 && t.getSr == 0x2704 && t.clock == 10) = true := by decide +kernel

/-- V-M24: EXT.W. -/
theorem test_extW : after (step ((machine [0x4880, 0x4E71]).writeD 0 0x12340080))
    (fun t => t.readD 0 == 0x1234FF80 && t.getSr == 0x2708 && t.clock == 4) = true := by decide +kernel

/-- V-M25: EXT.L. -/
theorem test_extL : after (step ((machine [0x48C0, 0x4E71]).writeD 0 0x12347FFF))
    (fun t => t.readD 0 == 0x7FFF && t.getSr == 0x2700 && t.clock == 4) = true := by decide +kernel

/-- V-M26: SWAP. -/
theorem test_swap : after (step ((machine [0x4840, 0x4E71]).writeD 0 0x12348000))
    (fun t => t.readD 0 == 0x80001234 && t.getSr == 0x2708 && t.clock == 4) = true := by decide +kernel

/-- V-M27: TAS (A0). -/
theorem test_tas_memory : after (step ((machine [0x4AD0, 0x4E71] [(0x2000, [0xFF00])]).writeA 0 0x2001))
    (fun t => t.getSr == 0x2704 && words t 0x2000 1 == [0xFF80] && t.clock == 12) = true := by decide +kernel

/-- V-M28: TAS D0 with bit 7 already set. -/
theorem test_tas_register : after (step ((machine [0x4AC0, 0x4E71]).writeD 0 0x123456C3))
    (fun t => t.getSr == 0x2708 && t.clock == 4) = true := by decide +kernel

/-! ### Arith -/

/-- V-A2: ADD.B carry out of bit 7. -/
theorem test_add_byte_carry : after (step (((machine [0xD001, 0x4E71]).writeD 0 0x123456FF).writeD 1 1))
    (fun t => t.readD 0 == 0x12345600 && t.getSr == 0x2715 && t.clock == 4) = true := by decide +kernel

/-- V-A3: ADD.L both negative: carry and overflow. -/
theorem test_add_long_overflow : after (step (((machine [0xD081, 0x4E71]).writeD 0 0x80000000).writeD 1 0x80000000))
    (fun t => t.readD 0 == 0 && t.getSr == 0x2717 && t.clock == 4) = true := by decide +kernel

/-- V-A4: ADD.W Dn,(A0): read-modify-write. -/
theorem test_add_to_memory : after (step (((machine [0xD150, 0x4E71] [(0x2000, [0xFFFF])]).writeD 0 1).writeA 0 0x2000))
    (fun t => t.getSr == 0x2715 && words t 0x2000 1 == [0] && t.clock == 12) = true := by decide +kernel

/-- V-A6: ADD.W Dn,-(A0): pre-decrement once, one read, one write. -/
theorem test_add_to_predecrement : after (step (((machine [0xD160, 0x4E71] [(0x2000, [3])]).writeD 0 2).writeA 0 0x2002))
    (fun t => t.readA 0 == 0x2000 && t.getSr == 0x2700 && words t 0x2000 1 == [5] && t.clock == 14) = true := by decide +kernel

/-- V-A7: ADDA.W sign-extends the source. -/
theorem test_adda_sign_extends : after (step ((((machine [0xD0C0, 0x4E71]).writeD 0 0xFFFF).writeA 0 0x1000).setCcr 0x1F))
    (fun t => t.readA 0 == 0xFFF && t.getSr == 0x271F && t.clock == 4) = true := by decide +kernel

/-- V-A8: ADDA.W (A0)+,A0 adds to the incremented value. -/
theorem test_adda_incremented : after (step ((machine [0xD0D8, 0x4E71] [(0x2000, [0x0010])]).writeA 0 0x2000))
    (fun t => t.readA 0 == 0x2012 && t.getSr == 0x2700 && t.clock == 10) = true := by decide +kernel

/-- V-A9: ADDI.L. -/
theorem test_addi_long : after (step ((machine [0x0680, 0x0001, 0x0000]).writeD 0 0xFFFF0000))
    (fun t => t.readD 0 == 0 && t.getSr == 0x2715 && t.clock == 12) = true := by decide +kernel

/-- V-A10: ADDI.W #imm,d16(A0): immediate word first, then the displacement. -/
theorem test_addi_immediate_first : after (step ((machine [0x0668, 0x0001, 0x0002] [(0x2002, [0x7FFF])]).writeA 0 0x2000))
    (fun t => t.getSr == 0x270A && words t 0x2002 1 == [0x8000] && t.clock == 20) = true := by decide +kernel

/-- V-A11: ADDQ.W to an address register: 32 bits, no flags. -/
theorem test_addq_address : after (step (((machine [0x5248, 0x4E71]).writeA 0 0xFFFF).setCcr 0x1F))
    (fun t => t.readA 0 == 0x10000 && t.getSr == 0x271F && t.clock == 4) = true := by decide +kernel

/-- V-A12: ADDQ.B #8. -/
theorem test_addq_eight : after (step ((machine [0x5000, 0x4E71]).writeD 0 0xF8))
    (fun t => t.readD 0 == 0 && t.getSr == 0x2715 && t.clock == 4) = true := by decide +kernel

/-- V-A13: SUB.W borrow. -/
theorem test_sub_borrow : after (step (((machine [0x9041, 0x4E71]).writeD 0 0).writeD 1 1))
    (fun t => t.readD 0 == 0xFFFF && t.getSr == 0x2719 && t.clock == 4) = true := by decide +kernel

/-- V-A14: SUB.B signed overflow. -/
theorem test_sub_overflow : after (step (((machine [0x9001, 0x4E71]).writeD 0 0x80).writeD 1 1))
    (fun t => t.readD 0 == 0x7F && t.getSr == 0x2702 && t.clock == 4) = true := by decide +kernel

/-- V-A15: SUBA.L. -/
theorem test_suba : after (step (((machine [0x91C0, 0x4E71]).writeD 0 1).writeA 0 0))
    (fun t => t.readA 0 == 0xFFFFFFFF && t.getSr == 0x2700 && t.clock == 4) = true := by decide +kernel

/-- V-A16: SUBI.B. -/
theorem test_subi : after (step ((machine [0x0400, 0x0001]).writeD 0 0x80))
    (fun t => t.readD 0 == 0x7F && t.getSr == 0x2702 && t.clock == 8) = true := by decide +kernel

/-- V-A17: SUBQ.L. -/
theorem test_subq : after (step ((machine [0x5380, 0x4E71]).writeD 0 0))
    (fun t => t.readD 0 == 0xFFFFFFFF && t.getSr == 0x2719 && t.clock == 4) = true := by decide +kernel

/-- V-A18: SUBQ.W #8,A7. -/
theorem test_subq_sp : after (step ((machine [0x514F, 0x4E71]).setCcr 0x1F))
    (fun t => t.readA 7 == 0x7FF8 && t.getSr == 0x271F && t.clock == 4) = true := by decide +kernel

/-- V-A19: NEG.W of the most negative value. -/
theorem test_neg_most_negative : after (step ((machine [0x4440, 0x4E71]).writeD 0 0x8000))
    (fun t => t.getSr == 0x271B && t.clock == 4) = true := by decide +kernel

/-- V-A20: NEG.W of zero. -/
theorem test_neg_zero : after (step (((machine [0x4440, 0x4E71]).writeD 0 0).setCcr 0x1F))
    (fun t => t.getSr == 0x2704 && t.clock == 4) = true := by decide +kernel

/-- V-A22: CMP.W less. -/
theorem test_cmp_less : after (step (((machine [0xB041, 0x4E71]).writeD 0 3).writeD 1 5))
    (fun t => t.getSr == 0x2709 && t.clock == 4) = true := by decide +kernel

/-- V-A23: CMPA.W compares 32 bits with the sign-extended source. -/
theorem test_cmpa_sign_extends : after (step (((machine [0xB0C0, 0x4E71]).writeD 0 0xFFFF).writeA 0 0xFFFFFFFF))
    (fun t => t.getSr == 0x2704 && t.clock == 4) = true := by decide +kernel

/-- V-A24: CMPI.W. -/
theorem test_cmpi : after (step (((machine [0x0C40, 0x0005]).writeD 0 6).setCcr 0xF))
    (fun t => t.getSr == 0x2700 && t.clock == 8) = true := by decide +kernel

/-- V-A25: CMPM.B. -/
theorem test_cmpm : after (step
    (((machine [0xB308, 0x4E71] [(0x2000, [0x1000]), (0x2100, [0x1000])]).writeA 0 0x2000).writeA 1 0x2100))
    (fun t => t.readA 0 == 0x2001 && t.readA 1 == 0x2101 && t.getSr == 0x2704 && t.clock == 16) = true := by decide +kernel

/-- V-A26: CMPM.W with the same register twice. -/
theorem test_cmpm_same_register : after (step ((machine [0xB148, 0x4E71] [(0x2000, [5, 3])]).writeA 0 0x2000))
    (fun t => t.readA 0 == 0x2004 && t.getSr == 0x2709 && t.clock == 16) = true := by decide +kernel

/-- V-A34: MULU. -/
theorem test_mulu : after (step ((((machine [0xC0C1, 0x4E71]).writeD 0 0xFFFF).writeD 1 0xFFFF).setCcr 0x1F))
    (fun t => t.readD 0 == 0xFFFE0001 && t.getSr == 0x2718 && t.clock == 4) = true := by decide +kernel

/-- V-A37: MULU by zero. -/
theorem test_mulu_zero : after (step ((machine [0xC0FC, 0x0000]).writeD 0 0x12345678))
    (fun t => t.readD 0 == 0 && t.getSr == 0x2704 && t.clock == 8) = true := by decide +kernel

/-- V-A35: MULS. -/
theorem test_muls : after (step (((machine [0xC1C1, 0x4E71]).writeD 0 0xFFFF).writeD 1 2))
    (fun t => t.readD 0 == 0xFFFFFFFE && t.getSr == 0x2708 && t.clock == 4) = true := by decide +kernel

/-- V-A36: MULS of the two most negative values. -/
theorem test_muls_most_negative : after (step (((machine [0xC1C1, 0x4E71]).writeD 0 0x8000).writeD 1 0x8000))
    (fun t => t.readD 0 == 0x40000000 && t.getSr == 0x2700 && t.clock == 4) = true := by decide +kernel

/-! ### Logic -/

/-- V-A27: AND.W. -/
theorem test_and_word : after (step ((((machine [0xC041, 0x4E71]).writeD 0 0x1234FFFF).writeD 1 0xF0F0).setCcr 0x13))
    (fun t => t.readD 0 == 0x1234F0F0 && t.getSr == 0x2718 && t.clock == 4) = true := by decide +kernel

/-- V-A28: ANDI.W. -/
theorem test_andi : after (step ((machine [0x0240, 0x00FF]).writeD 0 0x1234))
    (fun t => t.readD 0 == 0x34 && t.getSr == 0x2700 && t.clock == 8) = true := by decide +kernel

/-- V-A29: OR.L. -/
theorem test_or_long : after (step (((machine [0x8081, 0x4E71]).writeD 0 0xF).writeD 1 0x80000000))
    (fun t => t.readD 0 == 0x8000000F && t.getSr == 0x2708 && t.clock == 4) = true := by decide +kernel

/-- V-A30: ORI.B: the all-zero opcode. -/
theorem test_ori : after (step ((machine [0x0000, 0x0080]).writeD 0 1))
    (fun t => t.readD 0 == 0x81 && t.getSr == 0x2708 && t.clock == 8) = true := by decide +kernel

/-- V-A31: EOR.W. -/
theorem test_eor : after (step (((machine [0xB340, 0x4E71]).writeD 0 0xFFFF).writeD 1 0xFFFF))
    (fun t => t.readD 0 == 0 && t.getSr == 0x2704 && t.clock == 4) = true := by decide +kernel

/-- V-A32: EORI.W. -/
theorem test_eori : after (step ((machine [0x0A40, 0xFFFF]).writeD 0 0xFF))
    (fun t => t.readD 0 == 0xFF00 && t.getSr == 0x2708 && t.clock == 8) = true := by decide +kernel

/-- V-A33: NOT.W. -/
theorem test_not_word : after (step ((machine [0x4640, 0x4E71]).writeD 0 0))
    (fun t => t.readD 0 == 0xFFFF && t.getSr == 0x2708 && t.clock == 4) = true := by decide +kernel

/-! ### Operands -/

/-- V-E3: d16(PC) as a source is read in program space at base + d16. -/
theorem test_pc_displacement_program_space : after (step (machine [0x303A, 0x0004, 0x4E71, 0xCAFE]))
    (fun t => t.readD 0 == 0xCAFE && t.getSr == 0x2708 && t.clock == 12) = true := by decide +kernel

/-- V-E6: xxx.W is sign-extended, then masked to 24 bits. -/
theorem test_absolute_word_masked : after (step (machine [0x3038, 0x8000] [(0xFF8000, [0xBEEF])]))
    (fun t => t.readD 0 == 0xBEEF && t.getSr == 0x2708 && t.clock == 12) = true := by decide +kernel

/-- V-E9: brief index word, word index sign-extended. -/
theorem test_brief_word_index : after (step
    (((machine [0x3430, 0x1002] [(0x2000, [0xBEEF])]).writeA 0 0x2000).writeD 1 0x1FFFE))
    (fun t => t.readD 2 == 0xBEEF && t.getSr == 0x2708 && t.clock == 12) = true := by decide +kernel

/-- V-E12: full index word, no memory indirection. -/
theorem test_full_index : after (step (((machine [0x3430, 0x1120, 0x0010] [(0x2014, [0xBEEF])]).writeA 0 0x2000).writeD 1 4))
    (fun t => t.readD 2 == 0xBEEF && t.getSr == 0x2708 && t.clock == 16) = true := by decide +kernel

/-- V-E13: full index word, memory indirect pre-indexed with word outer displacement. -/
theorem test_preindexed : after (step
    (((machine [0x3430, 0x1122, 0x0010, 0x0004] [(0x2014, [0, 0x5000]), (0x5004, [0xBEEF])]).writeA 0 0x2000).writeD 1 4))
    (fun t => t.readD 2 == 0xBEEF && t.getSr == 0x2708 && t.clock == 28) = true := by decide +kernel

/-- V-E14: full index word, memory indirect post-indexed, base suppressed, long base displacement. -/
theorem test_postindexed : after (step
    (((machine [0x3430, 0x15B5, 0x0000, 0x2014] [(0x2014, [0, 0x5000]), (0x5004, [0xBEEF])]).writeA 0 0xDEAD0000).writeD 1 1))
    (fun t => t.readD 2 == 0xBEEF && t.getSr == 0x2708 && t.clock == 28) = true := by decide +kernel

/-- V-E17: MOVE.B (A7)+,-(A7): both adjustments are 2. -/
theorem test_byte_sp_adjusts_by_two : after (step ((machine [0x1F1F, 0x4E71] [(0x7FFE, [0x5A00])]).writeA 7 0x7FFE))
    (fun t => t.getSr == 0x2700 && words t 0x7FFE 1 == [0x5A00] && t.clock == 16) = true := by decide +kernel

/-! ### Exceptions -/

/-- V-T2: a traced ILLEGAL drops its trace. -/
theorem test_illegal_drops_trace : after (step ((machine [0x4AFC, 0x4E71]).setSr 0xA700))
    (fun t => t.readA 7 == 0x7FFA && t.getSr == 0x2700 && t.pc == 0x3040 &&
      words t 0x7FFA 3 == [0xA700, 0, 0x1000] && t.clock == 28) = true := by decide +kernel

/-- V-X2: source done, destination faults. -/
theorem test_destination_fault : after (step
    ((((machine [0x3298, 0x4E71] [(0x2000, [0])]).writeA 0 0x2000).writeA 1 0x3001).setCcr 0x1F))
    (fun t => t.readA 0 == 0x2002 && t.readA 7 == 0x7FF2 && t.getSr == 0x271F && t.pc == 0x3030 &&
      words t 0x7FF2 7 == [0x3285, 0, 0x3001, 0x3298, 0x271F, 0, 0x1002] && t.clock == 50) = true := by decide +kernel

/-- V-X3: a long read at an odd address issues neither half; the pre-decrement stays. -/
theorem test_long_read_fault : after (step (((machine [0x2020, 0x4E71]).writeA 0 0x2005).writeD 0 0x11111111))
    (fun t => t.readA 0 == 0x2001 && t.readA 7 == 0x7FF2 && t.getSr == 0x2700 && t.pc == 0x3030 &&
      words t 0x7FF2 7 == [0x2035, 0, 0x2001, 0x2020, 0x2700, 0, 0x1002] && t.clock == 46) = true := by decide +kernel

/-- V-X5: a PC-relative read fault is in program space. -/
theorem test_program_space_fault : after (step (machine [0x303A, 0x0003]))
    (fun t => t.readA 7 == 0x7FF2 && t.getSr == 0x2700 && t.pc == 0x3030 &&
      words t 0x7FF2 7 == [0x3036, 0, 0x1005, 0x303A, 0x2700, 0, 0x1004] && t.clock == 48) = true := by decide +kernel

/-- V-X7: a fault inside exception processing: odd handler address. -/
theorem test_fault_in_entry : after (step (machine [0x4E40, 0x4E71] [(0x82, [0x3201])]))
    (fun t => t.readA 7 == 0x7FEC && t.getSr == 0x2700 && t.pc == 0x3030 &&
      words t 0x7FEC 10 == [0x4E5E, 0, 0x3201, 0x4E40, 0x2700, 0, 0x3201, 0x2700, 0, 0x1002] && t.clock == 64) = true := by decide +kernel

/-- V-X9: double fault: odd value in vector 3. -/
theorem test_double_fault : after (step ((machine [0x3080, 0x4E71] [(0xE, [0x3031])]).writeA 0 0x1001))
    (fun t => t.readA 7 == 0x7FF2 && t.run == .halted && t.getSr == 0x2700 && t.pc == 0x3031 && t.clock == 36) = true := by decide +kernel

/-- V-I1: level 3 against mask 2: taken. -/
theorem test_interrupt_taken : after (step ({ machine [0x4E71, 0x4E71] with iplPolled := 3, hostIpl := [3] }.setSr 0x2200))
    (fun t => t.readA 7 == 0x7FFA && t.getSr == 0x2300 && t.pc == 0x31B0 &&
      words t 0x7FFA 3 == [0x2200, 0, 0x1000] && t.clock == 28) = true := by decide +kernel

/-- V-I2: level 3 against mask 3: not taken. -/
theorem test_interrupt_masked : after (step ({ machine [0x4E71, 0x4E71] with iplPolled := 3, hostIpl := [3] }.setSr 0x2300))
    (fun t => t.getSr == 0x2300 && t.pc == 0x1002 && t.clock == 4) = true := by decide +kernel

/-- V-I5: a device-supplied vector. -/
theorem test_device_vector : after (step
    ({ machine [0x4E71, 0x4E71] with iplPolled := 5, hostIpl := [5], hostIack := [.vector 64] }.setSr 0x2000))
    (fun t => t.readA 7 == 0x7FFA && t.getSr == 0x2500 && t.pc == 0x3400 &&
      words t 0x7FFA 3 == [0x2000, 0, 0x1000] && t.clock == 28) = true := by decide +kernel

/-- V-I9: an interrupt from user mode. -/
theorem test_interrupt_from_user : after (step
    (({ machine [0x4E71, 0x4E71] with iplPolled := 6, hostIpl := [6] }.setSr 0).hostSetUserSp 0x6000))
    (fun t => t.readA 7 == 0x7FFA && t.userSp == 0x6000 && t.getSr == 0x2600 && t.pc == 0x31E0 &&
      words t 0x7FFA 3 == [0, 0, 0x1000] && t.clock == 28) = true := by decide +kernel


/-! ### By hand, from the rules -/

/-- R246, R256: `OR.W D1,(A0)`. -/
theorem test_or_to_memory : after (step (((machine [0x8350] [(0x2000, [0x00F0])]).writeD 1 0x800F).writeA 0 0x2000))
    (fun t => words t 0x2000 1 == [0x80FF] && t.getSr == 0x2708 && t.clock == 12) = true := by decide +kernel

/-- R236, R256: `SUB.B D1,(A0)+` on an odd byte. -/
theorem test_sub_to_memory : after (step (((machine [0x9318] [(0x2000, [0xAA10])]).writeD 1 0x20).writeA 0 0x2001))
    (fun t => words t 0x2000 1 == [0xAAF0] && t.readA 0 == 0x2002 && t.getSr == 0x2719 && t.clock == 14) = true := by
  decide +kernel

/-- R244, R256: `AND.L D1,-(A0)`. -/
theorem test_and_to_memory : after (step (((machine [0xC3A0] [(0x2000, [0xFFFF, 0])]).writeD 1 0x0F0F0F0F).writeA 0 0x2004))
    (fun t => words t 0x2000 2 == [0x0F0F, 0] && t.readA 0 == 0x2000 && t.getSr == 0x2700 && t.clock == 22) = true := by
  decide +kernel

/-- R184: `ORI #$8000,SR` sets `T`. -/
theorem test_oriSr : after (step (machine [0x007C, 0x8000]))
    (fun t => t.getSr == 0xA700 && t.pc == 0x1004 && !t.tracePending && t.clock == 8) = true := by decide +kernel

/-- V-E15: a reserved index word is refused (R154). -/
theorem test_reserved_index_word :
    (match step (machine [0x3430, 0x1128]) with | .refused r => decide (r = .reservedIndexWord) | _ => false) = true := by
  decide +kernel

/-- R132: a step in Halted; R131: a step in Stopped, with the mask at 7. -/
theorem test_idle :
    after (step { machine [0x4E71] with run := .halted }) (fun t => t.pc == 0x1000 && t.clock == 2) = true ∧
    after (step { machine [0x4E72] with run := .stopped, hostIpl := [5] })
      (fun t => t.run == .stopped && t.iplPolled == 5 && t.clock == 2) = true := by decide +kernel

/-- R350, R351: power-on of S0's memory. -/
theorem test_powerOn : after (powerOn (State.unpowered Config.reference (machine [0x4E71, 0x7001]).mem))
    (fun t => t.readA 7 == 0x8000 && t.ssp == 0x8000 && t.pc == 0x1000 && t.ird == 0x4E71 && t.irc == 0x7001 &&
      t.getSr == 0x2700 && t.clock == 24) = true := by decide +kernel

/-- The host's two entry points: a table word of two words, the second in bits 31:16, decodes and is what the next step runs. -/
theorem test_withFetchWord :
    decodeTableWord 32 0x1234027C = some .andiSr ∧
    after (step (State.reset.withFetchWord 32 0x0000027C)) (fun t => t.getSr == 0 && t.pc == 4) = true := by decide +kernel

/-- Two descriptors in opcodes the baseline leaves unassigned, the second one privileged. -/
def romExtension : List RomExtension := [⟨0x4E74, 0, none, none, none, false⟩, ⟨0x4E7A, 1, some .w, none, none, true⟩]

/-- A machine whose ROM holds them. -/
def extended (program : List Word) : State :=
  { machine program with cfg := { Config.reference with romExt := romExtension } }

/-- R96, U16: the rule of an added kind is refused; without it the same opcode is the fallback `ILLEGAL`. -/
theorem test_romExtension :
    romExtLegal romExtension = true ∧ romExtLegal [⟨0x4E71, 0, none, none, none, false⟩] = false ∧
    (match step (extended [0x4E74]) with | .refused r => decide (r = .romExtension) | _ => false) = true ∧
    after (step (machine [0x4E74])) (fun t => t.pc == 0x3040) = true := by decide +kernel

/-- R96, R121 line 8: a privileged descriptor of an added kind raises PrivilegeViolation in user mode, before its rule. -/
theorem test_romExtension_user : after (step (((extended [0x4E7A]).setSr 0).hostSetUserSp 0x6000))
    (fun t => t.readA 7 == 0x7FFA && t.getSr == 0x2000 && t.pc == 0x3080 && words t 0x7FFA 3 == [0, 0, 0x1000]) = true := by
  decide +kernel

/-- R47 c, U12: after a set of `pc` alone a step is refused; with `ird` and `irc` set to the words there it runs. -/
theorem test_hostSetPc :
    let s := machine [0x4E71, 0x4E71] [(0x2000, [0x7001, 0x7002])]
    (match step (s.hostSetPc 0x2000) with | .refused r => decide (r = .pipelineBroken) | _ => false) = true ∧
    after (step ((s.hostSetPc 0x2000).hostSetPipeline 0x7001 0x7002)) (fun t => t.readD 0 == 1 && t.pc == 0x2002) = true ∧
    after (step (s.hostSetPc 0x1000)) (fun t => t.pc == 0x1002) = true := by decide +kernel

/-! ### Witnesses: for each statement with hypotheses, states and operands that meet them, clause by clause -/

/-- A test of a next state, as the next state it speaks of. -/
theorem next_of_after (o : Outcome) (p : State → Bool) (h : after o p = true) : ∃ t, o = .next t ∧ p t = true := by
  cases o with
  | next t => exact ⟨t, rfl, h⟩
  | fault f => cases h
  | refused r => cases h

/-- S0 in user mode, with a user stack. -/
def userMachine (program : List Word) : State := ((machine program).setSr 0).hostSetUserSp 0x6000

theorem witness_DecodeInvertsEncode :
    (Instr.move .l (.an 7) (.preDec 7)).wellFormed = true ∧ (Instr.move .b .imm .absL).wellFormed = true ∧
    (Instr.addq 0 .l (.an 7)).wellFormed = true ∧ (Instr.bcc .le 0xFF).wellFormed = true ∧
    (Instr.dbcc .t 7).wellFormed = true ∧ (Instr.lineF 0xFFF).wellFormed = true ∧ Instr.illegal.wellFormed = true := by decide

theorem witness_EncodeInvertsDecode :
    decode 0x0000 ≠ .illegal ∧ decode 0xFFFF ≠ .illegal ∧ romExtLegal romExtension = true ∧
      (∃ e ∈ romExtension, e.opcode = 0x4E74) ∧ (∀ e ∈ romExtension, e.opcode ≠ 0x4E76) := by decide +kernel

theorem witness_IndexWordsRoundTrip :
    (IndexWord.full ⟨true, 7, true, 3⟩ true true .long (.noIndex .long)).wellFormed = true ∧
    decodeIndexWord 0xFFF3 = some (.full ⟨true, 7, true, 3⟩ true true .long (.noIndex .long)) := by decide +kernel

theorem witness_StepRunsDecodedInstruction :
    let s := machine [0x4E71, 0x7001]
    s.run = .running ∧ s.pipelineBroken = false ∧ s.tracePending = false ∧ s.irqEligible s.iplPolled = false ∧
      s.ird = s.mem.readWord (s.phys s.pc) ∧ (∀ e ∈ s.cfg.romExt, e.opcode ≠ s.ird) ∧
      decodeBytes [s.mem.readByte (s.phys s.pc), s.mem.readByte (s.phys s.pc + 1)] = .ok (.nop, []) := by decide +kernel

/-- One state for each clause, a stopped one with either value of `STOP_TRACE_HOLD`. -/
theorem witness_StepOrder :
    let s := machine [0x4E71]
    let held := { s with run := .stopped, tracePending := true }
    let loose := { held with cfg := { s.cfg with stopTraceHold := false } }
    { s with run := .halted }.run = .halted ∧ ¬(loose.run = .stopped ∧ loose.cfg.stopTraceHold = true) ∧
      loose.run ≠ .halted ∧ { loose with pipelineBroken := true }.pipelineBroken = true ∧ loose.pipelineBroken = false ∧
      loose.tracePending = true ∧ held.pipelineBroken = false ∧ (held.run = .stopped ∧ held.cfg.stopTraceHold = true) ∧
      { held with iplPolled := 7 }.irqEligible 7 = true ∧ held.irqEligible held.iplPolled = false ∧
      s.run = .running ∧ s.pipelineBroken = false ∧ s.tracePending = false ∧ s.irqEligible s.iplPolled = false ∧
      romEntry s.cfg.romExt s.ird = .baseline .nop ∧
      romEntry (extended [0x4E74]).cfg.romExt 0x4E74 = .extension ⟨0x4E74, 0, none, none, none, false⟩ := by decide +kernel

/-- At the boundaries: level 6 over mask 5, level 6 under mask 6, level 7 armed and not armed. -/
theorem witness_InterruptEligibility :
    ((machine []).setSr 0x2500).irqEligible 6 = true ∧ ((machine []).setSr 0x2600).irqEligible 6 = false ∧
    (machine []).irqEligible 7 = true ∧ ((machine []).setNmiArmed false).irqEligible 7 = false ∧
    ({ machine [] with iplPolled := 7 }.run ≠ .halted ∧ { machine [] with iplPolled := 7 }.pipelineBroken = false ∧ { machine [] with iplPolled := 7 }.tracePending = false ∧
      { machine [] with iplPolled := 7 }.irqEligible 7 = true) ∧
    { machine [] with run := .halted }.run = .halted := by decide +kernel

theorem witness_StepIsTotal :
    (QuietInv (machine [0x4E71]) ∧ QuietInv (machine [0x3430, 0x1128]) ∧ QuietInv (extended [0x4E74]) ∧
      QuietInv ((machine [0x4E71]).hostSetPc 0x2000)) ∧
    (let s := machine [0x4E71, 0x4E71] [(0x2000, [0x7001, 0x7002])];
      s.run = .running ∧ s.pipelineBroken = false ∧ (0x2000 : Long) ≠ s.pc ∧
        (0x7001 : Word) = s.mem.readWord (s.phys 0x2000) ∧ (0x7002 : Word) = s.mem.readWord (s.phys (0x2000 + 2))) :=
  ⟨⟨⟨rfl, rfl⟩, ⟨rfl, rfl⟩, ⟨rfl, rfl⟩, rfl, rfl⟩, by decide +kernel⟩

theorem witness_PartialRegisterWrites : (7 : RegNum) ≠ 0 := by decide

theorem witness_SupervisorFlagSwapsStackPointers :
    (userMachine []).sr.s = false ∧ (machine []).sr.s = true ∧ (userMachine []).sp = 0x6000 ∧ (userMachine []).ssp = 0x8000 := by
  decide +kernel

theorem witness_HardResetLeavesResetValues :
    let s := { machine [0x4E71] with run := .halted }
    s.hostReads = [] ∧
      isEven (longOf (s.mem.readWord (s.phys 4)) (s.mem.readWord (s.phys 6))) = true := by decide +kernel

/-- With the smallest space the last clause allows, a long stored across its end. -/
theorem witness_MemoryIsBigEndian :
    handlers.wf = true ∧
    (let s := { State.reset with cfg := { Config.reference with addrBitsPred := 1 } };
      MemInv s ∧ 2 ≤ s.cfg.addrBits ∧ s.hostReads = [] ∧ isEven 2 = true ∧ isEven 0xFFFFFFFE = true) := by
  unfold MemInv; decide +kernel

theorem witness_AlignedAccesses : isEven 0 = true ∧ isEven 0xFFFFFFFE = true := by decide

theorem witness_OddAccessesIssueNothing : isEven 1 = false ∧ isEven 0xFFFFFFFF = false := by decide

theorem witness_StackHelpers :
    isEven ((machine []).writeA 7 0).sp = true ∧ isEven ((machine []).writeA 7 0xFFFFFFFF).sp = false := by decide +kernel

theorem witness_PipelineAdvances :
    isEven ((machine []).setPc 0xFFFFFFFE).pc = true ∧ isEven ((machine []).setPc 0xFFFFFFFF).pc = false := by decide +kernel

/-- A state whose next extension words are given. -/
def extending (words : List Word) : State := { machine (0x4E71 :: words) with pc := 0x1002 }

theorem witness_AddressingModes : isEven (extending [0x8000, 0xFFFE]).pc = true := by decide +kernel

/-- One word for each clause: brief, no indirection, pre-indexed, post-indexed, without index. -/
theorem witness_IndexedAddresses :
    (isEven (extending [0xBAFE]).pc = true ∧ decodeIndexWord (extending [0xBAFE]).irc = some (.brief ⟨true, 3, true, 1⟩ 0xFE)) ∧
    (let s := extending [0x1120, 0x0010];
      decodeIndexWord s.irc = some (.full ⟨false, 1, false, 0⟩ false false .word .none) ∧
        ∃ v u, readDisp .word (s.extTaken.tick s.cfg.cIdx) = .ok v u) ∧
    (let s := extending [0x1122, 0x0010, 0x0004];
      decodeIndexWord s.irc = some (.full ⟨false, 1, false, 0⟩ false false .word (.preIndexed .word)) ∧
        ∃ v u, readDisp .word (s.extTaken.tick s.cfg.cIdx) = .ok v u ∧ isEven (s.readA 0 + v + s.readD 1) = true ∧
          ∃ x w, readDisp .word u = .ok x w) ∧
    (let s := extending [0x15B5, 0x0000, 0x2014];
      decodeIndexWord s.irc = some (.full ⟨false, 1, false, 2⟩ true false .long (.postIndexed .none)) ∧
        ∃ v u, readDisp .long (s.extTaken.tick s.cfg.cIdx) = .ok v u ∧ isEven (0 + v) = true ∧
          ∃ x w, readDisp .none u = .ok x w) ∧
    (let s := extending [0x0153, 0x0000, 0x0004];
      decodeIndexWord s.irc = some (.full ⟨false, 0, false, 0⟩ false true .none (.noIndex .long)) ∧
        ∃ v u, readDisp .none (s.extTaken.tick s.cfg.cIdx) = .ok v u ∧ isEven (s.readA 0 + v) = true ∧
          ∃ x w, readDisp .long u = .ok x w) := by
  refine ⟨by decide +kernel, ⟨by decide +kernel, _, _, rfl⟩, ⟨by decide +kernel, _, _, rfl, by decide +kernel, _, _, rfl⟩,
    ⟨by decide +kernel, _, _, rfl, by decide +kernel, _, _, rfl⟩, by decide +kernel, _, _, rfl, by decide +kernel, _, _, rfl⟩

/-- Every addressing mode with an operand that can be accessed; a byte one at an odd address; a pre-decrement through 0. -/
theorem ready_operands :
    OperandReady (.dn 0) .b (machine []) ∧ OperandReady (.an 7) .l (machine []) ∧
    OperandReady (.ind 0) .b ((machine []).writeA 0 0xFFFFFFFF) ∧ OperandReady (.ind 0) .l ((machine []).writeA 0 0xFFFFFFFE) ∧
    OperandReady (.postInc 7) .b (machine []) ∧ OperandReady (.preDec 0) .l (machine []) ∧
    OperandReady (.disp 0) .w (extending [0x8000]) ∧ OperandReady (.index 0) .w (extending [0xBAFE]) ∧
    OperandReady .absW .w (extending [0x8000]) ∧ OperandReady .absL .l (extending [0xFFFF, 0xFFFE]) ∧
    OperandReady .pcDisp .w (extending [0xFFFE]) ∧ OperandReady .pcIndex .w (extending [0x1002]) ∧
    OperandReady .imm .l (extending [1, 2]) := by
  refine ⟨trivial, trivial, ?_, ?_, ?_, ?_, ?_, ⟨_, _, rfl, ?_⟩, ?_, ?_, ?_, ⟨_, _, rfl, ?_⟩, ?_⟩ <;>
    first | decide +kernel | (unfold OperandReady; decide +kernel)

theorem witness_ReadyOperandsRead : OperandReady (.preDec 0) .l (machine []) ∧ OperandReady .imm .l (extending [1, 2]) :=
  ⟨ready_operands.2.2.2.2.2.1, ready_operands.2.2.2.2.2.2.2.2.2.2.2.2⟩

theorem witness_ReservedIndexWordsRefused :
    let s := extending [0x1128]
    isEven s.pc = true ∧ decodeIndexWord s.irc = none ∧ (Instr.move .w (.index 0) (.dn 2)).startsWithIndex = true ∧
      (Instr.jmp .pcIndex).startsWithIndex = true ∧ (Instr.moveToSr (.index 0)).startsWithIndex = true ∧ s.sr.s = true := by
  decide +kernel

theorem witness_OperandErrorsEndTheRule :
    let s := (machine []).writeA 0 1
    (Instr.move .w (.ind 0) (.dn 1)).firstOperand = some (.ind 0, .w) ∧
      (Instr.moveToSr (.ind 0)).firstOperand = some (.ind 0, .w) ∧ s.sr.s = true ∧
      (∃ u, readOp (.ind 0) .w s = .error (.addressError 1 .read .data) u) ∧
      (isEven (s.setPc 0x1001).pc = false ∧ isEven s.pc = true ∧
        ∃ u, readOp (.ind 0) .w (s.immTaken .w) = .error (.addressError 1 .read .data) u) ∧
      (∃ v l u x y w, readOp (.postInc 1) .w s = .ok (v, l) u ∧
        resolve (.disp 0) .w { s with pc := 0x1001 } = .error (.addressError 0x1003 .read .prog) y ∧
        readOp (.dn 1) .w { s with pc := 0x1001 } = .ok x { s with pc := 0x1001 } ∧
        resolve (.ind 0) .w u = .ok (.mem 1 .data) w ∧ alignedFor .w 1 = false) ∧
      (∃ u w, readOp (.postInc 0) .w u = .error (.addressError 1 .read .data) w ∧ ∃ v l, readOp (.postInc 1) .w s = .ok (v, l) u) ∧
      (∃ u, controlEa (.disp 0) (s.setPc 0x1001) = .error (.addressError 0x1003 .read .prog) u) :=
  ⟨rfl, rfl, rfl, ⟨_, rfl⟩, ⟨by decide +kernel, by decide +kernel, _, rfl⟩, ⟨_, _, _, _, _, _, rfl, rfl, rfl, rfl, rfl⟩,
    ⟨_, _, rfl, _, _, rfl⟩, _, rfl⟩

/-- The value with the top bit of its size alone, and 0. -/
theorem witness_MoveFlagsAreExact : trunc .b 0x80 = 0x80 ∧ trunc .w 0x8000 = 0x8000 ∧ trunc .l 0x80000000 = 0x80000000 ∧ trunc .b 0 = 0 := by
  decide

/-- The largest and the most negative value of each size. -/
theorem witness_AddFlagsAreExact :
    trunc .b 0xFF = 0xFF ∧ trunc .b 0x80 = 0x80 ∧ trunc .w 0xFFFF = 0xFFFF ∧ trunc .w 0x8000 = 0x8000 ∧
    trunc .l 0xFFFFFFFF = 0xFFFFFFFF ∧ trunc .l 0x80000000 = 0x80000000 := by decide

theorem witness_SubFlagsAreExact : trunc .b 0 = 0 ∧ trunc .b 0x80 = 0x80 ∧ trunc .w 0xFFFF = 0xFFFF ∧ trunc .l 1 = 1 := by decide

theorem witness_Conditions : trunc .b 0xFF = 0xFF ∧ trunc .w 0x7FFF = 0x7FFF ∧ trunc .l 0x80000000 = 0x80000000 := by decide

/-- `ADD.L -(A0),D1` with `A0` at 0. -/
theorem witness_OperandToRegister :
    AluOp.add.toReg .l (.preDec 0) 1 = some (.addToReg .l (.preDec 0) 1) ∧ OperandReady (.preDec 0) .l (machine []) ∧
      isEven (machine []).pc = true :=
  ⟨rfl, ready_operands.2.2.2.2.2.1, by decide +kernel⟩

/-- `EOR.L D1,-(A0)` with `A0` at 0. -/
theorem witness_RegisterToOperand :
    Ea.isAlterable (.preDec 0) = true ∧ OperandReady (.preDec 0) .l (machine []) ∧ isEven (machine []).pc = true :=
  ⟨rfl, ready_operands.2.2.2.2.2.1, by decide +kernel⟩

/-- A long immediate before a displacement word. -/
theorem witness_ImmediateToOperand :
    Ea.isDataAlterable (.disp 0) = true ∧ isEven (extending [0, 1, 0x8000]).pc = true ∧
      OperandReady (.disp 0) .l ((extending [0, 1, 0x8000]).immTaken .l) :=
  ⟨rfl, by decide +kernel, by unfold OperandReady; decide +kernel⟩

/-- The four compares; `CMPM.W (A0)+,(A0)+` with one register twice. -/
theorem witness_Compares :
    OperandReady (.ind 0) .l ((machine []).writeA 0 0xFFFFFFFE) ∧ isEven (machine []).pc = true ∧
    OperandReady (.disp 0) .l ((extending [0, 1, 0x8000]).immTaken .l) ∧
    alignedFor .w ((machine []).readA 0) = true ∧ alignedFor .w (((machine []).adjusted (.postInc 0) .w).readA 0) = true :=
  ⟨ready_operands.2.2.2.1, by decide +kernel, witness_ImmediateToOperand.2.2, by decide +kernel, by decide +kernel⟩

theorem witness_AddressArithmetic : OperandReady (.preDec 0) .l (machine []) ∧ isEven (machine []).pc = true :=
  witness_OperandToRegister.2

theorem witness_QuickArithmetic :
    isEven (machine []).pc = true ∧ Ea.isDataAlterable (.preDec 0) = true ∧ OperandReady (.preDec 0) .l (machine []) :=
  ⟨witness_OperandToRegister.2.2, rfl, witness_OperandToRegister.2.1⟩

theorem witness_NegateAndComplement :
    Ea.isDataAlterable (.preDec 0) = true ∧ OperandReady (.preDec 0) .l (machine []) ∧ isEven (machine []).pc = true :=
  ⟨rfl, witness_OperandToRegister.2⟩

theorem witness_ClearAndStoreStatus :
    Ea.isDataAlterable (.postInc 7) = true ∧ OperandReady (.postInc 7) .b (machine []) ∧ isEven (machine []).pc = true ∧
      Ea.isDataAlterable (.disp 0) = true ∧ OperandReady (.disp 0) .w (extending [0x8000]) ∧
      isEven (extending [0x8000]).pc = true :=
  ⟨rfl, ready_operands.2.2.2.2.1, by decide +kernel, rfl, ready_operands.2.2.2.2.2.2.1, by decide +kernel⟩

theorem witness_Multiplies : OperandReady .pcDisp .w (extending [0xFFFE]) ∧ isEven (extending [0xFFFE]).pc = true :=
  ⟨ready_operands.2.2.2.2.2.2.2.2.2.2.1, by decide +kernel⟩

/-- `MOVE.L (A0)+,-(A0)`. -/
theorem witness_MoveCompletes :
    OperandReady (.postInc 0) .l (machine []) ∧ isEven (machine []).pc = true ∧ Ea.isDataAlterable (.preDec 0) = true ∧
      ∃ v l u, readOp (.postInc 0) .l (machine []) = .ok (v, l) u ∧ OperandReady (.preDec 0) .l u :=
  ⟨by unfold OperandReady; decide +kernel, by decide +kernel, rfl, _, _, _, rfl, by unfold OperandReady; decide +kernel⟩

theorem witness_AddressLoads :
    OperandReady .imm .l (extending [1, 2]) ∧ isEven (extending [1, 2]).pc = true ∧
      AddressReady (.index 0) (extending [0xBAFE]) ∧ AddressReady .absL (extending [1, 2]) ∧
      isEven (extending [0xBAFE]).pc = true :=
  ⟨ready_operands.2.2.2.2.2.2.2.2.2.2.2.2, by decide +kernel, ⟨_, _, rfl⟩, by unfold AddressReady; decide +kernel, by decide +kernel⟩

theorem witness_RegisterMoves : isEven (machine []).pc = true := by decide +kernel

theorem witness_Tests :
    OperandReady .pcIndex .w (extending [0x1002]) ∧ isEven (extending [0x1002]).pc = true ∧
      Ea.isDataAlterable (.ind 0) = true ∧ OperandReady (.ind 0) .b ((machine []).writeA 0 0xFFFFFFFF) ∧
      isEven (machine []).pc = true :=
  ⟨ready_operands.2.2.2.2.2.2.2.2.2.2.2.1, by decide +kernel, rfl, ready_operands.2.2.1, by decide +kernel⟩

/-- An odd address to push, an even one to call; both lengths of `BSR`. -/
theorem witness_Calls :
    (AddressReady .absW (extending [0x1235]) ∧ isEven (extending [0x1235]).sp = true ∧ isEven (extending [0x1235]).pc = true) ∧
    (∃ x u, controlEa .pcDisp (extending [0x0002]) = .ok x u ∧ AddressReady .pcDisp (extending [0x0002]) ∧ isEven x = true) ∧
    (isEven (extending [0x0002]).sp = true ∧
      isEven ((extending [0x0002]).pc + (extending [0x0002]).irc.signExtend 32) = true) ∧
    isEven ((extending []).pc + (0xFE : Byte).signExtend 32) = true ∧
    (∃ x u, controlEa .absW (extending [0x1235]) = .ok x u ∧ isEven x = false) ∧
    isEven ((extending []).pc + (0xFF : Byte).signExtend 32) = false ∧ isEven ((extending [0x1235]).writeA 7 1).sp = false ∧
    AddressReady .absW ((extending [0x1235]).writeA 7 1) :=
  ⟨⟨by unfold AddressReady; decide +kernel, by decide +kernel, by decide +kernel⟩,
    ⟨_, _, rfl, by unfold AddressReady; decide +kernel, by decide +kernel⟩, by decide +kernel, by decide +kernel,
    ⟨_, _, rfl, by decide +kernel⟩, by decide +kernel, by decide +kernel, by unfold AddressReady; decide +kernel⟩

theorem witness_Jumps :
    (isEven ((extending []).pc + (0x80 : Byte).signExtend 32) = true ∧ isEven (extending []).pc = true ∧
      condHolds (extending []).sr.ccr .ne = true ∧ condHolds (extending []).sr.ccr .eq = false) ∧
    (∃ x u, controlEa (.ind 0) (machine []) = .ok x u ∧ AddressReady (.ind 0) (machine []) ∧ isEven x = true) ∧
    (isEven (machine []).sp = true ∧ isEven ((machine []).answer32 (machine []).sp) = true) ∧
    isEven ((extending []).pc + (0x81 : Byte).signExtend 32) = false ∧
    (∃ x u, controlEa .absW (extending [0x1235]) = .ok x u ∧ AddressReady .absW (extending [0x1235]) ∧ isEven x = false) ∧
    (let s := machine [] [(0x8000, [0, 0x2001])]; isEven s.sp = true ∧ isEven (s.answer32 s.sp) = false) ∧
    isEven ((machine []).writeA 7 1).sp = false :=
  ⟨by decide +kernel, ⟨_, _, rfl, trivial, by decide +kernel⟩, by decide +kernel, by decide +kernel,
    ⟨_, _, rfl, by unfold AddressReady; decide +kernel, by decide +kernel⟩, by decide +kernel, by decide +kernel⟩

/-- The three ways `DBcc` ends, the counter at 0, at 1 and not used. -/
theorem witness_DecrementAndBranch :
    let s := extending [0xFFFC]
    isEven s.pc = true ∧ condHolds s.sr.ccr .t = true ∧ condHolds s.sr.ccr .f = false ∧
      ((s.writeD 0 0x10001).readD 0).extractLsb' 0 16 - 1 ≠ (0xFFFF : Word) ∧ isEven (s.pc + s.irc.signExtend 32) = true ∧
      isEven ((extending [0xFFFD]).pc + (extending [0xFFFD]).irc.signExtend 32) = false ∧
      ((s.writeD 0 0x10000).readD 0).extractLsb' 0 16 - 1 = (0xFFFF : Word) := by decide +kernel

theorem witness_ConditionCodeForms :
    isEven (extending [0xFF]).pc = true ∧ OperandReady .pcDisp .w (extending [0xFFFE]) ∧
      isEven (extending [0xFFFE]).pc = true :=
  ⟨by decide +kernel, witness_Multiplies⟩

theorem witness_StatusRegisterForms :
    (extending [0xFFFF]).sr.s = true ∧ isEven (extending [0xFFFF]).pc = true ∧ (extending [0xFFFE]).sr.s = true ∧
      OperandReady .pcDisp .w (extending [0xFFFE]) ∧ isEven (extending [0xFFFE]).pc = true :=
  ⟨by decide +kernel, by decide +kernel, by decide +kernel, witness_Multiplies⟩

theorem witness_SupervisorInstructions :
    let s := machine [] [(0x8000, [0x0000, 0x0000, 0x2000])]
    s.sr.s = true ∧ isEven s.pc = true ∧ isEven s.sp = true ∧ isEven ((s.wordRead s.sp).answer32 (s.sp + 2)) = true ∧
      (let s := machine [] [(0x8000, [0x0000, 0x0000, 0x2001])]; isEven ((s.wordRead s.sp).answer32 (s.sp + 2)) = false) ∧
      isEven (s.writeA 7 1).sp = false ∧ (s.writeA 7 1).sr.s = true := by
  decide +kernel

/-- From user mode and from supervisor mode, the first and the last software trap vector. -/
theorem witness_TrapInstructions :
    EntryReady .illegalOpcode 4 0x1000 (userMachine []) ∧ EntryReady .reservedOpcodeGroup 10 0x1000 (machine []) ∧
    EntryReady .reservedOpcodeGroup 11 0x1000 (machine []) ∧
    EntryReady .softwareTrap (BitVec.ofNat 8 (32 + (0 : BitVec 4).toNat)) 0x1000 (machine []) ∧
    EntryReady .softwareTrap (BitVec.ofNat 8 (32 + (15 : BitVec 4).toNat)) 0x1000 (userMachine []) := by
  unfold EntryReady; decide +kernel

theorem witness_PrivilegeViolations :
    (Instr.moveToUsp 0).descriptor.priv = true ∧ (userMachine []).sr.s = false ∧
      EntryReady .privilegeViolation 8 (userMachine []).pc0 (userMachine []) := by unfold EntryReady; decide +kernel

theorem witness_TraceIsTaken :
    let s := { machine [] with tracePending := true }
    s.run ≠ .halted ∧ s.pipelineBroken = false ∧ s.tracePending = true ∧ ¬(s.run = .stopped ∧ s.cfg.stopTraceHold = true) ∧
      EntryReady .traceException 9 s.pc ((s.setTracePending false).setRun .running) := by unfold EntryReady; decide +kernel

/-- Stopped with a trace held, level 7 armed, the host supplying a vector; and Running at level 6, autovectored. -/
theorem witness_InterruptIsTaken :
    (let s := { machine [] with run := .stopped, tracePending := true, iplPolled := 7, hostIack := [.vector 64] };
      s.run ≠ .halted ∧ s.pipelineBroken = false ∧ (s.run = .stopped ∧ s.cfg.stopTraceHold = true) ∧ s.irqEligible s.iplPolled = true ∧
        isEven s.supervisorSp = true ∧ isEven ((s.interruptFrame 7).handler 64) = true) ∧
    (let s := { userMachine [] with iplPolled := 6 };
      s.run ≠ .halted ∧ s.pipelineBroken = false ∧ s.tracePending = false ∧ s.irqEligible s.iplPolled = true ∧
        isEven s.supervisorSp = true ∧ isEven ((s.interruptFrame 6).handler 30) = true) := by decide +kernel

/-- The smallest address space each frame's statement allows is a state too. -/
theorem witness_NormalFrameLayout :
    (MemInv (machine []) ∧ 3 ≤ (machine []).cfg.addrBits ∧ EntryReady .softwareTrap 32 0x1002 (machine [])) ∧
    (let s := { State.reset with cfg := { Config.reference with addrBitsPred := 2 } };
      MemInv s ∧ 3 ≤ s.cfg.addrBits ∧ EntryReady .illegalOpcode 4 0 s) := by unfold MemInv EntryReady; decide +kernel

theorem witness_AddressErrorFrameLayout :
    let s := machine [0x3080]
    MemInv s ∧ 4 ≤ s.cfg.addrBits ∧ s.aeInService = false ∧ isEven s.supervisorSp = true ∧
      isEven ((s.addressErrorFrame 0x1001 .write .data).handler 3) = true := by unfold MemInv; decide +kernel

theorem witness_DoubleFaultHalts :
    { machine [] with aeInService := true }.aeInService = true ∧ isEven ((machine []).writeA 7 0xFFFFFFFF).supervisorSp = false ∧
      isEven { userMachine [] with ssp := 1 }.supervisorSp = false := by decide +kernel

theorem witness_ControlAndMemoryInvariant :
    QuietInv (machine [0x3080]) ∧ MemInv (machine [0x3080]) ∧ ∃ t, step (machine [0x3080]) = .next t :=
  ⟨⟨rfl, rfl⟩, by unfold MemInv; decide +kernel,
    (next_of_after (step (machine [0x3080])) (fun _ => true) (by decide +kernel)).imp fun _ h => h.1⟩

/-- Running, from reset; and Stopped, with the words its pipeline holds in the log. -/
theorem witness_PipelineStaysFilled :
    (∃ t, QuietInv State.reset ∧ PcInv State.reset ∧ PipelineInv State.reset ∧ step State.reset = .next t) ∧
    (let s := { machine [0x4E72] with run := .stopped, port := [.read16 0x1000 0] };
      ∃ t, QuietInv s ∧ PcInv s ∧ PipelineInv s ∧ step s = .next t) :=
  ⟨(next_of_after (step State.reset) (fun _ => true) (by decide +kernel)).imp fun _ h =>
      ⟨⟨rfl, rfl⟩, by unfold PcInv; decide +kernel, by unfold PipelineInv; decide +kernel, h.1⟩,
    (next_of_after (step { machine [0x4E72] with run := .stopped, port := [.read16 0x1000 0] }) (fun _ => true) (by decide +kernel)).imp fun _ h =>
      ⟨⟨rfl, rfl⟩, by unfold PcInv; decide +kernel, by unfold PipelineInv; decide +kernel, h.1⟩⟩

theorem witness_ClockNeverFalls : QuietInv (machine [0x4E71]) ∧ ∃ t, step (machine [0x4E71]) = .next t :=
  ⟨⟨rfl, rfl⟩, (next_of_after (step (machine [0x4E71])) (fun _ => true) (by decide +kernel)).imp fun _ h => h.1⟩

/-- A step that stays in user mode, and one that leaves it. -/
theorem witness_UserModeIsConfined :
    (QuietInv (userMachine [0x4E71]) ∧ (userMachine [0x4E71]).sr.s = false ∧
      ∃ t, step (userMachine [0x4E71]) = .next t ∧ t.sr.s = false) ∧
    (QuietInv (userMachine [0x4E72]) ∧ (userMachine [0x4E72]).sr.s = false ∧
      ∃ t, step (userMachine [0x4E72]) = .next t ∧ t.sr.s = true) :=
  ⟨⟨⟨rfl, rfl⟩, by decide +kernel, (next_of_after (step (userMachine [0x4E71])) (fun t => !t.sr.s) (by decide +kernel)).imp fun _ h => by simpa using h⟩,
    ⟨rfl, rfl⟩, by decide +kernel, next_of_after (step (userMachine [0x4E72])) (fun t => t.sr.s) (by decide +kernel)⟩

theorem witness_SupervisorModeIsLeftOnlyBySrWrites :
    QuietInv (machine [0x46FC, 0]) ∧ (machine [0x46FC, 0]).sr.s = true ∧
      ∃ t, step (machine [0x46FC, 0]) = .next t ∧ t.sr.s = false :=
  ⟨⟨rfl, rfl⟩, rfl, (next_of_after (step (machine [0x46FC, 0])) (fun t => !t.sr.s) (by decide +kernel)).imp fun _ h => by simpa using h⟩

/-- One step for each clause: in Halted, into Stopped, out of Stopped, into Halted. -/
theorem witness_RunStateTransitions :
    (let s := { machine [] with run := .halted }; QuietInv s ∧ s.run = .halted ∧ ∃ t, step s = .next t) ∧
    (let s := machine [0x4E72, 0x2000]; QuietInv s ∧ s.run = .running ∧ ∃ t, step s = .next t ∧ t.run = .stopped) ∧
    (let s := { machine [] with run := .stopped, iplPolled := 7 };
      QuietInv s ∧ s.run = .stopped ∧ ∃ t, step s = .next t ∧ t.run = .running) ∧
    (let s := (machine [0x4AFC]).writeA 7 0x7FFF; QuietInv s ∧ s.run ≠ .halted ∧ ∃ t, step s = .next t ∧ t.run = .halted) := by
  refine ⟨⟨⟨rfl, rfl⟩, rfl, _, rfl⟩, ⟨⟨rfl, rfl⟩, rfl, ?_⟩, ⟨⟨rfl, rfl⟩, rfl, ?_⟩, ⟨rfl, rfl⟩, by decide +kernel, ?_⟩
  · exact (next_of_after (step (machine [0x4E72, 0x2000])) (fun t => decide (t.run = .stopped)) (by decide +kernel)).imp fun _ h => by simpa using h
  · exact (next_of_after (step { machine [] with run := .stopped, iplPolled := 7 }) (fun t => decide (t.run = .running)) (by decide +kernel)).imp fun _ h => by simpa using h
  · exact (next_of_after (step ((machine [0x4AFC]).writeA 7 0x7FFF)) (fun t => decide (t.run = .halted)) (by decide +kernel)).imp fun _ h => by simpa using h

end Sys2Proof.Tests
end

section
/-! SUPPORT. What every step leaves, derived from the one inversion of a step `stepped` (Laws/Step): what the record, the clock and
memory keep, the pipeline at the next step boundary, and the transitions of the run state (R25, R26, R33 to R38, R61, R64). -/

namespace Sys2Proof.Machine

/-! ### What grows -/

theorem Entered.grown {s t : State} (h : Entered s t) : Grown s t := ⟨h.cfg, h.clock, h.mem, h.port, h.pipelineBroken⟩

theorem grown_beginInstr (s : State) : Grown s s.beginInstr :=
  .of rfl (le_refl _) rfl (List.suffix_refl _) rfl

theorem Ran.grown {i : Instr} {s t : State} (h : Ran i s t) : Grown s t := by
  cases h with
  | completed kept _ => exact kept.toKept.grown
  | privileged _ _ _ kept _ _ => exact kept.grown
  | stopped _ _ _ state =>
    obtain ⟨hcfg, hclock, hmem, hport, -, -, hbroken⟩ := stopped_kept state
    exact .of hcfg hclock hmem hport hbroken
  | entered state _ => exact state.grown

/-- No step lowers the clock, changes a parameter, takes back a transaction, spoils memory or touches the pipeline's mark. -/
theorem Stepped.grown {s t : State} (h : Stepped s t) : Grown s t := by
  cases h with
  | halted _ state => exact state ▸ (Steady.tick s _).toKept.grown
  | stopped _ _ state => exact state ▸ ((Steady.sampled s).trans (Steady.tick _ _)).toKept.grown
  | trace _ _ _ state _ => exact state.grown
  | interrupt _ _ state _ => exact state.grown
  | ran _ how => exact (grown_beginInstr s).trans how.grown
  | extension _ _ state _ => exact state.grown

/-! ### The transient bits (R38) -/

theorem Kept.quiet {s t : State} (h : Kept s t) (hq : QuietInv s) : QuietInv t :=
  ⟨h.aeInService.trans hq.1, h.excInService.trans hq.2⟩

theorem Ran.quiet {i : Instr} {s t : State} (h : Ran i s t) (hq : QuietInv s) : QuietInv t := by
  cases h with
  | completed kept _ => exact kept.toKept.quiet hq
  | privileged _ _ _ kept _ _ => exact kept.quiet hq
  | stopped _ _ _ state =>
    obtain ⟨-, -, -, -, hae, hexc, -⟩ := stopped_kept state
    exact ⟨hae.trans hq.1, hexc.trans hq.2⟩
  | entered state _ => exact state.quiet hq.1

theorem Stepped.quiet {s t : State} (h : Stepped s t) (hq : QuietInv s) : QuietInv t := by
  cases h with
  | halted _ state => exact state ▸ (Steady.tick s _).toKept.quiet hq
  | stopped _ _ state => exact state ▸ ((Steady.sampled s).trans (Steady.tick _ _)).toKept.quiet hq
  | trace _ _ _ state _ => exact state.quiet hq.1
  | interrupt _ _ state _ => exact state.quiet hq.1
  | ran _ how => exact how.quiet (s := s.beginInstr) hq
  | extension _ _ state _ => exact state.quiet hq.1

/-! ### The pipeline at the next step boundary (R25, R26, R33) -/

/-- The program counters and the pipeline are as the rules promise at a step boundary. -/
def Filled (s : State) : Prop := PcInv s ∧ PipelineInv s

theorem Filled.of_primed {t : State} (h : Primed t) (hr : t.run = .running) : Filled t :=
  ⟨⟨fun _ => ⟨h.even, h.pc0⟩, by simp [hr]⟩, fun _ => ⟨h.ird, h.irc⟩, by simp [hr]⟩

/-- Halted, nothing is promised. -/
theorem Filled.of_halted {t : State} (hr : t.run = .halted) : Filled t := by
  simp [Filled, PcInv, PipelineInv, hr]

theorem Filled.of_stopped {t : State} (hr : t.run = .stopped) (hpc : isEven t.pc = true) (hird : t.ird = 0x4E72)
    (hirc : Ahead t) : Filled t :=
  ⟨⟨by simp [hr], fun _ => hpc⟩, by simp [hr], fun _ => ⟨hird, hirc⟩⟩

theorem EndsAs.filled {t : State} (h : EndsAs .running t) : Filled t := by
  obtain ⟨hr, hp, -⟩ | ⟨hr, -⟩ := h
  · exact .of_primed hp hr
  · exact .of_halted hr

/-- Past the opcode word, the lookahead stage holds the word at the new `pc` (R33, R121). -/
theorem Filled.ahead_beginInstr {s : State} (h : Filled s) (hr : s.run = .running) : Ahead s.beginInstr :=
  (h.2.1 hr).2

/-- `STOP` leaves `pc` past its immediate, the lookahead stage read from there, and its opcode in `ird` (R33, R173). -/
theorem filled_stopped {s : State} (hpc : isEven s.pc = true) (hird : s.ird = 0x4E72) : Filled s.stopped := by
  refine .of_stopped (by simp [State.stopped]) (by simpa [State.stopped] using hpc) (by simpa [State.stopped] using hird) ?_
  have h := Ahead.extTaken s
  unfold Ahead at h ⊢
  simp only [State.stopped, tick_fields, record_fields, sampled_fields, setRun_fields, setSr_fields]
  exact List.mem_cons_of_mem _ (List.mem_cons_of_mem _ h)

theorem Ran.filled {i : Instr} {s t : State} (h : Ran i s t) (hr : s.run = .running) (ha : Ahead s)
    (hstop : i = .stop → s.ird = 0x4E72) : Filled t := by
  cases h with
  | completed kept primed => exact .of_primed (primed ha) (kept.run.trans hr)
  | privileged _ _ _ kept primed _ => exact .of_primed (primed ha) (kept.run.trans hr)
  | stopped stop _ even state => exact state ▸ filled_stopped even (hstop stop)
  | entered _ ends => exact EndsAs.filled (hr ▸ ends)

/-- A step in Stopped moves nothing, and adds to the record only. -/
theorem Filled.idleStopped {s : State} (h : Filled s) (hr : s.run = .stopped) : Filled s.idleStopped := by
  obtain ⟨hird, hirc⟩ := h.2.2 hr
  exact .of_stopped hr (h.1.2 hr) hird (List.mem_cons_of_mem _ hirc)

theorem Stepped.filled {s t : State} (h : Stepped s t) (hf : Filled s) : Filled t := by
  cases h with
  | halted run state => exact state ▸ .of_halted run
  | stopped run _ state => exact state ▸ hf.idleStopped run
  | trace _ _ _ _ ends => exact ends.filled
  | interrupt _ _ _ ends => exact ends.filled
  | ran run how => exact how.filled run (hf.ahead_beginInstr run) decode_eq_stop
  | extension _ _ _ ends => exact ends.filled

/-! ### The run state (R36) -/

/-- Halted is entered with its notification last (R314). -/
def HaltNotified (t : State) : Prop := t.run = .halted ∧ t.port.head? = some (.notify .haltEntry)

theorem EndsAs.run_cases {r : RunState} {t : State} (h : EndsAs r t) : t.run = r ∨ HaltNotified t :=
  h.imp And.left id

/-- An instruction leaves the run state as it was, but for `STOP` in supervisor mode and an entry that halts. -/
theorem Ran.run_cases {i : Instr} {s t : State} (h : Ran i s t) :
    t.run = s.run ∨ (t.run = .stopped ∧ i = .stop ∧ s.sr.s = true) ∨ HaltNotified t := by
  cases h with
  | completed kept _ => exact .inl kept.run
  | privileged _ _ _ kept _ _ => exact .inl kept.run
  | stopped stop supervisor _ state => exact .inr (.inl ⟨by simp [state, State.stopped], stop, supervisor⟩)
  | entered _ ends => exact ends.run_cases.imp_right .inr

/-- How a step may change the run state. -/
inductive RunChange (s t : State) : Prop where
  | same (run : t.run = s.run)
  | stops (run : s.run = .running) (stopped : t.run = .stopped) (stop : decode s.ird = .stop) (supervisor : s.sr.s = true)
  | wakes (run : s.run = .stopped) (running : t.run = .running)
      (cause : s.irqEligible s.iplPolled = true ∨ (s.tracePending = true ∧ s.cfg.stopTraceHold = false))
  | halts (run : s.run ≠ .halted) (halted : HaltNotified t)

/-- An entry of a trace or an interrupt, from a state that is not halted. -/
theorem RunChange.of_ends {s t : State} (hr : s.run ≠ .halted) (h : EndsAs .running t)
    (cause : s.run = .stopped → s.irqEligible s.iplPolled = true ∨ (s.tracePending = true ∧ s.cfg.stopTraceHold = false)) :
    RunChange s t := by
  obtain hrun | hhalt := h.run_cases
  · cases hs : s.run with
    | running => exact .same (hrun.trans hs.symm)
    | stopped => exact .wakes hs hrun (cause hs)
    | halted => exact absurd hs hr
  · exact .halts hr hhalt

theorem Stepped.runChange {s t : State} (h : Stepped s t) : RunChange s t := by
  cases h with
  | halted _ state => exact .same (state ▸ rfl)
  | stopped _ _ state => exact .same (state ▸ rfl)
  | trace run pending notHeld _ ends =>
    exact .of_ends run ends fun hs => .inr ⟨pending, by simpa [hs] using notHeld⟩
  | interrupt run eligible _ ends => exact .of_ends run ends fun _ => .inl eligible
  | ran run how =>
    obtain hsame | ⟨hstopped, hstop, hsup⟩ | hhalt := how.run_cases
    · exact .same hsame
    · exact .stops run hstopped hstop hsup
    · exact .halts (by simp [run]) hhalt
  | extension run _ _ ends => exact .of_ends (by simp [run]) ends fun hs => by simp [run] at hs

/-! ### The statements -/

/-- Settles O55: memory and the mark by `Stepped.grown`, the transient bits by `Stepped.quiet`. -/
theorem controlAndMemoryInvariant : Obligations.ControlAndMemoryInvariant := by
  intro s t hq h
  have hs := stepped hq h
  exact ⟨hs.quiet hq, hs.grown.mem, hs.grown.pipelineBroken⟩

/-- Settles O56: an instruction or an entry ends in a completed fetch, `STOP` and the idle steps move nothing. -/
theorem pipelineStaysFilled : Obligations.PipelineStaysFilled :=
  fun _ _ hq hpc hpipe h => (stepped hq h).filled ⟨hpc, hpipe⟩

/-- Settles O57: only `Charge` writes the clock, and the record is only added to. -/
theorem clockNeverFalls : Obligations.ClockNeverFalls := by
  intro s t hq h
  have hg := (stepped hq h).grown
  exact ⟨hg.clock, hg.cfg, hg.port⟩

/-- Settles O60, by the four ways a step may change the run state. -/
theorem runStateTransitions : Obligations.RunStateTransitions := by
  intro s t hq h
  cases (stepped hq h).runChange with
  | same run => simp_all
  | stops run stopped stop supervisor => simp_all
  | wakes run running cause => simp_all
  | halts run halted => simp_all [HaltNotified]

end Sys2Proof.Machine
end

section
/-! SUPPORT. The register file and the status register: the sized write of a data register (R20), the swap of the stack pointers
(R23, R24, R47 b), the status word read and written (R29); and the invariants at reset. -/

namespace Sys2Proof.Machine

/-! ### Data registers -/

@[simp] theorem writeDPart_readA (s : State) (r q : RegNum) (size : Size) (v : Long) :
    (s.writeDPart r size v).readA q = s.readA q := rfl

@[simp] theorem writeDPart_sr (s : State) (r : RegNum) (size : Size) (v : Long) : (s.writeDPart r size v).sr = s.sr := rfl

theorem readDPart_writeDPart_same (s : State) (r : RegNum) (size : Size) (v : Long) :
    (s.writeDPart r size v).readDPart r size = trunc size v := by
  rw [State.readDPart, readD_writeDPart_same, trunc_merge]

/-- Settles O9: the write is `merge`, bit by bit. -/
theorem partialRegisterWrites : Obligations.PartialRegisterWrites := by
  intro s r size v
  refine ⟨fun k => ?_, fun q hq => readD_writeDPart_other s size v hq, fun q => writeDPart_readA s r q size v,
    readDPart_writeDPart_same s r size v, writeDPart_sr s r size v⟩
  rw [readD_writeDPart_same, merge_bit]

/-! ### The stack pointers -/

/-- Into supervisor mode: `a[7]` goes to `usp` and comes from `ssp` (R23). -/
theorem setS_true_of_user {s : State} (h : s.sr.s = false) :
    s.setS true = { s with a := s.a.set 7 s.ssp, usp := s.sp, sr := { s.sr with s := true } } := by
  simp [State.setS, h, State.setUsp, State.writeA, State.writeS]

/-- Out of supervisor mode: `a[7]` goes to `ssp` and comes from `usp` (R23). -/
theorem setS_false_of_supervisor {s : State} (h : s.sr.s = true) :
    s.setS false = { s with a := s.a.set 7 s.usp, ssp := s.sp, sr := { s.sr with s := false } } := by
  simp [State.setS, h, State.setSsp, State.writeA, State.writeS]

/-- A change of `S` leaves the stack pointer of either level at its value (R23, R24). -/
theorem setS_stackPointers (s : State) (b : Bool) :
    (s.setS b).userSp = s.userSp ∧ (s.setS b).supervisorSp = s.supervisorSp := by
  by_cases hb : b = s.sr.s
  · subst hb; simp
  · cases b
    · have h : s.sr.s = true := by simpa using hb
      simp [setS_false_of_supervisor h, State.userSp, State.supervisorSp, State.sp, State.readA, h]
    · have h : s.sr.s = false := by simpa using hb
      simp [setS_true_of_user h, State.userSp, State.supervisorSp, State.sp, State.readA, h]

/-- The host's set of the user stack pointer changes that one only (R47 b). -/
theorem hostSetUserSp_stackPointers (s : State) (v : Long) :
    (s.hostSetUserSp v).userSp = v ∧ (s.hostSetUserSp v).supervisorSp = s.supervisorSp := by
  cases h : s.sr.s <;> simp [State.hostSetUserSp, State.userSp, State.supervisorSp, h]

/-- The host's set of the supervisor stack pointer changes that one only (R47 b). -/
theorem hostSetSupervisorSp_stackPointers (s : State) (v : Long) :
    (s.hostSetSupervisorSp v).supervisorSp = v ∧ (s.hostSetSupervisorSp v).userSp = s.userSp := by
  cases h : s.sr.s <;> simp [State.hostSetSupervisorSp, State.userSp, State.supervisorSp, h]

/-- Settles O11, from the two directions of the swap. -/
theorem supervisorFlagSwapsStackPointers : Obligations.SupervisorFlagSwapsStackPointers := by
  intro s
  refine ⟨setS_same s, setS_true_of_user, setS_false_of_supervisor, setS_stackPointers s, fun v => ?_⟩
  obtain ⟨huser, hsupervisor⟩ := hostSetUserSp_stackPointers s v
  exact ⟨huser, hsupervisor, hostSetSupervisorSp_stackPointers s v⟩

/-! ### The status word -/

/-- The condition-code byte is the low byte of the status word (R29). -/
theorem getCcr_eq_low (s : State) : s.getCcr = s.getSr.extractLsb' 0 8 := by
  apply BitVec.eq_of_getLsbD_eq
  intro k hk
  simp only [State.getCcr, State.getSr, Status.word, BitVec.getLsbD_extractLsb', BitVec.getLsbD_append, hk]
  interval_cases k <;> simp

/-- The layout of the status word, field by field (R28). -/
theorem word_layout (r : Status) : r.word = BitVec.ofBool r.t ++ 0#1 ++ BitVec.ofBool r.s ++ 0#2 ++ r.i ++ 0#3 ++
    BitVec.ofBool r.ccr.x ++ BitVec.ofBool r.ccr.n ++ BitVec.ofBool r.ccr.z ++ BitVec.ofBool r.ccr.v ++ BitVec.ofBool r.ccr.c := by
  apply BitVec.eq_of_getLsbD_eq
  intro k hk
  simp only [Status.word, Ccr.bits, BitVec.getLsbD_append]
  interval_cases k <;> simp

/-- The condition codes of a byte are its bits 4 to 0 (R29). -/
theorem bits_ccrOfByte (v : Byte) : (ccrOfByte v).bits = v.extractLsb' 0 5 := by
  apply BitVec.eq_of_getLsbD_eq
  intro k hk
  simp only [ccrOfByte, Ccr.bits, BitVec.getLsbD_append]
  interval_cases k <;> simp

/-- The status word after `SetSR`: the implemented bits of what was written (R28, R29). -/
theorem getSr_setSr (s : State) (v : Word) : (s.setSr v).getSr = v &&& 0xA71F := by
  rw [State.getSr, setSr_sr]
  apply BitVec.eq_of_getLsbD_eq
  intro k hk
  simp only [Status.word, bits_ccrOfByte, BitVec.getLsbD_append]
  interval_cases k <;> simp

/-- The condition-code byte after `SetCCR`: the five implemented bits (R29). -/
theorem getCcr_setCcr (s : State) (v : Byte) : (s.setCcr v).getCcr = v &&& 0x1F := by
  show 0#3 ++ (ccrOfByte v).bits = _
  rw [bits_ccrOfByte]
  apply BitVec.eq_of_getLsbD_eq
  intro k hk
  simp only [BitVec.getLsbD_append]
  interval_cases k <;> simp

/-- `SetCCR` leaves bits 15 to 5 of the status word alone (R29). -/
theorem getSr_setCcr_high (s : State) (v : Byte) : (s.setCcr v).getSr &&& 0xFFE0 = s.getSr &&& 0xFFE0 := by
  apply BitVec.eq_of_getLsbD_eq
  intro k hk
  simp only [State.getSr, State.setCcr, withCcr_fields, Status.word, BitVec.getLsbD_and, BitVec.getLsbD_append]
  interval_cases k <;> simp

/-- `SetSR(GetSR())` changes nothing (R29). -/
theorem setSr_getSr (s : State) : s.setSr s.getSr = s := by
  obtain ⟨ht, hs, hi, hccr, -⟩ := getSr_fields s
  rw [State.setSr, ht, hs, hi, State.setCcr, hccr]
  show (((s.setS s.sr.s).setMask s.sr.i).withCcr s.sr.ccr) = s
  rw [setS_same]
  rfl

/-- The trace flag and the swap of the stack pointers do not meet (R23). -/
theorem setS_setT (s : State) (b t : Bool) : (s.setT t).setS b = (s.setS b).setT t := by
  unfold State.setS
  simp only [setT_fields]
  split_ifs <;> rfl

/-- Beside the status register, `SetSR` does what `SetS` of bit 13 does (R29). -/
theorem setSr_eq_setS (s : State) (v : Word) : ∃ r, s.setSr v = { s.setS (v.getLsbD 13) with sr := r } := by
  rw [State.setSr, setS_setT]
  exact ⟨_, rfl⟩

/-- Settles O10: the layout, what reads back, and the frame of each write, from the lemmas above. -/
theorem statusRegisterRoundTrips : Obligations.StatusRegisterRoundTrips := fun s =>
  ⟨word_layout s.sr, getCcr_eq_low s, setSr_getSr s, fun v => ⟨getSr_setSr s v, setSr_eq_setS s v⟩,
    fun v => ⟨getCcr_setCcr s v, getSr_setCcr_high s v, _, rfl⟩⟩

/-! ### Reset -/

/-- Settles O54: memory is empty, and the record of the reset sequence holds the reads that filled the pipeline. -/
theorem invariantsHoldAtReset : Obligations.InvariantsHoldAtReset := by
  refine ⟨⟨rfl, rfl⟩, ⟨rfl, rfl⟩, ⟨fun _ => ⟨rfl, rfl⟩, nofun⟩, fun _ => ⟨?_, ?_⟩, nofun⟩ <;> decide

end Sys2Proof.Machine
end

section
/-! SUPPORT. Memory and the bus: the mask, the store of a long that reads back, the exact state of an aligned access, the address
error of an odd one, and the stack helpers (R63 to R75, R317). -/

namespace Sys2Proof.Machine

/-! ### The mask and the two words of a long -/

/-- The mask keeps the low `ADDR_BITS` bits (R63). -/
theorem phys_eq_low_bits (s : State) (x : Long) : s.phys x = (x.extractLsb' 0 s.cfg.addrBits).toNat := by
  simp [State.phys]

/-- The mask keeps an address modulo every power of two that divides the space. -/
theorem phys_mod_two_pow (s : State) (x : Long) {k : Nat} (h : k ≤ s.cfg.addrBits) :
    s.phys x % 2 ^ k = x.toNat % 2 ^ k := Nat.mod_mod_of_dvd _ (Nat.pow_dvd_pow 2 h)

/-- The mask keeps the parity of an address (R63, R66). -/
theorem phys_parity (s : State) (x : Long) : s.phys x % 2 = x.toNat % 2 :=
  phys_mod_two_pow s x (k := 1) (Nat.le_add_left 1 _)

/-- In a space of at least 4 bytes the two words of a long differ modulo 4, so they stand at different addresses. -/
theorem phys_add_two_ne {s : State} (h : 2 ≤ s.cfg.addrBits) (x : Long) : s.phys (x + 2) ≠ s.phys x := by
  intro he
  have h1 := phys_mod_two_pow s x h
  have h2 := phys_mod_two_pow s (x + 2) h
  have h3 : (x + 2).toNat = (x.toNat + 2) % 2 ^ 32 := BitVec.toNat_add x 2
  omega

/-- A word reads as before when a word is stored at another even address (R65). -/
theorem readWord_writeWord_of_even_ne {m : Memory} {p q : Nat} (hp : p % 2 = 0) (hq : q % 2 = 0) (h : q ≠ p) (v : Word) :
    (m.writeWord p v).readWord q = m.readWord q := readWord_writeWord_ne h (by omega) (by omega) v

theorem longOf_hiWord_loWord (v : Long) : longOf (hiWord v) (loWord v) = v :=
  (BitVec.extractLsb'_append_extractLsb'_eq_extractLsb' (x := v) rfl).trans BitVec.extractLsb'_eq_self

/-! ### A long reads back -/

/-- With no answer of its own listed, the host answers a word from memory (R60; log entry 5). -/
theorem answer16_of_no_answers {s : State} (h : s.hostReads = []) (p : Nat) : s.answer16 p = s.mem.readWord p := by
  simp [State.answer16, h]

/-- With no answer of its own listed, the host answers a long from the two words in memory (R69). -/
theorem answer32_of_no_answers {s : State} (h : s.hostReads = []) (x : Long) :
    s.answer32 x = longOf (s.mem.readWord (s.phys x)) (s.mem.readWord (s.phys (x + 2))) := by
  have hread : (s.wordRead x).hostReads = [] := by simp [State.wordRead, h]
  rw [State.answer32, answer16_of_no_answers h, answer16_of_no_answers hread, (SameCore.wordRead s x false).mem]

/-- A stored long reads back: its two words do not overlap (R69, R72). -/
theorem answer32_longWritten {s : State} {x : Long} (hm : MemInv s) (hb : 2 ≤ s.cfg.addrBits) (hr : s.hostReads = [])
    (hx : isEven x = true) (v : Long) : (s.longWritten x v).answer32 x = v := by
  have hmem : (s.longWritten x v).mem =
      (s.mem.writeWord (s.phys x) (hiWord v)).writeWord (s.phys (x + 2)) (loWord v) := (longWritten_core s x v).mem
  have hphys (y : Long) : (s.longWritten x v).phys y = s.phys y := (longWritten_core s x v).phys y
  have hreads : (s.longWritten x v).hostReads = [] := by simp [State.longWritten, State.wordWritten, hr]
  have hx2 : isEven (x + 2) = true := by rwa [isEven_add_two]
  have hwf := hm.1
  rw [answer32_of_no_answers hreads, hmem, hphys, hphys, readWord_writeWord_same (wf_writeWord hwf _ _),
    readWord_writeWord_of_even_ne (phys_even hx2) (phys_even hx) (phys_add_two_ne hb x).symm,
    readWord_writeWord_same hwf, longOf_hiWord_loWord]

/-- A word's high byte stands at the lower address (R65). -/
theorem readByte_writeWord_high {m : Memory} (h : m.wf = true) (p : Nat) (v : Word) :
    (m.writeWord p v).readByte p = v.extractLsb' 8 8 := by
  rw [Memory.writeWord, readByte_writeByte_ne (by omega), readByte_writeByte_same h]

/-- A word's low byte stands at the higher address (R65). -/
theorem readByte_writeWord_low {m : Memory} (h : m.wf = true) (p : Nat) (v : Word) :
    (m.writeWord p v).readByte (p + 1) = v.extractLsb' 0 8 := readByte_writeByte_same (wf_writeByte h _ _) _ _

/-- Settles O14: the bytes of a write, the mask, and the long that reads back. -/
theorem memoryIsBigEndian : Obligations.MemoryIsBigEndian := by
  refine ⟨fun m p v h => ?_, fun m p v h => ?_, fun s x => ?_, fun x v sp sp' s hm hb hr hx => ?_⟩
  · exact ⟨readByte_writeWord_high h p v, readByte_writeWord_low h p v, readWord_writeWord_same h p v,
      fun q hq hq' => readByte_writeWord_ne hq hq' v m⟩
  · exact ⟨readByte_writeByte_same h p v, fun q hq => readByte_writeByte_ne hq v m⟩
  · exact ⟨phys_eq_low_bits s x, phys_lt s x, phys_parity s x⟩
  · have hread := busRead32_run hx sp' (s.longWritten x v)
    rw [answer32_longWritten hm hb hr hx] at hread
    exact ⟨_, _, busWrite32_run hx sp v s, hread⟩

/-! ### The exact state of an aligned access -/

/-- The two charges of a transaction make 4 cycles (R64). -/
theorem clock_of_transaction (c : Int) : c + (cBusSetup : Nat) + (cBusDone : Nat) = c + 4 := by
  simp only [cBusSetup, cBusDone]; omega

theorem byteRead_eq (s : State) (x : Long) : s.byteRead x =
    { s with clock := s.clock + 4, hostReads := s.hostReads.tail,
             port := .read8 (s.phys x) (s.answer8 (s.phys x)) :: s.port } := by
  rw [← clock_of_transaction]; rfl

theorem wordRead_eq (s : State) (x : Long) : s.wordRead x =
    { s with clock := s.clock + 4, hostReads := s.hostReads.tail,
             port := .read16 (s.phys x) (s.answer16 (s.phys x)) :: s.port } := by
  rw [← clock_of_transaction]; rfl

/-- The last bus cycle also samples the interrupt level, before the transaction (R68, R317). -/
theorem wordRead_poll_eq (s : State) (x : Long) : s.wordRead x true =
    { s with clock := s.clock + 4, hostReads := s.hostReads.tail, iplPolled := s.iplAnswer,
             nmiArmed := (s.nmiArmed || s.iplAnswer != 7), hostIpl := dropAnswer s.hostIpl,
             port := .read16 (s.phys x) (s.answer16 (s.phys x)) :: .ipl s.iplAnswer :: s.port } := by
  rw [← clock_of_transaction]; rfl

theorem byteWritten_eq (s : State) (x : Long) (v : Byte) : s.byteWritten x v =
    { s with clock := s.clock + 4, mem := s.mem.writeByte (s.phys x) v, port := .write8 (s.phys x) v :: s.port } := by
  rw [← clock_of_transaction]; rfl

theorem wordWritten_eq (s : State) (x : Long) (v : Word) : s.wordWritten x v =
    { s with clock := s.clock + 4, mem := s.mem.writeWord (s.phys x) v, port := .write16 (s.phys x) v :: s.port } := by
  rw [← clock_of_transaction]; rfl

/-- The two transactions of a long make 8 cycles (R69, R72). -/
theorem clock_of_two_transactions (c : Int) : c + 4 + 4 = c + 8 := by omega

/-- What the host answers to a long read, from the answers its first word leaves (R69). -/
theorem answer32_eq (s : State) (x : Long) : s.answer32 x =
    s.answer16 (s.phys x) ++ ({ s with hostReads := s.hostReads.tail }).answer16 (s.phys (x + 2)) := rfl

theorem longRead_eq (s : State) (x : Long) : s.longRead x =
    { s with clock := s.clock + 8, hostReads := s.hostReads.tail.tail,
             port := .read16 (s.phys (x + 2)) (({ s with hostReads := s.hostReads.tail }).answer16 (s.phys (x + 2))) ::
               .read16 (s.phys x) (s.answer16 (s.phys x)) :: s.port } := by
  rw [State.longRead, wordRead_eq, wordRead_eq, ← clock_of_two_transactions]; rfl

theorem longWritten_eq (s : State) (x v : Long) : s.longWritten x v =
    { s with clock := s.clock + 8,
             mem := (s.mem.writeWord (s.phys x) (v.extractLsb' 16 16)).writeWord (s.phys (x + 2)) (v.extractLsb' 0 16),
             port := .write16 (s.phys (x + 2)) (v.extractLsb' 0 16) ::
               .write16 (s.phys x) (v.extractLsb' 16 16) :: s.port } := by
  rw [State.longWritten, wordWritten_eq, wordWritten_eq, ← clock_of_two_transactions]; rfl

/-- Settles O15: each access runs to the state that Safety.lean names, and that state is the one written out. -/
theorem alignedAccesses : Obligations.AlignedAccesses := by
  intro sp x s
  refine ⟨?_, fun v => ?_, fun hx => ⟨?_, ?_, ?_, fun y => ?_, fun y => ?_⟩⟩
  · rw [busRead8_run, byteRead_eq]
  · rw [busWrite8_run, byteWritten_eq]
  · rw [busRead16_run hx, wordRead_eq]
  · rw [busRead16_run hx, wordRead_poll_eq]
  · rw [busRead32_run hx, longRead_eq, answer32_eq]
  · rw [busWrite16_run hx, wordWritten_eq]
  · rw [busWrite32_run hx, longWritten_eq]

/-! ### Odd addresses -/

/-- Settles O16: the check of R66 comes before anything is issued. -/
theorem oddAccessesIssueNothing : Obligations.OddAccessesIssueNothing := fun sp x s h =>
  ⟨fun poll => busRead16_odd h sp poll s, busRead32_odd h sp s, fun v => busWrite16_odd h sp v s,
    fun v => busWrite32_odd h sp v s, ⟨_, busRead8_run x s⟩, fun v => ⟨_, busWrite8_run x v s⟩⟩

/-! ### The stack -/

/-- A pop of a long, in the core: the read is not seen, the register moves (R75). -/
theorem pop32_core (s : State) :
    SameCore (s.writeA 7 (s.sp + 4)) ((s.longRead s.sp).writeA 7 ((s.longRead s.sp).sp + 4)) := by
  have h := SameCore.longRead s s.sp
  rw [h.sp]
  exact h.writeA 7 _

/-- A pop of a word, in the core (R75). -/
theorem pop16_core (s : State) :
    SameCore (s.writeA 7 (s.sp + 2)) ((s.wordRead s.sp).writeA 7 ((s.wordRead s.sp).sp + 2)) := by
  have h := SameCore.wordRead s s.sp false
  rw [h.sp]
  exact h.writeA 7 _

/-- Settles O17: the run of each helper and its effect on the core; on an odd stack pointer its address error. -/
theorem stackHelpers : Obligations.StackHelpers := by
  intro s
  refine ⟨fun h => ?_, fun h => ?_⟩
  · exact ⟨fun v => ⟨_, push32_run' h v, longPushed_core s v⟩, fun v => ⟨_, push16_run' h v, wordPushed_core s v⟩,
      ⟨_, pop32_run h, pop32_core s⟩, ⟨_, pop16_run h, pop16_core s⟩⟩
  · exact ⟨push32_odd h, push16_odd h, pop32_odd h, pop16_odd h⟩

end Sys2Proof.Machine
end

section
/-! SUPPORT. The opcode map read in both directions (R92 to R100): each field of an opcode word is read exactly where it was
written (`OpcodeField`), so each row takes exactly the words that encode its instructions (`OpcodeRow.Reads`), and no word belongs
to two rows (`rows_separate`). From these the decoder and the encoder invert each other, and `ROM_EXT` moves no assigned value. -/

namespace Sys2Proof

open Laws (or_field)

/-! ### Bits under a mask -/

theorem and_eq_extract {lo n : Nat} {mask : Word} (hm : mask = (BitVec.allOnes n).setWidth 16 <<< lo) (w : Word) :
    w &&& mask = (w.extractLsb' lo n).setWidth 16 <<< lo := by
  subst hm
  ext i hi
  by_cases h : i < lo
  · simp [h]
  · simp [h, Nat.add_sub_cancel' (Nat.le_of_not_lt h), BitVec.getLsbD_eq_getElem hi, Bool.and_comm]

/-- Two disjoint masks can be compared one at a time. -/
theorem and_or_eq_iff {w m f k x : Word} (hk : k &&& m = k) (hx : x &&& f = x) (hd : m &&& f = 0) :
    w &&& (m ||| f) = k ||| x ↔ w &&& m = k ∧ w &&& f = x := by
  have hd' : f &&& m = 0 := by rw [BitVec.and_comm, hd]
  constructor
  · intro h
    constructor
    · calc w &&& m = w &&& ((m ||| f) &&& m) := by rw [or_field BitVec.and_self BitVec.and_self hd']
        _ = (k ||| x) &&& m := by rw [← BitVec.and_assoc, h]
        _ = k := or_field hk hx hd'
    · calc w &&& f = w &&& ((f ||| m) &&& f) := by rw [or_field BitVec.and_self BitVec.and_self hd]
        _ = (x ||| k) &&& f := by rw [← BitVec.and_assoc, BitVec.or_comm (x := f), h, BitVec.or_comm]
        _ = x := or_field hx hk hd
  · rintro ⟨rfl, rfl⟩
    exact BitVec.and_or_distrib_left

/-! ### Fields of an opcode word (R92, R93, R98, R99, R100) -/

/-- The bits under `mask` are a field of the opcode word: `read` gives a value, one that `ok` admits, exactly where they are the
bits that `bits` writes for it. -/
structure OpcodeField {α : Type} (mask : Word) (read : Word → Option α) (ok : α → Bool) (bits : α → Word) : Prop where
  inside : ∀ a, bits a &&& mask = bits a
  read_iff : ∀ {w a}, read w = some a ↔ ok a = true ∧ w &&& mask = bits a

/-- Two fields of one word. -/
def readPair {α β : Type} (read : Word → Option α) (read' : Word → Option β) (w : Word) : Option (α × β) :=
  (read w).bind fun a => (read' w).map fun b => (a, b)

theorem readPair_eq_some {α β : Type} {read : Word → Option α} {read' : Word → Option β} {w : Word} {x : α × β} :
    readPair read read' w = some x ↔ read w = some x.1 ∧ read' w = some x.2 := by
  obtain ⟨a, b⟩ := x
  simp [readPair, Option.bind_eq_some_iff]

theorem eaOfFields_eq_some {mode reg : RegNum} {ea : Ea} :
    eaOfFields mode reg = some ea ↔ mode = ea.modeField ∧ reg = ea.regField := by
  constructor
  · have h : ∀ mode reg, ∀ ea ∈ eaOfFields mode reg, mode = ea.modeField ∧ reg = ea.regField := by decide
    exact h mode reg ea
  · rintro ⟨rfl, rfl⟩
    cases ea <;> rfl

namespace OpcodeField

section
variable {α β : Type} {mask mask' : Word} {read : Word → Option α} {read' : Word → Option β} {ok : α → Bool}
  {ok' : β → Bool} {bits : α → Word} {bits' : β → Word}

theorem pair (F : OpcodeField mask read ok bits) (G : OpcodeField mask' read' ok' bits') (hd : mask &&& mask' = 0 := by decide) :
    OpcodeField (mask ||| mask') (readPair read read') (fun x => ok x.1 && ok' x.2) fun x => bits x.1 ||| bits' x.2 where
  inside x := (and_or_eq_iff (F.inside _) (G.inside _) hd).2
    ⟨or_field (F.inside _) (G.inside _) (by rw [BitVec.and_comm, hd]),
     by rw [BitVec.or_comm]; exact or_field (G.inside _) (F.inside _) hd⟩
  read_iff {w x} := by
    rw [readPair_eq_some, F.read_iff, G.read_iff, and_or_eq_iff (F.inside _) (G.inside _) hd, Bool.and_eq_true]
    tauto

theorem filter (F : OpcodeField mask read ok bits) (p : α → Bool) :
    OpcodeField mask (fun w => (read w).filter p) (fun a => ok a && p a) bits where
  inside := F.inside
  read_iff {w a} := by
    rw [Option.filter_eq_some_iff, F.read_iff, Bool.and_eq_true]
    tauto

end

/-- No field, for a row whose mask fixes what the other fields leave. -/
theorem empty : OpcodeField 0 (fun _ => some ()) (fun _ => true) fun _ => 0#16 where
  inside _ := rfl
  read_iff {w _} := by simp

/-- A value in the low `n` bits. -/
theorem low {n : Nat} (mask : Word) (hn : n ≤ 16) (hm : mask = (BitVec.allOnes n).setWidth 16) :
    OpcodeField mask (fun w => some (w.extractLsb' 0 n)) (fun _ => true) fun v => v.setWidth 16 where
  inside v := by rw [hm, ← BitVec.setWidth_and, BitVec.and_allOnes]
  read_iff {w v} := by
    have h : w &&& mask = (w.extractLsb' 0 n).setWidth 16 := by
      rw [and_eq_extract (lo := 0) (n := n) (by rw [hm, BitVec.shiftLeft_zero]), BitVec.shiftLeft_zero]
    rw [h, Option.some.injEq, eq_self, true_and]
    refine ⟨fun he => he ▸ rfl, fun he => ?_⟩
    simpa [BitVec.setWidth_setWidth_of_le _ hn] using congrArg (BitVec.setWidth n) he

theorem low4 : OpcodeField 0x000F (fun w => some (w.extractLsb' 0 4)) (fun _ => true) fun v => v.setWidth 16 :=
  low _ (by decide) rfl
theorem data8 : OpcodeField 0x00FF (fun w => some (data8Field w)) (fun _ => true) fun v => v.setWidth 16 := low _ (by decide) rfl
theorem low12 : OpcodeField 0x0FFF (fun w => some (w.extractLsb' 0 12)) (fun _ => true) fun v => v.setWidth 16 :=
  low _ (by decide) rfl

/-- A register number, with the two facts about its position that are decided for each position. -/
theorem reg (lo : Nat) (mask : Word) (hm : mask = (BitVec.allOnes 3).setWidth 16 <<< lo)
    (hb : ∀ x : BitVec 3, ∀ r, x.toFin = r ↔ x.setWidth 16 <<< lo = regBits r lo := by decide)
    (hi : ∀ r, regBits r lo &&& mask = regBits r lo := by decide) :
    OpcodeField mask (fun w => some (regField w lo)) (fun _ => true) fun r => regBits r lo where
  inside := hi
  read_iff {w r} := by rw [and_eq_extract hm, ← hb, Option.some.injEq, eq_self, true_and, regField]

theorem reg0 : OpcodeField 0x0007 (fun w => some (regField w 0)) (fun _ => true) fun r => regBits r 0 := reg 0 _ (by decide)
theorem reg3 : OpcodeField 0x0038 (fun w => some (regField w 3)) (fun _ => true) fun r => regBits r 3 := reg 3 _ (by decide)
theorem reg6 : OpcodeField 0x01C0 (fun w => some (regField w 6)) (fun _ => true) fun r => regBits r 6 := reg 6 _ (by decide)
theorem reg9 : OpcodeField 0x0E00 (fun w => some (regField w 9)) (fun _ => true) fun r => regBits r 9 := reg 9 _ (by decide)

theorem ea : OpcodeField 0x003F eaField (fun _ => true) eaBits where
  inside := Laws.eaBits_field
  read_iff {w ea} := by
    have h := (reg3.pair reg0).read_iff (w := w) (a := (ea.modeField, ea.regField))
    rw [readPair_eq_some, Option.some.injEq, Option.some.injEq, ← eaOfFields_eq_some] at h
    exact h

theorem dstEa : OpcodeField 0x0FC0 dstEaField (fun _ => true) dstEaBits where
  inside := Laws.dstEaBits_field
  read_iff {w ea} := by
    have h := (reg9.pair reg6).read_iff (w := w) (a := (ea.regField, ea.modeField))
    rw [readPair_eq_some, Option.some.injEq, Option.some.injEq, and_comm, ← eaOfFields_eq_some] at h
    exact h

theorem size : OpcodeField 0x00C0 sizeField (fun _ => true) sizeBits where
  inside := Laws.sizeBits_field
  read_iff {w s} := by
    rw [and_eq_extract (lo := 6) (n := 2) (by decide)]
    unfold sizeField
    generalize w.extractLsb' 6 2 = x
    revert x
    cases s <;> decide

theorem moveSize : OpcodeField 0x3000 moveSizeField (fun _ => true) moveSizeBits where
  inside := Laws.moveSizeBits_field
  read_iff {w s} := by
    rw [and_eq_extract (lo := 12) (n := 2) (by decide)]
    unfold moveSizeField
    generalize w.extractLsb' 12 2 = x
    revert x
    cases s <;> decide

/-- B has no code in the one-bit size field (R98 c). -/
theorem long : OpcodeField 0x0100 (fun w => some (longField w)) Size.isWordOrLong longBits where
  inside := Laws.longBits_field
  read_iff {w s} := by
    have h : w.getLsbD 8 = (w.extractLsb' 8 1).getLsbD 0 := by simp
    rw [and_eq_extract (lo := 8) (n := 1) (by decide), longField, h]
    generalize w.extractLsb' 8 1 = x
    revert x
    cases s <;> decide

theorem cond : OpcodeField 0x0F00 (fun w => some (condField w)) (fun _ => true) condBits where
  inside := Laws.condBits_field
  read_iff {w c} := by
    rw [and_eq_extract (lo := 8) (n := 4) (by decide), condField]
    generalize w.extractLsb' 8 4 = x
    revert x
    cases c <;> decide

theorem quick : OpcodeField 0x0E00 (fun w => some (w.extractLsb' 9 3)) (fun _ => true) quickBits where
  inside := Laws.quickBits_field
  read_iff {w q} := by
    rw [and_eq_extract (lo := 9) (n := 3) (by decide)]
    generalize w.extractLsb' 9 3 = x
    revert x q
    decide

theorem regLong : OpcodeField (0x0E00 ||| 0x0100) (fun w => some (regField w 9, longField w)) (fun x => x.2.isWordOrLong)
    fun x => regBits x.1 9 ||| longBits x.2 := reg9.pair long
theorem regData : OpcodeField (0x0E00 ||| 0x00FF) (fun w => some (regField w 9, data8Field w)) (fun _ => true)
    fun x => regBits x.1 9 ||| x.2.setWidth 16 := reg9.pair data8
theorem condReg : OpcodeField (0x0F00 ||| 0x0007) (fun w => some (condField w, regField w 0)) (fun _ => true)
    fun x => condBits x.1 ||| regBits x.2 0 := cond.pair reg0

end OpcodeField

open OpcodeField

/-! ### Rows (R97) -/

theorem OpcodeRow.take_eq_some {r : OpcodeRow} {w : Word} {i : Instr} :
    r.take w = some i ↔ w &&& r.mask = r.pattern ∧ r.build w = some i := by
  simp [OpcodeRow.take]

/-- The row takes exactly the opcode words of the instructions `f a` with operands `a` that `ok` admits. -/
def OpcodeRow.Reads {α : Type} (r : OpcodeRow) (ok : α → Bool) (f : α → Instr) : Prop :=
  ∀ w i, r.take w = some i ↔ ∃ a, ok a = true ∧ f a = i ∧ encode i = w

/-- What the row takes a word as has that word as its encoding. -/
def OpcodeRow.Inverts (r : OpcodeRow) : Prop := ∀ w i, r.take w = some i → encode i = w

namespace OpcodeRow.Reads

variable {α : Type} {r : OpcodeRow} {ok : α → Bool} {f : α → Instr}

theorem inverts (h : r.Reads ok f) : r.Inverts := fun w i ht => by
  obtain ⟨_, _, _, he⟩ := (h w i).1 ht
  exact he

theorem take_encode (h : r.Reads ok f) (a : α) (ha : ok a = true) : r.take (encode (f a)) = some (f a) :=
  (h _ _).2 ⟨a, ha, rfl, rfl⟩

end OpcodeRow.Reads

theorem eaRow_eq (ok : Ea → Bool) (f : Ea → Instr) (w : Word) : eaRow ok f w = ((eaField w).filter ok).map f := by
  unfold eaRow
  cases eaField w with
  | none => rfl
  | some ea => by_cases h : ok ea = true <;> simp [h]

theorem sizeEaRow_eq (ok : Size → Ea → Bool) (f : Size → Ea → Instr) (w : Word) :
    sizeEaRow ok f w = ((readPair sizeField eaField w).filter fun x => ok x.1 x.2).map fun x => f x.1 x.2 := by
  unfold sizeEaRow readPair
  cases sizeField w with
  | none => rfl
  | some size =>
    cases eaField w with
    | none => rfl
    | some ea => by_cases h : ok size ea = true <;> simp [h]

/-- The mask and the field are all of the word, and share no bit. -/
abbrev Splits (mask pattern field : Word) : Prop :=
  mask ||| field = 0xFFFF ∧ mask &&& field = 0 ∧ pattern &&& mask = pattern

section
variable {α : Type} {mask pattern field : Word} {okField ok : α → Bool} {bits : α → Word} {get : Word → α}

/-- A row that builds its instruction from a field, which is all the bits its mask leaves, reads what `encode` writes. -/
theorem OpcodeField.reads {read : Word → Option α} {f : α → Instr} {build : Word → Option Instr}
    (F : OpcodeField field read okField bits) (hb : ∀ w, build w = (read w).map f)
    (he : ∀ a, encode (f a) = pattern ||| bits a) (hs : Splits mask pattern field := by decide)
    (hok : okField = ok := by funext; simp) : OpcodeRow.Reads ⟨mask, pattern, build⟩ ok f := by
  intro w i
  subst hok
  obtain ⟨hfull, hd, hp⟩ := hs
  have hw (a : α) : encode (f a) = w ↔ w &&& mask = pattern ∧ w &&& field = bits a := by
    have hall : w &&& 0xFFFF = w := BitVec.and_allOnes
    rw [← and_or_eq_iff hp (F.inside a) hd, hfull, he, hall, eq_comm]
  have ht : OpcodeRow.take ⟨mask, pattern, build⟩ w = some i ↔ w &&& mask = pattern ∧ build w = some i :=
    OpcodeRow.take_eq_some
  rw [ht, hb, Option.map_eq_some_iff]
  constructor
  · rintro ⟨hm, a, hr, rfl⟩
    obtain ⟨ho, ha⟩ := F.read_iff.1 hr
    exact ⟨a, ho, rfl, (hw a).2 ⟨hm, ha⟩⟩
  · rintro ⟨a, ho, rfl, h⟩
    obtain ⟨hm, ha⟩ := (hw a).1 h
    exact ⟨hm, a, F.read_iff.2 ⟨ho, ha⟩, rfl⟩

/-! The three shapes of a row: one field `G` that cannot fail, alone or beside an effective address or a size and one. -/

theorem reads_plainRow (G : OpcodeField field (fun w => some (get w)) okField bits) (c : α → Instr)
    (he : ∀ a, encode (c a) = pattern ||| bits a := by intros; simp only [encode, BitVec.or_assoc, BitVec.or_zero])
    (hs : Splits mask pattern field := by decide) :
    OpcodeRow.Reads ⟨mask, pattern, plainRow fun w => c (get w)⟩ okField c :=
  G.reads (fun _ => rfl) he hs

theorem reads_eaRow {ok : Ea → Bool} (G : OpcodeField field (fun w => some (get w)) okField bits) (c : α → Ea → Instr)
    (he : ∀ a ea, encode (c a ea) = pattern ||| (bits a ||| eaBits ea) := by
      intros; simp only [encode, BitVec.or_assoc, BitVec.zero_or])
    (hd : field &&& 0x003F = 0 := by decide) (hs : Splits mask pattern (field ||| 0x003F) := by decide) :
    OpcodeRow.Reads ⟨mask, pattern, fun w => eaRow ok (c (get w)) w⟩ (fun x : α × Ea => okField x.1 && ok x.2)
      fun x => c x.1 x.2 :=
  (G.pair (OpcodeField.ea.filter ok) hd).reads (fun w => by rw [eaRow_eq]; simp [readPair, Function.comp_def]) (fun _ => he _ _) hs

theorem reads_sizeEaRow {ok : Size → Ea → Bool} (G : OpcodeField field (fun w => some (get w)) okField bits)
    (c : α → Size → Ea → Instr)
    (he : ∀ a size ea, encode (c a size ea) = pattern ||| (bits a ||| (sizeBits size ||| eaBits ea)) := by
      intros; simp only [encode, BitVec.or_assoc, BitVec.zero_or])
    (hd : field &&& (0x00C0 ||| 0x003F) = 0 := by decide)
    (hs : Splits mask pattern (field ||| (0x00C0 ||| 0x003F)) := by decide) :
    OpcodeRow.Reads ⟨mask, pattern, fun w => sizeEaRow ok (c (get w)) w⟩
      (fun x : α × Size × Ea => okField x.1 && ok x.2.1 x.2.2) fun x => c x.1 x.2.1 x.2.2 :=
  (G.pair ((OpcodeField.size.pair OpcodeField.ea).filter fun x => ok x.1 x.2) hd).reads
    (fun w => by rw [sizeEaRow_eq]; simp [readPair, Function.comp_def]) (fun _ => he _ _ _) hs

end

/-! The four rows of another shape. -/

theorem reads_move {row : OpcodeRow} (h : (rowsOfLine 1)[0]? = some row) :
    row.Reads (fun x : Size × Ea × Ea => x.2.2.sizeOk x.1 && x.2.1.isDataAlterable) fun x => .move x.1 x.2.2 x.2.1 := by
  cases h
  refine ((moveSize.pair (dstEa.pair ea)).filter fun x => x.2.2.sizeOk x.1 && x.2.1.isDataAlterable).reads
    (fun w => ?_) fun x => ?_
  · unfold readPair
    cases moveSizeField w with
    | none => rfl
    | some size => cases eaField w <;> cases dstEaField w <;> simp [Option.filter, apply_ite]
  · simp only [encode, BitVec.or_assoc]
    exact BitVec.zero_or.symm

theorem reads_movea {row : OpcodeRow} (h : (rowsOfLine 1)[1]? = some row) :
    row.Reads (fun x : Size × RegNum × Ea => x.1.isWordOrLong) fun x => .movea x.1 x.2.2 x.2.1 := by
  cases h
  refine ((moveSize.pair (reg9.pair ea)).filter fun x => x.1.isWordOrLong).reads (fun w => ?_) fun x => ?_
  · unfold readPair
    cases moveSizeField w with
    | none => rfl
    | some size => cases eaField w <;> simp [Option.filter, apply_ite]
  · simp only [encode, BitVec.or_assoc]

theorem reads_bcc {row : OpcodeRow} (h : (rowsOfLine 6)[2]? = some row) :
    row.Reads (fun x : Cond × Byte => x.1.isBcc) fun x => .bcc x.1 x.2 := by
  cases h
  refine ((cond.pair data8).filter fun x => x.1.isBcc).reads (fun w => ?_) fun x => ?_
  · simp [readPair, Option.filter, apply_ite]
  · simp only [encode, BitVec.or_assoc]

theorem reads_cmpm {row : OpcodeRow} (h : (rowsOfLine 11)[3]? = some row) :
    row.Reads (fun _ : RegNum × Size × RegNum => true) fun x => .cmpm x.2.1 x.2.2 x.1 := by
  cases h
  refine (reg9.pair (size.pair reg0)).reads (fun w => ?_) fun x => ?_
  · unfold readPair
    cases sizeField w <;> rfl
  · simp only [encode, BitVec.or_assoc]

/-! ### Every row inverts the encoder -/

theorem OpcodeRow.Reads.cons {α : Type} {r : OpcodeRow} {rest : List OpcodeRow} {ok : α → Bool} {f : α → Instr}
    (h : r.Reads ok f) (ht : ∀ r' ∈ rest, r'.Inverts) : ∀ r' ∈ r :: rest, r'.Inverts :=
  List.forall_mem_cons.2 ⟨h.inverts, ht⟩

theorem rows_invert (n : Nat) : ∀ r ∈ rowsOfLine n, r.Inverts := by
  have nil : ∀ r ∈ ([] : List OpcodeRow), r.Inverts := List.forall_mem_nil _
  match n with
  | 0 =>
    exact (reads_sizeEaRow empty fun _ => .oriEa).cons <| (reads_sizeEaRow empty fun _ => .andiEa).cons <|
      (reads_sizeEaRow empty fun _ => .subi).cons <| (reads_sizeEaRow empty fun _ => .addi).cons <|
      (reads_sizeEaRow empty fun _ => .eoriEa).cons <| (reads_sizeEaRow empty fun _ => .cmpi).cons <|
      (reads_plainRow empty fun _ => .oriCcr).cons <| (reads_plainRow empty fun _ => .oriSr).cons <|
      (reads_plainRow empty fun _ => .andiCcr).cons <| (reads_plainRow empty fun _ => .andiSr).cons <|
      (reads_plainRow empty fun _ => .eoriCcr).cons <| (reads_plainRow empty fun _ => .eoriSr).cons nil
  | 1 | 2 | 3 => exact (reads_move rfl).cons <| (reads_movea rfl).cons nil
  | 4 =>
    exact (reads_eaRow empty fun _ => .moveFromSr).cons <| (reads_sizeEaRow empty fun _ => .clr).cons <|
      (reads_sizeEaRow empty fun _ => .neg).cons <| (reads_eaRow empty fun _ => .moveToCcr).cons <|
      (reads_sizeEaRow empty fun _ => .notEa).cons <| (reads_eaRow empty fun _ => .moveToSr).cons <|
      (reads_plainRow reg0 .swap).cons <| (reads_eaRow empty fun _ => .pea).cons <| (reads_plainRow reg0 .extW).cons <|
      (reads_plainRow reg0 .extL).cons <| (reads_sizeEaRow empty fun _ => .tst).cons <|
      (reads_eaRow empty fun _ => .tas).cons <| (reads_plainRow empty fun _ => .illegal).cons <|
      (reads_plainRow low4 .trap).cons <| (reads_plainRow reg0 .moveToUsp).cons <| (reads_plainRow reg0 .moveFromUsp).cons <|
      (reads_plainRow empty fun _ => .reset).cons <| (reads_plainRow empty fun _ => .nop).cons <|
      (reads_plainRow empty fun _ => .stop).cons <| (reads_plainRow empty fun _ => .rte).cons <|
      (reads_plainRow empty fun _ => .rts).cons <| (reads_eaRow empty fun _ => .jsr).cons <|
      (reads_eaRow empty fun _ => .jmp).cons <| (reads_eaRow reg9 fun an ea => .lea ea an).cons nil
  | 5 =>
    exact (reads_sizeEaRow quick .addq).cons <| (reads_sizeEaRow quick .subq).cons <|
      (reads_plainRow condReg fun x => .dbcc x.1 x.2).cons nil
  | 6 => exact (reads_plainRow data8 .bra).cons <| (reads_plainRow data8 .bsr).cons <| (reads_bcc rfl).cons nil
  | 7 => exact (reads_plainRow regData fun x => .moveq x.2 x.1).cons nil
  | 8 =>
    exact (reads_sizeEaRow reg9 fun dn size ea => .orToReg size ea dn).cons <|
      (reads_sizeEaRow reg9 fun dn size ea => .orToMem size dn ea).cons nil
  | 9 =>
    exact (reads_sizeEaRow reg9 fun dn size ea => .subToReg size ea dn).cons <|
      (reads_sizeEaRow reg9 fun dn size ea => .subToMem size dn ea).cons <|
      (reads_eaRow regLong fun x ea => .suba x.2 ea x.1).cons nil
  | 10 => exact (reads_plainRow low12 .lineA).cons nil
  | 11 =>
    exact (reads_sizeEaRow reg9 fun dn size ea => .cmp size ea dn).cons <|
      (reads_eaRow regLong fun x ea => .cmpa x.2 ea x.1).cons <|
      (reads_sizeEaRow reg9 fun dn size ea => .eor size dn ea).cons <| (reads_cmpm rfl).cons nil
  | 12 =>
    exact (reads_sizeEaRow reg9 fun dn size ea => .andToReg size ea dn).cons <|
      (reads_sizeEaRow reg9 fun dn size ea => .andToMem size dn ea).cons <| (reads_eaRow reg9 fun dn ea => .mulu ea dn).cons <|
      (reads_eaRow reg9 fun dn ea => .muls ea dn).cons nil
  | 13 =>
    exact (reads_sizeEaRow reg9 fun dn size ea => .addToReg size ea dn).cons <|
      (reads_sizeEaRow reg9 fun dn size ea => .addToMem size dn ea).cons <|
      (reads_eaRow regLong fun x ea => .adda x.2 ea x.1).cons nil
  | 14 => exact nil
  | 15 => exact (reads_plainRow low12 .lineF).cons nil
  | n + 16 => exact nil

theorem encode_of_decodeRow {w : Word} {i : Instr} (h : decodeRow w = some i) : encode i = w := by
  obtain ⟨r, hr, ht⟩ := List.exists_of_findSome?_eq_some h
  exact rows_invert _ r hr w i ht

theorem decode_of_decodeRow {w : Word} {i : Instr} (h : decodeRow w = some i) : decode w = i := by rw [decode, h]; rfl

theorem decodeRow_of_decode_ne {w : Word} (h : decode w ≠ .illegal) : decodeRow w = some (decode w) := by
  cases hr : decodeRow w with
  | none => exact absurd (by rw [decode, hr]; rfl) h
  | some i => rw [decode_of_decodeRow hr]

/-! ### The ROM image (R96) -/

theorem romEntry_of_decodeRow {w : Word} {i : Instr} (ext : List RomExtension) (h : decodeRow w = some i) :
    romEntry ext w = .baseline i := by
  unfold romEntry
  rw [h]

theorem romEntry_of_no_extension {ext : List RomExtension} {w : Word} (h : ∀ e ∈ ext, e.opcode ≠ w) :
    romEntry ext w = .baseline (decode w) := by
  have hf : ext.find? (fun e => e.opcode == w) = none := by simpa using h
  unfold romEntry decode
  rw [hf]
  cases decodeRow w <;> rfl

/-- A legal `ROM_EXT` assigns a value once, so the descriptor found for its value is the one asked for. -/
theorem romEntry_of_mem {ext : List RomExtension} (hl : romExtLegal ext = true) {e : RomExtension} (he : e ∈ ext) :
    romEntry ext e.opcode = .extension e := by
  unfold romExtLegal at hl
  rw [Bool.and_eq_true, List.all_eq_true, decide_eq_true_iff] at hl
  obtain ⟨hfree, hnodup⟩ := hl
  have hr : decodeRow e.opcode = none := by simpa using hfree e he
  have hf : ext.find? (fun x => x.opcode == e.opcode) = some e := by
    cases hx : ext.find? (fun x => x.opcode == e.opcode) with
    | none => exact absurd (List.find?_eq_none.1 hx e he) (by simp)
    | some x =>
      have hop : x.opcode = e.opcode := by simpa using List.find?_some hx
      rw [List.inj_on_of_nodup_map hnodup (List.mem_of_find?_eq_some hx) he hop]
  unfold romEntry
  rw [hr, hf]

/-- Settles O3: the row that takes a word inverts the encoder, and a legal `ROM_EXT` is looked up where no row takes the word. -/
theorem encodeInvertsDecode : Obligations.EncodeInvertsDecode :=
  ⟨fun w => ⟨decode_wellFormed w, fun h => encode_of_decodeRow (decodeRow_of_decode_ne h)⟩,
   fun ext _ hl => ⟨fun _ he => romEntry_of_mem hl he, romEntry_of_no_extension,
     fun h => romEntry_of_decodeRow ext (decodeRow_of_decode_ne h)⟩⟩

/-! ### No word belongs to two rows (R97) -/

def OpcodeRow.Disjoint (r r' : OpcodeRow) : Prop := ∀ w i j, r.take w = some i → r'.take w ≠ some j

theorem OpcodeRow.Disjoint.symm {r r' : OpcodeRow} (h : r.Disjoint r') : r'.Disjoint r :=
  fun w i j hi hj => h w j i hj hi

/-- No word has the fixed bits of both rows. -/
abbrev OpcodeRow.Apart (r r' : OpcodeRow) : Prop := r.pattern &&& r'.mask ≠ r'.pattern &&& r.mask

/-- Every word with the row's fixed bits has the bits under `field` at `value`. -/
abbrev OpcodeRow.Fixes (r : OpcodeRow) (field value : Word) : Prop := r.mask &&& field = field ∧ r.pattern &&& field = value

/-- The row takes no word with the bits under `field` at `value`. -/
def OpcodeRow.Refuses (r : OpcodeRow) (field value : Word) : Prop := ∀ w, w &&& field = value → r.build w = none

theorem OpcodeRow.Apart.disjoint {r r' : OpcodeRow} (h : r.Apart r') : r.Disjoint r' := by
  intro w i j hi hj
  apply h
  rw [← (take_eq_some.1 hi).1, ← (take_eq_some.1 hj).1]
  ac_rfl

theorem OpcodeRow.Refuses.disjoint {r r' : OpcodeRow} {field value : Word} (hr : r.Refuses field value)
    (hf : r'.Fixes field value) : r.Disjoint r' := by
  intro w i j hi hj
  have hw : w &&& field = value := by rw [← hf.2, ← (take_eq_some.1 hj).1, BitVec.and_assoc, hf.1]
  cases (hr w hw).symm.trans (take_eq_some.1 hi).2

def Separate (rows : List OpcodeRow) : Prop := rows.Pairwise OpcodeRow.Disjoint

namespace Separate

variable {r : OpcodeRow} {rest : List OpcodeRow} {field value : Word}

theorem nil : Separate [] := List.Pairwise.nil

theorem apart (ht : Separate rest) (hc : ∀ r' ∈ rest, r.Apart r' := by decide) : Separate (r :: rest) :=
  .cons (fun r' hr' => (hc r' hr').disjoint) ht

/-- A later row that shares the fixed bits of the first fixes bits that the first refuses. -/
theorem refusing (hr : r.Refuses field value) (ht : Separate rest)
    (hc : ∀ r' ∈ rest, r.Apart r' ∨ r'.Fixes field value := by decide) : Separate (r :: rest) :=
  .cons (fun r' hr' => (hc r' hr').elim (·.disjoint) hr.disjoint) ht

/-- A later row that shares the fixed bits of the first refuses bits that the first fixes. -/
theorem refused (hc : ∀ r' ∈ rest, r.Apart r' ∨ r'.Refuses field value) (ht : Separate rest)
    (hf : r.Fixes field value := by decide) : Separate (r :: rest) :=
  .cons (fun r' hr' => (hc r' hr').elim (·.disjoint) fun h => (h.disjoint hf).symm) ht

end Separate

/-! What the rows refuse: the size code 11, and modes outside their class. -/

theorem sizeField_of_three {w : Word} (h : w &&& 0x00C0 = 0x00C0) : sizeField w = none := by
  cases hs : sizeField w with
  | none => rfl
  | some s =>
    have hb : 0x00C0 = sizeBits s := h.symm.trans (size.read_iff.1 hs).2
    cases s <;> exact absurd hb (by decide)

theorem eaField_of_imm {w : Word} (h : w &&& 0x003F = 0x003C) : eaField w = some .imm := ea.read_iff.2 ⟨rfl, h⟩

theorem eaField_of_dn {w : Word} (h : w &&& 0x0038 = 0x0000) : eaField w = some (.dn (regField w 0)) := by
  have hm : regField w 3 = 0 := Option.some.inj (reg3.read_iff.2 ⟨rfl, h⟩)
  exact eaOfFields_eq_some.2 ⟨hm, rfl⟩

theorem eaField_of_an {w : Word} (h : w &&& 0x0038 = 0x0008) : eaField w = some (.an (regField w 0)) := by
  have hm : regField w 3 = 1 := Option.some.inj (reg3.read_iff.2 ⟨rfl, h⟩)
  exact eaOfFields_eq_some.2 ⟨hm, rfl⟩

theorem dstEaField_of_an {w : Word} (h : w &&& 0x01C0 = 0x0040) : dstEaField w = some (.an (regField w 9)) := by
  have hm : regField w 6 = 1 := Option.some.inj (reg6.read_iff.2 ⟨rfl, h⟩)
  exact eaOfFields_eq_some.2 ⟨hm, rfl⟩

theorem sizeEaRow_of_three {ok : Size → Ea → Bool} {f : Size → Ea → Instr} {w : Word} (h : w &&& 0x00C0 = 0x00C0) :
    sizeEaRow ok f w = none := by
  rw [sizeEaRow_eq, readPair, sizeField_of_three h]
  rfl

theorem sizeEaRow_of_not_ok {ok : Size → Ea → Bool} {f : Size → Ea → Instr} {w : Word} {ea : Ea} (h : eaField w = some ea)
    (hok : ∀ size, ok size ea = false) : sizeEaRow ok f w = none := by
  rw [sizeEaRow_eq, readPair, h]
  cases sizeField w <;> simp [hok]

theorem eaRow_of_not_ok {ok : Ea → Bool} {f : Ea → Instr} {w : Word} {ea : Ea} (h : eaField w = some ea) (hok : ok ea = false) :
    eaRow ok f w = none := by
  simp [eaRow_eq, h, hok]

theorem move_refuses {row : OpcodeRow} (h : (rowsOfLine 1)[0]? = some row) : row.Refuses 0x01C0 0x0040 := by
  cases h
  intro w hw
  dsimp only
  rw [dstEaField_of_an hw]
  cases moveSizeField w <;> cases eaField w <;> simp [Ea.isDataAlterable]

theorem bcc_refuses {row : OpcodeRow} (h : (rowsOfLine 6)[2]? = some row) (c : Cond) (hc : c.isBcc = false) :
    row.Refuses 0x0F00 (condBits c) := by
  cases h
  intro w hw
  have hw : condField w = c := Option.some.inj (cond.read_iff.2 ⟨rfl, hw⟩)
  simp [hw, hc]

theorem cmpm_refuses {row : OpcodeRow} (h : (rowsOfLine 11)[3]? = some row) : row.Refuses 0x00C0 0x00C0 := by
  cases h
  intro w hw
  simp [sizeField_of_three hw]

/-- The rows are disjoint (R97). A row shares its fixed bits with another only where the other is a special case of it: an immediate
to `CCR` or `SR` of the six of line 0, `MOVEA` of `MOVE`, the size code 11 of a sized row, `SWAP` of `PEA`, the designated `ILLEGAL`
of `TAS`, `BRA` and `BSR` of `Bcc`, `CMPM` of `EOR`. -/
theorem rows_separate (n : Nat) : Separate (rowsOfLine n) := by
  match n with
  | 0 =>
    have noImm {w : Word} {f : Size → Ea → Instr} (h : w &&& 0x003F = 0x003C) :
        sizeEaRow (fun _ ea => ea.isDataAlterable) f w = none := sizeEaRow_of_not_ok (eaField_of_imm h) fun _ => rfl
    exact .refusing (fun _ => noImm) <| .refusing (fun _ => noImm) <| .refusing (fun _ => noImm) <| .refusing (fun _ => noImm) <|
      .refusing (fun _ => noImm) <| .refusing (fun _ => noImm) <| .apart <| .apart <| .apart <| .apart <| .apart <| .apart .nil
  | 1 | 2 | 3 => exact .refusing (move_refuses rfl) <| .apart .nil
  | 4 =>
    exact .apart <| .refusing (fun _ => sizeEaRow_of_three) <| .refusing (fun _ => sizeEaRow_of_three) <| .apart <|
      .refusing (fun _ => sizeEaRow_of_three) <| .apart <|
      .refused (List.forall_mem_cons.2 ⟨.inr fun _ h => eaRow_of_not_ok (eaField_of_dn h) rfl,
        fun r hr => .inl ((by decide : ∀ r ∈ (rowsOfLine 4).drop 8, OpcodeRow.Apart _ r) r hr)⟩) <|
      .apart <| .apart <| .apart <| .refusing (fun _ => sizeEaRow_of_three) <|
      .refusing (fun _ h => eaRow_of_not_ok (eaField_of_imm h) rfl) <| .apart <| .apart <| .apart <| .apart <| .apart <|
      .apart <| .apart <| .apart <| .apart <| .apart <| .apart <| .apart .nil
  | 5 => exact .refusing (fun _ => sizeEaRow_of_three) <| .refusing (fun _ => sizeEaRow_of_three) <| .apart .nil
  | 6 =>
    exact .refused (List.forall_mem_cons.2 ⟨.inl (by decide), List.forall_mem_singleton.2 (.inr (bcc_refuses rfl .t rfl))⟩) <|
      .refused (List.forall_mem_singleton.2 (.inr (bcc_refuses rfl .f rfl))) <| .apart .nil
  | 7 => exact .apart .nil
  | 8 => exact .apart <| .apart .nil
  | 9 => exact .refusing (fun _ => sizeEaRow_of_three) <| .refusing (fun _ => sizeEaRow_of_three) <| .apart .nil
  | 10 => exact .apart .nil
  | 11 =>
    exact .refusing (fun _ => sizeEaRow_of_three) <|
      .refused (List.forall_mem_cons.2 ⟨.inr fun _ => sizeEaRow_of_three,
        List.forall_mem_singleton.2 (.inr (cmpm_refuses rfl))⟩) <|
      .refusing (fun _ h => sizeEaRow_of_not_ok (eaField_of_an h) fun _ => rfl) <| .apart .nil
  | 12 => exact .refusing (fun _ => sizeEaRow_of_three) <| .refusing (fun _ => sizeEaRow_of_three) <| .apart <| .apart .nil
  | 13 => exact .refusing (fun _ => sizeEaRow_of_three) <| .refusing (fun _ => sizeEaRow_of_three) <| .apart .nil
  | 14 => exact .nil
  | 15 => exact .apart .nil
  | n + 16 => exact .nil

/-! ### The decoder inverts the encoder -/

theorem decode_of_take {w : Word} {i : Instr} {r : OpcodeRow} (hr : r ∈ rowsFor w) (ht : r.take w = some i) : decode w = i := by
  cases hd : decodeRow w with
  | none => exact absurd (List.findSome?_eq_none_iff.1 hd r hr) (by simp [ht])
  | some j =>
    obtain ⟨r', hr', ht'⟩ := List.exists_of_findSome?_eq_some hd
    have he : r' = r := by
      have : Std.Symm OpcodeRow.Disjoint := ⟨fun _ _ => OpcodeRow.Disjoint.symm⟩
      by_contra hne
      exact (rows_separate _).forall hr' hr hne w j i ht' ht
    subst he
    rw [decode_of_decodeRow hd]
    exact Option.some.inj (ht'.symm.trans ht)

theorem line_and_mask (w : Word) : (w &&& 0xF000).extractLsb' 12 4 = w.extractLsb' 12 4 := by
  rw [BitVec.extractLsb'_and]
  exact BitVec.and_allOnes

theorem rowsFor_eq {w mask pattern : Word} (h : w &&& mask = pattern) (hm : mask &&& 0xF000 = 0xF000) :
    rowsFor w = rowsOfLine (pattern.extractLsb' 12 4).toNat := by
  rw [rowsFor, ← line_and_mask w, ← line_and_mask pattern, ← h, BitVec.and_assoc, hm]

section
variable {α : Type} {mask pattern : Word} {build : Word → Option Instr} {ok : α → Bool} {f : α → Instr} {i : Instr}

/-- The decoder finds the instruction `f a` in row `k` of the line its opcode word is on. -/
theorem decode_encode_of_reads {row : OpcodeRow} {n : Nat} (k : Nat) (hl : rowsFor (encode i) = rowsOfLine n)
    (hk : (rowsOfLine n)[k]? = some row) (hr : row.Reads ok f) (a : α) (ha : ok a = true) (hi : f a = i) :
    decode (encode i) = i := by
  subst hi
  exact decode_of_take (hl ▸ List.mem_of_getElem? hk) (hr.take_encode a ha)

/-- The same for a row that fixes bits 15:12, row `k` of line `n`. -/
theorem decode_encode_at (n k : Nat) (hk : (rowsOfLine n)[k]? = some ⟨mask, pattern, build⟩)
    (hr : OpcodeRow.Reads ⟨mask, pattern, build⟩ ok f) (a : α) (ha : ok a = true) (hi : f a = i)
    (hm : mask &&& 0xF000 = 0xF000 := by decide) (hn : (pattern.extractLsb' 12 4).toNat = n := by decide) :
    decode (encode i) = i := by
  have ht : OpcodeRow.take ⟨mask, pattern, build⟩ (encode i) = some i := hi ▸ hr.take_encode a ha
  exact decode_encode_of_reads k (hn ▸ rowsFor_eq (OpcodeRow.take_eq_some.1 ht).1 hm) hk hr a ha hi

end

theorem encode_move_line (size : Size) (src dst : Ea) : encode (.move size src dst) &&& 0xF000 = moveSizeBits size :=
  have hs : moveSizeBits size &&& 0xF000 = moveSizeBits size := by cases size <;> decide
  or_field (or_field hs (Laws.dstEaBits_field dst) (by decide)) (Laws.eaBits_field src) (by decide)

theorem encode_movea_line (size : Size) (src : Ea) (dst : RegNum) :
    encode (.movea size src dst) &&& 0xF000 = moveSizeBits size :=
  have hs : (0x0040 ||| moveSizeBits size) &&& 0xF000 = moveSizeBits size := by cases size <;> decide
  or_field (or_field hs (Laws.reg9_field dst) (by decide)) (Laws.eaBits_field src) (by decide)

/-- Lines 1, 2 and 3 hold the same rows (R98 b). -/
theorem rowsOfLine_moveSize (size : Size) : rowsOfLine ((moveSizeBits size).extractLsb' 12 4).toNat = rowsOfLine 1 := by
  cases size <;> rfl

/-- Settles O2: each instruction by its row, which takes its opcode word and is the only one that does. -/
theorem decodeInvertsEncode : Obligations.DecodeInvertsEncode := by
  intro i h
  cases i with
  | oriEa size ea => exact decode_encode_at 0 0 rfl (reads_sizeEaRow empty fun _ => .oriEa) ((), size, ea) h rfl
  | andiEa size ea => exact decode_encode_at 0 1 rfl (reads_sizeEaRow empty fun _ => .andiEa) ((), size, ea) h rfl
  | subi size ea => exact decode_encode_at 0 2 rfl (reads_sizeEaRow empty fun _ => .subi) ((), size, ea) h rfl
  | addi size ea => exact decode_encode_at 0 3 rfl (reads_sizeEaRow empty fun _ => .addi) ((), size, ea) h rfl
  | eoriEa size ea => exact decode_encode_at 0 4 rfl (reads_sizeEaRow empty fun _ => .eoriEa) ((), size, ea) h rfl
  | cmpi size ea => exact decode_encode_at 0 5 rfl (reads_sizeEaRow empty fun _ => .cmpi) ((), size, ea) h rfl
  | oriCcr => exact decode_encode_at 0 6 rfl (reads_plainRow empty fun _ => .oriCcr) () rfl rfl
  | oriSr => exact decode_encode_at 0 7 rfl (reads_plainRow empty fun _ => .oriSr) () rfl rfl
  | andiCcr => exact decode_encode_at 0 8 rfl (reads_plainRow empty fun _ => .andiCcr) () rfl rfl
  | andiSr => exact decode_encode_at 0 9 rfl (reads_plainRow empty fun _ => .andiSr) () rfl rfl
  | eoriCcr => exact decode_encode_at 0 10 rfl (reads_plainRow empty fun _ => .eoriCcr) () rfl rfl
  | eoriSr => exact decode_encode_at 0 11 rfl (reads_plainRow empty fun _ => .eoriSr) () rfl rfl
  | move size src dst =>
    have hl := (rowsFor_eq (encode_move_line size src dst) rfl).trans (rowsOfLine_moveSize size)
    exact decode_encode_of_reads 0 hl rfl (reads_move rfl) (size, dst, src) h rfl
  | movea size src dst =>
    have hl := (rowsFor_eq (encode_movea_line size src dst) rfl).trans (rowsOfLine_moveSize size)
    exact decode_encode_of_reads 1 hl rfl (reads_movea rfl) (size, dst, src) h rfl
  | moveFromSr ea => exact decode_encode_at 4 0 rfl (reads_eaRow empty fun _ => .moveFromSr) ((), ea) h rfl
  | clr size ea => exact decode_encode_at 4 1 rfl (reads_sizeEaRow empty fun _ => .clr) ((), size, ea) h rfl
  | neg size ea => exact decode_encode_at 4 2 rfl (reads_sizeEaRow empty fun _ => .neg) ((), size, ea) h rfl
  | moveToCcr ea => exact decode_encode_at 4 3 rfl (reads_eaRow empty fun _ => .moveToCcr) ((), ea) h rfl
  | notEa size ea => exact decode_encode_at 4 4 rfl (reads_sizeEaRow empty fun _ => .notEa) ((), size, ea) h rfl
  | moveToSr ea => exact decode_encode_at 4 5 rfl (reads_eaRow empty fun _ => .moveToSr) ((), ea) h rfl
  | swap dn => exact decode_encode_at 4 6 rfl (reads_plainRow reg0 .swap) dn rfl rfl
  | pea ea => exact decode_encode_at 4 7 rfl (reads_eaRow empty fun _ => .pea) ((), ea) h rfl
  | extW dn => exact decode_encode_at 4 8 rfl (reads_plainRow reg0 .extW) dn rfl rfl
  | extL dn => exact decode_encode_at 4 9 rfl (reads_plainRow reg0 .extL) dn rfl rfl
  | tst size ea => exact decode_encode_at 4 10 rfl (reads_sizeEaRow empty fun _ => .tst) ((), size, ea) h rfl
  | tas ea => exact decode_encode_at 4 11 rfl (reads_eaRow empty fun _ => .tas) ((), ea) h rfl
  | illegal => exact decode_encode_at 4 12 rfl (reads_plainRow empty fun _ => .illegal) () rfl rfl
  | trap v => exact decode_encode_at 4 13 rfl (reads_plainRow low4 .trap) v rfl rfl
  | moveToUsp an => exact decode_encode_at 4 14 rfl (reads_plainRow reg0 .moveToUsp) an rfl rfl
  | moveFromUsp an => exact decode_encode_at 4 15 rfl (reads_plainRow reg0 .moveFromUsp) an rfl rfl
  | reset => exact decode_encode_at 4 16 rfl (reads_plainRow empty fun _ => .reset) () rfl rfl
  | nop => exact decode_encode_at 4 17 rfl (reads_plainRow empty fun _ => .nop) () rfl rfl
  | stop => exact decode_encode_at 4 18 rfl (reads_plainRow empty fun _ => .stop) () rfl rfl
  | rte => exact decode_encode_at 4 19 rfl (reads_plainRow empty fun _ => .rte) () rfl rfl
  | rts => exact decode_encode_at 4 20 rfl (reads_plainRow empty fun _ => .rts) () rfl rfl
  | jsr ea => exact decode_encode_at 4 21 rfl (reads_eaRow empty fun _ => .jsr) ((), ea) h rfl
  | jmp ea => exact decode_encode_at 4 22 rfl (reads_eaRow empty fun _ => .jmp) ((), ea) h rfl
  | lea ea an => exact decode_encode_at 4 23 rfl (reads_eaRow reg9 fun an ea => .lea ea an) (an, ea) h rfl
  | addq q size ea => exact decode_encode_at 5 0 rfl (reads_sizeEaRow quick .addq) (q, size, ea) h rfl
  | subq q size ea => exact decode_encode_at 5 1 rfl (reads_sizeEaRow quick .subq) (q, size, ea) h rfl
  | dbcc cond dn => exact decode_encode_at 5 2 rfl (reads_plainRow condReg fun x => .dbcc x.1 x.2) (cond, dn) rfl rfl
  | bra d8 => exact decode_encode_at 6 0 rfl (reads_plainRow data8 .bra) d8 rfl rfl
  | bsr d8 => exact decode_encode_at 6 1 rfl (reads_plainRow data8 .bsr) d8 rfl rfl
  | bcc cond d8 => exact decode_encode_at 6 2 rfl (reads_bcc rfl) (cond, d8) h rfl
  | moveq d8 dn => exact decode_encode_at 7 0 rfl (reads_plainRow regData fun x => .moveq x.2 x.1) (dn, d8) rfl rfl
  | orToReg size ea dn =>
    exact decode_encode_at 8 0 rfl (reads_sizeEaRow reg9 fun dn size ea => .orToReg size ea dn) (dn, size, ea) h rfl
  | orToMem size dn ea =>
    exact decode_encode_at 8 1 rfl (reads_sizeEaRow reg9 fun dn size ea => .orToMem size dn ea) (dn, size, ea) h rfl
  | subToReg size ea dn =>
    exact decode_encode_at 9 0 rfl (reads_sizeEaRow reg9 fun dn size ea => .subToReg size ea dn) (dn, size, ea) h rfl
  | subToMem size dn ea =>
    exact decode_encode_at 9 1 rfl (reads_sizeEaRow reg9 fun dn size ea => .subToMem size dn ea) (dn, size, ea) h rfl
  | suba size ea an =>
    exact decode_encode_at 9 2 rfl (reads_eaRow regLong fun x ea => .suba x.2 ea x.1) ((an, size), ea)
      ((Bool.and_true _).trans h) rfl
  | lineA low => exact decode_encode_at 10 0 rfl (reads_plainRow low12 .lineA) low rfl rfl
  | cmp size ea dn =>
    exact decode_encode_at 11 0 rfl (reads_sizeEaRow reg9 fun dn size ea => .cmp size ea dn) (dn, size, ea) h rfl
  | cmpa size ea an =>
    exact decode_encode_at 11 1 rfl (reads_eaRow regLong fun x ea => .cmpa x.2 ea x.1) ((an, size), ea)
      ((Bool.and_true _).trans h) rfl
  | eor size dn ea =>
    exact decode_encode_at 11 2 rfl (reads_sizeEaRow reg9 fun dn size ea => .eor size dn ea) (dn, size, ea) h rfl
  | cmpm size ay ax => exact decode_encode_at 11 3 rfl (reads_cmpm rfl) (ax, size, ay) rfl rfl
  | andToReg size ea dn =>
    exact decode_encode_at 12 0 rfl (reads_sizeEaRow reg9 fun dn size ea => .andToReg size ea dn) (dn, size, ea) h rfl
  | andToMem size dn ea =>
    exact decode_encode_at 12 1 rfl (reads_sizeEaRow reg9 fun dn size ea => .andToMem size dn ea) (dn, size, ea) h rfl
  | mulu ea dn => exact decode_encode_at 12 2 rfl (reads_eaRow reg9 fun dn ea => .mulu ea dn) (dn, ea) h rfl
  | muls ea dn => exact decode_encode_at 12 3 rfl (reads_eaRow reg9 fun dn ea => .muls ea dn) (dn, ea) h rfl
  | addToReg size ea dn =>
    exact decode_encode_at 13 0 rfl (reads_sizeEaRow reg9 fun dn size ea => .addToReg size ea dn) (dn, size, ea) h rfl
  | addToMem size dn ea =>
    exact decode_encode_at 13 1 rfl (reads_sizeEaRow reg9 fun dn size ea => .addToMem size dn ea) (dn, size, ea) h rfl
  | adda size ea an =>
    exact decode_encode_at 13 2 rfl (reads_eaRow regLong fun x ea => .adda x.2 ea x.1) ((an, size), ea)
      ((Bool.and_true _).trans h) rfl
  | lineF low => exact decode_encode_at 15 0 rfl (reads_plainRow low12 .lineF) low rfl rfl

/-- Settles O1: sixteen closed ROM lookups. -/
theorem sampleOpcodesDecode : Obligations.SampleOpcodesDecode := by
  unfold Obligations.SampleOpcodesDecode
  decide +kernel

end Sys2Proof
end

section
/-! SUPPORT. What each test of the step sequencer leads to (R121, R131, R132), when a step is refused (R96, R154, U12, U16), and the
mark of a pipeline the host set (R33, R47 c). -/

namespace Sys2Proof.Machine

/-! ### The six outcomes of a step (R121) -/

/-- A queued trace is not taken: there is none, or it is held in Stopped (line 2 of R121). -/
def State.noTrace (s : State) : Prop := s.tracePending = false ∨ (s.run = .stopped ∧ s.cfg.stopTraceHold = true)

theorem step_halted {s : State} (hr : s.run = .halted) : step s = .next s.idleHalted := by
  simp [step, State.nextEvent, hr]

theorem nextEvent_eq_pipelineBroken_iff (s : State) :
    s.nextEvent = .pipelineBroken ↔ s.run ≠ .halted ∧ s.pipelineBroken = true := by
  unfold State.nextEvent
  split_ifs <;> simp_all

theorem step_pipelineBroken {s : State} (hr : s.run ≠ .halted) (hb : s.pipelineBroken = true) :
    step s = .refused .pipelineBroken := by
  rw [step, (nextEvent_eq_pipelineBroken_iff s).2 ⟨hr, hb⟩]

theorem step_trace {s : State} (hr : s.run ≠ .halted) (hb : s.pipelineBroken = false) (ht : s.tracePending = true)
    (hh : ¬(s.run = .stopped ∧ s.cfg.stopTraceHold = true)) : step s = takeTrace s := by
  have hh' : (s.run == .stopped && s.cfg.stopTraceHold) = false := by simpa using hh
  have he : s.nextEvent = .trace := by simp [State.nextEvent, hr, hb, ht, hh']
  rw [step, he]

theorem step_interrupt {s : State} (hr : s.run ≠ .halted) (hb : s.pipelineBroken = false) (ht : s.noTrace)
    (hi : s.irqEligible s.iplPolled = true) : step s = takeInterrupt s.iplPolled s := by
  have he : s.nextEvent = .interrupt := by
    obtain ht | ⟨hs, hh⟩ := ht
    · simp [State.nextEvent, hr, hb, ht, hi]
    · simp [State.nextEvent, hb, hs, hh, hi]
  rw [step, he]

theorem step_stopped {s : State} (hr : s.run = .stopped) (hb : s.pipelineBroken = false) (ht : s.noTrace)
    (hi : s.irqEligible s.iplPolled = false) : step s = .next s.idleStopped := by
  have he : s.nextEvent = .stoppedIdle := by
    obtain ht | ⟨-, hh⟩ := ht
    · simp [State.nextEvent, hr, hb, ht, hi]
    · simp [State.nextEvent, hr, hb, hh, hi]
  rw [step, he]

theorem step_dispatch {s : State} (hr : s.run = .running) (hb : s.pipelineBroken = false) (ht : s.tracePending = false)
    (hi : s.irqEligible s.iplPolled = false) : step s = dispatch s := by
  have he : s.nextEvent = .dispatch := by simp [State.nextEvent, hr, hb, ht, hi]
  rw [step, he]

/-! ### The dispatch (R122, R96) -/

theorem dispatch_baseline {s : State} {i : Instr} (h : romEntry s.cfg.romExt s.ird = .baseline i) :
    dispatch s = exec i s.beginInstr := by
  rw [dispatch, h]

theorem dispatch_extension {s : State} {e : RomExtension} (h : romEntry s.cfg.romExt s.ird = .extension e) :
    dispatch s = if e.priv = true ∧ s.sr.s = false then takeException .privilegeViolation 8 s.pc0 s.beginInstr
      else .refused .romExtension := by
  rw [dispatch, h]
  show execRomExtension e s.beginInstr = _
  unfold execRomExtension privileged
  cases e.priv
  · rfl
  · cases hs : s.sr.s
    · rw [if_pos rfl, if_neg (by simp [State.beginInstr, hs]), if_pos ⟨rfl, rfl⟩]; rfl
    · rw [if_pos rfl, if_pos (by simp [State.beginInstr, hs])]; rfl

/-! ### Refusals -/

/-- The rule of a descriptor that `ROM_EXT` adds would run: `ird` names one, and it is no privileged one in user mode. -/
def State.extensionRuns (s : State) : Prop :=
  ∃ e, romEntry s.cfg.romExt s.ird = .extension e ∧ (e.priv = true → s.sr.s = true)

theorem dispatch_of_extensionRuns {s : State} (h : s.extensionRuns) : dispatch s = .refused .romExtension := by
  obtain ⟨e, he, hp⟩ := h
  rw [dispatch_extension he, if_neg (by rintro ⟨h1, h2⟩; simp [hp h1] at h2)]

theorem dispatch_eq_refused {s : State} {r : Refusal} (hae : s.aeInService = false) (h : dispatch s = .refused r) :
    r = .reservedIndexWord ∨ (r = .romExtension ∧ s.extensionRuns) := by
  cases he : romEntry s.cfg.romExt s.ird with
  | baseline i =>
    rw [dispatch_baseline he] at h
    cases romEntry_baseline he
    obtain hx | ⟨t, hx, -⟩ := exec_cases (decode_wellFormed s.ird) s.beginInstr hae
    · rw [hx] at h; cases h; exact .inl rfl
    · rw [hx] at h; cases h
  | extension e =>
    rw [dispatch_extension he] at h
    split_ifs at h with hp
    · obtain ⟨t, ht, -⟩ := takeException_ends .privilegeViolation 8 s.pc0 s.beginInstr hae
      rw [ht] at h; cases h
    · cases h; exact .inr ⟨rfl, e, he, fun h1 => by simpa [h1] using hp⟩

/-- A refused step: the pipeline's mark or the dispatch refused it, no idle step and no entry does. -/
theorem step_eq_refused {s : State} {r : Refusal} (hae : s.aeInService = false) (h : step s = .refused r) :
    (s.nextEvent = .pipelineBroken ∧ r = .pipelineBroken) ∨ (s.nextEvent = .dispatch ∧ dispatch s = .refused r) := by
  unfold step at h
  cases he : s.nextEvent with
  | pipelineBroken => rw [he] at h; cases h; exact .inl ⟨rfl, rfl⟩
  | dispatch => rw [he] at h; exact .inr ⟨rfl, h⟩
  | haltedIdle => rw [he] at h; cases h
  | stoppedIdle => rw [he] at h; cases h
  | trace =>
    obtain ⟨t, ht, -⟩ := takeException_ends .traceException 9 s.pc ((s.setTracePending false).setRun .running) hae
    rw [he] at h; cases h.symm.trans ht
  | interrupt =>
    obtain ⟨t, ht, -⟩ := takeInterrupt_ends s.iplPolled s hae
    rw [he] at h; cases h.symm.trans ht

theorem step_eq_pipelineBroken_iff {s : State} (hae : s.aeInService = false) :
    step s = .refused .pipelineBroken ↔ s.run ≠ .halted ∧ s.pipelineBroken = true := by
  refine ⟨fun h => ?_, fun ⟨hr, hb⟩ => step_pipelineBroken hr hb⟩
  obtain ⟨he, -⟩ | ⟨-, hd⟩ := step_eq_refused hae h
  · exact (nextEvent_eq_pipelineBroken_iff s).1 he
  · obtain h | ⟨h, -⟩ := dispatch_eq_refused hae hd <;> cases h

theorem step_eq_romExtension_iff {s : State} (hae : s.aeInService = false) :
    step s = .refused .romExtension ↔ s.nextEvent = .dispatch ∧ s.extensionRuns := by
  refine ⟨fun h => ?_, fun ⟨he, hx⟩ => ?_⟩
  · obtain ⟨-, h⟩ | ⟨he, hd⟩ := step_eq_refused hae h
    · cases h
    · obtain h | ⟨-, hx⟩ := dispatch_eq_refused hae hd
      · cases h
      · exact ⟨he, hx⟩
  · rw [step, he]
    exact dispatch_of_extensionRuns hx

/-! ### The mark of the pipeline (R33, R47 c) -/

/-- In Running the mark is off after a set of `pc` to another address exactly when both stages hold the words there. -/
theorem hostSetPc_pipelineBroken {s : State} {v : Long} (hr : s.run = .running) (hv : v ≠ s.pc) :
    (s.hostSetPc v).pipelineBroken = false ↔
      s.ird = s.mem.readWord (s.phys v) ∧ s.irc = s.mem.readWord (s.phys (v + 2)) := by
  simp [State.hostSetPc, State.afterPipelineSet, State.pipelineMatches, hr, hv]

/-- Setting the stages to the words in memory at `pc` mends the pipeline. -/
theorem hostSetPipeline_of_words (s : State) :
    s.hostSetPipeline (s.mem.readWord (s.phys s.pc)) (s.mem.readWord (s.phys (s.pc + 2))) =
      { s with ird := s.mem.readWord (s.phys s.pc), irc := s.mem.readWord (s.phys (s.pc + 2)), pipelineBroken := false } := by
  have hm : ((s.setIrd (s.mem.readWord (s.phys s.pc))).setIrc (s.mem.readWord (s.phys (s.pc + 2)))).pipelineMatches = true := by
    simp [State.pipelineMatches]
  rw [State.hostSetPipeline, State.afterPipelineSet, hm]
  rfl

/-! ### The statements -/

/-- Settles O8: the refusals from `step_eq_refused`, the mark from what the two sets of the host leave. -/
theorem stepIsTotal : Obligations.StepIsTotal := by
  refine fun s => ⟨fun hq => ?_, fun hq => step_eq_pipelineBroken_iff hq.1, fun hq => step_eq_romExtension_iff hq.1,
    fun v hr _ hv => hostSetPc_pipelineBroken hr hv, ?_⟩
  · obtain ⟨r, h, rfl | rfl | rfl⟩ | ⟨t, h, -⟩ := step_cases hq
    · exact .inr (.inl h)
    · exact .inr (.inr (.inl h))
    · exact .inr (.inr (.inr h))
    · exact .inl ⟨t, h⟩
  · rintro v w x rfl rfl
    exact hostSetPipeline_of_words (s.hostSetPc v)

/-- Settles O6: each clause is the outcome of one test of R121. -/
theorem stepOrder : Obligations.StepOrder := by
  intro s
  refine ⟨step_halted, step_pipelineBroken, step_trace, step_interrupt, fun hr hb ht hi => ?_,
    fun hr hb ht hi => ⟨fun i h => ?_, fun e h => ?_⟩⟩
  · refine ⟨_, step_stopped hr hb (ht.imp_right fun hh => ⟨hr, hh⟩) hi, (SameCore.sampled s).trans (SameCore.tick _ _), ?_⟩
    exact ⟨rfl, rfl, rfl, rfl, rfl, rfl, rfl, rfl, rfl, rfl⟩
  · rw [step_dispatch hr hb ht hi, dispatch_baseline h]
  · rw [step_dispatch hr hb ht hi, dispatch_extension h]

/-- Settles O49: the trace is the first test outside Halted, and its entry is one with an even stack and handler. -/
theorem traceIsTaken : Obligations.TraceIsTaken := by
  intro s hr hb ht hh u hready
  rw [step_trace hr hb ht hh]
  exact takeException_enters hready

/-- Settles O5: with no entry of `ROM_EXT` for its value, the word in `ird` is dispatched as the baseline decodes it. -/
theorem stepRunsDecodedInstruction : Obligations.StepRunsDecodedInstruction := by
  intro s i hr hb ht hi hird hext hdec
  have hi' : decode s.ird = i := by cases hdec; rw [hird]; rfl
  refine ⟨?_, by simp [State.beginInstr, State.setPc, State.setTracePending, ht]⟩
  rw [step_dispatch hr hb ht hi, dispatch_baseline (romEntry_of_no_extension hext), hi']

end Sys2Proof.Machine
end

section
/-! SUPPORT. The three ways the pipeline advances (R127 to R129), and the address error that ends an instruction in one of its
operands (R124, R159). -/

namespace Sys2Proof.Machine

/-! ### The level is sampled in the last bus cycle only (R317) -/

theorem extTaken_sampling (s : State) : s.extTaken.iplPolled = s.iplPolled ∧ s.extTaken.nmiArmed = s.nmiArmed := by
  simp [State.extTaken, State.wordRead]

theorem prefetched_sampling (s : State) :
    s.prefetched.iplPolled = s.iplAnswer ∧ s.prefetched.nmiArmed = (s.nmiArmed || s.iplAnswer != 7) := by
  simp [State.prefetched, State.wordRead]

theorem refilled_sampling (s : State) :
    s.refilled.iplPolled = s.iplAnswer ∧ s.refilled.nmiArmed = (s.nmiArmed || s.iplAnswer != 7) := by
  simp [State.refilled, prefetched_sampling, State.wordRead]

/-- Settles O18: each advance runs to the state that Safety.lean names, or ends at its odd fetch. -/
theorem pipelineAdvances : Obligations.PipelineAdvances := fun s =>
  ⟨fun h => ⟨readExt_run h, SameCore.extTaken s, extTaken_pc s, extTaken_pc0 s, extTaken_ird s, extTaken_irc s, extTaken_clock s,
      extTaken_sampling s⟩,
    readExt_odd,
    fun h => ⟨prefetch_run h, SameCore.prefetched s, prefetched_pipeline s, prefetched_clock s, prefetched_sampling s⟩,
    prefetch_odd,
    fun h => ⟨refill_run h, SameCore.refilled s, refilled_pipeline s, refilled_clock s, refilled_sampling s⟩,
    refill_odd⟩

/-! ### From a rule's abort to the instruction's outcome -/

section
variable {s u w : State} {e : Abort} {x : Long} {d : Dir} {sp : Space}

/-- An address error in a rule ends the instruction, a privileged one in supervisor mode, in its entry (R124). -/
theorem exec_abort {i : Instr} {m : M Unit} (hb : body i = some m) (hp : i.descriptor.priv = true → s.sr.s = true)
    (h : m s = .error (.addressError x d sp) u) : exec i s = addressErrorEntry x d sp u := by
  rw [exec_body hb]
  split_ifs with hpriv
  · exact privileged_abort (hp hpriv) h
  · exact runOp_abort h

/-! ### The abort of an operand is the abort of its rule -/

theorem regToEa_error {f : Long → Long → Long} {rule : FlagRule} {kind : AluKind} {size : Size} {dn : RegNum} {ea : Ea}
    (h : readOp ea size s = .error e u) : regToEa f rule kind size dn ea s = .error e u := by
  rw [regToEa, look_bind_run, bind_error h]

/-- The rule of an instruction that reads an operand first ends where that read does. -/
theorem body_of_firstOperand {i : Instr} {ea : Ea} {size : Size} (hi : i.firstOperand = some (ea, size)) :
    ∃ m, body i = some m ∧ ∀ s u e, readOp ea size s = .error e u → m s = .error e u := by
  cases i <;> cases hi
  case addToMem | subToMem | andToMem | orToMem | eor => exact ⟨_, rfl, fun _ _ _ => regToEa_error⟩
  all_goals exact ⟨_, rfl, fun _ _ _ => bind_error⟩

theorem moveFromSrBody_error {ea : Ea} (h : readOp ea .w s = .error e u) : moveFromSrBody ea s = .error e u := by
  rw [moveFromSrBody, look_bind_run, bind_error (replaceOperand_error h)]

theorem immToEa_error {f : Long → Long → Long} {rule : FlagRule} {writes : Bool} {kind : AluKind} {size : Size} {ea : Ea}
    (hs : isEven s.pc = true) (h : readOp ea size (s.immTaken size) = .error e u) :
    immToEa f rule writes kind size ea s = .error e u := by
  rw [immToEa, bind_ok (readImm_run hs size), bind_error h]

theorem immToEa_odd {f : Long → Long → Long} {rule : FlagRule} {writes : Bool} {kind : AluKind} {size : Size} {ea : Ea}
    (hs : isEven s.pc = false) :
    immToEa f rule writes kind size ea s = .error (.addressError (s.pc + 2) .read .prog) (s.setPc (s.pc + 2)) :=
  bind_error (readImm_odd hs size)

theorem moveBody_error {src dst : Ea} {size : Size} {v : Long} {l : Loc} (hr : readOp src size s = .ok (v, l) u)
    (h : writeOp dst size v u = .error e w) : moveBody size src dst s = .error e w := by
  rw [moveBody, bind_ok hr]
  exact bind_error h

theorem writeOp_resolve_error {ea : Ea} {size : Size} {v : Long} (h : resolve ea size s = .error e u) :
    writeOp ea size v s = .error e u := bind_error h

/-- A misaligned write is an address error in the state the resolver left (R66, R142). -/
theorem writeOp_odd {ea : Ea} {size : Size} {v : Long} (h : resolve ea size s = .ok (.mem x sp) u)
    (hx : alignedFor size x = false) : writeOp ea size v s = .error (.addressError x .write .data) u := by
  rw [writeOp, bind_ok h]
  exact bind_error (memWrite_odd hx v u)

theorem cmpmBody_error {ay ax : RegNum} {size : Size} {v : Long} {l : Loc} (hr : readOp (.postInc ay) size s = .ok (v, l) u)
    (h : readOp (.postInc ax) size u = .error e w) : cmpmBody size ay ax s = .error e w := by
  rw [cmpmBody, bind_ok hr]
  exact bind_error h

/-- An address error in an instruction's first operand ends it there. -/
theorem exec_firstOperand_abort {i : Instr} {ea : Ea} {size : Size} (hi : i.firstOperand = some (ea, size))
    (hp : i.descriptor.priv = true → s.sr.s = true) (h : readOp ea size s = .error (.addressError x d sp) u) :
    exec i s = addressErrorEntry x d sp u := by
  obtain ⟨m, hb, hm⟩ := body_of_firstOperand hi
  exact exec_abort hb hp (hm s u _ h)

/-- An address error in the immediate, or in the operand after it, ends an immediate form there. -/
theorem exec_immToEa_abort {op : AluOp} {size : Size} {ea : Ea}
    (h : ∀ f rule writes kind, immToEa f rule writes kind size ea s = .error (.addressError x d sp) u) :
    exec (op.immToEa size ea) s = addressErrorEntry x d sp u ∧ exec (.cmpi size ea) s = addressErrorEntry x d sp u := by
  refine ⟨?_, runOp_abort (h _ _ _ _)⟩
  cases op <;> exact runOp_abort (h _ _ _ _)

/-- An address error in an address that is only formed ends the instruction there. -/
theorem exec_controlEa_abort {ea : Ea} (an : RegNum) (h : controlEa ea s = .error (.addressError x d sp) u) :
    exec (.lea ea an) s = addressErrorEntry x d sp u ∧ exec (.pea ea) s = addressErrorEntry x d sp u ∧
      exec (.jmp ea) s = addressErrorEntry x d sp u ∧ exec (.jsr ea) s = addressErrorEntry x d sp u :=
  ⟨runOp_abort (bind_error h), runOp_abort (bind_error h), runOp_abort (bind_error h), runOp_abort (bind_error h)⟩

end

/-! ### The statement -/

/-- Settles O23: each rule ends where its operand does, and no operand read writes the status register or memory. -/
theorem operandErrorsEndTheRule : Obligations.OperandErrorsEndTheRule := by
  refine ⟨?_, ?_, ?_, ?_, ?_, ?_⟩
  · intro i ea size s u x d sp hi h hp
    have hu := (OnlyReads.readOp ea size).error h
    exact ⟨exec_firstOperand_abort hi hp h, hu.sr, hu.mem⟩
  · intro ea size q s u x d sp h
    have hu := (OnlyReads.readOp ea size).error h
    refine ⟨runOp_abort (bind_error (replaceOperand_error h)), runOp_abort (bind_error (quickOperand_error h)),
      runOp_abort (bind_error (quickOperand_error h)), ?_, hu.sr, hu.mem⟩
    rintro rfl
    exact runOp_abort (moveFromSrBody_error h)
  · intro op ea size s
    refine ⟨fun hs => exec_immToEa_abort fun _ _ _ _ => immToEa_odd hs, fun u x d sp hs h => ?_⟩
    have hu := (OnlyReads.of_core (SameCore.immTaken s size)).trans ((OnlyReads.readOp ea size).error h)
    obtain ⟨himm, hcmpi⟩ := exec_immToEa_abort (op := op) fun _ _ _ _ => immToEa_error hs h
    exact ⟨himm, hcmpi, hu.sr, hu.mem⟩
  · intro src dst size s u w v l hr
    have hu := (OnlyReads.readOp src size).ok hr
    refine ⟨fun x d sp h => ?_, fun x sp h hx => ?_⟩
    · have hw := hu.trans ((OnlyReads.resolve dst size).error h)
      exact ⟨runOp_abort (moveBody_error hr (writeOp_resolve_error h)), hw.sr, hw.mem⟩
    · have hw := hu.trans ((OnlyReads.resolve dst size).ok h)
      exact ⟨runOp_abort (moveBody_error hr (writeOp_odd h hx)), hw.sr, hw.mem⟩
  · intro ay ax size s u w v l x d sp hr h
    have hw := ((OnlyReads.readOp _ size).ok hr).trans ((OnlyReads.readOp _ size).error h)
    exact ⟨runOp_abort (cmpmBody_error hr h), hw.sr, hw.mem⟩
  · intro ea an s u x d sp h
    have hu := (OnlyReads.controlEa ea).error h
    obtain ⟨hlea, hpea, hjmp, hjsr⟩ := exec_controlEa_abort an h
    exact ⟨hlea, hpea, hjmp, hjsr, hu.sr, hu.mem⟩

end Sys2Proof.Machine
end

section
/-! SUPPORT. The index extension word read in both directions (R151 to R154): each of its fields is an `OpcodeField`, so a word
decodes to exactly the term that encodes it; and the words that decode to none, bit by bit. -/

namespace Sys2Proof

open OpcodeField

/-! ### Fields of an index word (R152, R153) -/

namespace OpcodeField

/-- One bit, with the two facts about its position that are decided for each position. -/
theorem flag (k : Nat) (mask : Word) (hm : mask = (BitVec.allOnes 1).setWidth 16 <<< k := by decide)
    (hb : ∀ x : BitVec 1, ∀ b : Bool, x.getLsbD 0 = b ↔ x.setWidth 16 <<< k = if b then mask else 0 := by decide)
    (hi : ∀ b : Bool, (if b then mask else 0) &&& mask = if b then mask else 0 := by decide) :
    OpcodeField mask (fun w => some (w.getLsbD k)) (fun _ => true) fun b => if b then mask else 0 where
  inside := hi
  read_iff {w b} := by
    have h : w.getLsbD k = (w.extractLsb' k 1).getLsbD 0 := by simp
    rw [and_eq_extract hm, ← hb, ← h, Option.some.injEq, eq_self, true_and]

theorem reg12 : OpcodeField 0x7000 (fun w => some (regField w 12)) (fun _ => true) fun r => regBits r 12 := reg 12 _ (by decide)

theorem scale : OpcodeField 0x0600 (fun w => some (w.extractLsb' 9 2)) (fun _ => true) fun x => x.setWidth 16 <<< 9 where
  inside := by decide
  read_iff {w x} := by
    rw [and_eq_extract (lo := 9) (n := 2) (by decide)]
    generalize w.extractLsb' 9 2 = y
    revert x y
    decide

/-- Bits 15:9: the index register, its width and its scale. -/
theorem indexReg : OpcodeField 0xFE00 (fun w => some (indexRegField w)) (fun _ => true) IndexReg.bits where
  inside x := by
    have h := ((((flag 15 0x8000).pair reg12).pair (flag 11 0x0800)).pair scale).inside (((x.isAddr, x.reg), x.long), x.scale)
    simpa [IndexReg.bits] using h
  read_iff {w x} := by
    have h := ((((flag 15 0x8000).pair reg12).pair (flag 11 0x0800)).pair scale).read_iff (w := w)
      (a := (((x.isAddr, x.reg), x.long), x.scale))
    obtain ⟨isAddr, reg, long, scale⟩ := x
    simpa [readPair_eq_some, indexRegField, IndexReg.bits, and_assoc] using h

/-- `BDSZ`, bits 5:4. -/
theorem baseDisp : OpcodeField 0x0030 (fun w => dispSizeOfNat (w.extractLsb' 4 2).toNat) (fun _ => true)
    fun bd => BitVec.ofNat 16 bd.toNat <<< 4 where
  inside bd := by cases bd <;> decide
  read_iff {w bd} := by
    rw [and_eq_extract (lo := 4) (n := 2) (by decide)]
    generalize w.extractLsb' 4 2 = x
    revert x
    cases bd <;> decide

end OpcodeField

/-- With the index suppressed the indirection takes no index, otherwise it is pre- or post-indexed (R153). -/
def Indirection.fits (is : Bool) : Indirection → Bool
  | .none => true
  | .preIndexed _ | .postIndexed _ => !is
  | .noIndex _ => is

theorem wellFormed_full (r : IndexReg) (bs is : Bool) (bd : DispSize) (ind : Indirection) :
    (IndexWord.full r bs is bd ind).wellFormed = ind.fits is := by
  cases is <;> cases ind <;> rfl

/-- `IIS` with a given `IS` (R153). -/
theorem indirectionOf_eq_some {is : Bool} {iis : BitVec 3} {ind : Indirection} :
    indirectionOf is iis = some ind ↔ ind.fits is = true ∧ iis.setWidth 16 = BitVec.ofNat 16 ind.iis := by
  revert is iis
  rcases ind with _ | ⟨_ | _ | _⟩ | ⟨_ | _ | _⟩ | ⟨_ | _ | _⟩ <;> decide

/-- `IIS`, bits 2:0, for a given `IS`. -/
theorem OpcodeField.indirection (is : Bool) : OpcodeField 0x0007 (fun w => indirectionOf is (w.extractLsb' 0 3))
    (Indirection.fits is) fun ind => BitVec.ofNat 16 ind.iis where
  inside ind := by rcases ind with _ | ⟨_ | _ | _⟩ | ⟨_ | _ | _⟩ | ⟨_ | _ | _⟩ <;> decide
  read_iff {w ind} := by
    rw [and_eq_extract (lo := 0) (n := 3) (by decide), BitVec.shiftLeft_zero, indirectionOf_eq_some]

/-! ### The word (R152 to R154) -/

/-- A word with bit 8 clear has the brief form (R152). -/
theorem decodeIndexWord_brief {w : Word} (h8 : w.getLsbD 8 = false) :
    decodeIndexWord w = some (.brief (indexRegField w) (data8Field w)) := by
  simp only [decodeIndexWord, h8, Bool.false_eq_true, if_false]

/-- A full-form word with bit 3 set is reserved (R154). -/
theorem decodeIndexWord_bit3 {w : Word} (h8 : w.getLsbD 8 = true) (h3 : w.getLsbD 3 = true) : decodeIndexWord w = none := by
  simp only [decodeIndexWord, h8, h3, if_true]

/-- The other full-form words have a meaning where `BDSZ` and the pair of `IS` and `IIS` have one (R153). -/
theorem decodeIndexWord_full {w : Word} (h8 : w.getLsbD 8 = true) (h3 : w.getLsbD 3 = false) :
    decodeIndexWord w = (dispSizeOfNat (w.extractLsb' 4 2).toNat).bind fun bd =>
      (indirectionOf (w.getLsbD 6) (w.extractLsb' 0 3)).map
        (.full (indexRegField w) (w.getLsbD 7) (w.getLsbD 6) bd) := by
  simp only [decodeIndexWord, h8, h3, Bool.false_eq_true, if_true, if_false]
  cases dispSizeOfNat (w.extractLsb' 4 2).toNat <;> cases indirectionOf (w.getLsbD 6) (w.extractLsb' 0 3) <;> rfl

theorem decodeIndexWord_eq_brief {w : Word} {r : IndexReg} {d8 : BitVec 8} :
    decodeIndexWord w = some (.brief r d8) ↔ indexRegField w = r ∧ w.getLsbD 8 = false ∧ data8Field w = d8 := by
  cases h8 : w.getLsbD 8
  · simp [decodeIndexWord_brief h8]
  · cases h3 : w.getLsbD 3
    · simp [decodeIndexWord_full h8 h3, Option.bind_eq_some_iff]
    · simp [decodeIndexWord_bit3 h8 h3]

theorem decodeIndexWord_eq_full {w : Word} {r : IndexReg} {bs is : Bool} {bd : DispSize} {ind : Indirection} :
    decodeIndexWord w = some (.full r bs is bd ind) ↔
      indexRegField w = r ∧ w.getLsbD 8 = true ∧ w.getLsbD 7 = bs ∧ w.getLsbD 6 = is ∧
        dispSizeOfNat (w.extractLsb' 4 2).toNat = some bd ∧ w.getLsbD 3 = false ∧
        indirectionOf is (w.extractLsb' 0 3) = some ind := by
  cases h8 : w.getLsbD 8
  · simp [decodeIndexWord_brief h8]
  · cases h3 : w.getLsbD 3
    · rw [decodeIndexWord_full h8 h3]
      simp only [Option.bind_eq_some_iff, Option.map_eq_some_iff, IndexWord.full.injEq]
      constructor
      · rintro ⟨_, hbd, _, hind, rfl, rfl, rfl, rfl, rfl⟩
        exact ⟨rfl, trivial, rfl, rfl, hbd, trivial, hind⟩
      · rintro ⟨rfl, -, rfl, rfl, hbd, -, hind⟩
        exact ⟨bd, hbd, ind, hind, rfl, rfl, rfl, rfl, rfl⟩
    · simp [decodeIndexWord_bit3 h8 h3]

/-- A word decodes to the well-formed term that encodes it, and to no other. -/
theorem decodeIndexWord_eq_some {w : Word} {x : IndexWord} :
    decodeIndexWord w = some x ↔ x.wellFormed = true ∧ w = encodeIndexWord x := by
  have hw : w &&& 0xFFFF#16 = w := BitVec.and_allOnes
  cases x with
  | brief r d8 =>
    have h := ((indexReg.pair (flag 8 0x0100)).pair data8).read_iff (w := w) (a := ((r, false), d8))
    rw [decodeIndexWord_eq_brief]
    simpa [readPair_eq_some, hw, IndexWord.wellFormed, encodeIndexWord, and_assoc] using h
  | full r bs is bd ind =>
    have h := ((((((indexReg.pair (flag 8 0x0100)).pair (flag 7 0x0080)).pair (flag 6 0x0040)).pair baseDisp).pair
      (flag 3 0x0008)).pair (indirection is)).read_iff (w := w) (a := ((((((r, true), bs), is), bd), false), ind))
    rw [decodeIndexWord_eq_full, wellFormed_full]
    simpa [readPair_eq_some, hw, encodeIndexWord, and_assoc] using h

/-- Settles O4: both directions of the one equivalence. -/
theorem indexWordsRoundTrip : Obligations.IndexWordsRoundTrip :=
  ⟨fun _ hx => decodeIndexWord_eq_some.2 ⟨hx, rfl⟩, fun _ _ h => (decodeIndexWord_eq_some.1 h).imp id Eq.symm⟩

theorem dispSizeOfNat_eq_none {x : BitVec 2} : dispSizeOfNat x.toNat = none ↔ x = 0 := by revert x; decide

theorem indirectionOf_eq_none {is : Bool} {iis : BitVec 3} :
    indirectionOf is iis = none ↔ (is = false ∧ iis = 4) ∨ (is = true ∧ 4 ≤ iis.toNat) := by revert is iis; decide

/-- The words without a meaning, bit by bit (R154). -/
theorem decodeIndexWord_eq_none {w : Word} : decodeIndexWord w = none ↔
    w.getLsbD 8 = true ∧ (w.getLsbD 3 = true ∨ w.extractLsb' 4 2 = 0 ∨ (w.getLsbD 6 = false ∧ w.extractLsb' 0 3 = 4) ∨
      (w.getLsbD 6 = true ∧ 4 ≤ (w.extractLsb' 0 3).toNat)) := by
  rw [← dispSizeOfNat_eq_none, ← indirectionOf_eq_none]
  cases h8 : w.getLsbD 8
  · simp [decodeIndexWord_brief h8]
  · cases h3 : w.getLsbD 3
    · rw [decodeIndexWord_full h8 h3, Option.bind_eq_none_iff]
      cases dispSizeOfNat (w.extractLsb' 4 2).toNat <;> simp
    · simp [decodeIndexWord_bit3 h8 h3]

end Sys2Proof
end

section
/-! SUPPORT. The effective addresses (R140 to R158): what each mode resolves to, the address each form of index word forms, the
value a ready operand reads, and the refusal of a reserved index word. -/

namespace Sys2Proof.Machine

/-! ### The modes without an index word (R141, R146 to R150, R157) -/

section
variable {s : State}

theorem extTaken_even (h : isEven s.pc = true) : isEven s.extTaken.pc = true := by simpa using h

theorem resolve_preDec (s : State) (size : Size) (r : RegNum) : resolve (.preDec r) size s =
    .ok (.mem (s.readA r - inc r size) .data) ((s.tick cAdj).writeA r (s.readA r - inc r size)) := by
  rw [resolve, charge_bind_run, assign_bind_run, look_bind_run, readA_writeA_same, pure_run]
  rfl

theorem resolve_disp (h : isEven s.pc = true) (size : Size) (r : RegNum) :
    resolve (.disp r) size s = .ok (.mem (s.readA r + sext16 s.irc) .data) s.extTaken := by
  rw [resolve, bind_ok (readExt_run h), look_bind_run, (SameCore.extTaken s).readA, pure_run]

theorem resolve_absW (h : isEven s.pc = true) (size : Size) :
    resolve .absW size s = .ok (.mem (sext16 s.irc) .data) s.extTaken := by
  rw [resolve, bind_ok (readExt_run h), pure_run]

theorem resolve_absL (h : isEven s.pc = true) (size : Size) :
    resolve .absL size s = .ok (.mem (longOf s.irc s.extTaken.irc) .data) s.extTaken.extTaken := by
  rw [resolve, bind_ok (readExt_run h), bind_ok (readExt_run (extTaken_even h)), pure_run]

theorem resolve_pcDisp (h : isEven s.pc = true) (size : Size) :
    resolve .pcDisp size s = .ok (.mem (s.pc + sext16 s.irc) .prog) s.extTaken := by
  rw [resolve, look_bind_run, bind_ok (readExt_run h), pure_run]

theorem resolve_imm (h : isEven s.pc = true) (size : Size) :
    resolve .imm size s = .ok (.imm (s.immNext size)) (s.immTaken size) := by
  rw [resolve, bind_ok (readImm_run h size), pure_run]

end

theorem inc_eq (r : RegNum) (size : Size) :
    inc r size = if r = 7 ∧ size = .b then 2 else BitVec.ofNat 32 size.bytes := by
  simp [inc]

/-- Settles O19: the run of each mode; a pre-decrement is charged and written before the access. -/
theorem addressingModes : Obligations.AddressingModes := fun s size r =>
  ⟨rfl, rfl, rfl, rfl,
    ⟨_, resolve_preDec s size r, (SameCore.tick s cAdj).writeA r _, rfl, rfl, rfl⟩,
    fun h => resolve_disp h size r, fun h => resolve_absW h size, fun h => resolve_absL h size,
    fun h => resolve_pcDisp h size, fun h => resolve_imm h size, inc_eq r size⟩

/-! ### The indexed modes (R151 to R153) -/

section
variable {s u w : State} {base idx bdv odv : Long} {space : Space} {bs is : Bool} {bd od : DispSize}

theorem readDisp_word (h : isEven s.pc = true) : readDisp .word s = .ok (sext16 s.irc) s.extTaken := by
  rw [readDisp, bind_ok (readExt_run h), pure_run]

theorem readDisp_long (h : isEven s.pc = true) :
    readDisp .long s = .ok (longOf s.irc s.extTaken.irc) s.extTaken.extTaken := by
  rw [readDisp, bind_ok (readExt_run h), bind_ok (readExt_run (extTaken_even h)), pure_run]

/-- A displacement that is there ends at its first word when the fetch is odd (R127). -/
theorem readDisp_odd (h : isEven s.pc = false) {d : DispSize} (hd : d ≠ .none) :
    readDisp d s = .error (.addressError (s.pc + 2) .read .prog) (s.setPc (s.pc + 2)) := by
  cases d with
  | none => exact absurd rfl hd
  | word => exact bind_error (readExt_odd h)
  | long => exact bind_error (readExt_odd h)

theorem fullIndexEa_none (hbd : readDisp bd s = .ok bdv u) :
    fullIndexEa base idx space bs is bd .none s =
      .ok ((if bs then 0 else base) + bdv + (if is then 0 else idx)) u := bind_ok hbd

/-- The index is added before the pointer is fetched (R153). -/
theorem fullIndexEa_preIndexed (hbd : readDisp bd s = .ok bdv u) (hod : readDisp od u = .ok odv w)
    {p : Long} (hp : p = (if bs then 0 else base) + bdv + (if is then 0 else idx)) (he : isEven p = true) :
    fullIndexEa base idx space bs is bd (.preIndexed od) s = .ok (w.answer32 p + odv) (w.longRead p) := by
  subst hp
  exact (bind_ok hbd).trans ((bind_ok hod).trans (bind_ok (busRead32_run he space w)))

/-- The index is added to the fetched pointer (R153). -/
theorem fullIndexEa_postIndexed (hbd : readDisp bd s = .ok bdv u) (hod : readDisp od u = .ok odv w)
    {p : Long} (hp : p = (if bs then 0 else base) + bdv) (he : isEven p = true) :
    fullIndexEa base idx space bs is bd (.postIndexed od) s =
      .ok (w.answer32 p + (if is then 0 else idx) + odv) (w.longRead p) := by
  subst hp
  exact (bind_ok hbd).trans ((bind_ok hod).trans (bind_ok (busRead32_run he space w)))

theorem fullIndexEa_noIndex (hbd : readDisp bd s = .ok bdv u) (hod : readDisp od u = .ok odv w)
    {p : Long} (hp : p = (if bs then 0 else base) + bdv) (he : isEven p = true) :
    fullIndexEa base idx space bs is bd (.noIndex od) s = .ok (w.answer32 p + odv) (w.longRead p) := by
  subst hp
  exact (bind_ok hbd).trans ((bind_ok hod).trans (bind_ok (busRead32_run he space w)))

end

/-- Settles O20: a full word goes on with `fullIndexEa` after its own word, and each indirection runs as above. -/
theorem indexedAddresses : Obligations.IndexedAddresses := by
  refine ⟨fun u => ⟨rfl, readDisp_word, readDisp_long, fun h d hd => readDisp_odd h hd⟩, ?_⟩
  intro s base sp hs start idx
  refine ⟨fun x d8 hw => indexEa_brief hs hw base sp, ?_⟩
  intro x bs is bd ind bdv u hw hbd b i
  rw [indexEa_full hs hw]
  refine ⟨?_, fun od odv w hod => ⟨?_, ?_, ?_⟩⟩
  · rintro rfl
    exact fullIndexEa_none hbd
  · rintro rfl he
    exact fullIndexEa_preIndexed hbd hod rfl he
  · rintro rfl he
    exact fullIndexEa_postIndexed hbd hod rfl he
  · rintro rfl he
    exact fullIndexEa_noIndex hbd hod rfl he

/-! ### Reading a ready operand (R140, R142, R145) -/

theorem preAdjusted_readD (s : State) (ea : Ea) (size : Size) (r : RegNum) : (s.preAdjusted ea size).readD r = s.readD r := by
  cases ea <;> rfl

theorem LocFits.eq_an {ea : Ea} {size : Size} {r : RegNum} (h : LocFits ea size (.areg r)) : ea = .an r := by
  cases ea <;> simp_all [LocFits]

/-- The run of `ReadOp` from that of `Resolve`. -/
theorem readOp_of_resolve {ea : Ea} {size : Size} {s u : State} {loc : Loc} (hr : resolve ea size s = .ok loc u)
    (hl : LocFits ea size loc) :
    readOp ea size s = .ok (u.locValue loc size, loc) ((u.locRead loc size).postAdjusted ea size) := by
  rw [readOp, bind_ok hr, bind_ok (readLoc_run hl u), bind_ok (postAdjust_run ea size _), pure_run]

/-- Settles O21: `ReadOp` reads the location in the state the resolver leaves, in which the registers are as they were. -/
theorem readyOperandsRead : Obligations.ReadyOperandsRead := by
  intro ea size s h
  obtain ⟨loc, u, hr, hf, hl⟩ := resolve_ready h
  obtain ⟨v, loc', t, ht, hcore, -, hird, hpc0, -⟩ := readOp_ready h
  obtain ⟨⟨rfl, rfl⟩, rfl⟩ : (u.locValue loc size = v ∧ loc = loc') ∧ (u.locRead loc size).postAdjusted ea size = t := by
    simpa using (readOp_of_resolve hr hl).symm.trans ht
  refine ⟨loc, u, hr, _, _, ht, hcore, hird, hpc0, ?_⟩
  cases loc with
  | dreg r =>
    have hreg : u.readD r = s.readD r := by rw [hf.core.readD, preAdjusted_readD]
    exact congrArg (trunc size) hreg
  | areg r =>
    obtain rfl := hl.eq_an
    exact congrArg (trunc size) (hf.core.readA r)
  | mem x sp => rfl
  | imm w => rfl

/-! ### Reserved index words (R154) -/

section
variable {s u : State} {r : Refusal}

theorem runOp_refused {m : M Unit} (h : m s = .error (.refuse r) u) : runOp m s = .refused r := by
  rw [runOp, h]

/-- A refusal in a rule is the instruction's, a privileged one's in supervisor mode (R7, R154). -/
theorem exec_refused {i : Instr} {m : M Unit} (hb : body i = some m) (hp : i.descriptor.priv = true → s.sr.s = true)
    (h : m s = .error (.refuse r) u) : exec i s = .refused r := by
  rw [exec_body hb]
  split_ifs with hpriv
  · rw [privileged, if_pos (hp hpriv), runOp_refused h]
  · exact runOp_refused h

/-- Resolving an indexed mode ends at a reserved index word, before anything else is done. -/
theorem resolve_reserved (hs : isEven s.pc = true) (hw : decodeIndexWord s.irc = none) {ea : Ea} (hea : ea.isIndexed = true)
    (size : Size) : resolve ea size s = .error (.refuse .reservedIndexWord) (s.extTaken.tick s.cfg.cIdx) := by
  cases ea <;> cases hea
  case index | pcIndex => rw [resolve, look_bind_run, bind_error (indexEa_reserved hs hw _ _)]

/-- The rule of an instruction that begins with an index word ends where its operand does. -/
theorem body_of_startsWithIndex {i : Instr} (hi : i.startsWithIndex = true) :
    ∃ m, body i = some m ∧ ∀ s e u, (∀ ea size, ea.isIndexed = true → resolve ea size s = .error e u) → m s = .error e u := by
  unfold Instr.startsWithIndex at hi
  cases ho : i.firstOperand with
  | some p =>
    obtain ⟨ea, size⟩ := p
    rw [ho] at hi
    obtain ⟨m, hb, hm⟩ := body_of_firstOperand ho
    exact ⟨m, hb, fun s e u h => hm s u e (bind_error (h ea size hi))⟩
  | none =>
    rw [ho] at hi
    cases i <;> simp only [Instr.firstOperand, reduceCtorEq] at ho <;> try cases hi
    case pea ea | jsr ea | jmp ea | lea ea an =>
      exact ⟨_, rfl, fun s e u h => bind_error (bind_error (h ea .l hi))⟩
    case clr size ea =>
      exact ⟨_, rfl, fun s e u h => bind_error (replaceOperand_error (bind_error (h ea size hi)))⟩
    case moveFromSr ea => exact ⟨_, rfl, fun s e u h => moveFromSrBody_error (bind_error (h ea .w hi))⟩
    case addq q size ea | subq q size ea =>
      exact ⟨_, rfl, fun s e u h => bind_error (quickOperand_error (bind_error (h ea size hi)))⟩

end

/-- Settles O22: the reserved words bit by bit, and the refusal passed on from the index word to the instruction. -/
theorem reservedIndexWordsRefused : Obligations.ReservedIndexWordsRefused := by
  refine ⟨fun w => decodeIndexWord_eq_none, fun base sp s hs hw => ⟨_, indexEa_reserved hs hw base sp⟩, ?_⟩
  intro i s hi hs hw hp
  obtain ⟨m, hb, hm⟩ := body_of_startsWithIndex hi
  exact exec_refused hb hp (hm s _ _ fun ea size hea => resolve_reserved hs hw hea size)

end Sys2Proof.Machine
end

section
/-! SUPPORT. The system instructions (R169 to R188): the exact state each rule ends in, in supervisor mode where it is privileged, and
the exceptions that the traps, and the privileged instructions in user mode, take. -/

namespace Sys2Proof.Machine

/-! ### From a rule's end to the instruction's outcome -/

theorem SameCore.sameBytes {s e t : State} (hc : SameCore e t) (hm : e.mem = s.mem) : SameBytes s t :=
  sameBytes_of (hc.mem.trans hm)

/-- A rule that completes gives the instruction its next state, a privileged one in supervisor mode. -/
theorem exec_ok {i : Instr} {m : M Unit} {s t : State} (hb : body i = some m) (hp : i.descriptor.priv = true → s.sr.s = true)
    (h : m s = .ok () t) : exec i s = .next t := by
  rw [exec_body hb]
  split_ifs with hpriv
  · exact privileged_ok (hp hpriv) h
  · exact runOp_ok h

/-- A rule that completes with memory as it was: the outcome, the core and the bytes together. -/
theorem exec_storesNothing {i : Instr} {m : M Unit} {s e t : State} (hb : body i = some m)
    (hp : i.descriptor.priv = true → s.sr.s = true) (h : m s = .ok () t) (hc : SameCore e t) (hm : e.mem = s.mem) :
    exec i s = .next t ∧ SameCore e t ∧ SameBytes s t :=
  ⟨exec_ok hb hp h, hc, hc.sameBytes hm⟩

/-! ### The condition codes (R180, R183, R185, R187) -/

theorem immToCcr_run {s : State} (h : isEven s.pc = true) (f : Byte → Byte → Byte) :
    immToCcr f s = .ok () (s.extTaken.setCcr (f s.getCcr (s.irc.extractLsb' 0 8))).prefetched := by
  rw [immToCcr, bind_ok (readImm_run h .b), assign_bind_run]
  simp only [State.immNext, State.immTaken, loByte_immByte, (SameCore.extTaken s).getCcr]
  exact prefetch_run (by simpa using h)

/-- An immediate form writes what its operation gives, and nothing else. -/
theorem exec_immToCcr {i : Instr} {f : Byte → Byte → Byte} {s : State} (hb : body i = some (immToCcr f))
    (hp : i.descriptor.priv = true → s.sr.s = true) (h : isEven s.pc = true) :
    let v := f s.getCcr (s.irc.extractLsb' 0 8)
    let t := (s.extTaken.setCcr v).prefetched
    exec i s = .next t ∧ SameCore (s.setCcr v) t ∧ SameBytes s t :=
  exec_storesNothing hb hp (immToCcr_run h f) (prefetched_core ((SameCore.extTaken s).setCcr _)) (by simp)

theorem moveToCcrBody_run {ea : Ea} {s u : State} {v : Long} {loc : Loc} (h : readOp ea .w s = .ok (v, loc) u)
    (he : isEven u.pc = true) :
    moveToCcrBody ea s = .ok () ((u.setCcr (loByte v)).finished (u.cfg.opCost .moveToCcr)) := by
  rw [moveToCcrBody, bind_ok h]
  dsimp only
  rw [assign_bind_run, finish_run (by simpa using he)]
  simp

/-- Settles O44: one run of the immediate rule for its three operations, and the run of `MOVE` from that of its source. -/
theorem conditionCodeForms : Obligations.ConditionCodeForms := by
  constructor
  · intro s hs
    exact ⟨exec_immToCcr rfl nofun hs, exec_immToCcr rfl nofun hs, exec_immToCcr rfl nofun hs⟩
  · intro ea s h hs
    obtain ⟨v, loc, u, hr, hc, -, he⟩ := readOp_ready_even h hs
    have hrun := moveToCcrBody_run hr he
    rw [core_cfg hc] at hrun
    exact ⟨v, loc, u, hr, exec_storesNothing rfl nofun hrun (finished_core (hc.setCcr _) _) (by simp)⟩

/-! ### The status register (R178, R184, R186, R188) -/

theorem immToSr_run {s : State} (h : isEven s.pc = true) (f : Word → Word → Word) :
    immToSr f s = .ok () (s.extTaken.setSr (f s.getSr s.irc)).prefetched := by
  rw [immToSr, bind_ok (readImm_run h .w), assign_bind_run]
  simp only [State.immNext, State.immTaken, loWord_setWidth, (SameCore.extTaken s).getSr]
  exact prefetch_run (by simpa using h)

/-- An immediate form writes what its operation gives, and nothing else. -/
theorem exec_immToSr {i : Instr} {f : Word → Word → Word} {s : State} (hb : body i = some (immToSr f))
    (hp : i.descriptor.priv = true → s.sr.s = true) (h : isEven s.pc = true) :
    let v := f s.getSr s.irc
    let t := (s.extTaken.setSr v).prefetched
    exec i s = .next t ∧ SameCore (s.setSr v) t ∧ SameBytes s t :=
  exec_storesNothing hb hp (immToSr_run h f) (prefetched_core ((SameCore.extTaken s).setSr _)) (by simp)

theorem moveToSrBody_run {ea : Ea} {s u : State} {v : Long} {loc : Loc} (h : readOp ea .w s = .ok (v, loc) u)
    (he : isEven u.pc = true) :
    moveToSrBody ea s = .ok () ((u.setSr (loWord v)).finished (u.cfg.opCost .moveToSr)) := by
  rw [moveToSrBody, bind_ok h]
  dsimp only
  rw [assign_bind_run, finish_run (by simpa using he)]
  simp

/-- Settles O45: the same two runs for the whole status register, in supervisor mode. -/
theorem statusRegisterForms : Obligations.StatusRegisterForms := by
  constructor
  · intro s hsup hs
    exact ⟨exec_immToSr rfl (fun _ => hsup) hs, exec_immToSr rfl (fun _ => hsup) hs, exec_immToSr rfl (fun _ => hsup) hs⟩
  · intro ea s hsup h hs
    obtain ⟨v, loc, u, hr, hc, -, he⟩ := readOp_ready_even h hs
    have hrun := moveToSrBody_run hr he
    rw [core_cfg hc] at hrun
    exact ⟨v, loc, u, hr, exec_storesNothing rfl (fun _ => hsup) hrun (finished_core (hc.setSr _) _) (by simp)⟩

/-! ### The other privileged instructions (R173, R175, R176, R181, R182) -/

theorem moveToUspBody_run {s : State} (h : isEven s.pc = true) (an : RegNum) :
    moveToUspBody an s = .ok () (s.setUsp (s.readA an)).prefetched := by
  rw [moveToUspBody, assign_bind_run]
  exact prefetch_run (by simpa using h)

theorem moveFromUspBody_run {s : State} (h : isEven s.pc = true) (an : RegNum) :
    moveFromUspBody an s = .ok () (s.writeA an s.usp).prefetched := by
  rw [moveFromUspBody, assign_bind_run]
  exact prefetch_run (by simpa using h)

theorem resetBody_run {s : State} (h : isEven s.pc = true) :
    resetBody s = .ok () ((s.record (.notify .resetInstr)).finished (s.cfg.opCost .reset)) := by
  rw [resetBody, notify_bind_run, finish_run (by simpa using h)]
  simp

theorem stopped_core (s : State) : SameCore ((s.setSr s.irc).setRun .stopped) s.stopped :=
  (((((SameCore.extTaken s).setSr s.irc).setRun .stopped).trans (SameCore.sampled _)).trans (SameCore.record _ _)).trans
    (SameCore.tick _ _)

/-- The state in which `RTE` refills: the frame popped, the status register and the pc restored from it (R176). -/
def State.frameReturned (s : State) : State :=
  ((((s.wordRead s.sp).longRead (s.sp + 2)).writeA 7 (s.sp + 6)).setSr (s.answer16 (s.phys s.sp))).setPc
    ((s.wordRead s.sp).answer32 (s.sp + 2))

/-- On an even stack `RTE` comes down to its refill, which completes or not with the return address. -/
theorem returnFromException_eq_refill {s : State} (h : isEven s.sp = true) :
    returnFromException s = refill s.frameReturned := by
  have hsp1 : (s.wordRead s.sp).sp = s.sp := (SameCore.wordRead s s.sp false).sp
  have hsp2 : ((s.wordRead s.sp).longRead (s.sp + 2)).sp = s.sp := (SameCore.longRead _ _).sp.trans hsp1
  rw [returnFromException, look_bind_run, bind_ok (busRead16_run h .data false s), look_bind_run, hsp1,
    bind_ok (busRead32_run (by simpa using h) .data _), assign_bind_run, hsp2, assign_bind_run, jumpTo_bind_run]
  rfl

/-- On an odd stack `RTE` ends in the read of the status word, with nothing changed. -/
theorem returnFromException_odd {s : State} (h : isEven s.sp = false) :
    returnFromException s = .error (.addressError s.sp .read .data) s := by
  rw [returnFromException, look_bind_run, bind_error (busRead16_odd h .data false s)]

theorem frameReturned_core (s : State) :
    SameCore ((s.writeA 7 (s.sp + 6)).setSr (s.answer16 (s.phys s.sp))) s.frameReturned :=
  ((((SameCore.wordRead s _ _).trans (SameCore.longRead _ _)).writeA 7 _).setSr _).trans (SameCore.setPc _ _)

/-- Settles O46: each rule's run; `RTE` by the parity of the stack pointer and of the return address. -/
theorem supervisorInstructions : Obligations.SupervisorInstructions := by
  intro s hsup
  refine ⟨?moveToUsp, ?moveFromUsp, ?reset, ?stop, ?rteEven, ?rteOdd⟩
  case moveToUsp =>
    intro hs an
    exact exec_storesNothing rfl (fun _ => hsup) (moveToUspBody_run hs an) (SameCore.prefetched _) (by simp)
  case moveFromUsp =>
    intro hs an
    exact exec_storesNothing rfl (fun _ => hsup) (moveFromUspBody_run hs an) (SameCore.prefetched _) (by simp)
  case reset =>
    intro hs
    exact exec_storesNothing rfl (fun _ => hsup) (resetBody_run hs) (finished_core (SameCore.record s _) _) rfl
  case stop =>
    intro hs
    refine ⟨privileged_ok hsup (stopBody_run hs), stopped_core s, ?_, ?_, (stopped_core s).sameBytes (by simp)⟩
    · simp
    · simp
  case rteEven =>
    intro hsp
    constructor
    · intro hpc
      obtain ⟨hx, hc, hb⟩ := exec_storesNothing (i := .rte) rfl (fun _ => hsup)
        ((returnFromException_eq_refill hsp).trans (refill_run hpc)) (refilled_core (frameReturned_core s)) (by simp)
      exact ⟨hx, hc, refilled_pc _, hb⟩
    · intro hpc
      exact exec_abort rfl (fun _ => hsup) ((returnFromException_eq_refill hsp).trans (refill_odd hpc))
  case rteOdd =>
    intro hsp
    exact exec_abort rfl (fun _ => hsup) (returnFromException_odd hsp)

/-! ### Exceptions as an instruction's effect (R169, R170, R172, R174, R177, R330) -/

/-- The vector of `TRAP #v` as a number: the addition does not wrap (R100). -/
theorem trapVector_eq_ofNat (v : BitVec 4) : trapVector v = BitVec.ofNat 8 (32 + v.toNat) := by
  apply BitVec.eq_of_toNat_eq
  simp [trapVector]

/-- Settles O47: each is the taking of its exception, which completes with an even stack and an even handler. -/
theorem trapInstructions : Obligations.TrapInstructions := by
  intro s
  refine ⟨takeException_enters, fun _ => takeException_enters, fun _ => takeException_enters, fun v h => ?_⟩
  rw [← trapVector_eq_ofNat] at h ⊢
  exact takeException_enters h

theorem privileged_iff (i : Instr) : i.descriptor.priv = true ↔
    i = .stop ∨ i = .reset ∨ i = .rte ∨ (∃ ea, i = .moveToSr ea) ∨ (∃ an, i = .moveToUsp an) ∨ (∃ an, i = .moveFromUsp an) ∨
      i = .oriSr ∨ i = .andiSr ∨ i = .eoriSr := by
  cases i <;> simp [Instr.descriptor]

/-- In user mode a privileged instruction is the taking of a privilege violation (R169, R330). -/
theorem exec_userMode {i : Instr} {s : State} (hp : i.descriptor.priv = true) (hs : s.sr.s = false) :
    exec i s = takeException .privilegeViolation 8 s.pc0 s := by
  have htest : ∃ m, exec i s = privileged m s := by
    obtain rfl | rfl | rfl | ⟨_, rfl⟩ | ⟨_, rfl⟩ | ⟨_, rfl⟩ | rfl | rfl | rfl := (privileged_iff i).1 hp <;> exact ⟨_, rfl⟩
  obtain ⟨m, hm⟩ := htest
  rw [hm, privileged, if_neg (by simp [hs])]

/-- Settles O48: the marked constructors one by one, and the entry that the mark leads to in user mode. -/
theorem privilegeViolations : Obligations.PrivilegeViolations := by
  refine ⟨privileged_iff, fun i s hp hs h => ?_⟩
  rw [exec_userMode hp hs]
  exact takeException_enters h

end Sys2Proof.Machine
end

section
/-! SUPPORT. The transfers of control (R200 to R208): what the flags of a compare say about its two values, the opcode words that
carry a condition, and the exact state in which each branch, jump and return ends, or from which its odd target is entered. -/

namespace Sys2Proof.Machine

/-! ### Values of a size as numbers (R7, R254) -/

@[simp] theorem msb_and (size : Size) (a b : Long) : msb size (a &&& b) = (msb size a && msb size b) := BitVec.getLsbD_and

@[simp] theorem msb_or (size : Size) (a b : Long) : msb size (a ||| b) = (msb size a || msb size b) := BitVec.getLsbD_or

@[simp] theorem msb_xor (size : Size) (a b : Long) : msb size (a ^^^ b) = (msb size a ^^ msb size b) := BitVec.getLsbD_xor

@[simp] theorem msb_not (size : Size) (a : Long) : msb size (~~~a) = !msb size a := by
  cases size <;> simp [msb, Size.bits]

theorem two_pow_bits (size : Size) : 2 ^ size.bits = 2 * 2 ^ (size.bits - 1) := by cases size <;> rfl

theorem toNat_trunc (size : Size) (v : Long) : (trunc size v).toNat = v.toNat % 2 ^ size.bits := by
  have hmask : (sizeMask size).toNat = 2 ^ size.bits - 1 := by cases size <;> rfl
  rw [trunc, BitVec.toNat_and, hmask, Nat.and_two_pow_sub_one_eq_mod]

section
variable {size : Size} {v s d : Long}

/-- A value of a size is below the size's power of two. -/
theorem toNat_lt_of_trunc (h : trunc size v = v) : v.toNat < 2 ^ size.bits := by
  rw [← h, toNat_trunc]
  exact Nat.mod_lt _ (Nat.two_pow_pos _)

/-- The top bit of a value of a size says that the value is in the upper half. -/
theorem msb_eq_decide (h : trunc size v = v) : msb size v = decide (2 ^ (size.bits - 1) ≤ v.toNat) := by
  have hlt := toNat_lt_of_trunc h
  rw [msb, BitVec.getLsbD, Nat.testBit_eq_decide_div_mod_eq, decide_eq_decide]
  cases size <;> simp only [Size.bits] at hlt ⊢ <;> omega

/-- Two's complement: the values of the upper half stand for the negative ones (R254 d). -/
theorem signed_eq (h : trunc size v = v) :
    signed size v = if 2 ^ (size.bits - 1) ≤ v.toNat then (v.toNat : Int) - (2 ^ size.bits : Nat) else v.toNat := by
  have hlt := toNat_lt_of_trunc h
  cases size <;> simp only [Size.bits] at hlt ⊢ <;>
    simp only [signed, loByte, loWord, BitVec.toInt_eq_toNat_cond, BitVec.extractLsb'_toNat] <;> omega

theorem signed_inj (hs : trunc size s = s) (hd : trunc size d = d) : signed size s = signed size d ↔ s = d := by
  have hslt := toNat_lt_of_trunc hs
  have hdlt := toNat_lt_of_trunc hd
  rw [signed_eq hs, signed_eq hd, BitVec.toNat_eq]
  rw [two_pow_bits] at *
  generalize 2 ^ (size.bits - 1) = half at *
  omega

/-- A difference of two values of a size, cut to the size, wraps once when it borrows. -/
theorem toNat_trunc_sub (hs : trunc size s = s) (hd : trunc size d = d) :
    (trunc size (d - s)).toNat = if s.toNat ≤ d.toNat then d.toNat - s.toNat else 2 ^ size.bits + d.toNat - s.toNat := by
  have hslt := toNat_lt_of_trunc hs
  have hdlt := toNat_lt_of_trunc hd
  rw [toNat_trunc, BitVec.toNat_sub]
  cases size <;> simp only [Size.bits] at hslt hdlt ⊢ <;> split_ifs <;> omega

/-! ### What a compare tells (R200, R231) -/

/-- `C` is the borrow: the unsigned order. -/
theorem subBorrow_eq_decide (hs : trunc size s = s) (hd : trunc size d = d) :
    subBorrow s d (trunc size (d - s)) size = decide (d.toNat < s.toNat) := by
  have hslt := toNat_lt_of_trunc hs
  have hdlt := toNat_lt_of_trunc hd
  have hr := toNat_trunc_sub hs hd
  simp only [subBorrow, msb_or, msb_and, msb_not, msb_eq_decide hs, msb_eq_decide hd, msb_eq_decide (trunc_trunc size _)]
  rw [two_pow_bits] at *
  generalize 2 ^ (size.bits - 1) = half at *
  rw [Bool.eq_iff_iff]
  simp only [Bool.or_eq_true, Bool.and_eq_true, Bool.not_eq_true', decide_eq_true_eq, decide_eq_false_iff_not]
  split_ifs at hr <;> omega

/-- `Z` is equality. -/
theorem cmpFlags_z (old : Ccr) (hs : trunc size s = s) (hd : trunc size d = d) :
    (cmpFlags old s d (trunc size (d - s)) size).z = decide (s = d) := by
  have hslt := toNat_lt_of_trunc hs
  have hr := toNat_trunc_sub hs hd
  rw [cmpFlags, trunc_trunc, Bool.eq_iff_iff, beq_iff_eq, decide_eq_true_eq, BitVec.toNat_eq, BitVec.toNat_eq, hr]
  simp only [BitVec.ofNat_eq_ofNat, BitVec.toNat_ofNat, Nat.zero_mod]
  split_ifs <;> omega

/-- The sign `n` of a difference, corrected by its overflow, for operands of the signs `s` and `d`: where these agree there is no
overflow, and where they differ the sign of `d` decides. -/
theorem bne_overflow : ∀ n s d : Bool, (n != ((s ^^ d) && (n ^^ d))) = if s = d then n else d := by decide

/-- `N` differing from `V` is the signed order. -/
theorem cmpFlags_n_bne_v (old : Ccr) (hs : trunc size s = s) (hd : trunc size d = d) :
    ((cmpFlags old s d (trunc size (d - s)) size).n != (cmpFlags old s d (trunc size (d - s)) size).v) =
      decide (signed size d < signed size s) := by
  have hslt := toNat_lt_of_trunc hs
  have hdlt := toNat_lt_of_trunc hd
  have hr := toNat_trunc_sub hs hd
  simp only [cmpFlags, msb_and, msb_xor, msb_eq_decide hs, msb_eq_decide hd, msb_eq_decide (trunc_trunc size _),
    signed_eq hs, signed_eq hd]
  rw [two_pow_bits] at *
  generalize 2 ^ (size.bits - 1) = half at *
  rw [bne_overflow]
  split
  case isTrue hsign | isFalse hsign =>
    rw [decide_eq_decide] at hsign ⊢
    split_ifs at hr <;> omega

end

/-- The ten tests that a compare of `d` with `s` is made for, in the order of the values (R200). -/
theorem condHolds_cmpFlags {size : Size} {s d : Long} (old : Ccr) (hs : trunc size s = s) (hd : trunc size d = d) :
    let f := cmpFlags old s d (trunc size (d - s)) size
    (condHolds f .gt = true ↔ signed size s < signed size d) ∧ (condHolds f .le = true ↔ signed size d ≤ signed size s) ∧
    (condHolds f .ge = true ↔ signed size s ≤ signed size d) ∧ (condHolds f .lt = true ↔ signed size d < signed size s) ∧
    (condHolds f .hi = true ↔ s.toNat < d.toNat) ∧ (condHolds f .ls = true ↔ d.toNat ≤ s.toNat) ∧
    (condHolds f .cc = true ↔ s.toNat ≤ d.toNat) ∧ (condHolds f .cs = true ↔ d.toNat < s.toNat) ∧
    (condHolds f .eq = true ↔ s = d) ∧ (condHolds f .ne = true ↔ s ≠ d) := by
  intro f
  have hz : f.z = decide (s = d) := cmpFlags_z old hs hd
  have hc : f.c = decide (d.toNat < s.toNat) := subBorrow_eq_decide hs hd
  have hlt : (f.n != f.v) = decide (signed size d < signed size s) := cmpFlags_n_bne_v old hs hd
  have hge : (f.n == f.v) = !decide (signed size d < signed size s) := by rw [← hlt, bne, Bool.not_not]
  have hsigned : signed size s = signed size d ↔ s.toNat = d.toNat := (signed_inj hs hd).trans BitVec.toNat_eq
  simp only [condHolds, hz, hc, hlt, hge, Bool.and_eq_true, Bool.or_eq_true, Bool.not_eq_true', decide_eq_true_eq,
    decide_eq_false_iff_not, ne_eq, BitVec.toNat_eq, and_true, true_and]
  omega

/-! ### The table, and the words that carry a condition (R99, R200) -/

/-- The field value of a condition, shifted to its place, is its part of the opcode word (R99). -/
theorem condBits_condOfNat : ∀ cc : Fin 16, condBits (condOfNat cc.val) = BitVec.ofNat 16 cc.val <<< 8 := by decide

/-- Settles O27: the table flag by flag, the meaning after a compare, and the words as the encoder writes them. -/
theorem conditions : Obligations.Conditions := by
  refine ⟨?table, ?compare, ?branches, ?dbcc⟩
  case table =>
    rintro ⟨x, n, z, v, c⟩
    revert x n z v c
    decide
  case compare => exact fun _ old _ _ hs hd => condHolds_cmpFlags old hs hd
  case branches => exact fun d8 => ⟨decodeInvertsEncode (.bra d8) rfl, decodeInvertsEncode (.bsr d8) rfl⟩
  case dbcc =>
    intro cc dn
    have h := decodeInvertsEncode (.dbcc (condOfNat cc.val) dn) rfl
    rw [encode, condBits_condOfNat, regBits, BitVec.shiftLeft_zero] at h
    exact h

/-! ### A rule that ends in a jump, or steps over a word (R127, R129, R201, R202, R204) -/

section
variable {s e u : State} {x : Long} {k : CostKey} {i : Instr} {m : M Unit}

/-- A rule that comes down to a jump, with the core as in `e` and memory as it was: it completes at an even target, and at
an odd one ends in the address error of its refill. -/
theorem exec_jumps (hb : body i = some m) (hp : i.descriptor.priv = false)
    (hm : m s = (jumpTo x >>= fun _ => chargeOp k >>= fun _ => refill) u) (hc : SameCore e u) (hcfg : e.cfg = s.cfg)
    (hmem : e.mem = s.mem) :
    let g := (u.setPc x).tick (s.cfg.opCost k)
    (isEven x = true → exec i s = .next g.refilled ∧ SameCore e g.refilled ∧ g.refilled.pc = x ∧ SameBytes s g.refilled) ∧
      (isEven x = false → exec i s = addressErrorEntry x .read .prog g) := by
  intro g
  have hpriv : i.descriptor.priv = true → s.sr.s = true := by simp [hp]
  have hg : (u.setPc x).tick (u.cfg.opCost k) = g := by rw [hc.cfg, hcfg]
  constructor
  · intro hx
    have hrun := hm.trans (jump_run hx k u)
    rw [hg] at hrun
    have hcore : SameCore e g.refilled := refilled_core ((hc.trans (SameCore.setPc u x)).trans (SameCore.tick _ _))
    exact ⟨exec_ok hb hpriv hrun, hcore, (refilled_pc g).trans (by simp [g]), hcore.sameBytes hmem⟩
  · intro hx
    have hrun := hm.trans (jump_odd hx k u)
    rw [hg] at hrun
    exact exec_abort hb hpriv hrun

/-- A rule that comes down to its end, with the core as in `e` and memory as it was. -/
theorem exec_finishes (hb : body i = some m) (hp : i.descriptor.priv = false)
    (hm : m s = (chargeOp k >>= fun _ => prefetch) u) (he : isEven u.pc = true) (hc : SameCore e u) (hcfg : e.cfg = s.cfg)
    (hmem : e.mem = s.mem) :
    let n := u.finished (s.cfg.opCost k)
    exec i s = .next n ∧ SameCore e n ∧ n.pc = u.pc ∧ SameBytes s n := by
  intro n
  have hrun := hm.trans (finish_run he k)
  rw [hc.cfg, hcfg] at hrun
  have hcore : SameCore e n := finished_core hc _
  exact ⟨exec_ok hb (by simp [hp]) hrun, hcore, finished_pc u _, hcore.sameBytes hmem⟩

end

/-! ### The branches (R201, R202, R208) -/

section
variable {s : State} {cond : Cond}

/-- The target, the displacement taken from the word that follows where the byte is 0 (R208). -/
theorem branchTarget_fst (s : State) (d8 : Byte) :
    (s.branchTarget d8).1 = if d8 = 0 then s.pc + s.irc.signExtend 32 else s.pc + d8.signExtend 32 := by
  rw [State.branchTarget]
  split <;> rfl

theorem braBody_eq_jump (s : State) (d8 : Byte) :
    braBody d8 s = (jumpTo (s.branchTarget d8).1 >>= fun _ => chargeOp .bra >>= fun _ => refill) s := by
  rw [braBody, look_bind_run]

theorem bccBody_eq_jump (h : condHolds s.sr.ccr cond = true) (d8 : Byte) :
    bccBody cond d8 s = (jumpTo (s.branchTarget d8).1 >>= fun _ => chargeOp .bccTaken >>= fun _ => refill) s := by
  rw [bccBody, look_bind_run]
  dsimp only
  rw [look_bind_run, if_pos h]

/-- The displacement word of a branch not taken is stepped over where there is one (R202). -/
theorem skipWord_run (h : isEven s.pc = true) (d8 : Byte) :
    skipWord ((s.branchTarget d8).2 == 2) s = .ok () (if d8 = 0 then s.extTaken else s) := by
  by_cases hd : d8 = 0
  · simp only [State.branchTarget, if_pos hd]
    exact bind_ok (readExt_run h)
  · simp only [State.branchTarget, if_neg hd]
    rfl

theorem bccBody_eq_finish (h : condHolds s.sr.ccr cond = false) (he : isEven s.pc = true) (d8 : Byte) :
    bccBody cond d8 s = (chargeOp .bccNotTaken >>= fun _ => prefetch) (if d8 = 0 then s.extTaken else s) := by
  rw [bccBody, look_bind_run]
  dsimp only
  rw [look_bind_run, if_neg (by simp [h]), bind_ok (skipWord_run he d8)]

theorem skipped_core (s : State) (d8 : Byte) : SameCore s (if d8 = 0 then s.extTaken else s) := by
  split
  · exact SameCore.extTaken s
  · exact SameCore.refl s

theorem skipped_pc (s : State) (d8 : Byte) :
    (if d8 = 0 then s.extTaken else s).pc = if d8 = 0 then s.pc + 2 else s.pc := by
  split
  · exact extTaken_pc s
  · rfl

/-! ### `JMP` and `RTS` (R205, R207) -/

theorem jmpBody_eq_jump {ea : Ea} {x : Long} {u : State} (h : controlEa ea s = .ok x u) :
    jmpBody ea s = (jumpTo x >>= fun _ => chargeOp (.jmp ea.mode) >>= fun _ => refill) u := bind_ok h

/-- The state in which `RTS` refills: the return address popped into `pc`, the internal cost charged (R207). -/
def State.subroutineReturned (s : State) : State :=
  (((s.longRead s.sp).writeA 7 (s.sp + 4)).setPc (s.answer32 s.sp)).tick (s.cfg.opCost .rts)

theorem rtsBody_eq_refill (h : isEven s.sp = true) :
    rtsBody s = (refill >>= fun _ => notify .returnInstr) s.subroutineReturned := by
  have hcore := SameCore.longRead s s.sp
  rw [rtsBody, bind_ok (pop32_run h), jumpTo_bind_run, chargeOp_bind_run, hcore.sp]
  simp only [setPc_fields, writeA_fields, hcore.cfg]
  rfl

theorem subroutineReturned_core (s : State) : SameCore (s.writeA 7 (s.sp + 4)) s.subroutineReturned :=
  (((SameCore.longRead s s.sp).writeA 7 _).trans (SameCore.setPc _ _)).trans (SameCore.tick _ _)

end

/-- Settles O42: each rule comes down to a jump, and a branch not taken to the end of its rule. -/
theorem jumps : Obligations.Jumps := by
  refine ⟨?branches, ?jmp, ?rts⟩
  case branches =>
    intro d8 s
    rw [← branchTarget_fst]
    obtain ⟨hbra, hbraOdd⟩ := exec_jumps (i := .bra d8) rfl rfl (braBody_eq_jump s d8) (SameCore.refl s) rfl rfl
    refine ⟨hbra, hbraOdd, fun cond hcond => ?_, fun cond hcond => ?_, fun cond hcond he => ?_⟩
    · exact (exec_jumps (i := .bcc cond d8) rfl rfl (bccBody_eq_jump hcond d8) (SameCore.refl s) rfl rfl).1
    · exact (exec_jumps (i := .bcc cond d8) rfl rfl (bccBody_eq_jump hcond d8) (SameCore.refl s) rfl rfl).2
    · have hpc := skipped_pc s d8
      have heven : isEven (if d8 = 0 then s.extTaken else s).pc = true := by rw [hpc]; split <;> simp [he]
      have h := exec_finishes (i := .bcc cond d8) rfl rfl (bccBody_eq_finish hcond he d8) heven (skipped_core s d8) rfl rfl
      rwa [hpc] at h
  case jmp =>
    intro ea s h
    obtain ⟨x, u, hu, hf⟩ := controlEa_ready h
    exact ⟨x, u, hu, exec_jumps rfl rfl (jmpBody_eq_jump hu) hf.core rfl rfl⟩
  case rts =>
    intro s
    have hcore := subroutineReturned_core s
    have hpc : s.subroutineReturned.pc = s.answer32 s.sp := by simp [State.subroutineReturned]
    refine ⟨fun hsp hx => ?_, fun hsp hx => ?_, fun hsp => ?_⟩
    · have hrun := (rtsBody_eq_refill hsp).trans (bind_ok (refill_run (hpc ▸ hx)))
      have ht := (refilled_core hcore).trans (SameCore.record _ (.notify .returnInstr))
      exact ⟨exec_ok rfl nofun hrun, ht, by simp, ht.sameBytes rfl⟩
    · have hrun := (rtsBody_eq_refill hsp).trans (bind_error (refill_odd (hpc ▸ hx)))
      rw [hpc] at hrun
      exact exec_abort rfl nofun hrun
    · exact exec_abort rfl nofun (bind_error (pop32_odd hsp))

/-! ### `DBcc` (R204) -/

/-- The low word of the register, counted down. -/
def State.countOf (s : State) (dn : RegNum) : Word := (s.readD dn).extractLsb' 0 16 - 1

/-- The state with that word written back, the high one as it was. -/
def State.countedDown (s : State) (dn : RegNum) : State := s.writeDPart dn .w ((s.countOf dn).setWidth 32)

section
variable {s : State} {cond : Cond} {dn : RegNum}

theorem loWord_sub (a b : Long) : loWord (a - b) = loWord a - loWord b := by
  apply BitVec.eq_of_toNat_eq
  simp only [loWord, BitVec.toNat_sub, BitVec.extractLsb'_toNat]
  omega

/-- The rule's arithmetic on the zero-extended word is the word's own. -/
theorem trunc_sub_one_eq_countOf (s : State) (dn : RegNum) : trunc .w (s.readDPart dn .w - 1) = (s.countOf dn).setWidth 32 := by
  rw [State.readDPart, trunc_w, trunc_w, loWord_sub, loWord_setWidth]
  rfl

theorem setWidth_eq_wordMax_iff (w : Word) : w.setWidth 32 = (0xFFFF : Long) ↔ w = 0xFFFF := by bv_omega

theorem dbccBody_true (h : condHolds s.sr.ccr cond = true) (he : isEven s.pc = true) :
    dbccBody cond dn s = (chargeOp .dbccTrue >>= fun _ => prefetch) s.extTaken := by
  rw [dbccBody, look_bind_run, look_bind_run, if_pos h, bind_ok (readExt_run he)]

theorem dbccBody_branch (h : condHolds s.sr.ccr cond = false) (hc : s.countOf dn ≠ 0xFFFF) :
    dbccBody cond dn s = (jumpTo (s.pc + s.irc.signExtend 32) >>= fun _ => chargeOp .dbccBranch >>= fun _ => refill)
      (s.countedDown dn) := by
  rw [dbccBody, look_bind_run, look_bind_run, if_neg (by simp [h]), look_bind_run, assign_bind_run, trunc_sub_one_eq_countOf,
    if_pos (by rwa [ne_eq, setWidth_eq_wordMax_iff]), look_bind_run]
  rfl

theorem dbccBody_expired (h : condHolds s.sr.ccr cond = false) (hc : s.countOf dn = 0xFFFF) (he : isEven s.pc = true) :
    dbccBody cond dn s = (chargeOp .dbccExpired >>= fun _ => prefetch) (s.countedDown dn).extTaken := by
  rw [dbccBody, look_bind_run, look_bind_run, if_neg (by simp [h]), look_bind_run, assign_bind_run, trunc_sub_one_eq_countOf,
    if_neg (by rwa [not_not, setWidth_eq_wordMax_iff])]
  exact bind_ok (readExt_run he)

end

/-- Settles O43: the condition, the count and the parity of the target decide between the four ends. -/
theorem decrementAndBranch : Obligations.DecrementAndBranch := by
  intro cond dn s he
  have heven : isEven s.extTaken.pc = true := extTaken_even he
  have hcountedEven : isEven (s.countedDown dn).extTaken.pc = true := extTaken_even he
  refine ⟨fun h => ?_, fun h hc => ?_, fun h hc => ?_, fun h hc => ?_⟩
  · have hend := exec_finishes (i := .dbcc cond dn) rfl rfl (dbccBody_true h he) heven (SameCore.extTaken s) rfl rfl
    rwa [extTaken_pc] at hend
  · exact (exec_jumps (i := .dbcc cond dn) rfl rfl (dbccBody_branch h hc) (SameCore.refl _) rfl rfl).1
  · exact (exec_jumps (i := .dbcc cond dn) rfl rfl (dbccBody_branch h hc) (SameCore.refl _) rfl rfl).2
  · have hend := exec_finishes (i := .dbcc cond dn) rfl rfl (dbccBody_expired h hc he) hcountedEven (SameCore.extTaken _) rfl rfl
    rwa [extTaken_pc] at hend

end Sys2Proof.Machine
end

section
/-! SUPPORT. The moves, the single-operand operations and the calls (R209 to R219, R179, R203, R206): what the flags of a move say,
and how each rule comes down to its end, with the one store or push that it makes. -/

namespace Sys2Proof.Machine

/-! ### The flags of a move (R209, R255) -/

/-- A value's part of a size is 0 where each of the size's bits is. -/
theorem trunc_eq_zero_iff (size : Size) (v : Long) : trunc size v = 0 ↔ ∀ k, k < size.bits → v.getLsbD k = false := by
  constructor
  · intro h k hk
    have hbit := trunc_bit size v k
    simpa [h, hk] using hbit
  · intro h
    apply BitVec.eq_of_getLsbD_eq
    intro k _
    rw [trunc_bit]
    by_cases hk : k < size.bits
    · simp [hk, h k hk]
    · simp [hk]

/-- The top bit of a value of a size is its sign. -/
theorem msb_iff_signed_neg {size : Size} {v : Long} (h : trunc size v = v) : msb size v = true ↔ signed size v < 0 := by
  have hlt := toNat_lt_of_trunc h
  rw [msb_eq_decide h, signed_eq h, decide_eq_true_iff]
  split_ifs <;> omega

/-- Settles O26: `N` is a bit by definition, `Z` by `trunc_eq_zero_iff`; of a value of the size they are its sign and its zero. -/
theorem moveFlagsAreExact : Obligations.MoveFlagsAreExact := by
  intro size old v f
  have hz : f.z = true ↔ trunc size v = 0 := beq_iff_eq
  exact ⟨rfl, hz.trans (trunc_eq_zero_iff size v), rfl, rfl, rfl, fun h => ⟨msb_iff_signed_neg h, by rw [hz, h]⟩⟩

/-! ### A rule that stores, then ends in its charge and the prefetch -/

@[simp] theorem stored_cfg (s : State) (loc : Loc) (size : Size) (v : Long) : (s.stored loc size v).cfg = s.cfg := by
  cases loc <;> rfl

@[simp] theorem stored_sr (s : State) (loc : Loc) (size : Size) (v : Long) : (s.stored loc size v).sr = s.sr := by
  cases loc <;> rfl

theorem SameCore.locWritten {s u : State} (h : SameCore s u) (loc : Loc) (size : Size) (v : Long) :
    SameCore (s.stored loc size v) (u.locWritten loc size v) :=
  (h.stored loc size v).trans (locWritten_core u loc size v)

section
variable {s e b u : State} {i : Instr} {m : M Unit} {k : CostKey} {ea : Ea} {size : Size} {loc : Loc} {v : Long}

/-- `exec_finishes` where memory may have changed: the outcome and the core of a rule that comes down to its end. -/
theorem exec_ends (hb : body i = some m) (hp : i.descriptor.priv = false)
    (hm : m s = (chargeOp k >>= fun _ => prefetch) u) (he : isEven u.pc = true) (hc : SameCore e u) (hcfg : e.cfg = s.cfg) :
    exec i s = .next (u.finished (s.cfg.opCost k)) ∧ SameCore e (u.finished (s.cfg.opCost k)) := by
  have hrun := hm.trans (finish_run he k)
  rw [hc.cfg, hcfg] at hrun
  exact ⟨exec_ok hb (by simp [hp]) hrun, finished_core hc _⟩

/-- Such a rule that wrote one operand, with the frame of its store; `b` is the start with the address registers adjusted. -/
theorem exec_endsStored (hb : body i = some m) (hp : i.descriptor.priv = false)
    (hm : m s = (chargeOp k >>= fun _ => prefetch) u) (he : isEven u.pc = true) (hc : SameCore e u) (hcfg : e.cfg = s.cfg)
    (hl : LocFits ea size loc) (hmem : e.mem = (b.stored loc size v).mem) (hbcfg : b.cfg = s.cfg) (hbmem : b.mem = s.mem) :
    let t := u.finished (s.cfg.opCost k)
    exec i s = .next t ∧ SameCore e t ∧ SameBytesBut (loc.storesTo s size) s t := by
  obtain ⟨hx, hcore⟩ := exec_ends hb hp hm he hc hcfg
  exact ⟨hx, hcore, sameBytesBut_stored hl v hbcfg hbmem (hcore.mem.trans hmem)⟩

/-- The destination of `CLR` and `MOVE SR,<ea>` is written where it was read; a data register has no read to drop (R179, R215). -/
theorem replaceOperand_run {d : Long} (h : readOp ea size s = .ok (d, loc) u) (hl : LocFits ea size loc)
    (ha : ea.isAlterable = true) (v : Long) : replaceOperand ea size v s = .ok () (u.locWritten loc size v) := by
  have hread : (readOp ea size >>= fun p => writeLoc p.2 size v) s = .ok () (u.locWritten loc size v) := by
    rw [bind_ok h]
    exact writeLoc_run hl ha v u
  cases ea with
  | dn r => cases h; rfl
  | _ => exact hread

theorem clrBody_eq_finish {d : Long} (h : readOp ea size s = .ok (d, loc) u) (hl : LocFits ea size loc)
    (ha : ea.isAlterable = true) : clrBody size ea s =
      (chargeOp (.clr size ea.mode) >>= fun _ => prefetch) ((u.locWritten loc size 0).withCcr (clrFlags u.sr.ccr)) := by
  rw [clrBody, bind_ok (replaceOperand_run h hl ha 0), assign_bind_run, locWritten_sr]

theorem moveFromSrBody_eq_finish {d : Long} (h : readOp ea .w s = .ok (d, loc) u) (hl : LocFits ea .w loc)
    (ha : ea.isAlterable = true) : moveFromSrBody ea s =
      (chargeOp .moveFromSr >>= fun _ => prefetch) (u.locWritten loc .w (s.getSr.setWidth 32)) := by
  rw [moveFromSrBody, look_bind_run, bind_ok (replaceOperand_run h hl ha _)]

end

/-- Settles O35: the operand is read as any other, then its location is written. -/
theorem clearAndStoreStatus : Obligations.ClearAndStoreStatus := by
  constructor
  · intro size ea s ha h hs
    obtain ⟨d, loc, u, hr, hc, hl, he⟩ := readOp_ready_even h hs
    have hend := clrBody_eq_finish hr hl (alterable_of_data ha)
    rw [core_ccr hc] at hend
    exact ⟨d, loc, u, hr, exec_endsStored rfl rfl hend (by simpa using he) ((hc.locWritten loc size 0).withCcr _)
      (by simp) hl rfl (adjusted_cfg s ea size) (adjusted_mem s ea size)⟩
  · intro ea s ha h hs
    obtain ⟨d, loc, u, hr, hc, hl, he⟩ := readOp_ready_even h hs
    exact ⟨d, loc, u, hr, exec_endsStored rfl rfl (moveFromSrBody_eq_finish hr hl (alterable_of_data ha))
      (by simpa using he) (hc.locWritten loc .w _) (by simp) hl rfl (adjusted_cfg s ea .w) (adjusted_mem s ea .w)⟩

/-! ### `MOVE` (R210) -/

section
variable {s u : State} {ea : Ea} {size : Size} {loc : Loc} {v : Long}

/-- The run of `WriteOp` from that of `Resolve`. -/
theorem writeOp_of_resolve (h : resolve ea size s = .ok loc u) (hl : LocFits ea size loc) (ha : ea.isAlterable = true) (v : Long) :
    writeOp ea size v s = .ok () ((u.locWritten loc size v).postAdjusted ea size) := by
  rw [writeOp, bind_ok h, bind_ok (writeLoc_run hl ha v u), postAdjust_run]

theorem moveBody_eq_finish {src dst : Ea} {l : Loc} {w : State} (hr : readOp src size s = .ok (v, l) u)
    (hw : writeOp dst size v u = .ok () w) : moveBody size src dst s =
      (chargeOp (.move size src.mode dst.mode) >>= fun _ => prefetch) (w.withCcr (moveFlags w.sr.ccr v size)) := by
  rw [moveBody, bind_ok hr]
  dsimp only
  rw [bind_ok hw, setMoveFlags, assign_bind_run]

end

/-- Settles O37: the source is read, and the destination written in the state that read leaves. -/
theorem moveCompletes : Obligations.MoveCompletes := by
  intro size src dst s h hs ha
  obtain ⟨v, l, u, hr, hc, -, he⟩ := readOp_ready_even h hs
  refine ⟨v, l, u, hr, fun hdst => ?_⟩
  obtain ⟨loc, w, t, hw, ht, hl, hcore, -, -, heven⟩ := writeOp_ready hdst (alterable_of_data ha) v
  obtain rfl : (w.locWritten loc size v).postAdjusted dst size = t := by
    simpa using (writeOp_of_resolve hw hl (alterable_of_data ha) v).symm.trans ht
  have hstored := ((hc.adjusted dst size).stored loc size v).trans hcore
  have hend := moveBody_eq_finish hr ht
  rw [hstored.sr, stored_sr, adjusted_sr, adjusted_sr] at hend
  exact ⟨loc, w, hw, exec_endsStored rfl rfl hend (by simpa using heven.trans he) (hstored.withCcr _)
    (by simp) hl rfl (by simp) (by simp)⟩

/-! ### `MOVEA` and `LEA` (R211, R213) -/

theorem extendToLong_eq (size : Size) (v : Long) :
    extendToLong size v = if size = .w then (v.extractLsb' 0 16).signExtend 32 else v := by
  cases size <;> rfl

section
variable {s u : State} {ea : Ea} {size : Size} {loc : Loc} {v x : Long}

theorem moveaBody_eq_finish (h : readOp ea size s = .ok (v, loc) u) (an : RegNum) : moveaBody size ea an s =
    (chargeOp (.movea size ea.mode) >>= fun _ => prefetch) (u.writeA an (extendToLong size v)) := by
  rw [moveaBody, bind_ok h]
  dsimp only
  rw [assign_bind_run]

theorem leaBody_eq_finish (h : controlEa ea s = .ok x u) (an : RegNum) : leaBody ea an s =
    (chargeOp (.lea ea.mode) >>= fun _ => prefetch) (u.writeA an x) := by
  rw [leaBody, bind_ok h, assign_bind_run]

end

/-- Settles O38: each writes the address register in the state that its source's read, or its address's formation, leaves. -/
theorem addressLoads : Obligations.AddressLoads := by
  constructor
  · intro size src an s h hs
    obtain ⟨v, loc, u, hr, hc, -, he⟩ := readOp_ready_even h hs
    have hend := moveaBody_eq_finish hr an
    rw [extendToLong_eq] at hend
    obtain ⟨hx, hcore, -, hbytes⟩ :=
      exec_finishes (i := .movea size src an) rfl rfl hend he (hc.writeA an _) (by simp) (by simp)
    exact ⟨v, loc, u, hr, hx, hcore, hbytes⟩
  · intro ea an s h hs
    obtain ⟨x, u, hu, hf⟩ := controlEa_ready h
    obtain ⟨hx, hcore, -, hbytes⟩ :=
      exec_finishes (i := .lea ea an) rfl rfl (leaBody_eq_finish hu an) (hf.even.trans hs) (hf.core.writeA an x) rfl rfl
    exact ⟨x, u, hu, hx, hcore, hbytes⟩

/-! ### `MOVEQ`, `EXT` and `SWAP` (R212, R217, R218) -/

theorem updateD_run {s : State} (h : isEven s.pc = true) (f : Long → Long) (size : Size) (dn : RegNum) :
    let r := trunc size (f (s.readD dn))
    updateD f size dn s = .ok () ((s.writeDPart dn size r).withCcr (moveFlags s.sr.ccr r size)).prefetched := by
  intro r
  rw [updateD, look_bind_run, assign_bind_run, setMoveFlags, assign_bind_run]
  exact prefetch_run h

/-- An instruction of that shape writes the part `r` of the register and the flags of `r`, and nothing else; `w` is the state with
the register written. -/
theorem exec_updateD {i : Instr} {f : Long → Long} {size : Size} {dn : RegNum} {s w : State} {r : Long}
    (hb : body i = some (updateD f size dn)) (hp : i.descriptor.priv = false) (h : isEven s.pc = true)
    (hr : trunc size (f (s.readD dn)) = r) (hw : s.writeDPart dn size r = w) :
    let e := w.withCcr (moveFlags s.sr.ccr r size)
    exec i s = .next e.prefetched ∧ SameCore e e.prefetched ∧ SameBytes s e.prefetched := by
  subst hr hw
  exact exec_storesNothing hb (by simp [hp]) (updateD_run h f size dn) (SameCore.prefetched _) (by simp)

/-- A word written to a data register keeps its upper half (R20). -/
theorem writeDPart_word (s : State) (dn : RegNum) (w : Word) :
    s.writeDPart dn .w (w.setWidth 32) = s.writeD dn ((s.readD dn).extractLsb' 16 16 ++ w) := by
  rw [State.writeDPart, merge_w, loWord_setWidth]

/-- Settles O39: one run of the shared shape for the four results, each written as the statement has it. -/
theorem registerMoves : Obligations.RegisterMoves := by
  intro s dn hs
  have hext : trunc .w (sext8 (loByte (s.readD dn))) = ((loByte (s.readD dn)).signExtend 16).setWidth 32 := by
    rw [trunc_w, loWord_sext8]
  exact ⟨fun d8 => exec_updateD rfl rfl hs (trunc_l _) (writeDPart_l s dn _),
    exec_updateD rfl rfl hs hext (writeDPart_word s dn _),
    exec_updateD rfl rfl hs (trunc_l _) (writeDPart_l s dn _),
    exec_updateD rfl rfl hs (trunc_l _) (writeDPart_l s dn _),
    exec_storesNothing rfl nofun (prefetch_run hs) (SameCore.prefetched s) rfl⟩

/-! ### `TST` and `TAS` (R216, R219) -/

section
variable {s u : State} {ea : Ea} {size : Size} {loc : Loc} {v : Long}

theorem tstBody_eq_finish (h : readOp ea size s = .ok (v, loc) u) : tstBody size ea s =
    (chargeOp (.tst size ea.mode) >>= fun _ => prefetch) (u.withCcr (moveFlags u.sr.ccr v size)) := by
  rw [tstBody, bind_ok h]
  dsimp only
  rw [setMoveFlags, assign_bind_run]

theorem tasBody_eq_finish (h : readOp ea .b s = .ok (v, loc) u) (hl : LocFits ea .b loc) (ha : ea.isAlterable = true) :
    tasBody ea s = (chargeOp (.tas ea.mode) >>= fun _ => prefetch)
      (((u.record (.notify .tasInstr)).locWritten loc .b (v ||| 0x80)).withCcr (moveFlags u.sr.ccr v .b)) := by
  rw [tasBody, bind_ok h]
  dsimp only
  rw [notify_bind_run, bind_ok (writeLoc_run hl ha _ _), setMoveFlags, assign_bind_run, locWritten_sr]
  rfl

end

/-- Settles O40: both rules take their flags from the read; `TAS` writes the location read, after its notification. -/
theorem tests : Obligations.Tests := by
  constructor
  · intro size ea s h hs
    obtain ⟨v, loc, u, hr, hc, -, he⟩ := readOp_ready_even h hs
    have hend := tstBody_eq_finish hr
    rw [core_ccr hc] at hend
    obtain ⟨hx, hcore, -, hbytes⟩ := exec_finishes (i := .tst size ea) rfl rfl hend he (hc.withCcr _) (by simp) (by simp)
    exact ⟨v, loc, u, hr, hx, hcore, hbytes⟩
  · intro ea s ha h hs
    obtain ⟨v, loc, u, hr, hc, hl, he⟩ := readOp_ready_even h hs
    have hend := tasBody_eq_finish hr hl (alterable_of_data ha)
    rw [core_ccr hc] at hend
    have hrecord := hc.trans (SameCore.record u (.notify .tasInstr))
    exact ⟨v, loc, u, hr, exec_endsStored rfl rfl hend (by simpa using he) ((hrecord.locWritten loc .b _).withCcr _)
      (by simp) hl rfl (adjusted_cfg s ea .b) (adjusted_mem s ea .b)⟩

/-! ### `PEA`, `JSR` and `BSR` (R203, R206, R214) -/

section
variable {s u : State} {x ret : Long} {k : CostKey} {i : Instr} {m : M Unit} {K : Unit → M Unit}

/-- A push from a state with the start's core, on an odd stack pointer, ends the instruction in its address error (R75, R124). -/
theorem exec_pushOdd (hb : body i = some m) (hp : i.descriptor.priv = false) (hm : m s = (push32 ret >>= K) u) (hc : SameCore s u)
    (hsp : isEven s.sp = false) : exec i s = addressErrorEntry (s.sp - 4) .write .data (u.writeA 7 (s.sp - 4)) := by
  have hu : isEven u.sp = false := hc.sp ▸ hsp
  have hrun := hm.trans (bind_error (push32_odd hu ret))
  rw [hc.sp] at hrun
  exact exec_abort hb (by simp [hp]) hrun

/-- A rule that comes down to a push and a call, with the start's core: it completes on an even stack at an even target, at an odd
target ends in the address error of its refill, and on an odd stack in that of its push. -/
theorem exec_calls (hb : body i = some m) (hp : i.descriptor.priv = false)
    (hm : m s = (push32 ret >>= fun _ => jumpTo x >>= fun _ => chargeOp k >>= fun _ => refill >>= fun _ => notify .callInstr) u)
    (hc : SameCore s u) :
    let g := ((u.longPushed ret).setPc x).tick (s.cfg.opCost k)
    (isEven s.sp = true → isEven x = true →
      let t := g.refilled.record (.notify .callInstr)
      exec i s = .next t ∧ SameCore (s.pushed .l ret) t ∧ t.pc = x ∧ SameBytesBut (storesTo s (s.sp - 4) .l) s t) ∧
    (isEven s.sp = true → isEven x = false → exec i s = addressErrorEntry x .read .prog g) ∧
    (isEven s.sp = false → exec i s = addressErrorEntry (s.sp - 4) .write .data (u.writeA 7 (s.sp - 4))) := by
  intro g
  have hpriv : i.descriptor.priv = true → s.sr.s = true := by simp [hp]
  have hpush : isEven s.sp = true → push32 ret u = .ok () (u.longPushed ret) := fun hsp => push32_run' (hc.sp ▸ hsp) ret
  have hcost : (u.longPushed ret).cfg = s.cfg := (longPushed_cfg u ret).trans hc.cfg
  refine ⟨fun hsp hx => ?_, fun hsp hx => ?_, exec_pushOdd hb hp hm hc⟩
  · have hrun := (hm.trans (bind_ok (hpush hsp))).trans (call_run hx k .callInstr _)
    rw [hcost] at hrun
    have hg : SameCore (s.pushed .l ret) g :=
      (((hc.pushed .l ret).trans (longPushed_core u ret)).trans (SameCore.setPc _ x)).trans (SameCore.tick _ _)
    have hcore := (refilled_core hg).trans (SameCore.record _ (.notify .callInstr))
    exact ⟨exec_ok hb hpriv hrun, hcore, by simp [g], sameBytesBut_pushed hsp hcore.mem⟩
  · have hrun := (hm.trans (bind_ok (hpush hsp))).trans (call_odd hx k .callInstr _)
    rw [hcost] at hrun
    exact exec_abort hb hpriv hrun

theorem peaBody_eq_push {ea : Ea} (h : controlEa ea s = .ok x u) :
    peaBody ea s = (push32 x >>= fun _ => chargeOp (.pea ea.mode) >>= fun _ => prefetch) u := bind_ok h

theorem jsrBody_eq_call {ea : Ea} (h : controlEa ea s = .ok x u) : jsrBody ea s =
    (push32 u.pc >>= fun _ => jumpTo x >>= fun _ => chargeOp (.jsr ea.mode) >>= fun _ =>
      refill >>= fun _ => notify .callInstr) u := by
  rw [jsrBody, bind_ok h, look_bind_run]

/-- The return address lies behind the displacement, which is in the stream where the byte is 0 (R203, R208). -/
theorem pc_add_branchTarget_snd (s : State) (d8 : Byte) :
    s.pc + (s.branchTarget d8).2 = if d8 = 0 then s.pc + 2 else s.pc := by
  rw [State.branchTarget]
  split
  · rfl
  · exact BitVec.add_zero _

theorem bsrBody_eq_call (s : State) (d8 : Byte) : bsrBody d8 s =
    (push32 (s.pc + (s.branchTarget d8).2) >>= fun _ => jumpTo (s.branchTarget d8).1 >>= fun _ => chargeOp .bsr >>= fun _ =>
      refill >>= fun _ => notify .callInstr) s := by
  rw [bsrBody, look_bind_run]
  dsimp only
  rw [look_bind_run]

end

/-- Settles O41: the parity of the stack pointer decides the push, and that of the target the call after it. -/
theorem calls : Obligations.Calls := by
  refine ⟨fun ea s h => ?pea, fun ea s h => ?jsr, fun d8 s => ?bsr⟩
  case pea =>
    obtain ⟨x, u, hu, hf⟩ := controlEa_ready h
    refine ⟨x, u, hu, hf.core, fun hsp hs => ?_, exec_pushOdd rfl rfl (peaBody_eq_push hu) hf.core⟩
    have hend := (peaBody_eq_push hu).trans (bind_ok (push32_run' (hf.core.sp ▸ hsp) x))
    obtain ⟨hx, hcore⟩ := exec_ends (i := .pea ea) rfl rfl hend (by simpa using hf.even.trans hs)
      ((hf.core.pushed .l x).trans (longPushed_core u x)) rfl
    exact ⟨hx, hcore, sameBytesBut_pushed hsp hcore.mem⟩
  case jsr =>
    obtain ⟨x, u, hu, hf⟩ := controlEa_ready h
    exact ⟨x, u, hu, hf.core, exec_calls rfl rfl (jsrBody_eq_call hu) hf.core⟩
  case bsr =>
    rw [← branchTarget_fst, ← pc_add_branchTarget_snd]
    exact exec_calls rfl rfl (bsrBody_eq_call s d8) (SameCore.refl s)

end Sys2Proof.Machine
end

section
/-! SUPPORT. Arithmetic and logic (R230 to R256): what the flags of a sum and of a difference say about their two values, and the exact
state in which each two-operand, quick, single-operand and multiply rule ends. -/

namespace Sys2Proof.Machine

/-! ### The flags of a sum and of a difference (R230, R231) -/

section
variable {size : Size} {s d : Long}

/-- A sum of two values of a size, cut to the size, wraps once when it carries. -/
theorem toNat_trunc_add (hs : trunc size s = s) (hd : trunc size d = d) :
    (trunc size (d + s)).toNat =
      if 2 ^ size.bits ≤ d.toNat + s.toNat then d.toNat + s.toNat - 2 ^ size.bits else d.toNat + s.toNat := by
  have hbits : size.bits ≤ 32 := by cases size <;> decide
  rw [toNat_trunc, BitVec.toNat_add, Nat.mod_mod_of_dvd _ (Nat.pow_dvd_pow 2 hbits), Nat.add_mod_eq_ite,
    Nat.mod_eq_of_lt (toNat_lt_of_trunc hd), Nat.mod_eq_of_lt (toNat_lt_of_trunc hs)]

/-- `C` is the carry: the top bits of the operands and of the result tell whether the sum wrapped. -/
theorem addFlags_c_iff (hs : trunc size s = s) (hd : trunc size d = d) :
    (addFlags s d (trunc size (d + s)) size).c = true ↔ 2 ^ size.bits ≤ d.toNat + s.toNat := by
  have hslt := toNat_lt_of_trunc hs
  have hdlt := toNat_lt_of_trunc hd
  have hr := toNat_trunc_add hs hd
  simp only [addFlags, msb_or, msb_and, msb_not, msb_eq_decide hs, msb_eq_decide hd, msb_eq_decide (trunc_trunc size _),
    Bool.or_eq_true, Bool.and_eq_true, Bool.not_eq_true', decide_eq_true_eq, decide_eq_false_iff_not]
  rw [two_pow_bits] at *
  generalize 2 ^ (size.bits - 1) = half at *
  split_ifs at hr <;> omega

/-- `V` of a sum: the result's sign differs from that of both operands exactly when the signed sum is out of range. -/
theorem addFlags_v_iff (hs : trunc size s = s) (hd : trunc size d = d) :
    (addFlags s d (trunc size (d + s)) size).v = true ↔
      signed size d + signed size s < -2 ^ (size.bits - 1) ∨ 2 ^ (size.bits - 1) ≤ signed size d + signed size s := by
  have hslt := toNat_lt_of_trunc hs
  have hdlt := toNat_lt_of_trunc hd
  have hr := toNat_trunc_add hs hd
  have hhalf : (2 : Int) ^ (size.bits - 1) = (2 ^ (size.bits - 1) : Nat) := by norm_cast
  simp only [addFlags, msb_and, msb_xor, msb_eq_decide hs, msb_eq_decide hd, msb_eq_decide (trunc_trunc size _),
    signed_eq hs, signed_eq hd, hhalf, Bool.and_eq_true, bne_iff_ne, ne_eq, decide_eq_decide]
  rw [two_pow_bits] at *
  generalize 2 ^ (size.bits - 1) = half at *
  split_ifs at hr ⊢ <;> omega

/-- `V` of a difference: the operands' signs differ and the result's is not the minuend's exactly when the signed difference is out
of range. -/
theorem subFlags_v_iff (hs : trunc size s = s) (hd : trunc size d = d) :
    (subFlags s d (trunc size (d - s)) size).v = true ↔
      signed size d - signed size s < -2 ^ (size.bits - 1) ∨ 2 ^ (size.bits - 1) ≤ signed size d - signed size s := by
  have hslt := toNat_lt_of_trunc hs
  have hdlt := toNat_lt_of_trunc hd
  have hr := toNat_trunc_sub hs hd
  have hhalf : (2 : Int) ^ (size.bits - 1) = (2 ^ (size.bits - 1) : Nat) := by norm_cast
  simp only [subFlags, cmpFlags, msb_and, msb_xor, msb_eq_decide hs, msb_eq_decide hd, msb_eq_decide (trunc_trunc size _),
    signed_eq hs, signed_eq hd, hhalf, Bool.and_eq_true, bne_iff_ne, ne_eq, decide_eq_decide]
  rw [two_pow_bits] at *
  generalize 2 ^ (size.bits - 1) = half at *
  split_ifs at hr ⊢ <;> omega

end

/-- `Z` and `N` of a result that was cut to the size are its zero and its sign. -/
theorem truncated_zero_and_sign (size : Size) (v : Long) : ((trunc size (trunc size v) == 0) = true ↔ trunc size v = 0) ∧
    (msb size (trunc size v) = true ↔ signed size (trunc size v) < 0) := by
  rw [trunc_trunc]
  exact ⟨beq_iff_eq, msb_iff_signed_neg (trunc_trunc size v)⟩

/-- Settles O24: the rule's formulas hold by definition; `C` and `V` are read against the exact sums. -/
theorem addFlagsAreExact : Obligations.AddFlagsAreExact := by
  intro size s d hs hd r f
  obtain ⟨hz, hn⟩ := truncated_zero_and_sign size (d + s)
  exact ⟨addFlags_c_iff hs hd, rfl, hz, hn, addFlags_v_iff hs hd, rfl, rfl⟩

/-- Settles O25: the rule's formulas, and a compare's, hold by definition; `C` and `V` are read against the exact differences. -/
theorem subFlagsAreExact : Obligations.SubFlagsAreExact := by
  intro size old s d hs hd r f
  obtain ⟨hz, hn⟩ := truncated_zero_and_sign size (d - s)
  have hc : f.c = decide (d.toNat < s.toNat) := subBorrow_eq_decide hs hd
  exact ⟨by rw [hc, decide_eq_true_iff], rfl, hz, hn, subFlags_v_iff hs hd, rfl, rfl, rfl⟩

/-! ### A rule that writes one operand and the flags, or stores nothing -/

section
variable {s e t u : State} {i : Instr} {m : M Unit} {k : CostKey} {ea : Ea} {size : Size} {loc : Loc} {v d r : Long} {c : Ccr}

/-- A rule that completes with one operand and the flags written: the outcome, the core and the frame of its store. -/
theorem exec_writesOperand (hb : body i = some m) (hp : i.descriptor.priv = false) (h : m s = .ok () t)
    (hl : LocFits ea size loc) (hc : SameCore (((s.adjusted ea size).stored loc size r).withCcr c) t) :
    exec i s = .next t ∧ SameCore (((s.adjusted ea size).stored loc size r).withCcr c) t ∧
      SameBytesBut (loc.storesTo s size) s t :=
  ⟨exec_ok hb (by simp [hp]) h, hc,
    sameBytesBut_stored hl r (adjusted_cfg s ea size) (adjusted_mem s ea size) (hc.mem.trans (by simp))⟩

/-- The core of such a rule, from that of the read before the location and the flags were written. -/
theorem writtenBack_core (h : SameCore (s.adjusted ea size) u) (loc : Loc) (r : Long) (c : Ccr) :
    SameCore (((s.adjusted ea size).stored loc size r).withCcr c) ((u.locWritten loc size r).withCcr c) :=
  (h.locWritten loc size r).withCcr c

/-- The writes that the rules in place share: the location, then the flags. -/
theorem writeBack_bind_run {rule : FlagRule} {K : Unit → M Unit} (hl : LocFits ea size loc) (ha : ea.isAlterable = true) :
    (writeLoc loc size r >>= fun _ => setFlags rule v d r size >>= K) u =
      K () ((u.locWritten loc size r).withCcr (rule u.sr.ccr v d r size)) := by
  rw [bind_ok (writeLoc_run hl ha r u), setFlags, assign_bind_run, locWritten_sr]

/-- `exec_finishes` for a rule whose program counter no statement names. -/
theorem exec_endsUnstored (hb : body i = some m) (hp : i.descriptor.priv = false)
    (hm : m s = (chargeOp k >>= fun _ => prefetch) u) (he : isEven u.pc = true) (hc : SameCore e u) (hcfg : e.cfg = s.cfg)
    (hmem : e.mem = s.mem) :
    let t := u.finished (s.cfg.opCost k)
    exec i s = .next t ∧ SameCore e t ∧ SameBytes s t := by
  obtain ⟨hx, hcore, -, hbytes⟩ := exec_finishes hb hp hm he hc hcfg hmem
  exact ⟨hx, hcore, hbytes⟩

end

/-! ### The two-operand patterns (R232, R234, R236, R238, R244 to R249, R256) -/

/-- An instruction `<ea>,Dn` runs the pattern at its operation's result and flags. -/
theorem body_toReg {op : AluOp} {size : Size} {ea : Ea} {dn : RegNum} {i : Instr} (h : op.toReg size ea dn = some i) :
    body i = some (eaToReg op.result op.flags op.kind size ea dn) ∧ i.descriptor.priv = false := by
  cases op <;> cases h <;> exact ⟨rfl, rfl⟩

theorem body_toEa (op : AluOp) (size : Size) (dn : RegNum) (ea : Ea) :
    body (op.toEa size dn ea) = some (regToEa op.result op.flags op.kind size dn ea) ∧
      (op.toEa size dn ea).descriptor.priv = false := by
  cases op <;> exact ⟨rfl, rfl⟩

theorem body_immToEa (op : AluOp) (size : Size) (ea : Ea) :
    body (op.immToEa size ea) = some (immToEa op.result op.flags true op.immKind size ea) ∧
      (op.immToEa size ea).descriptor.priv = false := by
  cases op <;> exact ⟨rfl, rfl⟩

/-- Settles O28: the pattern's run, with the register and the old flags read as at the start. -/
theorem operandToRegister : Obligations.OperandToRegister := by
  intro op size ea dn i s hi h hs
  obtain ⟨v, loc, u, hr, hc, -, he⟩ := readOp_ready_even h hs
  obtain ⟨hb, hp⟩ := body_toReg hi
  have hrun := eaToReg_run (f := op.result) (rule := op.flags) (kind := op.kind) (dn := dn) hr he
  rw [core_ccr hc, core_cfg hc, core_dPart hc] at hrun
  exact ⟨v, loc, u, hr, exec_storesNothing hb (by simp [hp]) hrun
    (finished_core ((hc.writeDPart dn size _).withCcr _) _) (by simp)⟩

/-- Settles O29: the pattern's run writes the location that was read. -/
theorem registerToOperand : Obligations.RegisterToOperand := by
  intro op size dn ea s ha h hs
  obtain ⟨d, loc, u, hr, hc, hl, he⟩ := readOp_ready_even h hs
  obtain ⟨hb, hp⟩ := body_toEa op size dn ea
  have hrun := regToEa_run (f := op.result) (rule := op.flags) (kind := op.kind) (dn := dn) hr hl ha he
  rw [core_ccr hc, core_cfg hc] at hrun
  exact ⟨d, loc, u, hr, exec_writesOperand hb hp hrun hl (finished_core (writtenBack_core hc loc _ _) _)⟩

/-- Settles O30: as O29, the operand read in the state that the immediate leaves, which has the start's core. -/
theorem immediateToOperand : Obligations.ImmediateToOperand := by
  intro op size ea s ha hs h
  obtain ⟨d, loc, u, hr, himm, hl, he⟩ := readOp_ready_even h (immTaken_pc s size hs)
  have hc := immTaken_adjusted himm
  obtain ⟨hb, hp⟩ := body_immToEa op size ea
  have hrun := immToEa_run (f := op.result) (rule := op.flags) (kind := op.immKind) hs hr hl (alterable_of_data ha) he
  rw [core_ccr hc, core_cfg hc] at hrun
  exact ⟨d, loc, u, hr, exec_writesOperand hb hp hrun hl (finished_core (writtenBack_core hc loc _ _) _)⟩

/-! ### The compares (R240 to R243) -/

section
variable {s u w : State} {ea : Ea} {size : Size} {loc ld : Loc} {v d : Long}

theorem cmpBody_eq_finish (h : readOp ea size s = .ok (v, loc) u) (dn : RegNum) : cmpBody size ea dn s =
    (chargeOp (.alu .cmp size ea.mode) >>= fun _ => prefetch) (u.withCcr
      (cmpFlags u.sr.ccr v (u.readDPart dn size) (trunc size (u.readDPart dn size - v)) size)) := by
  rw [cmpBody, bind_ok h]
  dsimp only
  rw [look_bind_run, setFlags, assign_bind_run, cmpRule]

theorem cmpaBody_eq_finish (h : readOp ea size s = .ok (v, loc) u) (an : RegNum) : cmpaBody size ea an s =
    (chargeOp (.alu .cmpa size ea.mode) >>= fun _ => prefetch) (u.withCcr
      (cmpFlags u.sr.ccr (extendToLong size v) (u.readA an) (u.readA an - extendToLong size v) .l)) := by
  rw [cmpaBody, bind_ok h]
  dsimp only
  rw [look_bind_run, setFlags, assign_bind_run, cmpRule]

theorem cmpmBody_eq_finish {ay ax : RegNum} (hv : readOp (.postInc ay) size s = .ok (v, loc) u)
    (hd : readOp (.postInc ax) size u = .ok (d, ld) w) : cmpmBody size ay ax s =
      (chargeOp (.cmpm size) >>= fun _ => prefetch) (w.withCcr (cmpFlags w.sr.ccr v d (trunc size (d - v)) size)) := by
  rw [cmpmBody, bind_ok hv]
  dsimp only
  rw [bind_ok hd]
  dsimp only
  rw [setFlags, assign_bind_run, cmpRule]

end

/-- Settles O31: each compare comes down to its end with the flags written; the second operand of `CMPM` is read where the first
increment leaves its register. -/
theorem compares : Obligations.Compares := by
  refine ⟨?cmp, ?cmpa, ?cmpi, ?cmpm⟩
  case cmp =>
    intro size ea dn s h hs
    obtain ⟨v, loc, u, hr, hc, -, he⟩ := readOp_ready_even h hs
    have hend := cmpBody_eq_finish hr dn
    rw [core_ccr hc, core_dPart hc] at hend
    exact ⟨v, loc, u, hr, exec_endsUnstored rfl rfl hend he (hc.withCcr _) (by simp) (by simp)⟩
  case cmpa =>
    intro size ea an s h hs
    obtain ⟨v, loc, u, hr, hc, -, he⟩ := readOp_ready_even h hs
    have hend := cmpaBody_eq_finish hr an
    rw [core_ccr hc, hc.readA] at hend
    exact ⟨v, loc, u, hr, exec_endsUnstored rfl rfl hend he (hc.withCcr _) (by simp) (by simp)⟩
  case cmpi =>
    intro size ea s hs h
    obtain ⟨d, loc, u, hr, himm, -, he⟩ := readOp_ready_even h (immTaken_pc s size hs)
    have hc := immTaken_adjusted himm
    have hrun := immToEa_compare_run (f := subFn) (rule := cmpRule) (kind := .cmpi) hs hr he
    rw [core_ccr hc, core_cfg hc] at hrun
    exact ⟨d, loc, u, hr, exec_storesNothing rfl nofun hrun (finished_core (hc.withCcr _) _) (by simp)⟩
  case cmpm =>
    intro size ay ax s hay hs hax
    obtain ⟨v, lv, u, hrv, hcv, -, hev⟩ := readOp_ready_even (ea := .postInc ay) hay hs
    rw [← hcv.readA] at hax
    obtain ⟨d, ld, w, hrd, hcd, -, hed⟩ := readOp_ready_even (ea := .postInc ax) hax hev
    have hc := (hcv.adjusted (.postInc ax) size).trans hcd
    have hend := cmpmBody_eq_finish hrv hrd
    rw [core_ccr hcd, core_ccr hcv] at hend
    exact ⟨v, lv, u, d, ld, w, hrv, hrd, exec_endsUnstored rfl rfl hend hed (hc.withCcr _) (by simp) (by simp)⟩

/-! ### `ADDA` and `SUBA` (R233, R237) -/

theorem eaToAddr_eq_finish {f : Long → Long → Long} {kind : AluKind} {size : Size} {ea : Ea} {s u : State} {v : Long} {loc : Loc}
    (h : readOp ea size s = .ok (v, loc) u) (an : RegNum) : eaToAddr f kind size ea an s =
      (chargeOp (.alu kind size ea.mode) >>= fun _ => prefetch) (u.writeA an (f (extendToLong size v) (u.readA an))) := by
  rw [eaToAddr, bind_ok h]
  dsimp only
  rw [assign_bind_run]

/-- Settles O32: the register is read in the state that the source's read leaves, where the mode has adjusted it. -/
theorem addressArithmetic : Obligations.AddressArithmetic := by
  intro size ea an s h hs
  obtain ⟨v, loc, u, hr, hc, -, he⟩ := readOp_ready_even h hs
  have hadd := eaToAddr_eq_finish (f := addFn) (kind := .adda) hr an
  have hsub := eaToAddr_eq_finish (f := subFn) (kind := .suba) hr an
  rw [hc.readA] at hadd hsub
  exact ⟨v, loc, u, hr, exec_endsUnstored rfl rfl hadd he (hc.writeA an _) (by simp) (by simp),
    exec_endsUnstored rfl rfl hsub he (hc.writeA an _) (by simp) (by simp)⟩

/-! ### `ADDQ` and `SUBQ` (R235, R239) -/

section
variable {f : Long → Long → Long} {rule : FlagRule} {kind : AluKind} {size : Size} {ea : Ea} {s u : State} {d : Long} {loc : Loc}

theorem quickToEa_an_eq_finish (q : BitVec 3) (r : RegNum) : quickToEa f rule kind q size (.an r) s =
    (chargeOp (.alu kind size .an) >>= fun _ => prefetch) (s.writeA r (f (quickValue q) (s.readA r))) := by
  rw [quickToEa, quickOperand, assign_bind_run]
  rfl

/-- Away from an address register the operand is read, then written back with the flags. -/
theorem quickOperand_run (ha : ea.isDataAlterable = true) (h : readOp ea size s = .ok (d, loc) u) (hl : LocFits ea size loc)
    (q : Long) :
    let r := trunc size (f q d)
    quickOperand f rule q size ea s = .ok () ((u.locWritten loc size r).withCcr (rule u.sr.ccr q d r size)) := by
  intro r
  have key : (readOp ea size >>= fun p => writeLoc p.2 size (trunc size (f q p.1)) >>= fun _ =>
      setFlags rule q p.1 (trunc size (f q p.1)) size) s = .ok ()
        ((u.locWritten loc size r).withCcr (rule u.sr.ccr q d r size)) := by
    rw [bind_ok h, bind_ok (writeLoc_run hl (alterable_of_data ha) _ u), ← locWritten_sr u loc size r]
    rfl
  cases ea with
  | an r => cases ha
  | _ => exact key

/-- A quick instruction with such an operand writes the result and the flags of its rule, and nothing else. -/
theorem exec_quickToEa {i : Instr} {q : BitVec 3} (hb : body i = some (quickToEa f rule kind q size ea))
    (hp : i.descriptor.priv = false) (ha : ea.isDataAlterable = true) (h : readOp ea size s = .ok (d, loc) u)
    (hl : LocFits ea size loc) (he : isEven u.pc = true) (hc : SameCore (s.adjusted ea size) u) :
    let r := trunc size (f (quickValue q) d)
    let c := rule s.sr.ccr (quickValue q) d r size
    let t := ((u.locWritten loc size r).withCcr c).finished (s.cfg.opCost (.alu kind size ea.mode))
    exec i s = .next t ∧ SameCore (((s.adjusted ea size).stored loc size r).withCcr c) t ∧
      SameBytesBut (loc.storesTo s size) s t := by
  intro r c t
  have hrun : quickToEa f rule kind q size ea s = .ok () t := by
    rw [quickToEa, bind_ok (quickOperand_run ha h hl _), finish_run (by simpa using he)]
    simp [r, c, t, core_ccr hc, core_cfg hc]
  exact exec_writesOperand hb hp hrun hl (finished_core (writtenBack_core hc loc r c) _)

end

/-- Settles O33: an address register is only written; any other operand is read and written back. -/
theorem quickArithmetic : Obligations.QuickArithmetic := by
  constructor
  · intro q size r s hs
    exact ⟨exec_endsUnstored (i := .addq q size (.an r)) rfl rfl (quickToEa_an_eq_finish q r) hs (SameCore.refl _) rfl rfl,
      exec_endsUnstored (i := .subq q size (.an r)) rfl rfl (quickToEa_an_eq_finish q r) hs (SameCore.refl _) rfl rfl⟩
  · intro q size ea s ha h hs
    obtain ⟨d, loc, u, hr, hc, hl, he⟩ := readOp_ready_even h hs
    have hadd := exec_quickToEa (i := .addq q size ea) rfl rfl ha hr hl he hc
    have hsub := exec_quickToEa (i := .subq q size ea) rfl rfl ha hr hl he hc
    exact ⟨d, loc, u, hr, hadd, hsub⟩

/-! ### `NEG` and `NOT` (R250, R251) -/

section
variable {size : Size} {ea : Ea} {s u : State} {d : Long} {loc : Loc}

theorem negBody_run (ha : ea.isAlterable = true) (h : readOp ea size s = .ok (d, loc) u) (hl : LocFits ea size loc)
    (he : isEven u.pc = true) :
    let r := trunc size (0 - d)
    negBody size ea s = .ok ()
      (((u.locWritten loc size r).withCcr (subFlags d 0 r size)).finished (u.cfg.opCost (.alu .neg size ea.mode))) := by
  intro r
  rw [negBody, bind_ok h]
  dsimp only
  rw [writeBack_bind_run hl ha, finish_run (by simpa using he), subRule]
  simp [r]

theorem notBody_run (ha : ea.isAlterable = true) (h : readOp ea size s = .ok (d, loc) u) (hl : LocFits ea size loc)
    (he : isEven u.pc = true) :
    let r := trunc size (~~~d)
    notBody size ea s = .ok () ((u.locWritten loc size r).withCcr (moveFlags u.sr.ccr r size)).prefetched := by
  intro r
  rw [notBody, bind_ok h]
  dsimp only
  rw [writeBack_bind_run hl ha]
  exact prefetch_run (by simpa using he)

end

/-- Settles O34: both write back where they read; `NEG` ends in its charge, `NOT` in the prefetch alone. -/
theorem negateAndComplement : Obligations.NegateAndComplement := by
  intro size ea s ha h hs
  obtain ⟨d, loc, u, hr, hc, hl, he⟩ := readOp_ready_even h hs
  have hneg := negBody_run (alterable_of_data ha) hr hl he
  have hnot := notBody_run (alterable_of_data ha) hr hl he
  rw [core_cfg hc] at hneg
  rw [core_ccr hc] at hnot
  exact ⟨d, loc, u, hr, exec_writesOperand rfl rfl hneg hl (finished_core (writtenBack_core hc loc _ _) _),
    exec_writesOperand rfl rfl hnot hl (prefetched_core (writtenBack_core hc loc _ _))⟩

/-! ### `MULU` and `MULS` (R252, R253) -/

theorem multiply_eq_finish {product : Word → Word → Long} {cost : Word → CostKey} {ea : Ea} {s u : State} {v : Long} {loc : Loc}
    (h : readOp ea .w s = .ok (v, loc) u) (dn : RegNum) :
    let p := product (loWord v) (loWord (u.readD dn))
    multiply product cost ea dn s =
      (chargeOp (cost (loWord v)) >>= fun _ => prefetch) ((u.writeD dn p).withCcr (moveFlags u.sr.ccr p .l)) := by
  intro p
  rw [multiply, bind_ok h]
  dsimp only
  rw [look_bind_run, assign_bind_run, setFlags, assign_bind_run]
  rfl

/-- The model multiplies the zero-extended words: the product of their values. -/
theorem unsignedProduct_eq (a b : Word) : unsignedProduct a b = BitVec.ofNat 32 (a.toNat * b.toNat) := by
  rw [unsignedProduct, BitVec.ofNat_mul, BitVec.ofNat_toNat, BitVec.ofNat_toNat]

/-- Settles O36: the shared rule at the two products, of which the signed one is written as the statement has it. -/
theorem multiplies : Obligations.Multiplies := by
  intro ea dn s h hs
  obtain ⟨v, loc, u, hr, hc, -, he⟩ := readOp_ready_even h hs
  have hunsigned := multiply_eq_finish (product := unsignedProduct) (cost := .mulu) hr dn
  have hsigned := multiply_eq_finish (product := signedProduct) (cost := .muls) hr dn
  rw [core_ccr hc, core_d hc] at hunsigned hsigned
  rw [unsignedProduct_eq] at hunsigned
  exact ⟨v, loc, u, hr,
    exec_endsUnstored rfl rfl hunsigned he ((hc.writeD dn _).withCcr _) (by simp) (by simp),
    exec_endsUnstored rfl rfl hsigned he ((hc.writeD dn _).withCcr _) (by simp) (by simp)⟩

end Sys2Proof.Machine
end

section
/-! SUPPORT. The two modes over a step (R331): from user mode a step leaves the system state alone or enters an exception, and
only the five instructions that write `S` take a step from supervisor mode to user mode. -/

namespace Sys2Proof.Machine

/-! ### From user mode -/

/-- What user mode cannot change: the system byte of the status register, the shadow stack pointers, the run state (R331). -/
structure SystemKept (s t : State) : Prop where
  traceFlag : t.sr.t = s.sr.t
  supervisor : t.sr.s = s.sr.s
  mask : t.sr.i = s.sr.i
  usp : t.usp = s.usp
  ssp : t.ssp = s.ssp
  run : t.run = s.run

theorem Steady.systemKept {s t : State} (h : Steady s t) : SystemKept s t :=
  ⟨h.traceFlag, h.supervisor, h.mask, h.usp, h.ssp, h.run⟩

/-- In user mode no privileged rule runs, so an instruction completes with its system state or enters an exception. -/
theorem Ran.ofUser {i : Instr} {s t : State} (h : Ran i s t) (hu : s.sr.s = false) : SystemKept s t ∨ Entered s t := by
  have hnot : s.sr.s ≠ true := by simp [hu]
  cases h with
  | completed kept _ => exact .inl kept.systemKept
  | privileged supervisor => exact absurd supervisor hnot
  | stopped _ supervisor => exact absurd supervisor hnot
  | entered state _ => exact .inr state

theorem Entered.ofBeginInstr {s t : State} (h : Entered s.beginInstr t) : Entered s t := h.of_same rfl rfl rfl rfl rfl rfl

/-- A step from user mode keeps the system state or enters an exception or interrupt. -/
theorem Stepped.ofUser {s t : State} (h : Stepped s t) (hu : s.sr.s = false) : SystemKept s t ∨ Entered s t := by
  cases h with
  | halted _ state => exact .inl (state ▸ (Steady.tick s _).systemKept)
  | stopped _ _ state => exact .inl (state ▸ ((Steady.sampled s).trans (Steady.tick _ _)).systemKept)
  | trace _ _ _ state _ => exact .inr state
  | interrupt _ _ state _ => exact .inr state
  | ran _ how =>
    exact (how.ofUser hu).imp (fun h => ⟨h.traceFlag, h.supervisor, h.mask, h.usp, h.ssp, h.run⟩) Entered.ofBeginInstr
  | extension _ _ state _ => exact .inr state

/-! ### From supervisor mode -/

/-- An instruction that ends in user mode writes `S`: no other rule clears it, and every entry sets it. -/
theorem Ran.leavesSupervisor {i : Instr} {s t : State} (h : Ran i s t) (hs : s.sr.s = true) (ht : t.sr.s = false) :
    i.canLeaveSupervisor = true := by
  have hnot : t.sr.s ≠ true := by simp [ht]
  cases h with
  | completed kept _ => exact absurd (kept.supervisor.trans hs) hnot
  | privileged _ _ _ _ _ stays => exact Bool.of_not_eq_false fun hi => hnot (stays hi)
  | stopped stop => exact stop ▸ rfl
  | entered state _ => exact absurd state.supervisor hnot

/-- A step from supervisor mode that ends in user mode ran one of the instructions that write `S`. -/
theorem Stepped.leavesSupervisor {s t : State} (h : Stepped s t) (hs : s.sr.s = true) (ht : t.sr.s = false) :
    s.run = .running ∧ (decode s.ird).canLeaveSupervisor = true := by
  have hnot : t.sr.s ≠ true := by simp [ht]
  cases h with
  | halted _ state => exact absurd (state ▸ hs) hnot
  | stopped _ _ state => exact absurd (state ▸ hs) hnot
  | trace _ _ _ state _ => exact absurd state.supervisor hnot
  | interrupt _ _ state _ => exact absurd state.supervisor hnot
  | ran run how => exact ⟨run, how.leavesSupervisor hs ht⟩
  | extension _ _ state _ => exact absurd state.supervisor hnot

/-! ### The statements -/

/-- Settles O58: a step from user mode keeps the system state, `S` among it, or is an entry, which sets `S` and notifies. -/
theorem userModeIsConfined : Obligations.UserModeIsConfined := by
  intro s t hq hu h
  obtain hkept | hentered := (stepped hq h).ofUser hu
  · exact ⟨fun _ => ⟨hkept.traceFlag, hkept.mask, hkept.usp, hkept.ssp, hkept.run⟩,
      fun ht => by simp [hkept.supervisor, hu] at ht⟩
  · exact ⟨fun ht => by simp [hentered.supervisor] at ht, fun _ => hentered.event⟩

/-- Settles O59, by the one inversion of a step. -/
theorem supervisorModeIsLeftOnlyBySrWrites : Obligations.SupervisorModeIsLeftOnlyBySrWrites :=
  fun _ _ hq hs h ht => (stepped hq h).leavesSupervisor hs ht

end Sys2Proof.Machine
end

section
/-! SUPPORT. Interrupts and the double fault (R314, R317 to R321): which levels are eligible, what an interrupt entry leaves, and
how an entry ends on an odd supervisor stack. -/

namespace Sys2Proof.Machine

/-! ### Eligibility (R319) -/

theorem irqEligible_iff (s : State) (l : BitVec 3) :
    s.irqEligible l = true ↔ (l.toNat < 7 ∧ s.sr.i.toNat < l.toNat) ∨ (l.toNat = 7 ∧ s.nmiArmed = true) := by
  simp [State.irqEligible, BitVec.lt_def, ← BitVec.toNat_inj]

/-- Level 0 is above no mask (R319). -/
theorem irqEligible_zero (s : State) : s.irqEligible 0 = false := by
  simp [State.irqEligible, BitVec.lt_def]

/-- Settles O7: the formula of R319, and the outcome of the test in the order of R121. -/
theorem interruptEligibility : Obligations.InterruptEligibility := fun s =>
  ⟨irqEligible_iff s, irqEligible_zero s, fun hr hb ht hi => step_interrupt hr hb (.inl ht) hi, step_halted⟩

/-! ### The interrupt entry (R320, R321) -/

/-- The vector of a level as a number: the addition does not wrap (R321). -/
theorem vectorOf_eq (level : BitVec 3) (answer : IackAnswer) :
    vectorOf level answer = match answer with | .auto => BitVec.ofNat 8 (24 + level.toNat) | .vector v => v := by
  cases answer with
  | auto =>
    apply BitVec.eq_of_toNat_eq
    simp [vectorOf]
  | vector v => rfl

theorem interruptFrame_run (s : State) (level : BitVec 3) : (s.interruptFrame level).run = .running := by
  simp [State.interruptFrame]

theorem interruptFrame_mask (s : State) (level : BitVec 3) : (s.interruptFrame level).sr.i = level := by
  simp [State.interruptFrame]

theorem interruptPrologue_sampling (s : State) (level : BitVec 3) :
    (s.interruptPrologue level).iplAnswer = s.iplAnswer ∧
      (s.interruptPrologue level).nmiArmed = (s.nmiArmed && level != 7) := by
  simp [State.interruptPrologue, disarm_nmiArmed]

/-- The refill at the handler samples the level, and arms level 7 again when it is lower (R317, R318). -/
theorem interrupted_sampled (s : State) (level : BitVec 3) : (s.interrupted level).iplPolled = s.iplAnswer ∧
    (s.interrupted level).nmiArmed = ((s.nmiArmed && level != 7) || s.iplAnswer != 7) := by
  obtain ⟨hipl, hnmi⟩ := atHandler_sampled ((s.interruptPrologue level).framePushed s.pc s.getSr) (vectorOf level s.iackAnswer)
  exact ⟨hipl.trans (by simp [State.framePushed, interruptPrologue_sampling]),
    hnmi.trans (by simp [State.framePushed, interruptPrologue_sampling])⟩

/-- Three words pushed, two read for the vector and two at the handler, at 4 cycles each (R64, R341). -/
theorem interrupted_clock (s : State) (level : BitVec 3) :
    (s.interrupted level).clock = s.clock + s.cfg.vecCost .interrupt + 28 := by
  simp [State.interrupted, State.atHandler, State.framePushed, State.interruptPrologue, State.tick]
  omega

/-- What an interrupt entry changes before it pushes its frame (R320). -/
def State.interruptMode (s : State) (level : BitVec 3) : State :=
  (((((s.setS true).setT false).setMask level).disarm level).setRun .running).setExcInService false

theorem interruptFrame_eq_pushed (s : State) (level : BitVec 3) :
    s.interruptFrame level = ((s.interruptMode level).pushed .l s.pc).pushed .w (s.getSr.setWidth 32) := rfl

theorem interruptMode_sp (s : State) (level : BitVec 3) : (s.interruptMode level).sp = s.supervisorSp := by
  simp [State.interruptMode]

/-- Memory outside the frame is left alone (R309, R320). -/
theorem interrupted_bytes {s : State} (hsp : isEven s.supervisorSp = true) (level : BitVec 3) :
    SameBytesBut (fun p => storesTo s (s.supervisorSp - 4) .l p ∨ storesTo s (s.supervisorSp - 6) .w p) s
      (s.interrupted level) := by
  rw [← interruptMode_sp s level] at hsp ⊢
  intro p hp
  rw [(interrupted_core s level).mem, interruptFrame_eq_pushed]
  exact frame_bytes hsp (by simp [State.interruptMode]) (by simp [State.interruptMode]) p hp

/-- Settles O50: the interrupt comes before all but a trace, and with an even stack and handler its entry completes. -/
theorem interruptIsTaken : Obligations.InterruptIsTaken := by
  intro s hr hb ht hi level vector frame hsp hh
  have hv : vectorOf level s.iackAnswer = vector := vectorOf_eq level s.iackAnswer
  rw [← hv] at hh ⊢
  have hcore := interrupted_core s level
  obtain ⟨hipl, hnmi⟩ := interrupted_sampled s level
  exact ⟨_, (step_interrupt hr hb ht hi).trans (takeInterrupt_run hsp hh), hcore, interrupted_pipeline s level,
    interrupted_clock s level, hcore.run.trans (interruptFrame_run s level),
    (congrArg Status.i hcore.sr).trans (interruptFrame_mask s level), hipl, hnmi, rfl, interrupted_bytes hsp level⟩

/-! ### The double fault (R314) -/

theorem doubleFault_eq (s : State) : s.doubleFault =
    { s with run := .halted, aeInService := false, excInService := false,
             port := .notify .haltEntry :: .notify (.exception .doubleFault none) :: s.port } := rfl

/-- The core is halted and memory is as it was. -/
def HaltsUnstored (s t : State) : Prop := t.run = .halted ∧ t.mem = s.mem

theorem addressErrorPrologue_sp (s : State) : s.addressErrorPrologue.sp = s.supervisorSp := by
  simp [State.addressErrorPrologue, State.supervisorSp]

theorem entryPrologue_sp (s : State) (kind : ExcKind) : (s.entryPrologue kind).sp = s.supervisorSp := by
  simp [State.entryPrologue, State.supervisorSp]

theorem entryPrologue_supervisor (s : State) (kind : ExcKind) : (s.entryPrologue kind).sr.s = true := by
  simp [State.entryPrologue]

/-- What a push of a long on an odd stack leaves: the pointer lowered, nothing stored (R75). -/
def State.oddPushed (p : State) : State := p.writeA 7 (p.sp - 4)

theorem oddPushed_mem (p : State) : p.oddPushed.mem = p.mem := rfl

/-- The stack stays odd under a push that stored nothing. -/
theorem oddPushed_supervisorSp {p : State} (hs : p.sr.s = true) (h : isEven p.sp = false) :
    isEven p.oddPushed.supervisorSp = false := by
  simpa [State.oddPushed, State.supervisorSp, hs] using h

theorem addressErrorFetch_odd {p : State} (h : isEven p.sp = false) (addr : Long) (srOld ssw : Word) :
    addressErrorFetch addr srOld ssw p = .error (.addressError (p.sp - 4) .write .data) p.oddPushed := by
  rw [addressErrorFetch, look_bind_run, bind_error (push32_odd h p.pc)]
  rfl

theorem pushFrameAndVector_odd {p : State} (h : isEven p.sp = false) (retpc : Long) (srOld : Word) (vector : BitVec 8) :
    pushFrameAndVector retpc srOld vector p = .error (.addressError (p.sp - 4) .write .data) p.oddPushed := by
  rw [pushFrameAndVector, bind_error (push32_odd h retpc)]
  rfl

/-- On an odd stack the first push of the address-error entry is an address error in service. -/
theorem addressErrorEntry_oddStack (addr : Long) (dir : Dir) (space : Space) {s : State} (h : isEven s.supervisorSp = false) :
    ∃ t, addressErrorEntry addr dir space s = .next t ∧ HaltsUnstored s t := by
  cases hae : s.aeInService with
  | true => exact ⟨_, addressErrorEntry_inService addr dir space s hae, rfl, rfl⟩
  | false =>
    rw [← addressErrorPrologue_sp] at h
    refine ⟨s.addressErrorPrologue.oddPushed.doubleFault, ?_, rfl, ?_⟩
    · rw [addressErrorEntry, if_neg (by simp [hae]), addressErrorSequence_run, bind_error (addressErrorFetch_odd h _ _ _)]
    · simp [State.doubleFault, oddPushed_mem, State.addressErrorPrologue]

/-- On an odd stack the push of the return pc is an address error, whose entry meets the same stack. -/
theorem takeException_oddStack (kind : ExcKind) (vector : BitVec 8) (retpc : Long) {s : State}
    (h : isEven s.supervisorSp = false) : ∃ t, takeException kind vector retpc s = .next t ∧ HaltsUnstored s t := by
  rw [← entryPrologue_sp s kind] at h
  have hfault : takeException kind vector retpc s =
      addressErrorEntry ((s.entryPrologue kind).sp - 4) .write .data (s.entryPrologue kind).oddPushed :=
    runOp_abort (by rw [exceptionSequence_run, bind_error (pushFrameAndVector_odd h _ _ _)])
  obtain ⟨t, ht, hrun, hmem⟩ := addressErrorEntry_oddStack ((s.entryPrologue kind).sp - 4) .write .data
    (oddPushed_supervisorSp (entryPrologue_supervisor s kind) h)
  exact ⟨t, hfault.trans ht, hrun, hmem.trans (by simp [oddPushed_mem, State.entryPrologue])⟩

/-- Settles O53: an error in service is the double fault itself; on an odd stack the entry's own push leads to it. -/
theorem doubleFaultHalts : Obligations.DoubleFaultHalts :=
  ⟨fun addr dir space s hae => ⟨_, addressErrorEntry_inService addr dir space s hae, doubleFault_eq s⟩,
    fun addr dir space _ h => addressErrorEntry_oddStack addr dir space h,
    fun kind vector retpc _ h => takeException_oddStack kind vector retpc h⟩

end Sys2Proof.Machine
end

section
/-! SUPPORT. The frames as they stand in memory (R302, R309, R312, R313): the words that pushes leave on the stack, read back
through the mask of the address space, and what each entry leaves beside them. -/

namespace Sys2Proof.Machine

/-! ### Addresses on the stack -/

/-- The mask of an address moved up by an amount (R63). -/
theorem phys_add_ofNat (s : State) (x : Long) (i : Nat) :
    s.phys (x + BitVec.ofNat 32 i) = (x.toNat + i) % 2 ^ s.cfg.addrBits := by
  have hbits : s.cfg.addrBits ≤ 32 := s.cfg.addrBitsPred.isLt
  rw [State.phys, BitVec.toNat_add, BitVec.toNat_ofNat, Nat.add_mod_mod, Nat.mod_mod_of_dvd _ (Nat.pow_dvd_pow 2 hbits)]

/-- Two amounts inside the address space lead to two addresses. -/
theorem phys_add_ne {s : State} {i j : Nat} (hi : i < 2 ^ s.cfg.addrBits) (hj : j < 2 ^ s.cfg.addrBits) (h : i ≠ j) (x : Long) :
    s.phys (x + BitVec.ofNat 32 i) ≠ s.phys (x + BitVec.ofNat 32 j) := by
  rw [phys_add_ofNat, phys_add_ofNat]
  exact fun heq => h ((Nat.ModEq.add_left_cancel' x.toNat heq).eq_of_lt_of_lt hi hj)

theorem isEven_add_double (x : Long) (i : Nat) : isEven (x + BitVec.ofNat 32 (2 * i)) = isEven x :=
  isEven_add_even x _ (by rw [BitVec.toNat_ofNat]; omega)

/-! ### What pushes leave on the stack -/

/-- The words of a list stand in a memory from an address upward. -/
def WordsAt (s : State) (m : Memory) (x : Long) (ws : List Word) : Prop :=
  ∀ (i : Nat) (h : i < ws.length), m.readWord (s.phys (x + BitVec.ofNat 32 (2 * i))) = ws[i]

/-- The word below a list of words, whatever it is. -/
theorem WordsAt.cons {s : State} {m : Memory} {x : Long} {ws : List Word} (h : WordsAt s m (x + 2) ws) :
    WordsAt s m x (m.readWord (s.phys x) :: ws) := by
  intro i hi
  cases i with
  | zero => simp
  | succ i =>
    have haddr : x + BitVec.ofNat 32 (2 * (i + 1)) = x + 2 + BitVec.ofNat 32 (2 * i) := by
      rw [BitVec.add_assoc, Nat.mul_succ, Nat.add_comm, BitVec.ofNat_add]
      rfl
    rw [haddr]
    exact h i (Nat.lt_of_succ_lt_succ hi)

/-- A word written at one place of the list, when the list fits in the address space: no other place is the same address. -/
theorem WordsAt.set {s : State} {m : Memory} {x : Long} {ws : List Word} (h : WordsAt s m x ws) (hm : m.wf = true)
    (hx : isEven x = true) (hb : 2 * ws.length ≤ 2 ^ s.cfg.addrBits) {j : Nat} (hj : j < ws.length) (w : Word) :
    WordsAt s (m.writeWord (s.phys (x + BitVec.ofNat 32 (2 * j))) w) x (ws.set j w) := by
  intro i hi
  rw [List.length_set] at hi
  by_cases hij : j = i
  · subst hij
    rw [readWord_writeWord_same hm, List.getElem_set_self]
  · have hne := phys_add_ne (s := s) (i := 2 * i) (j := 2 * j) (by omega) (by omega) (by omega) x
    rw [readWord_writeWord_of_even_ne (phys_even (by rwa [isEven_add_double])) (phys_even (by rwa [isEven_add_double])) hne,
      List.getElem_set_ne hij]
    exact h i hi

/-- The words stand on an even stack of a canonical memory, from the stack pointer upward. -/
structure StackHolds (s : State) (ws : List Word) : Prop where
  even : isEven s.sp = true
  wf : s.mem.wf = true
  words : WordsAt s s.mem s.sp ws

namespace StackHolds

variable {s t : State} {ws : List Word}

theorem nil (even : isEven s.sp = true) (wf : s.mem.wf = true) : StackHolds s [] :=
  ⟨even, wf, fun _ h => absurd h (Nat.not_lt_zero _)⟩

theorem of_core (h : StackHolds s ws) (hc : SameCore s t) : StackHolds t ws := by
  refine ⟨by rw [hc.sp]; exact h.even, by rw [hc.mem]; exact h.wf, fun i hi => ?_⟩
  rw [hc.sp, hc.mem, hc.phys]
  exact h.words i hi

/-- A push of a word (R75). -/
theorem pushedWord (h : StackHolds s ws) (hb : 2 * (ws.length + 1) ≤ 2 ^ s.cfg.addrBits) (w : Word) :
    StackHolds (s.pushed .w (w.setWidth 32)) (w :: ws) := by
  have hsp : (s.pushed .w (w.setWidth 32)).sp = s.sp - 2 := pushed_sp s .w _
  have hx : isEven (s.sp - 2) = true := by rw [isEven_sub_two]; exact h.even
  have hmem : (s.pushed .w (w.setWidth 32)).mem = s.mem.writeWord (s.phys (s.sp - 2)) w :=
    congrArg (s.mem.writeWord (s.phys (s.sp - 2))) (loWord_setWidth w)
  have hbase : WordsAt s s.mem (s.sp - 2 + 2) ws := by rw [BitVec.sub_add_cancel]; exact h.words
  have hwords := hbase.cons.set h.wf hx hb (Nat.succ_pos _) w
  refine ⟨by rwa [hsp], by rw [hmem]; exact wf_writeWord h.wf _ _, ?_⟩
  rw [hsp, hmem]
  simpa [WordsAt, State.phys] using hwords

/-- A push of a long: its high word stands lower (R72, R75). -/
theorem pushedLong (h : StackHolds s ws) (hb : 2 * (ws.length + 2) ≤ 2 ^ s.cfg.addrBits) (v : Long) :
    StackHolds (s.pushed .l v) (hiWord v :: loWord v :: ws) := by
  have hsp : (s.pushed .l v).sp = s.sp - 4 := pushed_sp s .l v
  have hx : isEven (s.sp - 4) = true := by rw [isEven_sub_four]; exact h.even
  have hmem : (s.pushed .l v).mem =
      (s.mem.writeWord (s.phys (s.sp - 4)) (hiWord v)).writeWord (s.phys (s.sp - 4 + 2)) (loWord v) := rfl
  have hbase : WordsAt s s.mem (s.sp - 4 + 2 + 2) ws := by
    rw [BitVec.add_assoc]
    show WordsAt s s.mem (s.sp - 4 + 4) ws
    rw [BitVec.sub_add_cancel]
    exact h.words
  have hhigh := hbase.cons.cons.set h.wf hx hb (j := 0) (Nat.succ_pos _) (hiWord v)
  have hlow := hhigh.set (wf_writeWord h.wf _ _) hx hb (j := 1) (by simp) (loWord v)
  refine ⟨by rwa [hsp], by rw [hmem]; exact wf_writeWord (wf_writeWord h.wf _ _) _ _, ?_⟩
  rw [hsp, hmem]
  simpa [WordsAt, State.phys] using hlow

end StackHolds

/-! ### The frame of a normal entry (R302, R307 to R310) -/

theorem vectorAddress_eq_ofNat (v : BitVec 8) : vectorAddress v = BitVec.ofNat 32 (4 * v.toNat) := by
  apply BitVec.eq_of_toNat_eq
  rw [vectorAddress, BitVec.toNat_shiftLeft, BitVec.toNat_setWidth, BitVec.toNat_ofNat, Nat.shiftLeft_eq]
  omega

theorem vectorAddress_toNat (v : BitVec 8) : (vectorAddress v).toNat = 4 * v.toNat := by
  rw [vectorAddress_eq_ofNat, BitVec.toNat_ofNat, Nat.mod_eq_of_lt (by omega)]

/-- Every entry sets `S` and clears `T` first (R307, R312). -/
theorem setS_true_setT_false_sr (s : State) : ((s.setS true).setT false).sr = { s.sr with s := true, t := false } := by
  cases h : s.sr.s <;> simp [State.setS, State.setT, State.writeS, h]

/-- What a normal entry changes before it pushes its frame (R307). -/
def State.entryMode (s : State) (kind : ExcKind) : State :=
  (((s.setS true).setT false).dropTrace kind).setExcInService false

theorem exceptionFrame_eq_pushed (s : State) (kind : ExcKind) (retpc : Long) :
    s.exceptionFrame kind retpc = ((s.entryMode kind).pushed .l retpc).pushed .w (s.getSr.setWidth 32) := rfl

theorem exceptionFrame_sp (s : State) (kind : ExcKind) (retpc : Long) :
    (s.exceptionFrame kind retpc).sp = s.supervisorSp - 6 := by
  simp [exceptionFrame_eq_pushed, State.entryMode, Size.bytes, BitVec.sub_sub]

theorem exceptionFrame_sr (s : State) (kind : ExcKind) (retpc : Long) :
    (s.exceptionFrame kind retpc).sr = { s.sr with s := true, t := false } := by
  rw [← setS_true_setT_false_sr]
  simp [exceptionFrame_eq_pushed, State.entryMode]

/-- The queued trace is dropped for the kinds of R308 and kept for the others. -/
theorem exceptionFrame_tracePending (s : State) (kind : ExcKind) (retpc : Long) :
    (s.exceptionFrame kind retpc).tracePending = (!dropsTrace kind && s.tracePending) := by
  simp only [exceptionFrame_eq_pushed, State.entryMode, State.dropTrace, pushed_fields]
  cases dropsTrace kind <;> simp

/-- The 6-byte frame: the status word, then the return pc, high word first (R309). -/
theorem exceptionFrame_holds {s : State} (hm : MemInv s) (hb : 3 ≤ s.cfg.addrBits) (hsp : isEven s.supervisorSp = true)
    (kind : ExcKind) (retpc : Long) :
    StackHolds (s.exceptionFrame kind retpc) [s.getSr, hiWord retpc, loWord retpc] := by
  have hfits : 8 ≤ 2 ^ s.cfg.addrBits := Nat.pow_le_pow_right (n := 2) (by decide) hb
  have hmode : StackHolds (s.entryMode kind) [] := .nil (by simpa [State.entryMode] using hsp) (by simpa [State.entryMode] using hm.1)
  have hcfg : (s.entryMode kind).cfg = s.cfg := by simp [State.entryMode]
  exact (hmode.pushedLong (by rw [hcfg, List.length_nil]; omega) retpc).pushedWord
    (by simp [hcfg]; omega) s.getSr

/-- With no answer of its own listed, the host answers the vector fetch from memory (R310). -/
theorem handler_of_no_answers {f : State} (h : f.hostReads = []) (v : BitVec 8) :
    f.handler v = longOf (f.mem.readWord (f.phys (BitVec.ofNat 32 (4 * v.toNat))))
      (f.mem.readWord (f.phys (BitVec.ofNat 32 (4 * v.toNat + 2)))) := by
  rw [State.handler, answer32_of_no_answers h, vectorAddress_eq_ofNat, BitVec.ofNat_add]
  rfl

/-- Settles O51: the frame is three pushes on the supervisor stack, read back from memory. -/
theorem normalFrameLayout : Obligations.NormalFrameLayout := by
  refine ⟨vectorAddress_toNat, fun kind vector retpc s hm hb h => ?_⟩
  obtain ⟨t, ht, he⟩ := takeException_enters h
  have hsp : t.sp = s.supervisorSp - 6 := he.core.sp.trans (exceptionFrame_sp s kind retpc)
  have hphys (x : Long) : t.phys x = s.phys x := by
    rw [he.core.phys]; simp [State.phys, State.exceptionFrame]
  have hw := ((exceptionFrame_holds hm hb h.1 kind retpc).of_core he.core).words
  simp only [WordsAt, hphys] at hw
  have htrace := he.core.tracePending.trans (exceptionFrame_tracePending s kind retpc)
  refine ⟨t, ht, he, hsp, by simpa using hw 0 (by simp), hw 1 (by simp), hw 2 (by simp),
    he.core.sr.trans (exceptionFrame_sr s kind retpc), fun hr => ?_, ?_, ?_, he.ipl, he.nmi⟩
  · have hreads : (s.exceptionFrame kind retpc).hostReads = [] := by simpa [State.exceptionFrame] using hr
    have hpc : t.pc = (s.exceptionFrame kind retpc).handler vector := he.pipeline.pc
    simp only [hpc, handler_of_no_answers hreads, ← he.core.mem, ← he.core.phys, hphys]
    rfl
  · rintro (rfl | rfl | rfl) <;> exact htrace
  · rintro (rfl | rfl) <;> exact htrace

/-! ### The frame of an address error (R312, R313) -/

/-- What an address-error entry changes before it pushes its frame (R312). -/
def State.addressErrorMode (s : State) : State :=
  ((((s.setS true).setT false).setTracePending false).setAeInService false).setExcInService false

section
variable (s : State) (addr : Long) (dir : Dir) (space : Space)

theorem addressErrorFrame_eq_pushed : s.addressErrorFrame addr dir space =
    (((((s.addressErrorMode.pushed .l s.pc).pushed .w (s.getSr.setWidth 32)).pushed .w (s.ird.setWidth 32)).pushed .l
      (BitVec.ofNat 32 (s.phys addr))).pushed .w ((s.specialStatus dir space).setWidth 32)) := rfl

theorem addressErrorFrame_sp : (s.addressErrorFrame addr dir space).sp = s.supervisorSp - 14 := by
  simp [addressErrorFrame_eq_pushed, State.addressErrorMode, Size.bytes, BitVec.sub_sub]

theorem addressErrorFrame_sr : (s.addressErrorFrame addr dir space).sr = { s.sr with s := true, t := false } := by
  rw [← setS_true_setT_false_sr]
  simp [addressErrorFrame_eq_pushed, State.addressErrorMode]

theorem addressErrorFrame_tracePending : (s.addressErrorFrame addr dir space).tracePending = false := by
  simp [addressErrorFrame_eq_pushed, State.addressErrorMode]

/-- The 14-byte frame: the special status word, the masked address, `ird`, the status word, `pc` (R313). -/
theorem addressErrorFrame_holds (hm : MemInv s) (hb : 4 ≤ s.cfg.addrBits) (hsp : isEven s.supervisorSp = true) :
    StackHolds (s.addressErrorFrame addr dir space)
      [s.specialStatus dir space, hiWord (BitVec.ofNat 32 (s.phys addr)), loWord (BitVec.ofNat 32 (s.phys addr)), s.ird,
        s.getSr, hiWord s.pc, loWord s.pc] := by
  have hfits : 16 ≤ 2 ^ s.cfg.addrBits := Nat.pow_le_pow_right (n := 2) (by decide) hb
  have hcfg : s.addressErrorMode.cfg = s.cfg := by simp [State.addressErrorMode]
  have hmode : StackHolds s.addressErrorMode [] :=
    .nil (by simpa [State.addressErrorMode] using hsp) (by simpa [State.addressErrorMode] using hm.1)
  have hpc := hmode.pushedLong (by simp [hcfg]; omega) s.pc
  have hsr := hpc.pushedWord (by simp [hcfg]; omega) s.getSr
  have hird := hsr.pushedWord (by simp [hcfg]; omega) s.ird
  have haddr := hird.pushedLong (by simp [hcfg]; omega) (BitVec.ofNat 32 (s.phys addr))
  exact haddr.pushedWord (by simp [hcfg]; omega) (s.specialStatus dir space)

/-- The code of a space tag, the low bits of a function code (R62). -/
def spaceCode : Space → BitVec 2
  | .prog => 2
  | .data => 1

theorem functionCode_eq : s.functionCode space = BitVec.ofBool s.sr.s ++ spaceCode space := by
  cases space <;> rfl

theorem specialStatus_eq : s.specialStatus dir space = s.ird.extractLsb' 5 11 ++ BitVec.ofBool (dir == .read) ++
    BitVec.ofBool s.excInService ++ BitVec.ofBool s.sr.s ++ spaceCode space := by
  rw [State.specialStatus, functionCode_eq, BitVec.append_assoc']
  rfl

theorem addressErrorServiced_clock :
    (s.addressErrorServiced addr dir space).clock = s.clock + s.cfg.vecCost .addressError + 44 := by
  simp [State.addressErrorServiced, State.atHandler, State.longFramePushed, State.addressErrorPrologue, State.tick]
  omega

theorem addressErrorServiced_sampled : (s.addressErrorServiced addr dir space).iplPolled = s.iplAnswer ∧
    (s.addressErrorServiced addr dir space).nmiArmed = (s.nmiArmed || s.iplAnswer != 7) := by
  obtain ⟨hipl, hnmi⟩ :=
    atHandler_sampled (s.addressErrorPrologue.longFramePushed addr s.getSr (s.specialStatus dir space)) 3
  exact ⟨hipl.trans (by simp [State.longFramePushed, State.addressErrorPrologue]),
    hnmi.trans (by simp [State.longFramePushed, State.addressErrorPrologue])⟩

end

/-- Settles O52: the frame is five pushes on the supervisor stack, read back from memory. -/
theorem addressErrorFrameLayout : Obligations.AddressErrorFrameLayout := by
  intro addr dir space s hm hb hae hsp hh
  have hcore := addressErrorServiced_core s addr dir space
  have hphys (x : Long) : (s.addressErrorServiced addr dir space).phys x = s.phys x := by
    rw [hcore.phys]; simp [State.phys, State.addressErrorFrame]
  have hw := ((addressErrorFrame_holds s addr dir space hm hb hsp).of_core hcore).words
  simp only [WordsAt, hphys] at hw
  obtain ⟨hipl, hnmi⟩ := addressErrorServiced_sampled s addr dir space
  refine ⟨_, addressErrorEntry_run hae hsp hh, hcore, addressErrorServiced_pipeline s addr dir space,
    addressErrorServiced_clock s addr dir space, rfl, hcore.sp.trans (addressErrorFrame_sp s addr dir space),
    hcore.sr.trans (addressErrorFrame_sr s addr dir space),
    hcore.tracePending.trans (addressErrorFrame_tracePending s addr dir space), hipl, hnmi, ?ssw, ?address, hw 3 (by simp),
    hw 4 (by simp), ?pc⟩
  case ssw =>
    have hssw : (s.addressErrorServiced addr dir space).mem.readWord (s.phys (s.addressErrorServiced addr dir space).sp) =
        s.specialStatus dir space := by simpa using hw 0 (by simp)
    rw [specialStatus_eq] at hssw
    cases space <;> exact hssw
  case address =>
    exact (congrArg₂ longOf (hw 1 (by simp)) (hw 2 (by simp))).trans (longOf_hiWord_loWord _)
  case pc =>
    exact (congrArg₂ longOf (hw 5 (by simp)) (hw 6 (by simp))).trans (longOf_hiWord_loWord _)

end Sys2Proof.Machine
end

section
/-! SUPPORT. The reset sequence (R45, R76, R350 to R352): the two longs read at the start of memory, and the state from which the
pipeline is filled. -/

namespace Sys2Proof.Machine

/-! ### Reads of the reset sequence (R76) -/

/-- The state after a word read of the reset sequence (R76). -/
def State.resetWordRead (s : State) (x : Long) : State :=
  ((s.tick cBusSetup).answered (.resetRead16 (s.phys x) (s.answer16 (s.phys x)))).tick cBusDone

/-- The state after a long read of the reset sequence (R76). -/
def State.resetLongRead (s : State) (x : Long) : State := (s.resetWordRead x).resetWordRead (x + 2)

/-- What the host answers to a long read of the reset sequence, high half first (R76). -/
def State.resetAnswer32 (s : State) (x : Long) : Long :=
  longOf (s.answer16 (s.phys x)) ((s.resetWordRead x).answer16 (s.phys (x + 2)))

theorem resetRead16_run {x : Long} (h : isEven x = true) (s : State) :
    resetRead16 x s = .ok (s.answer16 (s.phys x)) (s.resetWordRead x) := by
  unfold resetRead16
  rw [checkEven_bind_run h]
  rfl

theorem resetRead32_run {x : Long} (h : isEven x = true) (s : State) :
    resetRead32 x s = .ok (s.resetAnswer32 x) (s.resetLongRead x) := by
  unfold resetRead32
  rw [bind_ok (resetRead16_run h s), bind_ok (resetRead16_run (isEven_add_two x ▸ h) _)]
  rfl

theorem SameCore.resetWordRead (s : State) (x : Long) : SameCore s (s.resetWordRead x) :=
  ((tick s _).trans (answered _ _)).trans (tick _ _)

theorem SameCore.resetLongRead (s : State) (x : Long) : SameCore s (s.resetLongRead x) :=
  (resetWordRead s x).trans (resetWordRead _ _)

@[simp] theorem resetWordRead_fields (s : State) (x : Long) : (s.resetWordRead x).clock = s.clock + 4 ∧
    (s.resetWordRead x).hostReads = s.hostReads.tail ∧ (s.resetWordRead x).nmiArmed = s.nmiArmed ∧
    (s.resetWordRead x).iplAnswer = s.iplAnswer := by
  simp [State.resetWordRead, clock_of_transaction]

@[simp] theorem resetLongRead_fields (s : State) (x : Long) : (s.resetLongRead x).clock = s.clock + 8 ∧
    (s.resetLongRead x).hostReads = s.hostReads.tail.tail ∧ (s.resetLongRead x).nmiArmed = s.nmiArmed ∧
    (s.resetLongRead x).iplAnswer = s.iplAnswer := by
  simp [State.resetLongRead, clock_of_two_transactions]

theorem resetAnswer32_of_no_answers {s : State} (h : s.hostReads = []) (x : Long) :
    s.resetAnswer32 x = longOf (s.mem.readWord (s.phys x)) (s.mem.readWord (s.phys (x + 2))) := by
  have hread : (s.resetWordRead x).hostReads = [] := by simp [h]
  rw [State.resetAnswer32, answer16_of_no_answers h, answer16_of_no_answers hread, (SameCore.resetWordRead s x).mem]

/-! ### The run of the sequence (R351, R352) -/

/-- What the cleared state keeps of the old one (R351, R352). -/
@[simp] theorem cleared_fields (s : State) : s.cleared.cfg = s.cfg ∧ s.cleared.mem = s.mem ∧ s.cleared.clock = s.clock ∧
    s.cleared.hostReads = s.hostReads ∧ s.cleared.iplAnswer = s.iplAnswer ∧ (∀ x, s.cleared.phys x = s.phys x) :=
  ⟨rfl, rfl, rfl, rfl, rfl, fun _ => rfl⟩

/-- The registers of the cleared state (R45, R351). -/
theorem cleared_registers (s : State) : (∀ r, s.cleared.readD r = s.cfg.resetGpr) ∧
    (∀ r : RegNum, r ≠ 7 → s.cleared.readA r = s.cfg.resetGpr) := by
  refine ⟨fun r => Vector.getElem_replicate r.isLt, fun r hr => ?_⟩
  have hne : 7 ≠ r.val := fun h => hr (Fin.ext h.symm)
  exact (Vector.getElem_set_ne (by decide) r.isLt hne).trans (Vector.getElem_replicate r.isLt)

/-- The state in which the reset sequence reads memory: the registers cleared, its own cost charged (R351). -/
def State.resetBegun (s : State) : State := s.cleared.tick s.cfg.cReset

/-- The state after both stack pointers were read (R351). -/
def State.resetStackRead (s : State) : State :=
  ((s.resetBegun.resetLongRead 0).writeA 7 (s.resetBegun.resetAnswer32 0)).setSsp (s.resetBegun.resetAnswer32 0)

/-- The state from which the reset sequence fills the pipeline (R351). -/
def State.resetPcRead (s : State) : State :=
  (s.resetStackRead.resetLongRead 4).setPc (s.resetStackRead.resetAnswer32 4)

theorem hardReset_run {s : State} (h : isEven s.resetPcRead.pc = true) :
    hardReset s = .next (s.resetPcRead.refilled.record (.notify .hardReset)) := by
  refine runOp_ok ?_
  unfold hardResetSequence
  rw [assign_bind_run, look_bind_run, charge_bind_run, bind_ok (resetRead32_run (by decide) _), assign_bind_run,
    assign_bind_run, sp_writeA7, bind_ok (resetRead32_run (by decide) _), jumpTo_bind_run]
  exact bind_ok (refill_run h)

/-! ### What the sequence leaves -/

/-- The cleared state with both supervisor stack pointers at a value: the core of a reset state (R45, R351). -/
def State.resetCore (s : State) (sp : Long) : State := (s.cleared.writeA 7 sp).setSsp sp

theorem resetCore_readA_other (s : State) (sp : Long) {r : RegNum} (h : r ≠ 7) : (s.resetCore sp).readA r = s.cfg.resetGpr :=
  (readA_writeA_other s.cleared sp h).trans ((cleared_registers s).2 r h)

/-- The status word after reset (R45, R351). -/
theorem resetCore_getSr (s : State) (sp : Long) : (s.resetCore sp).getSr = 0x2700 := by
  have hword : resetStatus.word = 0x2700 := by decide
  exact hword

theorem resetPcRead_core (s : State) : SameCore (s.resetCore (s.resetBegun.resetAnswer32 0)) s.resetPcRead :=
  ((((SameCore.tick s.cleared s.cfg.cReset).trans (SameCore.resetLongRead _ 0)).writeA 7 _).setSsp _).trans
    ((SameCore.resetLongRead _ 4).trans (SameCore.setPc _ _))

theorem resetPcRead_clock (s : State) : s.resetPcRead.clock = s.clock + s.cfg.cReset + 16 := by
  simp [State.resetPcRead, State.resetStackRead, State.resetBegun]
  omega

/-- Level 7 is armed before the refill samples the level (R318, R351). -/
theorem resetPcRead_sampling (s : State) : s.resetPcRead.nmiArmed = true ∧ s.resetPcRead.iplAnswer = s.iplAnswer := by
  have harmed : s.cleared.nmiArmed = true := rfl
  simp [State.resetPcRead, State.resetStackRead, State.resetBegun, harmed]

/-! ### With the host answering from memory -/

section
variable {s : State} (h : s.hostReads = [])
include h

theorem resetPcRead_hostReads : s.resetPcRead.hostReads = [] := by
  simp [State.resetPcRead, State.resetStackRead, State.resetBegun, h]

/-- The stack pointer is the long at 0 (R351). -/
theorem resetBegun_stackVector : s.resetBegun.resetAnswer32 0 =
    longOf (s.mem.readWord (s.phys 0)) (s.mem.readWord (s.phys 2)) := by
  rw [resetAnswer32_of_no_answers (by simp [State.resetBegun, h])]
  simp [State.resetBegun]

/-- The pc is the long at 4 (R351). -/
theorem resetPcRead_pc : s.resetPcRead.pc = longOf (s.mem.readWord (s.phys 4)) (s.mem.readWord (s.phys 6)) := by
  have hreads : s.resetStackRead.hostReads = [] := by simp [State.resetStackRead, State.resetBegun, h]
  exact resetAnswer32_of_no_answers hreads 4

theorem refilled_of_no_answers : s.refilled.ird = s.mem.readWord (s.phys s.pc) ∧
    s.refilled.irc = s.mem.readWord (s.phys (s.pc + 2)) := by
  obtain ⟨-, -, hird, hirc⟩ := refilled_pipeline s
  have hread : (s.wordRead s.pc).hostReads = [] := by simp [State.wordRead, h]
  rw [hird, hirc, answer16_of_no_answers h, answer16_of_no_answers hread, (SameCore.wordRead s s.pc false).mem]
  exact ⟨rfl, rfl⟩

end

/-- Settles O12: the core from `resetCore`, the pipeline and the sample from the refill at the long read from 4. -/
theorem hardResetLeavesResetValues : Obligations.HardResetLeavesResetValues := by
  intro s h word pc sp heven
  have hpc : s.resetPcRead.pc = pc := resetPcRead_pc h
  have hsp : s.resetBegun.resetAnswer32 0 = sp := resetBegun_stackVector h
  have hstart : SameCore (s.resetCore sp) s.resetPcRead := hsp ▸ resetPcRead_core s
  have hcore : SameCore (s.resetCore sp) (s.resetPcRead.refilled.record (.notify .hardReset)) :=
    (refilled_core hstart).trans (SameCore.record _ _)
  have hphys (x : Long) : s.resetPcRead.phys x = s.phys x := hstart.phys x
  have hmem : s.resetPcRead.mem = s.mem := hstart.mem
  obtain ⟨hird, hirc⟩ := refilled_of_no_answers (resetPcRead_hostReads h)
  obtain ⟨hipl, hnmi⟩ := refilled_sampling s.resetPcRead
  obtain ⟨harmed, hanswer⟩ := resetPcRead_sampling s
  rw [hpc, hphys, hmem] at hird hirc
  refine ⟨_, hardReset_run (hpc ▸ heven), fun r => ?d, fun r hr => ?a, hcore.usp, ?sp, hcore.ssp, ?pc, ?pc0, hird, hirc,
    ?sr, hcore.run, hcore.tracePending, ?ipl, ?nmi, hcore.aeInService, hcore.excInService, hcore.pipelineBroken, hcore.cfg,
    hcore.mem, ?clock⟩
  case d => exact (hcore.readD r).trans ((cleared_registers s).1 r)
  case a => exact (hcore.readA r).trans (resetCore_readA_other s sp hr)
  case sp => exact hcore.sp.trans (sp_writeA7 s.cleared sp)
  case sr => exact hcore.getSr.trans (resetCore_getSr s sp)
  case pc => simp only [record_fields, refilled_pc, hpc]
  case pc0 => simp only [record_fields, (refilled_pipeline s.resetPcRead).pc0, hpc]
  case ipl => simp only [record_fields, hipl, hanswer]
  case nmi => simp only [record_fields, hnmi, harmed, Bool.true_or]
  case clock =>
    simp only [record_fields, refilled_clock, resetPcRead_clock]
    omega

/-- Settles O13: the run of the reset sequence over the empty memory, in which the pc read is 0. -/
theorem resetStateIsPowerOn : Obligations.ResetStateIsPowerOn := by
  refine ⟨?_, rfl, rfl, rfl⟩
  exact hardReset_run (by decide)

end Sys2Proof.Machine
end
